-- ==== Sys2Proof/Word.lean ====
section
/-! DEFINITION. The word types of the block (00_scope.md R10, R14): bytes, u16 fields, u32 values. -/

namespace Sys2Proof

/-- A byte of a frame, a buffer or a byte-sized register (u8). -/
abbrev Byte := BitVec 8

/-- A u16: header fields, checksums, lengths (00_scope.md R10). -/
abbrev Half := BitVec 16

/-- A u32: scalar operands and results (10_state.md R41, R46). -/
abbrev Word := BitVec 32

end Sys2Proof
end

