-- ==== Sys2Proof/Config.lean ====
section
/-! DEFINITION. The parameters of the block (00_scope.md R9) and the values the spec leaves open.

An OPEN parameter is an opaque constant here: nothing in Lean can prove a value of it (log entries
2, 3, 5, 6). The parameters of one instance are plain data, `Params`, which the machine's state
carries and no step writes (10_state.md R32; log entry 1). -/

namespace Sys2Proof

/-! ## Open values -/

/-- `CRC_STEP` of the device's own table, which the source does not give (40_checksum.md R142, OPEN; log entry 2). -/
opaque Config.crcStep : Half → Byte → Half

/-- `PCT_TO_F32` of the device, which the source does not give (43_command_dispatch.md R259, OPEN; log entry 3).
The argument is the u32 register read as signed. -/
opaque Config.pctToF32 : Word → Word

/-- A `CHUNK_FINAL` other than the default one (43_command_dispatch.md R257; log entry 4). -/
opaque Config.chunkFinal : List Byte → Bool

/-- `NPORTS` less one: at least 1 and at most 16 ports (00_scope.md R9, 20_memory.md R72, OPEN; log entry 6). -/
opaque Config.morePorts : Fin 16

/-- The free value of the bytes of a register that a narrow host write leaves open
(20_memory.md R73, R76; log entry 9). The argument is a counter, so each use is a fresh value. -/
opaque Config.freeWord : Nat → Word

/-! ## Plain data -/

/-- `ENDIAN`, the byte order of wire fields and payload scalars (20_memory.md R82). -/
inductive Endian where
  | le
  | be
  deriving DecidableEq, Repr

/-- The instantiation of `CRC_STEP` (40_checksum.md R142, R143). -/
inductive CrcAlg where
  /-- the device's own update, left open -/
  | unknown
  /-- the MSB-first table form, with a table of 256 entries -/
  | msbFirst (table : List Half)
  /-- the reflected table form, with a table of 256 entries -/
  | reflected (table : List Half)
  /-- `REF_CRC`, for test vectors only -/
  | reference
  deriving DecidableEq, Repr

/-- The instantiation of `PCT_TO_F32` (43_command_dispatch.md R259). -/
inductive PctAlg where
  /-- the device's own conversion, left open -/
  | unknown
  /-- the reference conversion: nearest binary32, ties to even -/
  | reference
  deriving DecidableEq, Repr

/-- The instantiation of `CHUNK_FINAL` (43_command_dispatch.md R257). -/
inductive FinalMark where
  /-- bit 15 of the u16 at payload offset 0 -/
  | standard
  /-- any other predicate, left open -/
  | unknown
  deriving DecidableEq, Repr

/-- The codec kinds of 30_encoding.md R117. -/
inductive Codec where
  | none
  | rdF32
  | rdU32
  | rdU8
  | rdVer
  | rdId
  | rdChunk
  | wrPct
  deriving DecidableEq, Repr

/-- A registry entry `(id, reqSize, repSize, kind)` (43_command_dispatch.md R241). The kind is a u8,
so that an ill-formed entry (R242.2) can be written down and refused. -/
structure Entry where
  id : Byte
  reqSize : Half
  repSize : Half
  kind : Byte
  deriving DecidableEq, Repr

/-- Entries of the registry beyond the two required ones (43_command_dispatch.md R244, OPEN; log entry 5). -/
opaque Config.moreEntries : List Entry

/-- The parameters of one instance of the block (00_scope.md R9). -/
structure Params where
  crc : CrcAlg
  endian : Endian
  hwThresh : Byte
  retryReset : Byte
  nports : Nat
  stageMax : Nat
  registry : List Entry
  chunkSize : Half
  chunkFinal : FinalMark
  accMax : Nat
  pct : PctAlg
  deriving DecidableEq, Repr

/-- `SEED`: the fixed initial checksum of every frame (00_scope.md R9, 40_checksum.md R144). -/
def frameSeed : Half := 0xFFFF#16

end Sys2Proof
end

