-- ==== Sys2Proof/Machine/Bytes.lean ====
section
/-! DEFINITION. Byte order and the header layouts (00_scope.md R15; 30_encoding.md R106, R108, R110;
41_frame_codec.md R161, R163, R165, R167). Pure functions (41_frame_codec.md R160). -/

namespace Sys2Proof.Machine

/-- Byte `k` of a value, byte 0 the least significant (00_scope.md R12). -/
def byteAt {w : Nat} (v : BitVec w) (k : Nat) : Byte := v.extractLsb' (8 * k) 8

/-- `pack16` (00_scope.md R15). -/
def pack16 (en : Endian) (v : Half) : List Byte :=
  match en with
  | .le => [byteAt v 0, byteAt v 1]
  | .be => [byteAt v 1, byteAt v 0]

/-- `unpack16`, the inverse of `pack16` (00_scope.md R15). -/
def unpack16 (en : Endian) (b0 b1 : Byte) : Half :=
  match en with
  | .le => b1 ++ b0
  | .be => b0 ++ b1

/-- `pack32` (00_scope.md R15). -/
def pack32 (en : Endian) (v : Word) : List Byte :=
  match en with
  | .le => [byteAt v 0, byteAt v 1, byteAt v 2, byteAt v 3]
  | .be => [byteAt v 3, byteAt v 2, byteAt v 1, byteAt v 0]

/-- `unpack32`, the inverse of `pack32` (00_scope.md R15). -/
def unpack32 (en : Endian) (b0 b1 b2 b3 : Byte) : Word :=
  match en with
  | .le => b3 ++ b2 ++ b1 ++ b0
  | .be => b0 ++ b1 ++ b2 ++ b3

/-- `unpack32` of the first four bytes of a list that has them. -/
def unpack32List (en : Endian) (bs : List Byte) : Word :=
  match bs with
  | b0 :: b1 :: b2 :: b3 :: _ => unpack32 en b0 b1 b2 b3
  | _ => 0#32

/-- The fields of a request header (30_encoding.md R106). -/
structure ReqHeader where
  cmd : Half
  len : Half
  rsv : Half
  cks : Half
  deriving DecidableEq, Repr

/-- The fields of a reply header (30_encoding.md R108). -/
structure RepHeader where
  cmd : Byte
  status : Byte
  len : Half
  cks : Half
  deriving DecidableEq, Repr

/-- `encReq` (41_frame_codec.md R161). -/
def encReq (en : Endian) (h : ReqHeader) : List Byte :=
  pack16 en h.cmd ++ pack16 en h.len ++ pack16 en h.rsv ++ pack16 en h.cks

/-- `decReq` (41_frame_codec.md R163); `none` is `MalformedHeader`, and bytes past 8 are ignored. -/
def decReq (en : Endian) (h : List Byte) : Option ReqHeader :=
  match h with
  | h0 :: h1 :: h2 :: h3 :: h4 :: h5 :: h6 :: h7 :: _ =>
    some ⟨unpack16 en h0 h1, unpack16 en h2 h3, unpack16 en h4 h5, unpack16 en h6 h7⟩
  | _ => none

/-- `encRep` (41_frame_codec.md R165). -/
def encRep (en : Endian) (h : RepHeader) : List Byte :=
  [h.cmd, h.status] ++ pack16 en h.len ++ pack16 en h.cks

/-- `decRep` (41_frame_codec.md R167); `none` is `MalformedHeader`, and bytes past 6 are ignored. -/
def decRep (en : Endian) (h : List Byte) : Option RepHeader :=
  match h with
  | h0 :: h1 :: h2 :: h3 :: h4 :: h5 :: _ =>
    some ⟨h0, h1, unpack16 en h2 h3, unpack16 en h4 h5⟩
  | _ => none

end Sys2Proof.Machine
end

