-- ==== Sys2Proof/Machine/Registry.lean ====
section
/-! DEFINITION. The command registry (43_command_dispatch.md R240 to R244), the chunk predicate
(R257) and the percentage conversion (R259): pure functions of the parameters. -/

namespace Sys2Proof.Machine

/-- The kind code of a codec (30_encoding.md R117). -/
def codecCode : Codec → Byte
  | .none => 0#8
  | .rdF32 => 1#8
  | .rdU32 => 2#8
  | .rdU8 => 3#8
  | .rdVer => 4#8
  | .rdId => 5#8
  | .rdChunk => 6#8
  | .wrPct => 7#8

/-- The codec a kind code selects; codes 8 to 255 select none (30_encoding.md R117). -/
def codecOf (k : Byte) : Option Codec :=
  match k.toNat with
  | 0 => some .none
  | 1 => some .rdF32
  | 2 => some .rdU32
  | 3 => some .rdU8
  | 4 => some .rdVer
  | 5 => some .rdId
  | 6 => some .rdChunk
  | 7 => some .wrPct
  | _ => Option.none

/-- The request payload size of a kind (43_command_dispatch.md R242.3). -/
def codecReqSize : Codec → Half
  | .wrPct => 4#16
  | _ => 0#16

/-- The reply payload size of a kind, the bound of its receive path (43_command_dispatch.md R242.3, R248). -/
def codecRepSize (chunkSize : Half) : Codec → Half
  | .none => 0#16
  | .rdF32 => 4#16
  | .rdU32 => 4#16
  | .rdU8 => 1#16
  | .rdVer => 8#16
  | .rdId => 68#16
  | .rdChunk => chunkSize
  | .wrPct => 0#16

/-- An entry whose kind is legal and whose sizes are its kind's (43_command_dispatch.md R242.2, R242.3). -/
def entryOk (chunkSize : Half) (e : Entry) : Bool :=
  match codecOf e.kind with
  | some c => e.reqSize == codecReqSize c && e.repSize == codecRepSize chunkSize c
  | Option.none => false

/-- `lookup` (43_command_dispatch.md R241). -/
def lookup (registry : List Entry) (c : Half) : Option Entry :=
  if 0x100 ≤ c.toNat then Option.none
  else registry.find? (fun e => e.id == c.setWidth 8)

/-- The required entry of the version query, 0x42 (43_command_dispatch.md R243). -/
def versionEntry : Entry := ⟨0x42#8, 0#16, 8#16, 4#8⟩

/-- The required entry of the shutdown command, 0x62 (43_command_dispatch.md R243). -/
def shutdownEntry : Entry := ⟨0x62#8, 0#16, 0#16, 0#8⟩

/-- The entries of a list that are well formed and whose identifiers are new. -/
def freshEntries (chunkSize : Half) : List Byte → List Entry → List Entry
  | _, [] => []
  | ids, e :: es =>
    if entryOk chunkSize e && !ids.contains e.id then e :: freshEntries chunkSize (e.id :: ids) es
    else freshEntries chunkSize ids es

/-- The registry that holds the two required entries and every well-formed further entry
(43_command_dispatch.md R242, R243): every well-formed registry is of this form, up to order. -/
def completeRegistry (chunkSize : Half) (more : List Entry) : List Entry :=
  versionEntry :: shutdownEntry :: freshEntries chunkSize [0x42#8, 0x62#8] more

/-- `CHUNK_FINAL` (43_command_dispatch.md R257). -/
def chunkFinal (cfg : Params) (p : List Byte) : Bool :=
  match cfg.chunkFinal with
  | .unknown => Config.chunkFinal p
  | .standard =>
    match p with
    | p0 :: p1 :: _ => (unpack16 cfg.endian p0 p1).getLsbD 15
    | _ => false

/-- The nearest integer to `num / den`, ties to even. -/
def roundHalfEven (num den : Nat) : Nat :=
  let q := num / den
  let r := num % den
  if den < 2 * r then q + 1 else if 2 * r < den then q else q + q % 2

/-- The reference `PCT_TO_F32` (43_command_dispatch.md R259): the binary32 pattern nearest to `v / 100`.
With `a = |v|` the value lies in `[2^(e-7), 2^(e-6))`, so its significand is `a * 2^30 / (100 * 2^e)`
rounded to 24 bits; a carry out of the rounding falls into the exponent field. -/
def pctReference (v : Word) : Word :=
  let a := v.toInt.natAbs
  if a = 0 then 0#32
  else
    let e := Nat.log2 (a * 128 / 100)
    let sig := roundHalfEven (a * 2 ^ 30) (100 * 2 ^ e)
    let sign := if v.msb then 2 ^ 31 else 0
    BitVec.ofNat 32 (sign + (e + 120) * 2 ^ 23 + (sig - 2 ^ 23))

/-- `PCT_TO_F32`, by its instantiation (43_command_dispatch.md R259). -/
def pctToF32 (alg : PctAlg) (v : Word) : Word :=
  match alg with
  | .unknown => Config.pctToF32 v
  | .reference => pctReference v

/-- The parameters of the block after power-on: the spec's defaults, and an open value for every OPEN
parameter (00_scope.md R9; log entries 2 to 7). -/
def initialParams : Params where
  crc := .unknown
  endian := .le
  hwThresh := 0x20#8
  retryReset := 0#8
  nports := Config.morePorts.val + 1
  stageMax := 65535
  registry := completeRegistry 512#16 Config.moreEntries
  chunkSize := 512#16
  chunkFinal := .standard
  accMax := 262144
  pct := .unknown

end Sys2Proof.Machine
end

