-- ==== Sys2Proof/Syntax.lean ====
section
/-! DEFINITION. The instructions: one constructor per row of spec/opcode_table.json.

The rows lie in five spaces (30_encoding.md): the OPC byte, the codec kind the dispatch mux selects,
the wire command, the request frame and the reply frame. An unassigned OPC code is no instruction
(R103): the decoder rejects it by name, and the step does what R103 says. -/

namespace Sys2Proof

/-- The instructions of the block. -/
inductive Instr where
  /-- `CRC`, OPC 0x01 (40_checksum.md R145) -/
  | crc
  /-- `ENCREQ`, OPC 0x02 (41_frame_codec.md R162) -/
  | encreq
  /-- `DECREQ`, OPC 0x03 (41_frame_codec.md R164) -/
  | decreq
  /-- `ENCREP`, OPC 0x04 (41_frame_codec.md R166) -/
  | encrep
  /-- `DECREP`, OPC 0x05 (41_frame_codec.md R168) -/
  | decrep
  /-- `LOCK`, OPC 0x10 (42_protocol_engine.md R180) -/
  | lock
  /-- `UNLOCK`, OPC 0x11 (42_protocol_engine.md R181) -/
  | unlock
  /-- `SETRETRY`, OPC 0x12 (42_protocol_engine.md R186) -/
  | setretry
  /-- `SEND`, OPC 0x20 (42_protocol_engine.md R187) -/
  | send
  /-- `RECEIVE`, OPC 0x21 (42_protocol_engine.md R191) -/
  | receive
  /-- `EXCHANGE`, OPC 0x22 (42_protocol_engine.md R200) -/
  | exchange
  /-- `TRANSACT`, OPC 0x23 (42_protocol_engine.md R206) -/
  | transact
  /-- `CALL`, OPC 0x30 (43_command_dispatch.md R245) -/
  | call
  /-- `CALL.NONE`, codec kind 0, for the entry with this `id` (43_command_dispatch.md R250) -/
  | callNone (id : Byte)
  /-- `CALL.RD_F32`, codec kind 1 (43_command_dispatch.md R251) -/
  | callF32 (id : Byte)
  /-- `CALL.RD_U32`, codec kind 2 (43_command_dispatch.md R252) -/
  | callU32 (id : Byte)
  /-- `CALL.RD_U8`, codec kind 3 (43_command_dispatch.md R253) -/
  | callU8 (id : Byte)
  /-- `CALL.RD_VER`, codec kind 4 (43_command_dispatch.md R254) -/
  | callVer (id : Byte)
  /-- `CALL.RD_ID`, codec kind 5 (43_command_dispatch.md R255) -/
  | callId (id : Byte)
  /-- `CALL.RD_CHUNK`, codec kind 6 (43_command_dispatch.md R256) -/
  | callChunk (id : Byte)
  /-- `CALL.WR_PCT`, codec kind 7 (43_command_dispatch.md R258) -/
  | callPct (id : Byte)
  /-- `CMD.VERSION_QUERY`, wire command 0x0042 (43_command_dispatch.md R243) -/
  | cmdVersionQuery
  /-- `CMD.SHUTDOWN`, wire command 0x0062 (43_command_dispatch.md R243) -/
  | cmdShutdown
  /-- `FRAME.REQUEST` (30_encoding.md R106); its reserved field is always 0 -/
  | frameRequest (cmd len cks : Half) (payload : List Byte)
  /-- `FRAME.REPLY` (30_encoding.md R108) -/
  | frameReply (cmd status : Byte) (len cks : Half) (payload : List Byte)
  deriving DecidableEq, Repr

end Sys2Proof
end

