-- ==== Sys2Proof/WellFormed.lean ====
section
/-! DEFINITION. Well-formedness: of an instruction's operands (30_encoding.md R104, R106, R108), and of
the parameters, which are checked before any state exists (00_scope.md R9; 20_memory.md R71, R72;
43_command_dispatch.md R242, R243). -/

namespace Sys2Proof

/-- A frame's `length` field is its payload byte count (30_encoding.md R104, R107). Every other
instruction's operands are bounded by their types. -/
def Instr.wf : Instr → Bool
  | .frameRequest _ len _ payload => len.toNat == payload.length
  | .frameReply _ _ len _ payload => len.toNat == payload.length
  | _ => true

/-- No two entries share an `id` (43_command_dispatch.md R242.1). -/
def uniqueIds : List Entry → Bool
  | [] => true
  | e :: es => es.all (fun e' => e'.id != e.id) && uniqueIds es

/-- R242 and R243 of 43_command_dispatch.md. -/
def registryWf (chunkSize : Half) (registry : List Entry) : Bool :=
  uniqueIds registry && registry.all (Machine.entryOk chunkSize)
    && registry.contains Machine.versionEntry && registry.contains Machine.shutdownEntry

/-- The bounds on the parameters: at least one and at most 16 ports (00_scope.md R9, 20_memory.md R72),
`ACC` inside the port's block (20_memory.md R71), tables of 256 entries (40_checksum.md R142), and a
well-formed registry. -/
def Params.wf (c : Params) : Bool :=
  decide (1 ≤ c.nports) && decide (c.nports ≤ 16) && decide (c.accMax ≤ 0xC0000)
    && (match c.crc with
        | .msbFirst t => t.length == 256
        | .reflected t => t.length == 256
        | _ => true)
    && registryWf c.chunkSize c.registry

end Sys2Proof
end

