-- ==== Sys2Proof/Decode.lean ====
section
/-! DEFINITION. Decoding and encoding (30_encoding.md).

Each of the five spaces has its own words: an OPC byte (R100 to R103), the kind and identifier the
dispatch mux sees (R117; 43_command_dispatch.md R247), a wire command (R113; 43_command_dispatch.md
R243), a request frame (R106) and a reply frame (R108). Every decoder is total and rejects by name. -/

namespace Sys2Proof

/-- The five spaces of the opcode table. -/
inductive Space where
  /-- the byte written to `OPC` -/
  | opc
  /-- the kind and the identifier of a registry entry, as the mux selects them -/
  | mux
  /-- the `cmdID` of a request frame -/
  | command
  /-- a request frame on the wire -/
  | request
  /-- a reply frame on the wire -/
  | reply
  deriving DecidableEq, Repr

/-- Why bytes are no instruction. -/
inductive DecodeError where
  /-- fewer bytes than the instruction has -/
  | truncated
  /-- an unassigned OPC code (30_encoding.md R103) -/
  | unassignedCode (c : Byte)
  /-- a codec kind of 8 or more (30_encoding.md R117) -/
  | illegalKind (k : Byte)
  /-- a command identifier the spec does not name (30_encoding.md R113) -/
  | unnamedCommand (c : Half)
  /-- a request frame whose reserved field is not zero (30_encoding.md R105, R107) -/
  | reservedNonzero (r : Half)
  deriving DecidableEq, Repr

/-- The operation an OPC code selects (30_encoding.md R101). -/
def decodeOpc (c : Byte) : Except DecodeError Instr :=
  match c.toNat with
  | 0x01 => .ok .crc
  | 0x02 => .ok .encreq
  | 0x03 => .ok .decreq
  | 0x04 => .ok .encrep
  | 0x05 => .ok .decrep
  | 0x10 => .ok .lock
  | 0x11 => .ok .unlock
  | 0x12 => .ok .setretry
  | 0x20 => .ok .send
  | 0x21 => .ok .receive
  | 0x22 => .ok .exchange
  | 0x23 => .ok .transact
  | 0x30 => .ok .call
  | _ => .error (.unassignedCode c)

/-- The arm a codec selects, for the entry with this identifier (43_command_dispatch.md R247). -/
def armOf (codec : Codec) (id : Byte) : Instr :=
  match codec with
  | .none => .callNone id
  | .rdF32 => .callF32 id
  | .rdU32 => .callU32 id
  | .rdU8 => .callU8 id
  | .rdVer => .callVer id
  | .rdId => .callId id
  | .rdChunk => .callChunk id
  | .wrPct => .callPct id

/-- The arm a kind code selects (43_command_dispatch.md R247). -/
def decodeKind (kind id : Byte) : Except DecodeError Instr :=
  match Machine.codecOf kind with
  | some c => .ok (armOf c id)
  | none => .error (.illegalKind kind)

/-- The named command of a `cmdID` (43_command_dispatch.md R243). -/
def decodeCommand (c : Half) : Except DecodeError Instr :=
  match c.toNat with
  | 0x0042 => .ok .cmdVersionQuery
  | 0x0062 => .ok .cmdShutdown
  | _ => .error (.unnamedCommand c)

/-- A request frame and the bytes after it (30_encoding.md R104, R106). -/
def decodeRequest (en : Endian) (bs : List Byte) : Except DecodeError (Instr × List Byte) :=
  match Machine.decReq en bs with
  | none => .error .truncated
  | some h =>
    if h.rsv = 0#16 then
      if (bs.drop 8).length < h.len.toNat then .error .truncated
      else .ok (.frameRequest h.cmd h.len h.cks ((bs.drop 8).take h.len.toNat),
                (bs.drop 8).drop h.len.toNat)
    else .error (.reservedNonzero h.rsv)

/-- A reply frame and the bytes after it (30_encoding.md R104, R108). -/
def decodeReply (en : Endian) (bs : List Byte) : Except DecodeError (Instr × List Byte) :=
  match Machine.decRep en bs with
  | none => .error .truncated
  | some h =>
    if (bs.drop 6).length < h.len.toNat then .error .truncated
    else .ok (.frameReply h.cmd h.status h.len h.cks ((bs.drop 6).take h.len.toNat),
              (bs.drop 6).drop h.len.toNat)

/-- The instruction at the front of a list of bytes of one space, and the bytes after it. -/
def decode (en : Endian) (sp : Space) (bs : List Byte) : Except DecodeError (Instr × List Byte) :=
  match sp with
  | .opc =>
    match bs with
    | c :: rest => (decodeOpc c).map (fun i => (i, rest))
    | [] => .error .truncated
  | .mux =>
    match bs with
    | kind :: id :: rest => (decodeKind kind id).map (fun i => (i, rest))
    | _ => .error .truncated
  | .command =>
    match bs with
    | b0 :: b1 :: rest => (decodeCommand (Machine.unpack16 en b0 b1)).map (fun i => (i, rest))
    | _ => .error .truncated
  | .request => decodeRequest en bs
  | .reply => decodeReply en bs

/-! ## The encoder -/

/-- The space and the bytes of an instruction (30_encoding.md R101, R106, R108, R113, R117). -/
def encode (en : Endian) (i : Instr) : Space × List Byte :=
  match i with
  | .crc => (.opc, [0x01#8])
  | .encreq => (.opc, [0x02#8])
  | .decreq => (.opc, [0x03#8])
  | .encrep => (.opc, [0x04#8])
  | .decrep => (.opc, [0x05#8])
  | .lock => (.opc, [0x10#8])
  | .unlock => (.opc, [0x11#8])
  | .setretry => (.opc, [0x12#8])
  | .send => (.opc, [0x20#8])
  | .receive => (.opc, [0x21#8])
  | .exchange => (.opc, [0x22#8])
  | .transact => (.opc, [0x23#8])
  | .call => (.opc, [0x30#8])
  | .callNone id => (.mux, [0#8, id])
  | .callF32 id => (.mux, [1#8, id])
  | .callU32 id => (.mux, [2#8, id])
  | .callU8 id => (.mux, [3#8, id])
  | .callVer id => (.mux, [4#8, id])
  | .callId id => (.mux, [5#8, id])
  | .callChunk id => (.mux, [6#8, id])
  | .callPct id => (.mux, [7#8, id])
  | .cmdVersionQuery => (.command, Machine.pack16 en 0x0042#16)
  | .cmdShutdown => (.command, Machine.pack16 en 0x0062#16)
  | .frameRequest cmd len cks payload => (.request, Machine.encReq en ⟨cmd, len, 0#16, cks⟩ ++ payload)
  | .frameReply cmd status len cks payload => (.reply, Machine.encRep en ⟨cmd, status, len, cks⟩ ++ payload)

/-! ## The table's numbering -/

/-- The `n` bytes of a table word, the first byte bits 7..0. -/
def wordBytes (n w : Nat) : List Byte :=
  match n with
  | 0 => []
  | n + 1 => BitVec.ofNat 8 w :: wordBytes n (w / 256)

/-- The instruction of a decoded prefix, where there is one. -/
def firstOf (r : Except DecodeError (Instr × List Byte)) : Option Instr :=
  match r with
  | .ok (i, _) => some i
  | .error _ => none

/-- The zero bytes that stand for a frame's payload, which a table word gives no bits: as many as the
header's `length` field says. -/
def zeroPayload (header : List Byte) : List Byte :=
  match header with
  | _ :: _ :: b0 :: b1 :: _ => List.replicate (Machine.unpack16 .le b0 b1).toNat 0#8
  | _ => []

/-- The instruction of a word of spec/opcode_table.json. The table gives words of 8 bits to two
spaces, OPC bytes and codec kinds, and the two clash on 0x01 to 0x05: a word of 8 bits is read as an
OPC byte first, and as a codec kind (with identifier 0) only where no operation has that code. A word
of 16 bits is a `cmdID`, one of 64 bits a request header, one of 48 bits a reply header (log entry 17). -/
def decodeTableWord (nbits w : Nat) : Option Instr :=
  match nbits with
  | 8 =>
    match firstOf (decode .le .opc (wordBytes 1 w)) with
    | some i => some i
    | none => firstOf (decode .le .mux (wordBytes 1 w ++ [0#8]))
  | 16 => firstOf (decode .le .command (wordBytes 2 w))
  | 64 => firstOf (decode .le .request (wordBytes 8 w ++ zeroPayload (wordBytes 8 w)))
  | 48 => firstOf (decode .le .reply (wordBytes 6 w ++ zeroPayload (wordBytes 6 w)))
  | _ => none

end Sys2Proof
end

