-- ==== Sys2Proof/Machine/Checksum.lean ====
section
/-! DEFINITION. The checksum engine (40_checksum.md R140 to R147) and the frame builders that use it
(41_frame_codec.md R170, R171). Pure functions: no state, no error conditions (R149). -/

namespace Sys2Proof.Machine

/-- `g` of 40_checksum.md R143, the shift by one bit of polynomial 0x1021. -/
def refShift (c : Half) : Half :=
  if c.getMsbD 0 then (c <<< 1) ^^^ 0x1021#16 else c <<< 1

/-- The table entry `T[i]` of `REF_CRC` (40_checksum.md R143). -/
def refTable (i : Byte) : Half :=
  let c := i.setWidth 16 <<< 8
  refShift (refShift (refShift (refShift (refShift (refShift (refShift (refShift c)))))))

/-- The MSB-first form of `CRC_STEP` (40_checksum.md R142). -/
def crcMsbFirst (table : Byte → Half) (s : Half) (b : Byte) : Half :=
  (s <<< 8) ^^^ table (byteAt s 1 ^^^ b)

/-- The reflected form of `CRC_STEP` (40_checksum.md R142). -/
def crcReflected (table : Byte → Half) (s : Half) (b : Byte) : Half :=
  (s >>> 8) ^^^ table (byteAt s 0 ^^^ b)

/-- `CRC_STEP`, by its instantiation (40_checksum.md R142). -/
def crcStep (alg : CrcAlg) (s : Half) (b : Byte) : Half :=
  match alg with
  | .unknown => Config.crcStep s b
  | .msbFirst t => crcMsbFirst (fun i => t.getD i.toNat 0#16) s b
  | .reflected t => crcReflected (fun i => t.getD i.toNat 0#16) s b
  | .reference => crcMsbFirst refTable s b

/-- `checksum`, the left fold of the update from the seed (40_checksum.md R141), with no final
transform (R147). -/
def checksum (alg : CrcAlg) : List Byte → Half → Half
  | [], s => s
  | b :: bs, s => checksum alg bs (crcStep alg s b)

/-- Byte-injectivity of an update (40_checksum.md R148), the premise of every detection claim. -/
def ByteInjective (f : Half → Byte → Half) : Prop :=
  (∀ s b b', f s b = f s b' → b = b') ∧ (∀ b s s', f s b = f s' b → s = s')

/-- `reqCks`, the checksum of a request frame (40_checksum.md R144). -/
def reqCks (cfg : Params) (cmd len : Half) (pay : List Byte) : Half :=
  checksum cfg.crc
    (pack16 cfg.endian cmd ++ pack16 cfg.endian len ++ pack16 cfg.endian 0#16 ++ [0#8, 0#8] ++ pay)
    frameSeed

/-- `repCks`, the checksum of a reply frame whose six header bytes are `h` as received
(40_checksum.md R144). -/
def repCks (cfg : Params) (h pay : List Byte) : Half :=
  checksum cfg.crc (h.take 4 ++ [0#8, 0#8] ++ pay) frameSeed

/-- `buildReq`, the header of the request frame for a payload (41_frame_codec.md R170):
length = payload size, reserved = 0, the checksum last. -/
def buildReq (cfg : Params) (cmd : Half) (pay : List Byte) : List Byte :=
  let len := BitVec.ofNat 16 pay.length
  encReq cfg.endian ⟨cmd, len, 0#16, reqCks cfg cmd len pay⟩

/-- `replyCksOk` (41_frame_codec.md R171): the recomputed checksum against the transmitted field. -/
def replyCksOk (cfg : Params) (h pay : List Byte) (cks : Half) : Bool :=
  repCks cfg h pay == cks

end Sys2Proof.Machine
end

