-- ==== Sys2Proof/Machine/State.lean ====
section
/-! DEFINITION. The state of the block (10_state.md), the reasons a step stops, and the state after reset.

`none` in a register is the spec's own "holds no value" (10_state.md R62, R65), and reading it is the model
fault the spec names for that, `MF_UNWRITTEN` (R62; 20_memory.md R76; 60_exceptions.md R301). For the shared
buffers, whose read without a value no rule reaches, it is log entry 8. -/

namespace Sys2Proof.Machine

/-- A byte store: (offset, byte) pairs, offsets strictly rising. An unlisted offset holds no value
(10_state.md R62). The operations stand in Machine/Ops.lean. -/
abbrev Memory := List Host.Cell

/-- The result kinds of 30_encoding.md R115. -/
inductive Kind where
  | ok
  | transportWriteError
  | transportReadError
  | malformedHeader
  | checksumMismatch
  | commandMismatch
  | bufferTooSmall
  | deviceReportedError
  | protocolStatusError
  | noSuchCommand
  | illegalOperation
  | notOwner
  | accOverflow
  | payloadShort
  deriving DecidableEq, Repr

/-- The states of the exchange state machine (10_state.md R56; 42_protocol_engine.md R209). -/
inductive Fsm where
  | idle
  | sending
  | awaitingReply
  | resending
  | success
  | localError
  | deviceError
  deriving DecidableEq, Repr

/-- An item of the host-bound stream: a byte, or a timeout mark (20_memory.md R79; 95_test_vectors.md 1.4). -/
inductive RxItem where
  | byte (b : Byte)
  | timeout
  deriving DecidableEq, Repr

/-- An event of `G.LOG`, `HwFault(port, expected command, status)` (60_exceptions.md R309). -/
structure HwFault where
  port : Fin 16
  cmd : Half
  status : Byte
  deriving DecidableEq, Repr

/-- A host access `MemRead(addr, size)` (no data) or `MemWrite(addr, size, data)` (00_scope.md R17). The
port is bits 23:20 of the address (20_memory.md R71). -/
structure Access where
  addr : BitVec 24
  size : Nat
  data : Option Word
  deriving DecidableEq, Repr

/-- What happens next, from outside the block or by the scheduler's choice (log entry 12). -/
inductive Event where
  /-- a host access -/
  | access (a : Access)
  /-- port `p`'s operation takes its turn: it runs to its end, holds, or, where the engine is in the
  middle of it, makes one engine step -/
  | turn (p : Fin 16)
  /-- port `p`'s operation takes its first step only; further turns run it step by step (log entry 13) -/
  | begin (p : Fin 16)
  /-- the channel: the device sends `rx`, and the coming writes will carry at most `tx` bytes each -/
  | link (rx : List RxItem) (tx : List Nat)
  /-- reset (70_reset_and_hazards.md R330, R331) -/
  | reset
  deriving DecidableEq, Repr

/-- The registers of one host port (10_state.md sections 2 and 3). -/
structure Port where
  opc : Byte
  busy : Bool
  cmd : Option Half
  len : Option Half
  max : Option Half
  seed : Option Half
  hCmd : Option Half
  hSt : Option Byte
  hLen : Option Half
  hRsv : Option Half
  hCks : Option Half
  hbn : Option Byte
  arg : Option Word
  hbuf : Memory
  txbuf : Memory
  rxbuf : Memory
  resKind : Option Kind
  resStatus : Option Byte
  resLen : Option Half
  resVal : Option Word
  resResends : Option Byte
  ver : Memory
  idName : Memory
  idType : Option Word
  idDate1 : Memory
  idDate2 : Memory
  accN : Option Word
  acc : Memory
  deriving DecidableEq, Repr

/-- What the engine is running for a port: the operation, or the codec arm of a `CALL`. -/
inductive Job where
  | send
  | receive
  | exchange
  | transact
  | arm (codec : Codec) (id : Byte)
  deriving DecidableEq, Repr

/-- What `receiveCore` returns: the kind, the status and `len` (42_protocol_engine.md R192). -/
structure Reply where
  kind : Kind
  status : Byte
  len : Half
  deriving DecidableEq, Repr

/-- Where the engine stands: before a channel call (42_protocol_engine.md R188, R192, R202), or after a
send, a receive or a failed resend, with `G.FSM` showing its outcome. A `SEND` whose writes went whole keeps
its request until it completes, because the retry cache changes with its completion (20_memory.md R87). -/
inductive Phase where
  | sendHeader (payload : List Byte)
  | sendPayload (header payload : List Byte)
  | sent (ok : Bool)
  | sendEnds (header payload : List Byte)
  | recvHeader
  | recvPayload (header : List Byte)
  | received (reply : Reply)
  | resendHeader
  | resendPayload
  | resendFailed
  deriving DecidableEq, Repr

/-- The position inside the running channel operation's pseudocode (10_state.md R60), with the values
its local names hold: `a` of `beginChannelOp`, `cmd`, `max`, `N` and `n` of `exchangeCore`. -/
structure Engine where
  job : Job
  took : Bool
  cmd : Half
  max : Half
  limit : Nat
  resends : Nat
  phase : Phase
  deriving DecidableEq, Repr

/-- The state of the block and of the environment it can see. -/
structure State where
  /-- the parameters (00_scope.md R9; no step writes them, 10_state.md R32) -/
  cfg : Params
  /-- the register copies of the 16 port slots (10_state.md R31) -/
  ports : Vector Port 16
  /-- `G.LOCK_OWNER`, 0xFF when free (10_state.md R52) -/
  lockOwner : Byte
  /-- `G.RETRY` (10_state.md R53) -/
  retry : Byte
  /-- `G.RC_VALID`, `G.RC_HDR`, `G.RC_LEN`, `G.RC_PAY` (10_state.md R54) -/
  rcValid : Bool
  rcHdr : Memory
  rcLen : Option Half
  rcPay : Memory
  /-- `G.STAGE_HDR`, `G.STAGE` (10_state.md R55) -/
  stageHdr : Memory
  stage : Memory
  /-- `G.FSM` (10_state.md R56) -/
  fsm : Fsm
  /-- `G.ACTIVE`, 0xFF when none (10_state.md R57) -/
  active : Byte
  /-- `G.LOG` (10_state.md R58) -/
  log : List HwFault
  /-- the position inside the running channel operation (10_state.md R60) -/
  engine : Option Engine
  /-- `TXS` (10_state.md R59), oldest byte first -/
  txs : List Byte
  /-- `RXS` with its timeout marks (10_state.md R59) -/
  rxs : List RxItem
  /-- how many bytes each coming `ChanWrite` carries at most; none listed: all (20_memory.md R79) -/
  writeScript : List Nat
  /-- the issuing port `P` of the operation that runs (00_scope.md R16); the model's own field -/
  turn : Fin 16
  /-- the coming events, the next first; the model's own field -/
  inputs : List Event
  /-- the values host reads returned, oldest first; the model's own field -/
  reads : List Word
  /-- the counter of the free values; the model's own field -/
  free : Nat
  deriving DecidableEq, Repr

/-- Why the block stops: the model faults of 60_exceptions.md R301. The spec gives these cases no
meaning (R300), so every one of them is safe: nothing can be proved about what the hardware does there. -/
inductive Fault where
  /-- `MF_UNWRITTEN`: raised by an operation or a host read that reads a register or buffer byte
  holding no value, which is the stop the spec names for it (10_state.md R62; 20_memory.md R76;
  60_exceptions.md R301); safe -/
  | unwritten
  /-- `MF_HOST_RO`: raised by a host write to a read-only row (20_memory.md R74); safe -/
  | hostRo
  /-- `MF_HOST_UNMAPPED`: raised by a host access to an unmapped offset, to a port that is not there, or
  across a row boundary (20_memory.md R72); safe -/
  | hostUnmapped
  /-- `MF_HOST_MISALIGNED`: raised by a host access whose address is not a multiple of its size, or whose
  size is not 1, 2 or 4 (20_memory.md R73); safe -/
  | hostMisaligned
  /-- `MF_HOST_BUSY`: raised by a host access to a busy port's block other than the allowed reads
  (20_memory.md R75); safe -/
  | hostBusy
  /-- `MF_RESEND_NO_CACHE`: raised when a resend is due while `G.RC_VALID` = 0 (42_protocol_engine.md R202); safe -/
  | resendNoCache
  /-- `MF_STAGE_OVERFLOW`: raised when a reply `length` exceeds `STAGE_MAX` (42_protocol_engine.md R199); safe -/
  | stageOverflow
  deriving DecidableEq, Repr

/-- Why the model gives an instruction no meaning. -/
inductive Refusal where
  /-- an instruction the model does not reach, by its mnemonic; raised by no arm of this model; safe -/
  | notModelled (mnemonic : String)
  /-- a configuration that is refused before any state exists (43_command_dispatch.md R242): raised by
  `configure`, and by `CALL` on an entry whose kind is no codec kind, which no configured block holds; safe -/
  | badConfiguration
  deriving DecidableEq, Repr

/-! ## Reset -/

/-- A port after reset: `OPC` 0x00, `BUSY` 0, "and every other per-port register holding no value"
(70_reset_and_hazards.md R330; 10_state.md R62, R65). -/
def Port.reset : Port where
  opc := 0x00#8
  busy := false
  cmd := none
  len := none
  max := none
  seed := none
  hCmd := none
  hSt := none
  hLen := none
  hRsv := none
  hCks := none
  hbn := none
  arg := none
  hbuf := []
  txbuf := []
  rxbuf := []
  resKind := none
  resStatus := none
  resLen := none
  resVal := none
  resResends := none
  ver := []
  idName := []
  idType := none
  idDate1 := []
  idDate2 := []
  accN := none
  acc := []

/-- The block after reset with these parameters (10_state.md R65), with nothing sent, nothing received
and no input to come (log entries 11 and 12). -/
def State.resetWith (cfg : Params) : State where
  cfg := cfg
  ports := Vector.replicate 16 Port.reset
  lockOwner := 0xFF#8
  retry := cfg.retryReset
  rcValid := false
  rcHdr := []
  rcLen := none
  rcPay := []
  stageHdr := []
  stage := []
  fsm := .idle
  active := 0xFF#8
  log := []
  engine := none
  txs := []
  rxs := []
  writeScript := []
  turn := 0
  inputs := []
  reads := []
  free := 0

/-- The machine right after reset (10_state.md R65; 70_reset_and_hazards.md R330). -/
def State.reset : State := State.resetWith initialParams

end Sys2Proof.Machine
end

