-- ==== Sys2Proof/Machine/Ops.lean ====
section
/-! DEFINITION. The named operations over byte stores, registers, the channel and the lock, and the one
ending primitive `finish` (60_exceptions.md R297), which stands where another machine has the entry of
an exception: the block raises none (R290, R296). -/

namespace Sys2Proof.Machine

/-! ## Byte stores -/

/-- What an unlisted offset reads as: no value (10_state.md R62). -/
def Memory.unlisted : Option Byte := none

/-- The byte at an offset, or no value. -/
def Memory.get (m : Memory) (a : Nat) : Option Byte :=
  match m with
  | [] => Memory.unlisted
  | (b, v) :: rest => if b = a then some v else Memory.get rest a

/-- The entries of a byte list laid at an offset. -/
def Memory.cells (a : Nat) (bs : List Byte) : Memory :=
  match bs with
  | [] => []
  | b :: rest => (a, b) :: Memory.cells (a + 1) rest

/-- `Buf[a : a+|bs|] <- bs` (00_scope.md R16). -/
def Memory.write (m : Memory) (a : Nat) (bs : List Byte) : Memory :=
  m.filter (fun c => decide (c.1 < a)) ++ Memory.cells a bs
    ++ m.filter (fun c => decide (a + bs.length ≤ c.1))

/-- `Buf[a : a+n]`, or `none` where one of the bytes holds no value (10_state.md R62). -/
def Memory.read (m : Memory) (a n : Nat) : Option (List Byte) :=
  match n with
  | 0 => some []
  | n + 1 =>
    match Memory.get m a, Memory.read m (a + 1) n with
    | some b, some bs => some (b :: bs)
    | _, _ => none

/-- The canonical form: every entry's offset below the next one's. -/
def Memory.wf (m : Memory) : Bool :=
  match m with
  | [] => true
  | c :: rest => rest.all (fun d => decide (c.1 < d.1)) && Memory.wf rest

/-- Every listed offset lies inside a buffer of this size. -/
def Memory.within (size : Nat) (m : Memory) : Bool := m.all (fun c => decide (c.1 < size))

/-! ## Reads that may meet no value -/

/-- An operand that must hold a value: an operation that reads one without meets `MF_UNWRITTEN`
(10_state.md R62; 60_exceptions.md R301). -/
def need {α : Type} (o : Option α) : Except Fault α :=
  match o with
  | some v => .ok v
  | none => .error .unwritten

/-! ## Ports -/

/-- The registers of port `p` (10_state.md R31). -/
def State.port (s : State) (p : Fin 16) : Port := s.ports[p]

/-- The registers of the issuing port (00_scope.md R16). -/
def State.cur (s : State) : Port := s.port s.turn

/-- Changes the registers of port `p` only. -/
def State.modPort (s : State) (p : Fin 16) (f : Port → Port) : State :=
  { s with ports := s.ports.set p (f (s.port p)) }

/-- Changes the registers of the issuing port only. -/
def State.modCur (s : State) (f : Port → Port) : State := s.modPort s.turn f

/-- A port number as the byte `G.LOCK_OWNER` and `G.ACTIVE` hold (10_state.md R52, R57). -/
def portByte (p : Fin 16) : Byte := BitVec.ofNat 8 p.val

/-- The byte that stands for no port: lock free, engine idle (10_state.md R52, R57). -/
def noPort : Byte := 0xFF#8

/-- `G.FSM <- f` (10_state.md R56). -/
def State.setFsm (s : State) (f : Fsm) : State := { s with fsm := f }

/-- The engine's position becomes `e` (10_state.md R60). -/
def State.setEngine (s : State) (e : Option Engine) : State := { s with engine := e }

/-- `log(HwFault(P, cmd, st))` (60_exceptions.md R309). -/
def State.logFault (s : State) (cmd : Half) (st : Byte) : State :=
  { s with log := s.log ++ [⟨s.turn, cmd, st⟩] }

/-! ## Results -/

/-- What an operation ends with: the result kind, the status, `len` and the resend count. -/
structure Result where
  kind : Kind
  status : Byte
  len : Half
  resends : Byte
  deriving DecidableEq, Repr

/-- `finish(kind, status, len)`, the one ending primitive (60_exceptions.md R297); `none` leaves
`RES_LEN` as it was. -/
def finish (kind : Kind) (status : Byte) (len : Option Half) (s : State) : State :=
  s.modCur fun p =>
    { p with
      resKind := some kind
      resStatus := some status
      resLen := (match len with | some l => some l | none => p.resLen)
      busy := false }

/-- `RES_RESENDS <- n` (10_state.md R47). -/
def setResends (n : Byte) (s : State) : State := s.modCur fun p => { p with resResends := some n }

/-! ## The lock (42_protocol_engine.md section 1) -/

/-- The lock is free or port `P`'s own: what `LOCK` and `SETRETRY` wait for (R180, R186). -/
def State.lockOpen (s : State) : Bool :=
  s.lockOwner == noPort || s.lockOwner == portByte s.turn

/-- `beginChannelOp` (R183): `none` while it holds; else whether this operation took the lock, and the
state with the lock held and `G.ACTIVE` set. -/
def beginChannelOp (s : State) : Option (Bool × State) :=
  if s.lockOwner = portByte s.turn then some (false, { s with active := portByte s.turn })
  else if s.lockOwner = noPort then
    some (true, { s with lockOwner := portByte s.turn, active := portByte s.turn })
  else none

/-- The part of `endChannelOp` before `finish` (R183): `G.ACTIVE` is cleared, and the lock this
operation took is released. -/
def releaseChannel (took : Bool) (s : State) : State :=
  if took then { s with active := noPort, lockOwner := noPort, fsm := .idle }
  else { s with active := noPort }

/-- `endChannelOp` (R183), one step with `finish` (60_exceptions.md R297). -/
def endChannelOp (took : Bool) (kind : Kind) (status : Byte) (len : Half) (s : State) : State :=
  finish kind status (some len) (releaseChannel took s)

/-! ## The channel (20_memory.md section 2) -/

/-- How many of `n` offered bytes the next `ChanWrite` carries (R79). -/
def writeCount (script : List Nat) (n : Nat) : Nat :=
  match script with
  | [] => n
  | c :: _ => min c n

/-- `ChanWrite` (R79): the count transferred, and the state with those bytes appended to `TXS`. -/
def chanWrite (bs : List Byte) (s : State) : Nat × State :=
  (writeCount s.writeScript bs.length,
   { s with
     txs := s.txs ++ bs.take (writeCount s.writeScript bs.length)
     writeScript := s.writeScript.tail })

/-- The front of the host-bound stream: at most `n` bytes, ended by a timeout mark, which is then
consumed, or by the stream's end (R79; 95_test_vectors.md 1.4). -/
def takeRx (n : Nat) (rx : List RxItem) : List Byte × List RxItem :=
  match n, rx with
  | 0, rx => ([], rx)
  | _ + 1, [] => ([], [])
  | _ + 1, .timeout :: rest => ([], rest)
  | n + 1, .byte b :: rest => (b :: (takeRx n rest).1, (takeRx n rest).2)

/-- `ChanRead` (R79). -/
def chanRead (n : Nat) (s : State) : List Byte × State :=
  ((takeRx n s.rxs).1, { s with rxs := (takeRx n s.rxs).2 })

/-- The two writes of a frame (42_protocol_engine.md R189): the header, and then the payload if it is
not empty and the header went whole; whether both went whole. -/
def transmit (header payload : List Byte) (s : State) : Bool × State :=
  let w := chanWrite header s
  if w.1 < header.length then (false, w.2)
  else if payload.length = 0 then (true, w.2)
  else
    let v := chanWrite payload w.2
    (decide (payload.length ≤ v.1), v.2)

/-! ## Outcomes -/

/-- The outcome of a meaning that may meet a model fault. -/
def outcome (r : Except Fault State) : Host.Outcome State Fault Refusal :=
  match r with
  | .ok s => .next s
  | .error f => .fault f

/-- What a meaning answers while its operation holds for the lock (42_protocol_engine.md R182): the state
as it is, the port still busy. -/
def hold (s : State) : Host.Outcome State Fault Refusal := .next s

end Sys2Proof.Machine
end

