-- ==== Sys2Proof/Machine/Flags.lean ====
section
/-! DEFINITION. The status outputs. The block has no condition codes (10_state.md R61): its status is
`RES_KIND`, `RES_STATUS` and `G.FSM`, and this file holds every rule that computes them. -/

namespace Sys2Proof.Machine

/-- The number of a result kind (30_encoding.md R115). -/
def kindCode : Kind → Byte
  | .ok => 0#8
  | .transportWriteError => 1#8
  | .transportReadError => 2#8
  | .malformedHeader => 3#8
  | .checksumMismatch => 4#8
  | .commandMismatch => 5#8
  | .bufferTooSmall => 6#8
  | .deviceReportedError => 7#8
  | .protocolStatusError => 8#8
  | .noSuchCommand => 9#8
  | .illegalOperation => 10#8
  | .notOwner => 11#8
  | .accOverflow => 12#8
  | .payloadShort => 13#8

/-- The number of a state of the exchange state machine (10_state.md R56). -/
def fsmCode : Fsm → Byte
  | .idle => 0#8
  | .sending => 1#8
  | .awaitingReply => 2#8
  | .resending => 3#8
  | .success => 4#8
  | .localError => 5#8
  | .deviceError => 6#8

/-- The local-error status 0xFF (00_scope.md R19; 60_exceptions.md R292). -/
def localStatus : Byte := 0xFF#8

/-- The results the retry loop answers with a resend (42_protocol_engine.md R203). -/
def retriable : Kind → Bool
  | .transportReadError => true
  | .checksumMismatch => true
  | .commandMismatch => true
  | _ => false

/-- The kind of a status that is not success (30_encoding.md R116). -/
def statusKind (hwThresh status : Byte) : Kind :=
  if hwThresh ≤ status then .deviceReportedError else .protocolStatusError

/-- The status register of 60_exceptions.md R293 for a kind: 0x00 exactly for `OK`, the device's status
for kinds 7 and 8, and 0xFF for every other kind. -/
def statusFits (hwThresh : Byte) (kind : Kind) (status : Byte) : Bool :=
  match kind with
  | .ok => status == 0x00#8
  | .deviceReportedError => status != 0x00#8 && decide (hwThresh ≤ status)
  | .protocolStatusError => status != 0x00#8 && decide (status < hwThresh)
  | _ => status == localStatus

end Sys2Proof.Machine
end

