-- ==== Sys2Proof/Machine/Operands.lean ====
section
/-! DEFINITION. The operands: registers and buffer ranges of the issuing port, each of which must hold a
value when an operation reads it (10_state.md R35 to R42, R62). -/

namespace Sys2Proof.Machine

/-- `CMD` (10_state.md R35). -/
def State.needCmd (s : State) : Except Fault Half := need s.cur.cmd

/-- `LEN` (10_state.md R36). -/
def State.needLen (s : State) : Except Fault Half := need s.cur.len

/-- `MAX` (10_state.md R37). -/
def State.needMax (s : State) : Except Fault Half := need s.cur.max

/-- `SEED` (10_state.md R38). -/
def State.needSeed (s : State) : Except Fault Half := need s.cur.seed

/-- `ARG` (10_state.md R41). -/
def State.needArg (s : State) : Except Fault Word := need s.cur.arg

/-- `HBN` (10_state.md R40). -/
def State.needHbn (s : State) : Except Fault Byte := need s.cur.hbn

/-- `HBUF[0:n]` (10_state.md R40, R62). -/
def State.needHbuf (s : State) (n : Nat) : Except Fault (List Byte) := need (Memory.read s.cur.hbuf 0 n)

/-- `TXBUF[0:LEN]`, with `LEN` read first (10_state.md R36, R42, R62). -/
def State.needPayload (s : State) : Except Fault (List Byte) := do
  let len ← s.needLen
  need (Memory.read s.cur.txbuf 0 len.toNat)

/-- `RXBUF[0:n]` (10_state.md R42, R62). -/
def State.needRx (s : State) (n : Nat) : Except Fault (List Byte) := need (Memory.read s.cur.rxbuf 0 n)

/-- The operands of `ENCREQ`: `H_CMD`, `H_LEN`, `H_RSV`, `H_CKS` (41_frame_codec.md R162). -/
def State.needReqHeader (s : State) : Except Fault ReqHeader := do
  let cmd ← need s.cur.hCmd
  let len ← need s.cur.hLen
  let rsv ← need s.cur.hRsv
  let cks ← need s.cur.hCks
  pure ⟨cmd, len, rsv, cks⟩

/-- The operands of `ENCREP`: `H_CMD[7:0]`, `H_ST`, `H_LEN`, `H_CKS` (41_frame_codec.md R166). -/
def State.needRepHeader (s : State) : Except Fault RepHeader := do
  let cmd ← need s.cur.hCmd
  let status ← need s.cur.hSt
  let len ← need s.cur.hLen
  let cks ← need s.cur.hCks
  pure ⟨byteAt cmd 0, status, len, cks⟩

/-- The cached header, which only a valid cache gives (42_protocol_engine.md R202). -/
def State.needCachedHeader (s : State) : Except Fault (List Byte) :=
  if s.rcValid then need (Memory.read s.rcHdr 0 8) else .error .resendNoCache

/-- The cached payload `G.RC_PAY[0:G.RC_LEN]` (42_protocol_engine.md R202). -/
def State.needCachedPayload (s : State) : Except Fault (List Byte) := do
  let len ← need s.rcLen
  need (Memory.read s.rcPay 0 len.toNat)

end Sys2Proof.Machine
end

