-- ==== Sys2Proof/Machine/Protocol.lean ====
section
/-! DEFINITION. The protocol engine (42_protocol_engine.md): the lock and configuration operations, the
cores `sendCore`, `receiveCore`, `resendCore` and `exchangeCore`, and the channel operations that wrap
them in the lock discipline of R183. -/

namespace Sys2Proof.Machine

/-! ## Lock and configuration -/

/-- `LOCK` (R180). -/
def execLock (s : State) : Host.Outcome State Fault Refusal :=
  if s.lockOpen then .next (finish .ok 0x00#8 none { s with lockOwner := portByte s.turn })
  else hold s

/-- `UNLOCK` (R181). -/
def execUnlock (s : State) : Host.Outcome State Fault Refusal :=
  if s.lockOwner = portByte s.turn then
    .next (finish .ok 0x00#8 none { s with lockOwner := noPort, fsm := .idle })
  else .next (finish .notOwner localStatus none s)

/-- `SETRETRY` (R186). -/
def execSetretry (s : State) : Host.Outcome State Fault Refusal :=
  if s.lockOpen then
    outcome do
      let arg ← s.needArg
      pure (finish .ok 0x00#8 none { s with retry := byteAt arg 0 })
  else hold s

/-! ## Send -/

/-- `cacheRequest` (R190). -/
def cacheRequest (header payload : List Byte) (s : State) : State :=
  { s with
    rcHdr := Memory.write s.rcHdr 0 header
    rcLen := some (BitVec.ofNat 16 payload.length)
    rcPay := Memory.write s.rcPay 0 payload
    rcValid := true }

/-- The end of a send whose writes both went whole (R188): the request is cached where retries are
enabled, and the reply is awaited. -/
def requestSent (header payload : List Byte) (s : State) : State :=
  (if s.retry = 0#8 then s else cacheRequest header payload s).setFsm .awaitingReply

/-- `sendCore` (R188): whether both writes went whole, and the state. -/
def sendCore (cmd : Half) (payload : List Byte) (s : State) : Bool × State :=
  let header := buildReq s.cfg cmd payload
  let t := transmit header payload (s.setFsm .sending)
  if t.1 then (true, requestSent header payload t.2) else (false, t.2.setFsm .localError)

/-! ## Receive -/

/-- `local(k, ln)` of R192. -/
def localReply (kind : Kind) (len : Half) (s : State) : State × Reply :=
  (s.setFsm .localError, ⟨kind, localStatus, len⟩)

/-- `device(k, st, ln)` of R192, logged where the status is a hardware fault (R196). -/
def deviceReply (cmd : Half) (status : Byte) (len : Half) (s : State) : State × Reply :=
  let s1 := if s.cfg.hwThresh ≤ status then s.logFault cmd status else s
  (s1.setFsm .deviceError, ⟨statusKind s.cfg.hwThresh status, status, len⟩)

/-- The checks on a reply whose bytes have all arrived, in the order of R195: checksum, status, command
identifier, empty payload, capacity; only then the copy into `RXBUF`. -/
def judgeReply (cmd max : Half) (r : RepHeader) (header payload : List Byte) (s : State) : State × Reply :=
  if replyCksOk s.cfg header payload r.cks = false then localReply .checksumMismatch r.len s
  else if r.status ≠ 0x00#8 then deviceReply cmd r.status r.len s
  else if r.cmd.setWidth 16 ≠ cmd then localReply .commandMismatch r.len s
  else if r.len = 0#16 then (s.setFsm .success, ⟨.ok, 0x00#8, 0#16⟩)
  else if max < r.len then localReply .bufferTooSmall r.len s
  else
    ((s.modCur fun p => { p with rxbuf := Memory.write p.rxbuf 0 payload }).setFsm .success,
     ⟨.ok, 0x00#8, r.len⟩)

/-- `G.STAGE_HDR <- h` (R192). -/
def stageHeader (h : List Byte) (s : State) : State := { s with stageHdr := Memory.write s.stageHdr 0 h }

/-- `G.STAGE[0:ln] <- pay` (R192). -/
def stagePayload (pay : List Byte) (s : State) : State := { s with stage := Memory.write s.stage 0 pay }

/-- `receiveCore` (R192). A header of fewer than six bytes is the one that does not decode (R193). -/
def receiveCore (cmd max : Half) (s : State) : Except Fault (State × Reply) :=
  let h := chanRead 6 (s.setFsm .awaitingReply)
  match decRep s.cfg.endian h.1 with
  | none => .ok (localReply .transportReadError 0#16 h.2)
  | some r =>
    let s1 := stageHeader h.1 h.2
    if s.cfg.stageMax < r.len.toNat then .error .stageOverflow
    else if r.len = 0#16 then .ok (judgeReply cmd max r h.1 [] s1)
    else
      let p := chanRead r.len.toNat s1
      if p.1.length < r.len.toNat then .ok (localReply .transportReadError r.len p.2)
      else .ok (judgeReply cmd max r h.1 p.1 (stagePayload p.1 p.2))

/-! ## Exchange -/

/-- `resendCore` (R202): whether both writes went whole, and the state. -/
def resendCore (s : State) : Except Fault (Bool × State) := do
  let header ← s.needCachedHeader
  let payload ← s.needCachedPayload
  pure (transmit header payload s)

/-- A reply as an operation's result, with the count of resends begun. -/
def Reply.result (r : Reply) (n : Nat) : Result := ⟨r.kind, r.status, r.len, BitVec.ofNat 8 n⟩

/-- The result of a write that failed (R187, R201, R206): `RES_LEN` 0, and the resends begun. -/
def writeFailed (n : Nat) : Result := ⟨.transportWriteError, localStatus, 0#16, BitVec.ofNat 8 n⟩

/-- The loop of R201: `left` is `N - n`, `n` the resends begun, `x` the last receive's outcome. -/
def retryLoop (cmd max : Half) (left n : Nat) (x : State × Reply) : Except Fault (State × Result) :=
  match left with
  | 0 => .ok (x.1, x.2.result n)
  | left + 1 =>
    if retriable x.2.kind then do
      let w ← resendCore (x.1.setFsm .resending)
      if w.1 then do
        let y ← receiveCore cmd max w.2
        retryLoop cmd max left (n + 1) y
      else pure (w.2.setFsm .localError, writeFailed (n + 1))
    else .ok (x.1, x.2.result n)

/-- `exchangeCore` (R201). -/
def exchangeCore (cmd max : Half) (s : State) : Except Fault (State × Result) := do
  let x ← receiveCore cmd max s
  retryLoop cmd max s.retry.toNat 0 x

/-! ## The channel operations -/

/-- The body of a channel operation between `beginChannelOp` and its ending (R183); the operation holds
while another port owns the lock. -/
def underLock (body : Bool → State → Except Fault State) (s : State) : Host.Outcome State Fault Refusal :=
  match beginChannelOp s with
  | none => hold s
  | some (took, s1) => outcome (body took s1)

/-- `RES_RESENDS <- n`, then `endChannelOp` (R200, R206; 43_command_dispatch.md R245). -/
def endExchange (took : Bool) (x : State × Result) : State :=
  endChannelOp took x.2.kind x.2.status x.2.len (setResends x.2.resends x.1)

/-- `SEND` (R187). -/
def execSend (s : State) : Host.Outcome State Fault Refusal :=
  underLock (fun took s1 => do
    let cmd ← s1.needCmd
    let payload ← s1.needPayload
    let w := sendCore cmd payload s1
    if w.1 then pure (endChannelOp took .ok 0x00#8 0#16 w.2)
    else pure (endChannelOp took .transportWriteError localStatus 0#16 w.2)) s

/-- `RECEIVE` (R191). -/
def execReceive (s : State) : Host.Outcome State Fault Refusal :=
  underLock (fun took s1 => do
    let cmd ← s1.needCmd
    let max ← s1.needMax
    let x ← receiveCore cmd max s1
    pure (endChannelOp took x.2.kind x.2.status x.2.len x.1)) s

/-- `EXCHANGE` (R200). -/
def execExchange (s : State) : Host.Outcome State Fault Refusal :=
  underLock (fun took s1 => do
    let cmd ← s1.needCmd
    let max ← s1.needMax
    let x ← exchangeCore cmd max s1
    pure (endExchange took x)) s

/-- `TRANSACT` (R206); `MAX` is read only once the request is sent. -/
def execTransact (s : State) : Host.Outcome State Fault Refusal :=
  underLock (fun took s1 => do
    let cmd ← s1.needCmd
    let payload ← s1.needPayload
    let w := sendCore cmd payload s1
    if w.1 then do
      let max ← w.2.needMax
      let x ← exchangeCore cmd max w.2
      pure (endExchange took x)
    else pure (endExchange took (w.2, writeFailed 0))) s

end Sys2Proof.Machine
end

