-- ==== Sys2Proof/Machine/Command.lean ====
section
/-! DEFINITION. The command dispatch (43_command_dispatch.md): `CALL`, the dispatch mux and its eight
codec arms. Every arm receives only through `exchangeCore` (R261) and writes neither the retry cache nor
the lock itself (R262). -/

namespace Sys2Proof.Machine

/-! ## What an arm does after its exchange -/

/-- The payload-shape check of the fixed-size read arms and their copy out of `RXBUF` (R249, R251 to R255):
a result that is not `OK` passes through, a short payload is `PayloadShort` and decodes nothing, and
otherwise the first `size` bytes of `RXBUF` are stored. -/
def fixedRead (size : Nat) (store : List Byte → Port → Port) (x : State × Result) :
    Except Fault (State × Result) :=
  if x.2.kind ≠ .ok then .ok x
  else if x.2.len.toNat < size then .ok (x.1, ⟨.payloadShort, localStatus, x.2.len, x.2.resends⟩)
  else do
    let bytes ← x.1.needRx size
    pure (x.1.modCur (store bytes), ⟨.ok, 0x00#8, x.2.len, x.2.resends⟩)

/-- `RES_VAL <- unpack32(RXBUF[0:4])` (R251, R252). -/
def storeWord (en : Endian) (bytes : List Byte) (p : Port) : Port :=
  { p with resVal := some (unpack32List en bytes) }

/-- `RES_VAL <- zext_32(RXBUF[0])` (R253). -/
def storeByte (bytes : List Byte) (p : Port) : Port :=
  { p with resVal := some ((bytes.headD 0#8).setWidth 32) }

/-- `VER[0:8] <- RXBUF[0:8]` (R254). -/
def storeVersion (bytes : List Byte) (p : Port) : Port :=
  { p with ver := Memory.write p.ver 0 bytes }

/-- The identity block's fields at offsets 0, 32, 36 and 52 (R255). -/
def storeIdentity (en : Endian) (bytes : List Byte) (p : Port) : Port :=
  { p with
    idName := Memory.write p.idName 0 (bytes.take 32)
    idType := some (unpack32List en (bytes.drop 32))
    idDate1 := Memory.write p.idDate1 0 ((bytes.drop 36).take 16)
    idDate2 := Memory.write p.idDate2 0 ((bytes.drop 52).take 16) }

/-- One chunk's end (R256): `some r` ends the operation with `r`, `none` asks for the next chunk. -/
def acceptChunk (x : State × Result) : Except Fault (State × Option Result) :=
  if x.2.kind ≠ .ok then .ok (x.1, some x.2)
  else do
    let bytes ← x.1.needRx x.2.len.toNat
    let n ← need x.1.cur.accN
    if x.1.cfg.accMax < n.toNat + x.2.len.toNat then
      pure (x.1, some ⟨.accOverflow, localStatus, x.2.len, x.2.resends⟩)
    else
      let s1 := x.1.modCur fun p =>
        { p with
          acc := Memory.write p.acc n.toNat bytes
          accN := some (BitVec.ofNat 32 (n.toNat + x.2.len.toNat)) }
      if chunkFinal s1.cfg bytes then pure (s1, some ⟨.ok, 0x00#8, x.2.len, x.2.resends⟩)
      else pure (s1, none)

/-- The four bytes `WR_PCT` sends (R258). -/
def pctPayload (cfg : Params) (arg : Word) : List Byte := pack32 cfg.endian (pctToF32 cfg.pct arg)

/-- `TXBUF[0:4] <- pack32(f)` (R258). -/
def stagePct (payload : List Byte) (s : State) : State :=
  s.modCur fun p => { p with txbuf := Memory.write p.txbuf 0 payload }

/-- `ACC_N <- 0`, before the first chunk (R256). -/
def clearAcc (s : State) : State := s.modCur fun p => { p with accN := some 0#32 }

/-! ## The arms -/

/-- A send of an arm's request, and then its exchange with this bound (R248, R258). -/
def armExchange (id : Byte) (payload : List Byte) (bound : Half) (s : State) :
    Except Fault (State × Result) :=
  let w := sendCore (id.setWidth 16) payload s
  if w.1 then exchangeCore (id.setWidth 16) bound w.2 else .ok (w.2, writeFailed 0)

/-- `readCore` (R248): an empty request, and the kind's reply size as the bound. -/
def readCore (codec : Codec) (id : Byte) (s : State) : Except Fault (State × Result) :=
  armExchange id [] (codecRepSize s.cfg.chunkSize codec) s

/-- `armNone` (R250). -/
def armNone (id : Byte) (s : State) : Except Fault (State × Result) := readCore .none id s

/-- `armF32` (R251). -/
def armF32 (id : Byte) (s : State) : Except Fault (State × Result) := do
  let x ← readCore .rdF32 id s
  fixedRead 4 (storeWord s.cfg.endian) x

/-- `armU32` (R252). -/
def armU32 (id : Byte) (s : State) : Except Fault (State × Result) := do
  let x ← readCore .rdU32 id s
  fixedRead 4 (storeWord s.cfg.endian) x

/-- `armU8` (R253). -/
def armU8 (id : Byte) (s : State) : Except Fault (State × Result) := do
  let x ← readCore .rdU8 id s
  fixedRead 1 storeByte x

/-- `armVer` (R254). -/
def armVer (id : Byte) (s : State) : Except Fault (State × Result) := do
  let x ← readCore .rdVer id s
  fixedRead 8 storeVersion x

/-- `armId` (R255). -/
def armId (id : Byte) (s : State) : Except Fault (State × Result) := do
  let x ← readCore .rdId id s
  fixedRead 68 (storeIdentity s.cfg.endian) x

/-- The loop of `armChunk` (R256). Every chunk that asks for another took at least a reply header from
`RXS`, so the count `fuel` of the bytes there never runs out before the loop ends (log entry 22). -/
def chunkLoop (id : Byte) (fuel : Nat) (s : State) : Except Fault (State × Result) :=
  match fuel with
  | 0 => .ok (s, ⟨.transportReadError, localStatus, 0#16, 0#8⟩)
  | fuel + 1 => do
    let x ← readCore .rdChunk id s
    let y ← acceptChunk x
    match y.2 with
    | some r => pure (y.1, r)
    | none => chunkLoop id fuel y.1

/-- `armChunk` (R256). -/
def armChunk (id : Byte) (s : State) : Except Fault (State × Result) :=
  chunkLoop id (s.rxs.length + 1) (clearAcc s)

/-- `armPct` (R258). -/
def armPct (id : Byte) (s : State) : Except Fault (State × Result) := do
  let arg ← s.needArg
  let payload := pctPayload s.cfg arg
  armExchange id payload 0#16 (stagePct payload s)

/-! ## The instructions -/

/-- An arm inside `CALL`'s wrapper (R245). -/
def runArm (arm : State → Except Fault (State × Result)) (s : State) :
    Host.Outcome State Fault Refusal :=
  underLock (fun took s1 => do
    let x ← arm s1
    pure (endExchange took x)) s

/-- `CALL.NONE` (R250). -/
def execCallNone (id : Byte) (s : State) : Host.Outcome State Fault Refusal := runArm (armNone id) s

/-- `CALL.RD_F32` (R251). -/
def execCallF32 (id : Byte) (s : State) : Host.Outcome State Fault Refusal := runArm (armF32 id) s

/-- `CALL.RD_U32` (R252). -/
def execCallU32 (id : Byte) (s : State) : Host.Outcome State Fault Refusal := runArm (armU32 id) s

/-- `CALL.RD_U8` (R253). -/
def execCallU8 (id : Byte) (s : State) : Host.Outcome State Fault Refusal := runArm (armU8 id) s

/-- `CALL.RD_VER` (R254). -/
def execCallVer (id : Byte) (s : State) : Host.Outcome State Fault Refusal := runArm (armVer id) s

/-- `CALL.RD_ID` (R255). -/
def execCallId (id : Byte) (s : State) : Host.Outcome State Fault Refusal := runArm (armId id) s

/-- `CALL.RD_CHUNK` (R256). -/
def execCallChunk (id : Byte) (s : State) : Host.Outcome State Fault Refusal := runArm (armChunk id) s

/-- `CALL.WR_PCT` (R258). -/
def execCallPct (id : Byte) (s : State) : Host.Outcome State Fault Refusal := runArm (armPct id) s

/-- The dispatch mux (R247). -/
def execArm (codec : Codec) (id : Byte) (s : State) : Host.Outcome State Fault Refusal :=
  match codec with
  | .none => execCallNone id s
  | .rdF32 => execCallF32 id s
  | .rdU32 => execCallU32 id s
  | .rdU8 => execCallU8 id s
  | .rdVer => execCallVer id s
  | .rdId => execCallId id s
  | .rdChunk => execCallChunk id s
  | .wrPct => execCallPct id s

/-- `CALL` (R245, R246): the lookup comes before the lock, and an identifier the registry does not hold
ends the operation at once. An entry whose kind is no codec kind stands in no configured block (R242.2). -/
def execCall (s : State) : Host.Outcome State Fault Refusal :=
  match s.needCmd with
  | .error f => .fault f
  | .ok cmd =>
    match lookup s.cfg.registry cmd with
    | none => .next (finish .noSuchCommand localStatus none s)
    | some e =>
      match codecOf e.kind with
      | none => .refused .badConfiguration
      | some codec => execArm codec e.id s

end Sys2Proof.Machine
end

