-- ==== Sys2Proof/Machine/Frame.lean ====
section
/-! DEFINITION. The checksum operation and the header operations: `CRC` (40_checksum.md R145) and
`ENCREQ`, `DECREQ`, `ENCREP`, `DECREP` (41_frame_codec.md R162, R164, R166, R168). They use neither the
lock nor the channel nor the exchange state machine (30_encoding.md R102). -/

namespace Sys2Proof.Machine

/-- `CRC` (40_checksum.md R145). -/
def execCrc (s : State) : Host.Outcome State Fault Refusal :=
  outcome do
    let bytes ← s.needPayload
    let seed ← s.needSeed
    let c := checksum s.cfg.crc bytes seed
    pure (finish .ok 0x00#8 none (s.modCur fun p => { p with resVal := some (c.setWidth 32) }))

/-- `ENCREQ` (41_frame_codec.md R162). -/
def execEncreq (s : State) : Host.Outcome State Fault Refusal :=
  outcome do
    let h ← s.needReqHeader
    pure (finish .ok 0x00#8 none (s.modCur fun p =>
      { p with hbuf := Memory.write p.hbuf 0 (encReq s.cfg.endian h), hbn := some 8#8 }))

/-- `DECREQ` (41_frame_codec.md R164). -/
def execDecreq (s : State) : Host.Outcome State Fault Refusal :=
  outcome do
    let n ← s.needHbn
    let bytes ← s.needHbuf (min n.toNat 8)
    match decReq s.cfg.endian bytes with
    | none => pure (finish .malformedHeader localStatus none s)
    | some h =>
      pure (finish .ok 0x00#8 none (s.modCur fun p =>
        { p with hCmd := some h.cmd, hLen := some h.len, hRsv := some h.rsv, hCks := some h.cks }))

/-- `ENCREP` (41_frame_codec.md R166); `HBUF[6:8]` stays as it was. -/
def execEncrep (s : State) : Host.Outcome State Fault Refusal :=
  outcome do
    let h ← s.needRepHeader
    pure (finish .ok 0x00#8 none (s.modCur fun p =>
      { p with hbuf := Memory.write p.hbuf 0 (encRep s.cfg.endian h), hbn := some 6#8 }))

/-- `DECREP` (41_frame_codec.md R168). -/
def execDecrep (s : State) : Host.Outcome State Fault Refusal :=
  outcome do
    let n ← s.needHbn
    let bytes ← s.needHbuf (min n.toNat 6)
    match decRep s.cfg.endian bytes with
    | none => pure (finish .malformedHeader localStatus none s)
    | some h =>
      pure (finish .ok 0x00#8 none (s.modCur fun p =>
        { p with
          hCmd := some (h.cmd.setWidth 16), hSt := some h.status, hLen := some h.len, hCks := some h.cks }))

end Sys2Proof.Machine
end

