-- ==== Sys2Proof/Machine/Wire.lean ====
section
/-! DEFINITION. The rows of the opcode table that name wire objects: the two commands the spec gives
(43_command_dispatch.md R243) and the two frames (30_encoding.md R106, R108). -/

namespace Sys2Proof.Machine

/-- The pseudo-instruction `call id` (30_encoding.md R119): the command into `CMD`, and then `CALL`. -/
def callCommand (cmd : Half) (s : State) : Host.Outcome State Fault Refusal :=
  execCall (s.modCur fun p => { p with cmd := some cmd })

/-- `CMD.VERSION_QUERY`: `call 0x42` (43_command_dispatch.md R243; log entry 19). -/
def execCmdVersionQuery (s : State) : Host.Outcome State Fault Refusal := callCommand 0x0042#16 s

/-- `CMD.SHUTDOWN`: `call 0x62` (43_command_dispatch.md R243; log entry 19). -/
def execCmdShutdown (s : State) : Host.Outcome State Fault Refusal := callCommand 0x0062#16 s

/-- `FRAME.REQUEST`: the frame goes to the device by the two writes every request takes
(42_protocol_engine.md R189, R202; log entry 20). -/
def execFrameRequest (cmd len cks : Half) (payload : List Byte) (s : State) :
    Host.Outcome State Fault Refusal :=
  .next (transmit (encReq s.cfg.endian ⟨cmd, len, 0#16, cks⟩) payload s).2

/-- `FRAME.REPLY`: the frame arrives from the device, to be read by the next receive
(20_memory.md R78; 10_state.md R59; log entry 21). -/
def execFrameReply (cmd status : Byte) (len cks : Half) (payload : List Byte) (s : State) :
    Host.Outcome State Fault Refusal :=
  .next { s with
    rxs := s.rxs ++ (encRep s.cfg.endian ⟨cmd, status, len, cks⟩ ++ payload).map RxItem.byte }

end Sys2Proof.Machine
end

