-- ==== Sys2Proof/Machine/Dispatch.lean ====
section
/-! DEFINITION. One arm per instruction. -/

namespace Sys2Proof.Machine

def exec (i : Instr) (s : State) : Host.Outcome State Fault Refusal :=
  match i with
  | .crc => Sys2Proof.Machine.execCrc s
  | .encreq => Sys2Proof.Machine.execEncreq s
  | .decreq => Sys2Proof.Machine.execDecreq s
  | .encrep => Sys2Proof.Machine.execEncrep s
  | .decrep => Sys2Proof.Machine.execDecrep s
  | .lock => Sys2Proof.Machine.execLock s
  | .unlock => Sys2Proof.Machine.execUnlock s
  | .setretry => Sys2Proof.Machine.execSetretry s
  | .send => Sys2Proof.Machine.execSend s
  | .receive => Sys2Proof.Machine.execReceive s
  | .exchange => Sys2Proof.Machine.execExchange s
  | .transact => Sys2Proof.Machine.execTransact s
  | .call => Sys2Proof.Machine.execCall s
  | .callNone id => Sys2Proof.Machine.execCallNone id s
  | .callF32 id => Sys2Proof.Machine.execCallF32 id s
  | .callU32 id => Sys2Proof.Machine.execCallU32 id s
  | .callU8 id => Sys2Proof.Machine.execCallU8 id s
  | .callVer id => Sys2Proof.Machine.execCallVer id s
  | .callId id => Sys2Proof.Machine.execCallId id s
  | .callChunk id => Sys2Proof.Machine.execCallChunk id s
  | .callPct id => Sys2Proof.Machine.execCallPct id s
  | .cmdVersionQuery => Sys2Proof.Machine.execCmdVersionQuery s
  | .cmdShutdown => Sys2Proof.Machine.execCmdShutdown s
  | .frameRequest cmd len cks payload => Sys2Proof.Machine.execFrameRequest cmd len cks payload s
  | .frameReply cmd status len cks payload => Sys2Proof.Machine.execFrameReply cmd status len cks payload s

end Sys2Proof.Machine
end

