-- ==== Sys2Proof/Machine/Engine.lean ====
section
/-! DEFINITION. A channel operation one engine step at a time (10_state.md R60; 20_memory.md R87, R88).

The meanings of Machine/Protocol.lean and Machine/Command.lean run a channel operation as one step, as
the host sees it (20_memory.md R87). Here the same pseudocode runs with one channel call or one write of
`G.FSM` a step, so that other ports' steps, reads of the shared rows (70_reset_and_hazards.md R341) and reset (R331) fall between
its calls. Both are built from the same pieces, and they differ only in where they stop (log entry 13). -/

namespace Sys2Proof.Machine

/-- The channel operation an instruction starts, as the job of the engine; `CALL` is the arm its lookup
selects, and `none` where the instruction is no channel operation or finds no arm. -/
def jobOf (i : Instr) (s : State) : Option Job :=
  match i with
  | .send => some .send
  | .receive => some .receive
  | .exchange => some .exchange
  | .transact => some .transact
  | .call =>
    match s.cur.cmd with
    | none => none
    | some cmd =>
      match lookup s.cfg.registry cmd with
      | none => none
      | some e => (codecOf e.kind).map fun c => .arm c e.id
  | .callNone id => some (.arm .none id)
  | .callF32 id => some (.arm .rdF32 id)
  | .callU32 id => some (.arm .rdU32 id)
  | .callU8 id => some (.arm .rdU8 id)
  | .callVer id => some (.arm .rdVer id)
  | .callId id => some (.arm .rdId id)
  | .callChunk id => some (.arm .rdChunk id)
  | .callPct id => some (.arm .wrPct id)
  | _ => none

/-- The capacity a job gives `receiveCore`: `MAX`, or its arm's bound (42_protocol_engine.md R191, R200,
R206; 43_command_dispatch.md R248, R258). -/
def jobMax (job : Job) (s : State) : Except Fault Half :=
  match job with
  | .arm codec _ => .ok (codecRepSize s.cfg.chunkSize codec)
  | _ => s.needMax

/-- What an arm does after its exchange: `some r` ends the operation, `none` asks for the next chunk. -/
def armEnd (codec : Codec) (x : State × Result) : Except Fault (State × Option Result) :=
  match codec with
  | .none => .ok (x.1, some x.2)
  | .rdF32 => (fixedRead 4 (storeWord x.1.cfg.endian) x).map fun y => (y.1, some y.2)
  | .rdU32 => (fixedRead 4 (storeWord x.1.cfg.endian) x).map fun y => (y.1, some y.2)
  | .rdU8 => (fixedRead 1 storeByte x).map fun y => (y.1, some y.2)
  | .rdVer => (fixedRead 8 storeVersion x).map fun y => (y.1, some y.2)
  | .rdId => (fixedRead 68 (storeIdentity x.1.cfg.endian) x).map fun y => (y.1, some y.2)
  | .rdChunk => acceptChunk x
  | .wrPct => .ok (x.1, some x.2)

/-- The engine stands before the header write of a request (42_protocol_engine.md R188). -/
def enterSend (e : Engine) (payload : List Byte) (s : State) : State :=
  (s.setFsm .sending).setEngine (some { e with phase := .sendHeader payload })

/-- The engine stands before the header read of a reply (42_protocol_engine.md R192). -/
def enterReceive (e : Engine) (s : State) : State :=
  (s.setFsm .awaitingReply).setEngine (some { e with phase := .recvHeader })

/-- The start of a job's exchange: `N` and the capacity are fixed, and the first receive begins
(42_protocol_engine.md R201). -/
def enterExchange (e : Engine) (s : State) : Except Fault State := do
  let max ← jobMax e.job s
  pure (enterReceive { e with max := max, limit := s.retry.toNat, resends := 0 } s)

/-- The end of a job whose last exchange gave `x`; a chunked read may ask for another chunk. -/
def endJob (e : Engine) (x : State × Result) : Except Fault State :=
  match e.job with
  | .send => .ok ((endChannelOp e.took x.2.kind x.2.status x.2.len x.1).setEngine none)
  | .receive => .ok ((endChannelOp e.took x.2.kind x.2.status x.2.len x.1).setEngine none)
  | .exchange => .ok ((endExchange e.took x).setEngine none)
  | .transact => .ok ((endExchange e.took x).setEngine none)
  | .arm codec _ => do
    let y ← armEnd codec x
    match y.2 with
    | some r => pure ((endExchange e.took (y.1, r)).setEngine none)
    | none => pure (enterSend e [] y.1)

/-- A send is over, and `G.FSM` shows how (42_protocol_engine.md R188). -/
def sendDone (e : Engine) (ok : Bool) (s : State) : State :=
  (if ok then s else s.setFsm .localError).setEngine (some { e with phase := .sent ok })

/-- Both writes of a request went whole. The request of a `SEND` is cached with the operation's completion
(20_memory.md R87); that of any other job at once, before the write of `G.FSM` (42_protocol_engine.md R188). -/
def requestWritten (e : Engine) (header payload : List Byte) (s : State) : State :=
  match e.job with
  | .send => (s.setFsm .awaitingReply).setEngine (some { e with phase := .sendEnds header payload })
  | _ => sendDone e true (requestSent header payload s)

/-- A receive is over, and `G.FSM` shows how (42_protocol_engine.md R192). -/
def receiveDone (e : Engine) (x : State × Reply) : State :=
  x.1.setEngine (some { e with phase := .received x.2 })

/-- A resend is over: the next receive begins, or `G.FSM` shows the failure (42_protocol_engine.md R201). -/
def resendDone (e : Engine) (ok : Bool) (s : State) : State :=
  if ok then enterReceive e s
  else (s.setFsm .localError).setEngine (some { e with phase := .resendFailed })

/-- What follows a send: a failed one ends the job (42_protocol_engine.md R207); else `SEND` ends, and
every other job starts its exchange. -/
def afterSend (e : Engine) (ok : Bool) (s : State) : Except Fault State :=
  if ok then
    match e.job with
    | .send => endJob e (s, ⟨.ok, 0x00#8, 0#16, 0#8⟩)
    | _ => enterExchange e s
  else endJob e (s, writeFailed 0)

/-- What follows a receive: a retriable result with resends left starts one, any other ends the job
(42_protocol_engine.md R191, R201, R203). -/
def afterReceive (e : Engine) (r : Reply) (s : State) : Except Fault State :=
  if e.job ≠ .receive ∧ retriable r.kind ∧ e.resends < e.limit then
    .ok ((s.setFsm .resending).setEngine
      (some { e with resends := e.resends + 1, phase := .resendHeader }))
  else endJob e (s, r.result e.resends)

/-- A job's start, with the lock held (the first lines of the pseudocode of 42_protocol_engine.md R187,
R191, R200, R206 and of the arms of 43_command_dispatch.md). -/
def startJob (job : Job) (took : Bool) (s : State) : Except Fault State :=
  match job with
  | .send | .transact => do
    let cmd ← s.needCmd
    let payload ← s.needPayload
    pure (enterSend ⟨job, took, cmd, 0#16, 0, 0, .recvHeader⟩ payload s)
  | .receive => do
    let cmd ← s.needCmd
    let max ← s.needMax
    pure (enterReceive ⟨job, took, cmd, max, 0, 0, .recvHeader⟩ s)
  | .exchange => do
    let cmd ← s.needCmd
    enterExchange ⟨job, took, cmd, 0#16, 0, 0, .recvHeader⟩ s
  | .arm .rdChunk id =>
    pure (enterSend ⟨job, took, id.setWidth 16, 0#16, 0, 0, .recvHeader⟩ [] (clearAcc s))
  | .arm .wrPct id => do
    let arg ← s.needArg
    let payload := pctPayload s.cfg arg
    pure (enterSend ⟨job, took, id.setWidth 16, 0#16, 0, 0, .recvHeader⟩ payload (stagePct payload s))
  | .arm _ id => pure (enterSend ⟨job, took, id.setWidth 16, 0#16, 0, 0, .recvHeader⟩ [] s)

/-- One step of the running operation: a channel call and the write of `G.FSM` it leads to, or the choice
that follows one. -/
def engineMove (e : Engine) (s : State) : Except Fault State :=
  match e.phase with
  | .sendHeader payload =>
    let header := buildReq s.cfg e.cmd payload
    let w := chanWrite header s
    if w.1 < header.length then .ok (sendDone e false w.2)
    else if payload.length = 0 then .ok (requestWritten e header payload w.2)
    else .ok (w.2.setEngine (some { e with phase := .sendPayload header payload }))
  | .sendPayload header payload =>
    let w := chanWrite payload s
    if w.1 < payload.length then .ok (sendDone e false w.2)
    else .ok (requestWritten e header payload w.2)
  | .sent ok => afterSend e ok s
  | .sendEnds header payload => endJob e (requestSent header payload s, ⟨.ok, 0x00#8, 0#16, 0#8⟩)
  | .recvHeader =>
    let h := chanRead 6 s
    match decRep s.cfg.endian h.1 with
    | none => .ok (receiveDone e (localReply .transportReadError 0#16 h.2))
    | some r =>
      let s1 := stageHeader h.1 h.2
      if s.cfg.stageMax < r.len.toNat then .error .stageOverflow
      else if r.len = 0#16 then .ok (receiveDone e (judgeReply e.cmd e.max r h.1 [] s1))
      else .ok (s1.setEngine (some { e with phase := .recvPayload h.1 }))
  | .recvPayload header =>
    match decRep s.cfg.endian header with
    | none => .ok (receiveDone e (localReply .transportReadError 0#16 s))
    | some r =>
      let p := chanRead r.len.toNat s
      if p.1.length < r.len.toNat then .ok (receiveDone e (localReply .transportReadError r.len p.2))
      else .ok (receiveDone e (judgeReply e.cmd e.max r header p.1 (stagePayload p.1 p.2)))
  | .received r => afterReceive e r s
  | .resendHeader => do
    let header ← s.needCachedHeader
    let payload ← s.needCachedPayload
    let w := chanWrite header s
    if w.1 < header.length then pure (resendDone e false w.2)
    else if payload.length = 0 then pure (resendDone e true w.2)
    else pure (w.2.setEngine (some { e with phase := .resendPayload }))
  | .resendPayload => do
    let payload ← s.needCachedPayload
    let w := chanWrite payload s
    pure (resendDone e (decide (payload.length ≤ w.1)) w.2)
  | .resendFailed => endJob e (s, writeFailed e.resends)

/-- One engine step; with no operation under way there is none to make. -/
def engineStep (s : State) : Host.Outcome State Fault Refusal :=
  match s.engine with
  | none => .next s
  | some e => outcome (engineMove e s)

/-- A channel operation's first step: it takes the lock, or holds (42_protocol_engine.md R183). -/
def beginJob (job : Job) (s : State) : Host.Outcome State Fault Refusal :=
  underLock (startJob job) s

/-- At most `n` engine steps, until the operation ends or stops: for the claims that relate both forms. -/
def runEngine (n : Nat) (s : State) : Host.Outcome State Fault Refusal :=
  match n with
  | 0 => .next s
  | n + 1 =>
    match s.engine with
    | none => .next s
    | some _ =>
      match engineStep s with
      | .next s1 => runEngine n s1
      | .fault f => .fault f
      | .refused r => .refused r

end Sys2Proof.Machine
end

