-- ==== Sys2Proof/Machine/HostMap.lean ====
section
/-! DEFINITION. The host register map and its accesses (20_memory.md R71 to R77). -/

namespace Sys2Proof.Machine

/-- The registers of the host map (20_memory.md R71). -/
inductive HostReg where
  | opc | busy | cmd | len | max | seed | hbn | hSt | arg | hCmd | hLen | hRsv | hCks | hbuf
  | resKind | resStatus | resLen | resVal | resResends | ver | idType | idName | idDate1 | idDate2 | accN
  | lockOwner | retry | fsm | rcValid | txbuf | rxbuf | acc
  deriving DecidableEq, Repr

/-- A row of the host map: first offset, size in bytes, register, and whether the host may write it. -/
structure Row where
  off : Nat
  size : Nat
  reg : HostReg
  writable : Bool
  deriving DecidableEq, Repr

/-- The host map of a port's block (20_memory.md R71; the access rights are 10_state.md R64). -/
def hostMap (accMax : Nat) : List Row :=
  [⟨0x00000, 1, .opc, true⟩, ⟨0x00001, 1, .busy, false⟩, ⟨0x00002, 2, .cmd, true⟩,
   ⟨0x00004, 2, .len, true⟩, ⟨0x00006, 2, .max, true⟩, ⟨0x00008, 2, .seed, true⟩,
   ⟨0x0000A, 1, .hbn, true⟩, ⟨0x0000B, 1, .hSt, true⟩, ⟨0x0000C, 4, .arg, true⟩,
   ⟨0x00010, 2, .hCmd, true⟩, ⟨0x00012, 2, .hLen, true⟩, ⟨0x00014, 2, .hRsv, true⟩,
   ⟨0x00016, 2, .hCks, true⟩, ⟨0x00018, 8, .hbuf, true⟩, ⟨0x00020, 1, .resKind, false⟩,
   ⟨0x00021, 1, .resStatus, false⟩, ⟨0x00022, 2, .resLen, false⟩, ⟨0x00024, 4, .resVal, false⟩,
   ⟨0x00028, 1, .resResends, false⟩, ⟨0x00030, 8, .ver, false⟩, ⟨0x00038, 4, .idType, false⟩,
   ⟨0x00040, 32, .idName, false⟩, ⟨0x00060, 16, .idDate1, false⟩, ⟨0x00070, 16, .idDate2, false⟩,
   ⟨0x00080, 4, .accN, false⟩, ⟨0x000C0, 1, .lockOwner, false⟩, ⟨0x000C1, 1, .retry, false⟩,
   ⟨0x000C2, 1, .fsm, false⟩, ⟨0x000C3, 1, .rcValid, false⟩, ⟨0x10000, 65535, .txbuf, true⟩,
   ⟨0x20000, 65535, .rxbuf, false⟩, ⟨0x40000, accMax, .acc, false⟩]

/-- The row that an access lies wholly inside: its address and its bytes (20_memory.md R72). So an access of
size 0, which has no bytes, lies in the row its address is in, and at an offset of no row it is unmapped; that
reading of R72 for size 0 is the model's (log entry 23). -/
def findRow (accMax off size : Nat) : Option Row :=
  (hostMap accMax).find? fun r =>
    decide (r.off ≤ off) && decide (off < r.off + r.size) && decide (off + size ≤ r.off + r.size)

/-- The port index of a host address, bits 23:20 (20_memory.md R71). -/
def addrPort (addr : BitVec 24) : Fin 16 := (addr.extractLsb' 20 4).toFin

/-- The offset of a host address inside the port's block, bits 19:0 (20_memory.md R71). -/
def addrOffset (addr : BitVec 24) : Nat := (addr.extractLsb' 0 20).toNat

/-- A size of 1, 2 or 4 bytes, and an address that is a multiple of it (20_memory.md R73). -/
def aligned (addr : BitVec 24) (size : Nat) : Bool :=
  (size == 1 || size == 2 || size == 4) && addr.toNat % size == 0

/-- The rows the host may read while the port is busy: `BUSY` and the four shared rows (20_memory.md R75). -/
def readableWhileBusy : HostReg → Bool
  | .busy => true
  | .lockOwner => true
  | .retry => true
  | .fsm => true
  | .rcValid => true
  | _ => false

/-- Byte `k` of a register as the host sees it, or no value (20_memory.md R73; 10_state.md R62). -/
def hostByte (s : State) (p : Fin 16) (reg : HostReg) (k : Nat) : Option Byte :=
  match reg with
  | .opc => some (s.port p).opc
  | .busy => some (if (s.port p).busy then 1#8 else 0#8)
  | .cmd => (s.port p).cmd.map (byteAt · k)
  | .len => (s.port p).len.map (byteAt · k)
  | .max => (s.port p).max.map (byteAt · k)
  | .seed => (s.port p).seed.map (byteAt · k)
  | .hbn => (s.port p).hbn
  | .hSt => (s.port p).hSt
  | .arg => (s.port p).arg.map (byteAt · k)
  | .hCmd => (s.port p).hCmd.map (byteAt · k)
  | .hLen => (s.port p).hLen.map (byteAt · k)
  | .hRsv => (s.port p).hRsv.map (byteAt · k)
  | .hCks => (s.port p).hCks.map (byteAt · k)
  | .hbuf => Memory.get (s.port p).hbuf k
  | .resKind => (s.port p).resKind.map kindCode
  | .resStatus => (s.port p).resStatus
  | .resLen => (s.port p).resLen.map (byteAt · k)
  | .resVal => (s.port p).resVal.map (byteAt · k)
  | .resResends => (s.port p).resResends
  | .ver => Memory.get (s.port p).ver k
  | .idType => (s.port p).idType.map (byteAt · k)
  | .idName => Memory.get (s.port p).idName k
  | .idDate1 => Memory.get (s.port p).idDate1 k
  | .idDate2 => Memory.get (s.port p).idDate2 k
  | .accN => (s.port p).accN.map (byteAt · k)
  | .lockOwner => some s.lockOwner
  | .retry => some s.retry
  | .fsm => some (fsmCode s.fsm)
  | .rcValid => some (if s.rcValid then 1#8 else 0#8)
  | .txbuf => Memory.get (s.port p).txbuf k
  | .rxbuf => Memory.get (s.port p).rxbuf k
  | .acc => Memory.get (s.port p).acc k

/-- The little-endian value of `n` bytes of a register from byte `k` (20_memory.md R73). -/
def hostValue (s : State) (p : Fin 16) (reg : HostReg) (k n : Nat) : Option Word :=
  match n with
  | 0 => some 0#32
  | n + 1 =>
    match hostByte s p reg k, hostValue s p reg (k + 1) n with
    | some b, some v => some ((v <<< 8) ||| b.setWidth 32)
    | _, _ => none

/-- A register with `size` bytes from byte `k` replaced by the low bytes of `v` (20_memory.md R73). The
bytes of a register without a value that the access does not reach are free (R76; log entry 9). -/
def patch {w : Nat} (old : Option (BitVec w)) (k size : Nat) (v free : Word) : BitVec w :=
  let base := old.getD (free.setWidth w)
  let mask := (BitVec.allOnes w >>> (w - 8 * size)) <<< (8 * k)
  (base &&& ~~~mask) ||| ((v.setWidth w <<< (8 * k)) &&& mask)

/-- A host write to a register of `w` bits. A free value is drawn where the register held no value and
the access does not cover it. -/
def writeScalar {w : Nat} (s : State) (p : Fin 16) (old : Option (BitVec w))
    (put : Option (BitVec w) → Port → Port) (k size : Nat) (v : Word) : State :=
  let s1 := s.modPort p (put (some (patch old k size v (Config.freeWord s.free))))
  if old.isNone && decide (8 * size < w) then { s1 with free := s.free + 1 } else s1

/-- The low `n` bytes of a value, the least significant first (20_memory.md R73). -/
def lowBytes (n : Nat) (v : Word) : List Byte := (List.range n).map (byteAt v)

/-- The effect of a host write to a writable register (20_memory.md R73, R74): its bytes are stored, and
nothing else, but that a write to `OPC` starts the operation (30_encoding.md R101). -/
def hostWrite (p : Fin 16) (reg : HostReg) (k size : Nat) (v : Word) (s : State) : State :=
  match reg with
  | .opc => s.modPort p fun q => { q with opc := byteAt v 0, busy := true }
  | .cmd => writeScalar s p (s.port p).cmd (fun x q => { q with cmd := x }) k size v
  | .len => writeScalar s p (s.port p).len (fun x q => { q with len := x }) k size v
  | .max => writeScalar s p (s.port p).max (fun x q => { q with max := x }) k size v
  | .seed => writeScalar s p (s.port p).seed (fun x q => { q with seed := x }) k size v
  | .hbn => writeScalar s p (s.port p).hbn (fun x q => { q with hbn := x }) k size v
  | .hSt => writeScalar s p (s.port p).hSt (fun x q => { q with hSt := x }) k size v
  | .arg => writeScalar s p (s.port p).arg (fun x q => { q with arg := x }) k size v
  | .hCmd => writeScalar s p (s.port p).hCmd (fun x q => { q with hCmd := x }) k size v
  | .hLen => writeScalar s p (s.port p).hLen (fun x q => { q with hLen := x }) k size v
  | .hRsv => writeScalar s p (s.port p).hRsv (fun x q => { q with hRsv := x }) k size v
  | .hCks => writeScalar s p (s.port p).hCks (fun x q => { q with hCks := x }) k size v
  | .hbuf => s.modPort p fun q => { q with hbuf := Memory.write q.hbuf k (lowBytes size v) }
  | .txbuf => s.modPort p fun q => { q with txbuf := Memory.write q.txbuf k (lowBytes size v) }
  | _ => s

/-- A host access, with the checks in the order of 60_exceptions.md R295.5 (log entry 23). A read's
value is the next entry of `reads`. -/
def hostAccess (a : Access) (s : State) : Host.Outcome State Fault Refusal :=
  let p := addrPort a.addr
  if s.cfg.nports ≤ p.val then .fault .hostUnmapped
  else
    match findRow s.cfg.accMax (addrOffset a.addr) a.size with
    | none => .fault .hostUnmapped
    | some r =>
      if aligned a.addr a.size = false then .fault .hostMisaligned
      else if (s.port p).busy && !(a.data.isNone && readableWhileBusy r.reg) then .fault .hostBusy
      else
        match a.data with
        | some v =>
          if r.writable then .next (hostWrite p r.reg (addrOffset a.addr - r.off) a.size v s)
          else .fault .hostRo
        | none =>
          match hostValue s p r.reg (addrOffset a.addr - r.off) a.size with
          | some v => .next { s with reads := s.reads ++ [v] }
          | none => .fault .unwritten

end Sys2Proof.Machine
end

