-- ==== Sys2Proof/Machine/Turn.lean ====
section
/-! DEFINITION. What each event does: host accesses, turns, channel input and reset; and how an
instruction's word is placed where the next step fetches it. -/

namespace Sys2Proof.Machine

/-- The engine is in the middle of port `p`'s operation (10_state.md R57). -/
def State.engineOn (s : State) (p : Fin 16) : Bool := s.engine.isSome && s.active == portByte p

/-- Port `p` has an operation under way: the turn of any other port is none (30_encoding.md R101). -/
def State.hasTurn (s : State) (p : Fin 16) : Bool := decide (p.val < s.cfg.nports) && (s.port p).busy

/-- The end of an unassigned OPC code: at once, with `IllegalOperation` (30_encoding.md R103). -/
def illegalOperation (s : State) : State := finish .illegalOperation localStatus none s

/-- Port `p`'s turn (30_encoding.md R101; 42_protocol_engine.md R182). Its operation, fetched from `OPC`,
runs to its end or holds; an operation the engine is in the middle of makes one engine step. -/
def takeTurn (p : Fin 16) (s : State) : Host.Outcome State Fault Refusal :=
  if s.hasTurn p = false then .next s
  else if s.engineOn p then engineStep { s with turn := p }
  else
    match decodeOpc (s.port p).opc with
    | .ok i => exec i { s with turn := p }
    | .error _ => .next (illegalOperation { s with turn := p })

/-- Port `p`'s turn, of which a channel operation makes its first step only. -/
def beginTurn (p : Fin 16) (s : State) : Host.Outcome State Fault Refusal :=
  if s.hasTurn p = false then .next s
  else if s.engineOn p then engineStep { s with turn := p }
  else
    match decodeOpc (s.port p).opc with
    | .ok i =>
      match jobOf i { s with turn := p } with
      | some job => beginJob job { s with turn := p }
      | none => exec i { s with turn := p }
    | .error _ => .next (illegalOperation { s with turn := p })

/-- Reset (70_reset_and_hazards.md R330, R331): the block's own state as after power-on; the parameters,
the channel, and what is outside the block stay. -/
def State.restart (s : State) : State :=
  { State.resetWith s.cfg with
    txs := s.txs, rxs := s.rxs, writeScript := s.writeScript
    inputs := s.inputs, reads := s.reads, free := s.free }

/-- The channel's input (20_memory.md R79). -/
def linkInput (rx : List RxItem) (tx : List Nat) (s : State) : State :=
  { s with rxs := s.rxs ++ rx, writeScript := s.writeScript ++ tx }

/-- What an event does. -/
def happen (e : Event) (s : State) : Host.Outcome State Fault Refusal :=
  match e with
  | .access a => hostAccess a s
  | .turn p => takeTurn p s
  | .begin p => beginTurn p s
  | .link rx tx => .next (linkInput rx tx s)
  | .reset => .next s.restart

/-- A block is built only from well-formed parameters (43_command_dispatch.md R242; 70_reset_and_hazards.md R333.1). -/
def configure (cfg : Params) : Host.Outcome State Fault Refusal :=
  if cfg.wf then .next (State.resetWith cfg) else .refused .badConfiguration

/-! ## Placing an instruction -/

/-- The value an operand register gets where it holds none: the host writes every operand before it
writes `OPC` (70_reset_and_hazards.md R333.3). Zeros, and in `CMD` the required command 0x62, whose
registry entry every block holds (43_command_dispatch.md R243). -/
def fillOperands (p : Port) : Port :=
  { p with
    cmd := some (p.cmd.getD 0x0062#16), len := some (p.len.getD 0#16), max := some (p.max.getD 0#16)
    seed := some (p.seed.getD 0#16), arg := some (p.arg.getD 0#32), hbn := some (p.hbn.getD 0#8)
    hCmd := some (p.hCmd.getD 0#16), hSt := some (p.hSt.getD 0#8), hLen := some (p.hLen.getD 0#16)
    hRsv := some (p.hRsv.getD 0#16), hCks := some (p.hCks.getD 0#16) }

/-- Port 0 has just written `OPC`, and its turn is next (30_encoding.md R101). -/
def placeOpc (c : Byte) (s : State) : State :=
  { s.modPort 0 (fun p => { fillOperands p with opc := c, busy := true }) with
    inputs := .turn 0 :: s.inputs }

/-- Port 0 has written this command into `CMD`, and `CALL` into `OPC`. -/
def placeCall (cmd : Half) (s : State) : State :=
  placeOpc 0x30#8 (s.modPort 0 fun p => { p with cmd := some cmd })

/-- The registry selects this codec for this identifier, and port 0 calls it (43_command_dispatch.md R245). -/
def placeArm (codec : Codec) (id : Byte) (s : State) : State :=
  let e : Entry := ⟨id, codecReqSize codec, codecRepSize s.cfg.chunkSize codec, codecCode codec⟩
  placeCall (id.setWidth 16)
    { s with cfg := { s.cfg with registry := e :: s.cfg.registry.filter (fun d => d.id != id) } }

/-- Port 0 has written a request's command and payload, and `SEND` into `OPC`: the block transmits the
frame with the checksum it computes (42_protocol_engine.md R188). -/
def placeSend (cmd len : Half) (payload : List Byte) (s : State) : State :=
  placeOpc 0x20#8 (s.modPort 0 fun p =>
    { p with cmd := some cmd, len := some len, txbuf := Memory.write p.txbuf 0 payload })

/-- The instruction of a table word placed where the next step fetches it; a word that is no instruction
is placed in `OPC` as it stands. -/
def placeWord (nbits w : Nat) (s : State) : State :=
  match decodeTableWord nbits w with
  | none => placeOpc (BitVec.ofNat 8 w) s
  | some i =>
    match i with
    | .callNone id => placeArm .none id s
    | .callF32 id => placeArm .rdF32 id s
    | .callU32 id => placeArm .rdU32 id s
    | .callU8 id => placeArm .rdU8 id s
    | .callVer id => placeArm .rdVer id s
    | .callId id => placeArm .rdId id s
    | .callChunk id => placeArm .rdChunk id s
    | .callPct id => placeArm .wrPct id s
    | .cmdVersionQuery => placeCall 0x0042#16 s
    | .cmdShutdown => placeCall 0x0062#16 s
    | .frameRequest cmd len _ payload => placeSend cmd len payload s
    | .frameReply cmd status len cks payload =>
      { s with
        inputs := .link ((encRep s.cfg.endian ⟨cmd, status, len, cks⟩ ++ payload).map RxItem.byte) []
          :: s.inputs }
    | _ => placeOpc (BitVec.ofNat 8 w) s

end Sys2Proof.Machine
end

