-- ==== Sys2Proof/Machine/Step.lean ====
section
/-! DEFINITION. One step: the next event happens (20_memory.md R88; log entries 12, 13 and 16). -/

namespace Sys2Proof.Machine

/-- One step of the machine. With no event to come the block does nothing (70_reset_and_hazards.md R332). -/
def step (s : State) : Host.Outcome State Fault Refusal :=
  match s.inputs with
  | [] => .next s
  | e :: rest => happen e { s with inputs := rest }

/-- The state whose very next step fetches and runs the instruction of this table word (log entry 16). -/
def State.withFetchWord (s : State) (nbits w : Nat) : State := placeWord nbits w s

end Sys2Proof.Machine
end

