-- ==== Sys2Proof/Safety.lean ====
section
/-! DEFINITION. What a sound state of the block is, and the words in which claims are stated. -/

namespace Sys2Proof.Machine

/-! ## Byte stores -/

/-- The byte stores of a port with their sizes (10_state.md R40, R42, R49 to R51). -/
def Port.stores (accMax : Nat) (p : Port) : List (Nat × Memory) :=
  [(8, p.hbuf), (65535, p.txbuf), (65535, p.rxbuf), (8, p.ver), (32, p.idName), (16, p.idDate1),
   (16, p.idDate2), (accMax, p.acc)]

/-- The shared byte stores with their sizes (10_state.md R54, R55). -/
def State.stores (s : State) : List (Nat × Memory) :=
  [(8, s.rcHdr), (65535, s.rcPay), (6, s.stageHdr), (s.cfg.stageMax, s.stage)]

/-- A byte store in its canonical form and inside its size. -/
def storeOk (x : Nat × Memory) : Prop := Memory.wf x.2 = true ∧ Memory.within x.1 x.2 = true

/-- Every byte store is in its canonical form and inside its size. -/
def State.storesOk (s : State) : Prop :=
  (∀ p : Fin 16, ∀ x ∈ (s.port p).stores s.cfg.accMax, storeOk x) ∧ ∀ x ∈ s.stores, storeOk x

/-! ## The engine -/

/-- The state of the exchange state machine while the engine stands at a phase
(42_protocol_engine.md R209, R210). -/
def phaseFsm : Phase → Fsm
  | .sendHeader _ => .sending
  | .sendPayload _ _ => .sending
  | .sent ok => if ok then .awaitingReply else .localError
  | .sendEnds _ _ => .awaitingReply
  | .recvHeader => .awaitingReply
  | .recvPayload _ => .awaitingReply
  | .received r =>
    match r.kind with
    | .ok => .success
    | .deviceReportedError => .deviceError
    | .protocolStatusError => .deviceError
    | _ => .localError
  | .resendHeader => .resending
  | .resendPayload => .resending
  | .resendFailed => .localError

/-- The values a phase carries: a payload is one a frame can hold, the header of a reply whose payload
is to be read has its six bytes and a length that fits the staging buffer, and a received result has the
status of its kind (20_memory.md R92; 42_protocol_engine.md R199; 60_exceptions.md R293). -/
def phaseOk (c : Params) : Phase → Prop
  | .sendHeader payload => payload.length ≤ 65535
  | .sendPayload header payload => header.length = 8 ∧ payload.length ≤ 65535
  | .sendEnds header payload => header.length = 8 ∧ payload.length ≤ 65535
  | .recvPayload header =>
    header.length = 6 ∧ ∀ r, decRep c.endian header = some r → r.len.toNat ≤ c.stageMax
  | .received r => statusFits c.hwThresh r.kind r.status = true
  | _ => True

/-- The engine's position is a legal one. -/
def engineOk (c : Params) (e : Engine) : Prop := phaseOk c e.phase ∧ e.resends ≤ e.limit ∧ e.limit ≤ 255

/-! ## The invariant -/

/-- `G.LOCK_OWNER` holds 0xFF or a port that is there (10_state.md R52). -/
def State.lockOk (s : State) : Prop :=
  s.lockOwner = noPort ∨ ∃ p : Fin 16, p.val < s.cfg.nports ∧ s.lockOwner = portByte p

/-- A running operation's port is busy and owns the lock, `G.ACTIVE` names it, and `G.FSM` shows the
engine's phase (10_state.md R57; 42_protocol_engine.md R185, R210). -/
def State.runningOk (s : State) (e : Engine) : Prop :=
  engineOk s.cfg e ∧ s.fsm = phaseFsm e.phase
    ∧ ∃ p : Fin 16, s.active = portByte p ∧ s.lockOwner = portByte p ∧ (s.port p).busy = true

/-- The result registers of a port hold no value, or a kind with its status (60_exceptions.md R293). -/
def Port.statusOk (hwThresh : Byte) (p : Port) : Prop :=
  match p.resKind, p.resStatus with
  | none, none => True
  | some k, some st => statusFits hwThresh k st = true
  | _, _ => False

/-- `ACC[0:ACC_N]` holds the chunks accepted so far (43_command_dispatch.md R256). -/
def Port.accOk (accMax : Nat) (p : Port) : Prop :=
  ∀ n, p.accN = some n → n.toNat ≤ accMax ∧ (Memory.read p.acc 0 n.toNat).isSome = true

/-- A valid retry cache holds a header and the payload its length names (10_state.md R54). -/
def State.cacheOk (s : State) : Prop :=
  s.rcValid = true →
    (Memory.read s.rcHdr 0 8).isSome = true
      ∧ ∃ n, s.rcLen = some n ∧ (Memory.read s.rcPay 0 n.toNat).isSome = true

/-- What holds of every state that a configured block can reach. -/
structure State.Inv (s : State) : Prop where
  /-- the parameters are those of a configured block (43_command_dispatch.md R242) -/
  params : s.cfg.wf = true
  stores : s.storesOk
  lock : s.lockOk
  /-- a free lock leaves the exchange state machine idle (42_protocol_engine.md R211) -/
  free : s.lockOwner = noPort → s.fsm = .idle
  /-- with no operation under way no port is active (10_state.md R57) -/
  quiet : s.engine = none → s.active = noPort
  running : ∀ e, s.engine = some e → s.runningOk e
  /-- a port that is not there runs nothing (20_memory.md R72) -/
  absent : ∀ p : Fin 16, s.cfg.nports ≤ p.val → (s.port p).busy = false
  status : ∀ p : Fin 16, (s.port p).statusOk s.cfg.hwThresh
  acc : ∀ p : Fin 16, (s.port p).accOk s.cfg.accMax
  cache : s.cacheOk

/-! ## Frames -/

/-- The six header bytes of a reply frame with its correct checksum (41_frame_codec.md R172.2). -/
def replyHeader (c : Params) (cmd status : Byte) (payload : List Byte) : List Byte :=
  let len := BitVec.ofNat 16 payload.length
  encRep c.endian ⟨cmd, status, len, repCks c (encRep c.endian ⟨cmd, status, len, 0#16⟩) payload⟩

/-- A whole reply frame with its correct checksum. -/
def replyFrame (c : Params) (cmd status : Byte) (payload : List Byte) : List Byte :=
  replyHeader c cmd status payload ++ payload

/-- The eight header bytes of a request frame with its correct checksum (30_encoding.md R106;
40_checksum.md R144). -/
def requestHeader (c : Params) (cmd : Half) (payload : List Byte) : List Byte :=
  let len := BitVec.ofNat 16 payload.length
  pack16 c.endian cmd ++ pack16 c.endian len ++ pack16 c.endian 0#16
    ++ pack16 c.endian (reqCks c cmd len payload)

/-- A whole request frame with its correct checksum. -/
def requestFrame (c : Params) (cmd : Half) (payload : List Byte) : List Byte :=
  requestHeader c cmd payload ++ payload

/-! ## What an operation does, one effect at a time

Plain record updates, in which a claim writes out the state an operation leaves. -/

/-- The next bytes from the device are these, and then `rest` (10_state.md R59). -/
def State.hears (s : State) (bytes : List Byte) (rest : List RxItem) : Prop :=
  s.rxs = bytes.map RxItem.byte ++ rest

/-- The device's bytes stop before `after`, and a read that asks for more leaves `rest`: at a timeout mark,
which the read consumes, or because nothing more has come (20_memory.md R79, R80; 95_test_vectors.md 1.4). -/
def stops (after rest : List RxItem) : Prop := after = .timeout :: rest ∨ (after = [] ∧ rest = [])

/-- The channel takes every byte of every coming write (20_memory.md R79). -/
def State.writesWhole (s : State) : Prop := s.writeScript = []

/-- These bytes went to the device. -/
def State.sends (s : State) (bytes : List Byte) : State := { s with txs := s.txs ++ bytes }

/-- What is left of the bytes from the device. -/
def State.left (s : State) (rest : List RxItem) : State := { s with rxs := rest }

/-- A request that was sent is cached where retries are enabled (42_protocol_engine.md R190). -/
def State.caches (s : State) (header payload : List Byte) : State :=
  if s.retry = 0#8 then s
  else
    { s with
      rcValid := true
      rcHdr := Memory.write s.rcHdr 0 header
      rcLen := some (BitVec.ofNat 16 payload.length)
      rcPay := Memory.write s.rcPay 0 payload }

/-- A reply went through the staging buffers (10_state.md R55). -/
def State.stages (s : State) (header payload : List Byte) : State :=
  { s with stageHdr := Memory.write s.stageHdr 0 header, stage := Memory.write s.stage 0 payload }

/-- A payload was copied into the issuing port's `RXBUF` (42_protocol_engine.md R195). -/
def State.receives (s : State) (payload : List Byte) : State :=
  s.modCur fun p => { p with rxbuf := Memory.write p.rxbuf 0 payload }

/-- An operation of the issuing port ended with this result, and `RES_LEN` is as before. -/
def State.finishes (s : State) (kind : Kind) (status : Byte) : State :=
  s.modCur fun p => { p with resKind := some kind, resStatus := some status, busy := false }

/-- A channel operation of the issuing port ended with this result: no port is active, and `G.FSM` shows
the outcome only where the port keeps the lock (42_protocol_engine.md R183). -/
def State.ends (s : State) (kind : Kind) (status : Byte) (len : Half) (fsm : Fsm) : State :=
  { s.modCur (fun p =>
      { p with resKind := some kind, resStatus := some status, resLen := some len, busy := false }) with
    active := noPort
    fsm := if s.lockOwner = portByte s.turn then fsm else .idle }

/-- The same for an operation that also writes `RES_RESENDS`. -/
def State.endsExchange (s : State) (kind : Kind) (status : Byte) (len : Half) (resends : Byte) (fsm : Fsm) :
    State :=
  (s.modCur fun p => { p with resResends := some resends }).ends kind status len fsm

/-- A request to this command was sent whole, and the device answered it at once with this payload,
a correct checksum and status 0x00. -/
def State.answered (s : State) (id : Byte) (request reply : List Byte) (rest : List RxItem) : State :=
  ((((s.sends (requestFrame s.cfg (id.setWidth 16) request)).caches
    (requestHeader s.cfg (id.setWidth 16) request) request).left rest).stages
    (replyHeader s.cfg id 0x00#8 reply) reply).receives reply

/-- A request to this command was sent `n + 1` times, the first from its operands and the others from the
cache, and the device answered the last one as in `answered` (42_protocol_engine.md R201, R202). -/
def State.answeredAfter (s : State) (n : Nat) (id : Byte) (request reply : List Byte) (rest : List RxItem) :
    State :=
  ((((s.sends (List.replicate (n + 1) (requestFrame s.cfg (id.setWidth 16) request)).flatten).caches
    (requestHeader s.cfg (id.setWidth 16) request) request).left rest).stages
    (replyHeader s.cfg id 0x00#8 reply) reply).receives reply

/-- The writes that carry a frame: one for the header, and one for a payload that is not empty
(42_protocol_engine.md R188, R202). -/
def frameWrites (payload : List Byte) : Nat := if payload.length = 0 then 1 else 2

/-- `n` coming writes carry all they are offered (20_memory.md R79, R92). -/
abbrev wholeCounts (n : Nat) (counts : List Nat) : Prop := counts.length = n ∧ ∀ c ∈ counts, 65535 ≤ c

/-- The coming writes cut a frame short, in its header or in its payload: only `part` of it goes, and `script`
is left for the writes after it (42_protocol_engine.md R189). -/
def cutWrite (header payload part : List Byte) (counts script : List Nat) : Prop :=
  (∃ k, k < 8 ∧ counts = k :: script ∧ part = header.take k)
    ∨ ∃ j k, 8 ≤ j ∧ k < payload.length ∧ counts = j :: k :: script ∧ part = header ++ payload.take k

/-- A frame was sent `n` times, and then once more in `part` only, when `resends` resends had been begun; the
operation ended with `TransportWriteError` (42_protocol_engine.md R198, R201, R205). -/
def State.resendCut (s : State) (n resends : Nat) (frame part : List Byte) (rest : List RxItem)
    (script : List Nat) : State :=
  (({ s with writeScript := script }.sends ((List.replicate n frame).flatten ++ part)).left rest).endsExchange
    .transportWriteError 0xFF#8 0#16 (BitVec.ofNat 8 resends) .localError

/-- A request to this command was sent whole, and the device answered it at once with a correct reply whose
payload is longer than the bound: nothing is copied (42_protocol_engine.md R195, R198). -/
def State.answeredTooLong (s : State) (id : Byte) (request reply : List Byte) (rest : List RxItem) : State :=
  ((((s.sends (requestFrame s.cfg (id.setWidth 16) request)).caches
    (requestHeader s.cfg (id.setWidth 16) request) request).left rest).stages
    (replyHeader s.cfg id 0x00#8 reply) reply).endsExchange .bufferTooSmall 0xFF#8
    (BitVec.ofNat 16 reply.length) 0#8 .localError

/-! ## Receives that are not `OK` -/

/-- A receive that was not `OK`: its result and its state of the exchange state machine, the bytes that went
through the staging, and what was logged (42_protocol_engine.md R192). -/
structure Failure where
  kind : Kind
  status : Byte
  len : Half
  fsm : Fsm
  header : List Byte
  payload : List Byte
  log : List HwFault
  deriving DecidableEq, Repr

/-- A reply frame that fits the staging arrives whole (42_protocol_engine.md R193, R194, R199). -/
def replyArrives (c : Params) (items rest : List RxItem) (header payload : List Byte) (r : RepHeader) : Prop :=
  header.length = 6 ∧ decRep c.endian header = some r ∧ payload.length = r.len.toNat
    ∧ payload.length ≤ c.stageMax ∧ items = (header ++ payload).map RxItem.byte ++ rest

/-- A receive whose result is retriable: the reply stops in its header or in its payload, or it arrives whole
with a wrong checksum, or with a right one and status 0x00 for another command (42_protocol_engine.md R193 to
R195, R197, R198, R203). -/
def receiveRetriable (c : Params) (cmd : Half) (items rest : List RxItem) (x : Failure) : Prop :=
  (∃ (bytes : List Byte) (after : List RxItem), bytes.length < 6 ∧ items = bytes.map RxItem.byte ++ after
    ∧ stops after rest ∧ x = ⟨.transportReadError, 0xFF#8, 0#16, .localError, [], [], []⟩)
  ∨ (∃ (header bytes : List Byte) (r : RepHeader) (after : List RxItem), header.length = 6
    ∧ decRep c.endian header = some r ∧ bytes.length < r.len.toNat ∧ r.len.toNat ≤ c.stageMax
    ∧ items = (header ++ bytes).map RxItem.byte ++ after ∧ stops after rest
    ∧ x = ⟨.transportReadError, 0xFF#8, r.len, .localError, header, [], []⟩)
  ∨ ∃ (header payload : List Byte) (r : RepHeader), replyArrives c items rest header payload r
    ∧ ((repCks c header payload ≠ r.cks
        ∧ x = ⟨.checksumMismatch, 0xFF#8, r.len, .localError, header, payload, []⟩)
      ∨ (repCks c header payload = r.cks ∧ r.status = 0x00#8 ∧ r.cmd.setWidth 16 ≠ cmd
        ∧ x = ⟨.commandMismatch, 0xFF#8, r.len, .localError, header, payload, []⟩))

/-- A receive that is refused and not retriable: a right checksum with a status of the device, logged where it
is a hardware fault, or a correct reply whose payload is longer than `max` (42_protocol_engine.md R195, R196,
R198, R203). -/
def receiveTerminal (c : Params) (port : Fin 16) (cmd max : Half) (items rest : List RxItem)
    (x : Failure) : Prop :=
  ∃ (header payload : List Byte) (r : RepHeader), replyArrives c items rest header payload r
    ∧ repCks c header payload = r.cks
    ∧ ((r.status ≠ 0x00#8 ∧ c.hwThresh ≤ r.status
        ∧ x = ⟨.deviceReportedError, r.status, r.len, .deviceError, header, payload, [⟨port, cmd, r.status⟩]⟩)
      ∨ (r.status ≠ 0x00#8 ∧ r.status < c.hwThresh
        ∧ x = ⟨.protocolStatusError, r.status, r.len, .deviceError, header, payload, []⟩)
      ∨ (r.status = 0x00#8 ∧ r.cmd.setWidth 16 = cmd ∧ max < r.len
        ∧ x = ⟨.bufferTooSmall, 0xFF#8, r.len, .localError, header, payload, []⟩))

/-- One receive after another is retriable; `rest` is what they leave. -/
def retried (c : Params) (cmd : Half) (items : List RxItem) (xs : List Failure) (rest : List RxItem) : Prop :=
  match xs with
  | [] => items = rest
  | x :: more => ∃ mid, receiveRetriable c cmd items mid x ∧ retried c cmd mid more rest

/-- An exchange whose last receive is not `OK`: the receives before it were retriable, at most as many as
`G.RETRY`, and the last one is refused for good, or retriable too when `G.RETRY` resends have been begun
(42_protocol_engine.md R201, R203, R204). -/
def exchangeFails (s : State) (cmd max : Half) (items : List RxItem) (xs : List Failure) (x : Failure)
    (rest : List RxItem) : Prop :=
  ∃ mid, retried s.cfg cmd items xs mid
    ∧ ((xs.length = s.retry.toNat ∧ receiveRetriable s.cfg cmd mid rest x)
      ∨ (xs.length ≤ s.retry.toNat ∧ receiveTerminal s.cfg s.turn cmd max mid rest x))

/-- What a failed receive staged and logged. -/
def State.failed (s : State) (x : Failure) : State :=
  { s.stages x.header x.payload with log := s.log ++ x.log }

/-- An exchange ended with its last receive's own result, after as many resends as receives before it. -/
def State.fails (s : State) (xs : List Failure) (x : Failure) (rest : List RxItem) : State :=
  (((xs ++ [x]).foldl State.failed s).left rest).endsExchange x.kind x.status x.len (BitVec.ofNat 8 xs.length)
    x.fsm

/-! ## Chunks -/

/-- One accepted chunk, and the retriable receives before it. -/
structure Round where
  failures : List Failure
  chunk : List Byte
  deriving DecidableEq, Repr

/-- The chunks of these rounds one after another. -/
def chunksOf (rounds : List Round) : List Byte := (rounds.map Round.chunk).flatten

/-- The requests these rounds took: one for each chunk, and one more for each resend. -/
def requestsOf (rounds : List Round) : Nat := (rounds.map fun r => r.failures.length + 1).sum

/-- A chunk of at most `CHUNK_SIZE` bytes that fits the staging, after at most `G.RETRY` resends. -/
def roundOk (s : State) (r : Round) : Prop :=
  r.failures.length ≤ s.retry.toNat ∧ r.chunk.length ≤ s.cfg.chunkSize.toNat ∧ r.chunk.length ≤ s.cfg.stageMax

/-- The device answers the requests of a chunked read with these rounds; `rest` is what they leave. -/
def chunksHeard (c : Params) (id : Byte) (items : List RxItem) (rounds : List Round) (rest : List RxItem) :
    Prop :=
  match rounds with
  | [] => items = rest
  | r :: more => ∃ mid next, retried c (id.setWidth 16) items r.failures mid
      ∧ mid = (replyFrame c id 0x00#8 r.chunk).map RxItem.byte ++ next ∧ chunksHeard c id next more rest

/-- What the receives of a round stage and copy. -/
def State.heard (s : State) (id : Byte) (r : Round) : State :=
  ((r.failures.foldl State.failed s).stages (replyHeader s.cfg id 0x00#8 r.chunk) r.chunk).receives r.chunk

/-- A chunked read of command `id` accepted these rounds: `ACC[0:ACC_N]` holds their chunks one after another
(43_command_dispatch.md R256). -/
def State.accepts (s : State) (id : Byte) (rounds : List Round) : State :=
  (((rounds.foldl (fun u r => u.heard id r) s).sends
    (List.replicate (requestsOf rounds) (requestFrame s.cfg (id.setWidth 16) [])).flatten).caches
    (requestHeader s.cfg (id.setWidth 16) []) []).modCur fun p =>
      { p with
        acc := Memory.write p.acc 0 (chunksOf rounds)
        accN := some (BitVec.ofNat 32 (chunksOf rounds).length) }

/-- An operation completed: it answered a next state in which the issuing port is idle and its result
registers hold a kind and its status (60_exceptions.md R290, R293). -/
def completes (s : State) (o : Host.Outcome State Fault Refusal) : Prop :=
  ∃ t k st, o = .next t ∧ (t.port s.turn).busy = false ∧ (t.port s.turn).resKind = some k
    ∧ (t.port s.turn).resStatus = some st ∧ statusFits s.cfg.hwThresh k st = true

/-! ## Frames of effects -/

/-- Every register of every port but the issuing one is as before (10_state.md R31). -/
def otherPortsKept (s t : State) : Prop := ∀ q : Fin 16, q ≠ s.turn → t.port q = s.port q

/-- The registers that only `CRC` and the codec arms write are as before: `RES_VAL`, `VER` and the identity
registers (10_state.md R46, R49, R50). -/
def armRegistersKept (p q : Port) : Prop :=
  q.resVal = p.resVal ∧ q.ver = p.ver ∧ q.idName = p.idName ∧ q.idType = p.idType ∧ q.idDate1 = p.idDate1
    ∧ q.idDate2 = p.idDate2

/-- Every register in which a channel operation leaves its result is as before, but for the buffers
(10_state.md R43 to R47, R49, R50). -/
def resultsKept (p q : Port) : Prop :=
  q.resKind = p.resKind ∧ q.resStatus = p.resStatus ∧ q.resLen = p.resLen ∧ q.resResends = p.resResends
    ∧ armRegistersKept p q

/-- The operands that no operation started by a code writes are as before (10_state.md R33 to R38, R41). -/
def operandsKept (p q : Port) : Prop :=
  q.opc = p.opc ∧ q.cmd = p.cmd ∧ q.len = p.len ∧ q.max = p.max ∧ q.seed = p.seed ∧ q.arg = p.arg

/-- The header-field registers are as before (10_state.md R39). -/
def headerFieldsKept (p q : Port) : Prop :=
  q.hCmd = p.hCmd ∧ q.hSt = p.hSt ∧ q.hLen = p.hLen ∧ q.hRsv = p.hRsv ∧ q.hCks = p.hCks

/-- What a chunked read of command `id` changed, and that nothing else did: the device answered its requests
with these chunks one after another, of which the first ones were `accepted`, and `ACC[0:ACC_N]` holds those
(43_command_dispatch.md R256, R263). -/
def chunksRead (s t : State) (id : Byte) (chunks accepted : List (List Byte)) (last : List Byte) (kind : Kind)
    (status : Byte) (rest : List RxItem) : Prop :=
  let u := s.caches (requestHeader s.cfg (id.setWidth 16) []) []
  t = { s with
      ports := t.ports
      txs := s.txs ++ (List.replicate chunks.length (requestFrame s.cfg (id.setWidth 16) [])).flatten
      rxs := rest
      rcValid := u.rcValid, rcHdr := u.rcHdr, rcLen := u.rcLen, rcPay := u.rcPay
      stageHdr := Memory.write s.stageHdr 0 (replyHeader s.cfg id 0x00#8 last), stage := t.stage
      active := noPort
      fsm := if s.lockOwner = portByte s.turn then .success else .idle }
    ∧ otherPortsKept s t
    ∧ t.cur = { s.cur with
        accN := some (BitVec.ofNat 32 accepted.flatten.length), acc := t.cur.acc
        rxbuf := t.cur.rxbuf, resKind := some kind, resStatus := some status
        resLen := some (BitVec.ofNat 16 last.length), resResends := some 0#8, busy := false }
    ∧ Memory.read t.cur.acc 0 accepted.flatten.length = some accepted.flatten
    ∧ Memory.read t.cur.rxbuf 0 last.length = some last
    ∧ (∀ a, accepted.flatten.length ≤ a → Memory.get t.cur.acc a = Memory.get s.cur.acc a)
    ∧ ∀ a, (∀ c ∈ chunks, c.length ≤ a) →
        Memory.get t.cur.rxbuf a = Memory.get s.cur.rxbuf a ∧ Memory.get t.stage a = Memory.get s.stage a

/-- The lock, the retry count, the exchange state machine, the engine and the log are as before. -/
def controlKept (s t : State) : Prop :=
  t.lockOwner = s.lockOwner ∧ t.retry = s.retry ∧ t.fsm = s.fsm ∧ t.active = s.active
    ∧ t.engine = s.engine ∧ t.log = s.log

/-- The retry cache and the receive staging are as before (10_state.md R54, R55). -/
def buffersKept (s t : State) : Prop :=
  t.rcValid = s.rcValid ∧ t.rcHdr = s.rcHdr ∧ t.rcLen = s.rcLen ∧ t.rcPay = s.rcPay
    ∧ t.stageHdr = s.stageHdr ∧ t.stage = s.stage

/-- The channel is as before (10_state.md R59). -/
def channelKept (s t : State) : Prop := t.txs = s.txs ∧ t.rxs = s.rxs ∧ t.writeScript = s.writeScript

end Sys2Proof.Machine
end

