-- ==== Sys2Proof/Certificates/Slice0/Obligations.lean ====
section
/-! DEFINITION. The statements for the provers. A statement that writes out a whole next state, as an
update of the state before, says in the same line what changes and that nothing else does. -/

open Sys2Proof Sys2Proof.Machine

/-! ## Encoding -/

/-- Decoding the words of a well-formed instruction, whatever follows them, gives the instruction back
(30_encoding.md R101, R106, R108, R113, R117). -/
def Obligations.DecodeOfEncode : Prop :=
  ∀ (en : Endian) (i : Instr) (rest : List Byte), i.wf = true →
    decode en (encode en i).1 ((encode en i).2 ++ rest) = .ok (i, rest)

/-- Whatever bytes decode to an instruction are that instruction's own words and what follows them, and
the instruction is well formed: no second word decodes to it, and no bit of a word is dropped. -/
def Obligations.EncodeOfDecode : Prop :=
  ∀ (en : Endian) (sp : Space) (bs rest : List Byte) (i : Instr), decode en sp bs = .ok (i, rest) →
    i.wf = true ∧ (encode en i).1 = sp ∧ bs = (encode en i).2 ++ rest

/-- A few words. Written out from the spec's tables: OPC bytes of each group, the two command identifiers, the
request header of 41_frame_codec.md R161 and the reply header of R165. In the model's own form: a codec arm as
a kind code of 30_encoding.md R117 and then the identifier it runs with; that an arm carries an identifier
stands in no table of the spec and is the model's choice (log entry 18). -/
def Obligations.DecodeWords : Prop :=
  decode .le .opc [0x01] = .ok (.crc, []) ∧ decode .le .opc [0x05] = .ok (.decrep, [])
    ∧ decode .le .opc [0x12] = .ok (.setretry, []) ∧ decode .le .opc [0x23] = .ok (.transact, [])
    ∧ decode .le .opc [0x30] = .ok (.call, []) ∧ decode .le .mux [0x04, 0x42] = .ok (.callVer 0x42, [])
    ∧ decode .le .mux [0x07, 0x10] = .ok (.callPct 0x10, [])
    ∧ decode .le .command [0x42, 0x00] = .ok (.cmdVersionQuery, [])
    ∧ decode .be .command [0x00, 0x62] = .ok (.cmdShutdown, [])
    ∧ decode .le .request [0x42, 0x00, 0x00, 0x00, 0x00, 0x00, 0x34, 0x12]
        = .ok (.frameRequest 0x0042 0 0x1234 [], [])
    ∧ decode .le .reply [0x42, 0x21, 0x01, 0x00, 0xEF, 0xBE, 0x07, 0x99]
        = .ok (.frameReply 0x42 0x21 1 0xBEEF [0x07], [0x99])

/-- 30_encoding.md R103. A host write of an unassigned code to `OPC` is no fault, and the operation it
starts ends at its port's next turn, whoever owns the lock, with `IllegalOperation` (result kind 10) and status
0xFF: the two change `OPC`, `BUSY`, `RES_KIND` and `RES_STATUS` of the port and nothing else. That the ending
which R103 puts "at once" is the port's own next turn, an event, is the model's choice (log entries 12 and
25). -/
def Obligations.UnassignedCodes : Prop :=
  kindCode .illegalOperation = 10 ∧
  ∀ (s : State) (p : Fin 16) (c : Byte), p.val < s.cfg.nports → (s.port p).busy = false →
    s.engineOn p = false →
    (c = 0x00 ∨ (0x06 ≤ c ∧ c ≤ 0x0F) ∨ (0x13 ≤ c ∧ c ≤ 0x1F) ∨ (0x24 ≤ c ∧ c ≤ 0x2F) ∨ 0x31 ≤ c) →
    ∃ s1, hostAccess ⟨BitVec.ofNat 24 (p.val * 0x100000), 1, some (c.setWidth 32)⟩ s = .next s1
      ∧ takeTurn p s1 = .next (({ s with turn := p }).modPort p fun q =>
          { q with opc := c, busy := false, resKind := some .illegalOperation, resStatus := some 0xFF })

/-! ## The checksum engine -/

/-- 40_checksum.md R145. `CRC` writes the zero-extended checksum of `TXBUF[0:LEN]` from `SEED` to
`RES_VAL` and ends with `OK`, whatever the lock, the channel and the exchange state machine are, which it
leaves alone with every other register; with `LEN` 0 the result is `SEED`; and a byte, `LEN` or `SEED`
without a value is the model fault. -/
def Obligations.CrcResult : Prop :=
  (∀ (s : State) (len seed : Half) (bytes : List Byte), s.cur.len = some len → s.cur.seed = some seed →
    Memory.read s.cur.txbuf 0 len.toNat = some bytes →
    exec .crc s = .next ((s.modCur fun p =>
      { p with resVal := some ((checksum s.cfg.crc bytes seed).setWidth 32) }).finishes .ok 0x00))
  ∧ (∀ (s : State) (seed : Half), s.cur.len = some 0 → s.cur.seed = some seed →
    exec .crc s = .next ((s.modCur fun p => { p with resVal := some (seed.setWidth 32) }).finishes .ok 0x00))
  ∧ (∀ s : State,
    (s.cur.len = none ∨ s.cur.seed = none
      ∨ ∃ len, s.cur.len = some len ∧ Memory.read s.cur.txbuf 0 len.toNat = none) →
    exec .crc s = .fault .unwritten)
  ∧ checksum .reference [0x42] 0xFFFF = 0x8976 ∧ decode .le .opc [0x01] = .ok (.crc, [])

/-- 40_checksum.md R146: the four laws of `checksum`, for every instantiation. -/
def Obligations.ChecksumLaws : Prop :=
  ∀ alg : CrcAlg,
    (∀ (a b : List Byte) (s t : Half), a = b → s = t → checksum alg a s = checksum alg b t)
    ∧ (∀ s : Half, checksum alg [] s = s)
    ∧ (∀ (a b : List Byte) (s : Half), checksum alg (a ++ b) s = checksum alg b (checksum alg a s))
    ∧ (∀ (a : List Byte) (s : Half), (checksum alg a s).toNat < 2 ^ 16)

/-- 40_checksum.md R148: with a byte-injective update, two byte lists of one length that differ in
exactly one byte have different checksums under every seed; and the reference update is byte-injective. -/
def Obligations.Detection : Prop :=
  (∀ (alg : CrcAlg) (front back : List Byte) (x y : Byte) (seed : Half), ByteInjective (crcStep alg) → x ≠ y →
    checksum alg (front ++ x :: back) seed ≠ checksum alg (front ++ y :: back) seed)
  ∧ ByteInjective (crcStep .reference)

/-! ## The frame codec -/

/-- 41_frame_codec.md R162. `ENCREQ` writes `HBUF[0:8]` and `HBN`, with the reserved field and the
checksum as given; an operand without a value is the model fault. -/
def Obligations.EncreqResult : Prop :=
  (∀ (s : State) (cmd len rsv cks : Half), s.cur.hCmd = some cmd → s.cur.hLen = some len →
    s.cur.hRsv = some rsv → s.cur.hCks = some cks →
    exec .encreq s = .next ((s.modCur fun p =>
      { p with
        hbuf := Memory.write p.hbuf 0 (pack16 s.cfg.endian cmd ++ pack16 s.cfg.endian len
          ++ pack16 s.cfg.endian rsv ++ pack16 s.cfg.endian cks)
        hbn := some 8 }).finishes .ok 0x00))
  ∧ (∀ s : State, (s.cur.hCmd = none ∨ s.cur.hLen = none ∨ s.cur.hRsv = none ∨ s.cur.hCks = none) →
    exec .encreq s = .fault .unwritten)
  ∧ encReq .le ⟨0x0042, 0, 0, 0x1234⟩ = [0x42, 0x00, 0x00, 0x00, 0x00, 0x00, 0x34, 0x12]
  ∧ decode .le .opc [0x02] = .ok (.encreq, [])

/-- 41_frame_codec.md R164. `DECREQ` reads `HBUF[0:min(HBN, 8)]`: eight bytes give the four header-field
registers, fewer give `MalformedHeader` and change no header-field register, and none at all are read when
`HBN` is 0; `H_ST` is never written; a value that is missing is the model fault. -/
def Obligations.DecreqResult : Prop :=
  (∀ (s : State) (n b0 b1 b2 b3 b4 b5 b6 b7 : Byte), s.cur.hbn = some n → 8 ≤ n.toNat →
    Memory.read s.cur.hbuf 0 8 = some [b0, b1, b2, b3, b4, b5, b6, b7] →
    exec .decreq s = .next ((s.modCur fun p =>
      { p with
        hCmd := some (unpack16 s.cfg.endian b0 b1), hLen := some (unpack16 s.cfg.endian b2 b3)
        hRsv := some (unpack16 s.cfg.endian b4 b5), hCks := some (unpack16 s.cfg.endian b6 b7) }).finishes
      .ok 0x00))
  ∧ (∀ (s : State) (n : Byte), s.cur.hbn = some n → n.toNat < 8 →
    (Memory.read s.cur.hbuf 0 n.toNat).isSome = true →
    exec .decreq s = .next (s.finishes .malformedHeader 0xFF))
  ∧ (∀ s : State, s.cur.hbn = some 0 → exec .decreq s = .next (s.finishes .malformedHeader 0xFF))
  ∧ (∀ s : State, (s.cur.hbn = none ∨ ∃ n, s.cur.hbn = some n ∧ Memory.read s.cur.hbuf 0 (min n.toNat 8) = none) →
    exec .decreq s = .fault .unwritten)
  ∧ decReq .le [0x62, 0x00, 0x00, 0x00, 0x00, 0x00, 0xAA, 0x55] = some ⟨0x0062, 0, 0, 0x55AA⟩
  ∧ decode .le .opc [0x03] = .ok (.decreq, [])

/-- 41_frame_codec.md R166. `ENCREP` writes `HBUF[0:6]` and `HBN`, leaves `HBUF[6:8]` as it was, and drops
`H_CMD[15:8]`; an operand without a value is the model fault. -/
def Obligations.EncrepResult : Prop :=
  (∀ (s : State) (cmd len cks : Half) (st : Byte), s.cur.hCmd = some cmd → s.cur.hSt = some st →
    s.cur.hLen = some len → s.cur.hCks = some cks →
    exec .encrep s = .next ((s.modCur fun p =>
      { p with
        hbuf := Memory.write p.hbuf 0
          ([cmd.setWidth 8, st] ++ pack16 s.cfg.endian len ++ pack16 s.cfg.endian cks)
        hbn := some 6 }).finishes .ok 0x00))
  ∧ (∀ (s t : State) (a : Nat), 6 ≤ a → exec .encrep s = .next t →
    Memory.get t.cur.hbuf a = Memory.get s.cur.hbuf a)
  ∧ (∀ s : State, (s.cur.hCmd = none ∨ s.cur.hSt = none ∨ s.cur.hLen = none ∨ s.cur.hCks = none) →
    exec .encrep s = .fault .unwritten)
  ∧ encRep .le ⟨(0x0142 : Half).setWidth 8, 0x21, 0, 0⟩ = [0x42, 0x21, 0x00, 0x00, 0x00, 0x00]
  ∧ decode .le .opc [0x04] = .ok (.encrep, [])

/-- 41_frame_codec.md R168. `DECREP` reads `HBUF[0:min(HBN, 6)]`: six bytes give the header-field
registers with the command zero-extended, fewer give `MalformedHeader` and change no header-field register;
`H_RSV` is never written; a value that is missing is the model fault. -/
def Obligations.DecrepResult : Prop :=
  (∀ (s : State) (n b0 b1 b2 b3 b4 b5 : Byte), s.cur.hbn = some n → 6 ≤ n.toNat →
    Memory.read s.cur.hbuf 0 6 = some [b0, b1, b2, b3, b4, b5] →
    exec .decrep s = .next ((s.modCur fun p =>
      { p with
        hCmd := some (b0.setWidth 16), hSt := some b1, hLen := some (unpack16 s.cfg.endian b2 b3)
        hCks := some (unpack16 s.cfg.endian b4 b5) }).finishes .ok 0x00))
  ∧ (∀ (s : State) (n : Byte), s.cur.hbn = some n → n.toNat < 6 →
    (Memory.read s.cur.hbuf 0 n.toNat).isSome = true →
    exec .decrep s = .next (s.finishes .malformedHeader 0xFF))
  ∧ (∀ s : State, s.cur.hbn = some 0 → exec .decrep s = .next (s.finishes .malformedHeader 0xFF))
  ∧ (∀ s : State, (s.cur.hbn = none ∨ ∃ n, s.cur.hbn = some n ∧ Memory.read s.cur.hbuf 0 (min n.toNat 6) = none) →
    exec .decrep s = .fault .unwritten)
  ∧ decRep .le [0x42, 0x00, 0x08, 0x00, 0xEF, 0xBE] = some ⟨0x42, 0, 8, 0xBEEF⟩
  ∧ decode .le .opc [0x05] = .ok (.decrep, [])

/-- 41_frame_codec.md R169: the five round-trip laws, the last one through the host operations. -/
def Obligations.HeaderRoundTrips : Prop :=
  (∀ (en : Endian) (h : ReqHeader), decReq en (encReq en h) = some h)
  ∧ (∀ (en : Endian) (bs : List Byte), bs.length = 8 → ∃ h, decReq en bs = some h ∧ encReq en h = bs)
  ∧ (∀ (en : Endian) (h : RepHeader), decRep en (encRep en h) = some h)
  ∧ (∀ (en : Endian) (bs : List Byte), bs.length = 6 → ∃ h, decRep en bs = some h ∧ encRep en h = bs)
  ∧ (∀ (s t u : State) (cmd : Half), s.cur.hCmd = some cmd → exec .encrep s = .next t →
      exec .decrep t = .next u → (u.cur.hCmd = some cmd ↔ cmd.toNat < 0x100))

/-- 41_frame_codec.md R172: a built request frame carries the checksum its receiver recomputes; a built
reply frame passes the reply check; and, with a byte-injective update, one changed byte outside the
`length` field makes the reply check fail. The field at offsets 2 and 3 is not claimed. -/
def Obligations.FrameLaws : Prop :=
  (∀ (c : Params) (cmd : Half) (pay : List Byte), pay.length ≤ 65535 →
    ∃ h, decReq c.endian (buildReq c cmd pay) = some h ∧ h.cmd = cmd ∧ h.len.toNat = pay.length ∧ h.rsv = 0
      ∧ h.cks = checksum c.crc ((buildReq c cmd pay).take 6 ++ [0x00, 0x00] ++ pay) 0xFFFF)
  ∧ (∀ (c : Params) (cmd st : Byte) (pay : List Byte),
    ∃ h, decRep c.endian (replyHeader c cmd st pay) = some h
      ∧ replyCksOk c (replyHeader c cmd st pay) pay h.cks = true)
  ∧ (∀ (c : Params) (cmd st x : Byte) (pay header pay' : List Byte) (k : Nat) (h : RepHeader),
    ByteInjective (crcStep c.crc) → k ≠ 2 → k ≠ 3 → k < 6 + pay.length →
    header.length = 6 → header ++ pay' = (replyFrame c cmd st pay).set k x →
    (replyFrame c cmd st pay)[k]? ≠ some x → decRep c.endian header = some h →
    replyCksOk c header pay' h.cks = false)

/-! ## The lock -/

/-- 42_protocol_engine.md R180. `LOCK` acquires a free lock, is `OK` and changes nothing else when the
port owns it already (so one `UNLOCK` releases it), and holds, still busy, while another port owns it. -/
def Obligations.LockResult : Prop :=
  (∀ s : State, s.lockOwner = noPort ∨ s.lockOwner = portByte s.turn →
    exec .lock s = .next ({ s with lockOwner := portByte s.turn }.finishes .ok 0x00))
  ∧ (∀ s : State, s.lockOwner = portByte s.turn → exec .lock s = .next (s.finishes .ok 0x00))
  ∧ (∀ s : State, s.lockOwner ≠ noPort → s.lockOwner ≠ portByte s.turn → exec .lock s = .next s)
  ∧ (∀ s t u : State, exec .lock s = .next t → t ≠ s → exec .unlock t = .next u → u.lockOwner = noPort)
  ∧ decode .le .opc [0x10] = .ok (.lock, [])

/-- 42_protocol_engine.md R181. `UNLOCK` by the owner frees the lock and idles the exchange state machine;
by any other port, the lock free included, it is `NotOwner` (result kind 11) and changes nothing else. -/
def Obligations.UnlockResult : Prop :=
  (∀ s : State, s.lockOwner = portByte s.turn →
    exec .unlock s = .next ({ s with lockOwner := noPort, fsm := .idle }.finishes .ok 0x00))
  ∧ (∀ s : State, s.lockOwner ≠ portByte s.turn →
    exec .unlock s = .next (s.finishes .notOwner 0xFF) ∧ kindCode .notOwner = 11)
  ∧ (∀ s : State, s.lockOwner = noPort → exec .unlock s = .next (s.finishes .notOwner 0xFF))
  ∧ decode .le .opc [0x11] = .ok (.unlock, [])

/-- 42_protocol_engine.md R186. `SETRETRY` writes `ARG[7:0]` to `G.RETRY`, takes no lock, and holds while
another port owns it; and with `G.RETRY` 0 a send caches nothing and an exchange sends nothing. -/
def Obligations.SetretryResult : Prop :=
  (∀ (s : State) (arg : Word), s.lockOwner = noPort ∨ s.lockOwner = portByte s.turn → s.cur.arg = some arg →
    exec .setretry s = .next ({ s with retry := arg.setWidth 8 }.finishes .ok 0x00))
  ∧ (∀ s : State, s.lockOwner = noPort ∨ s.lockOwner = portByte s.turn → s.cur.arg = none →
    exec .setretry s = .fault .unwritten)
  ∧ (∀ s : State, s.lockOwner ≠ noPort → s.lockOwner ≠ portByte s.turn → exec .setretry s = .next s)
  ∧ (∀ (s : State) (cmd max : Half) (payload : List Byte), s.retry = 0 →
    (sendCore cmd payload s).2.rcValid = s.rcValid ∧ (sendCore cmd payload s).2.rcHdr = s.rcHdr
    ∧ (sendCore cmd payload s).2.rcLen = s.rcLen ∧ (sendCore cmd payload s).2.rcPay = s.rcPay
    ∧ ∀ y, exchangeCore cmd max s = .ok y → y.1.txs = s.txs ∧ y.2.resends = 0)
  ∧ decode .le .opc [0x12] = .ok (.setretry, [])

/-- While another port owns the lock, every channel operation holds: nothing changes. `CALL` looks its command
up first, so it holds where the lookup finds an entry, in a configured block (42_protocol_engine.md R182, R183;
43_command_dispatch.md R242, R246; 60_exceptions.md R302). -/
def Obligations.HoldChangesNothing : Prop :=
  ∀ (s : State) (id : Byte), s.lockOwner ≠ noPort → s.lockOwner ≠ portByte s.turn →
    (∀ (cmd : Half) (e : Entry), s.cfg.wf = true → s.cur.cmd = some cmd →
      lookup s.cfg.registry cmd = some e → exec .call s = .next s)
      ∧ exec .send s = .next s ∧ exec .receive s = .next s ∧ exec .exchange s = .next s
      ∧ exec .transact s = .next s ∧ exec (.callNone id) s = .next s ∧ exec (.callF32 id) s = .next s
      ∧ exec (.callU32 id) s = .next s ∧ exec (.callU8 id) s = .next s ∧ exec (.callVer id) s = .next s
      ∧ exec (.callId id) s = .next s ∧ exec (.callChunk id) s = .next s ∧ exec (.callPct id) s = .next s

/-! ## Send -/

/-- `SEND` over a channel that takes every byte: the request frame goes out, the request is cached where
`G.RETRY` is not 0, the result is `OK` with `RES_LEN` 0, and the lock is as before
(42_protocol_engine.md R183, R187 to R190). -/
def Obligations.SendWhole : Prop :=
  ∀ (s : State) (cmd len : Half) (payload : List Byte), s.lockOwner = noPort ∨ s.lockOwner = portByte s.turn →
    s.cur.cmd = some cmd → s.cur.len = some len → Memory.read s.cur.txbuf 0 len.toNat = some payload →
    s.writesWhole →
    exec .send s = .next (((s.sends (requestFrame s.cfg cmd payload)).caches
      (requestHeader s.cfg cmd payload) payload).ends .ok 0x00 0 .awaitingReply)

/-- `SEND` with a short write: the payload is not attempted after a short header, the bytes that went stay
sent, the cache is as before, and the result is `TransportWriteError` (42_protocol_engine.md R187 to R190). -/
def Obligations.SendShort : Prop :=
  (∀ (s : State) (cmd len : Half) (payload : List Byte) (k : Nat) (script : List Nat),
    s.lockOwner = noPort ∨ s.lockOwner = portByte s.turn → s.cur.cmd = some cmd → s.cur.len = some len →
    Memory.read s.cur.txbuf 0 len.toNat = some payload → s.writeScript = k :: script → k < 8 →
    exec .send s = .next (({ s with writeScript := script }.sends
      ((requestHeader s.cfg cmd payload).take k)).ends .transportWriteError 0xFF 0 .localError))
  ∧ (∀ (s : State) (cmd len : Half) (payload : List Byte) (k j : Nat) (script : List Nat),
    s.lockOwner = noPort ∨ s.lockOwner = portByte s.turn → s.cur.cmd = some cmd → s.cur.len = some len →
    Memory.read s.cur.txbuf 0 len.toNat = some payload → s.writeScript = k :: j :: script → 8 ≤ k →
    j < payload.length →
    exec .send s = .next (({ s with writeScript := script }.sends
      (requestHeader s.cfg cmd payload ++ payload.take j)).ends .transportWriteError 0xFF 0 .localError))

/-- A channel operation whose operand holds no value meets `MF_UNWRITTEN` (10_state.md R62;
42_protocol_engine.md R187, R191, R200, R206; 43_command_dispatch.md R245, R258). `TRANSACT` reads `MAX` only
for its exchange, so there it meets the fault once its request has gone whole. -/
def Obligations.OperandsUnwritten : Prop :=
  ∀ (s : State) (id : Byte), s.lockOwner = noPort ∨ s.lockOwner = portByte s.turn →
    (s.cur.cmd = none → exec .send s = .fault .unwritten ∧ exec .receive s = .fault .unwritten
      ∧ exec .exchange s = .fault .unwritten ∧ exec .transact s = .fault .unwritten
      ∧ exec .call s = .fault .unwritten)
    ∧ (s.cur.len = none → exec .send s = .fault .unwritten ∧ exec .transact s = .fault .unwritten)
    ∧ (s.cur.max = none → exec .receive s = .fault .unwritten ∧ exec .exchange s = .fault .unwritten)
    ∧ (∀ len, s.cur.len = some len → Memory.read s.cur.txbuf 0 len.toNat = none →
      exec .send s = .fault .unwritten ∧ exec .transact s = .fault .unwritten)
    ∧ (∀ (cmd len : Half) (payload : List Byte), s.cur.cmd = some cmd → s.cur.len = some len →
      Memory.read s.cur.txbuf 0 len.toNat = some payload → s.cur.max = none → s.writesWhole →
      exec .transact s = .fault .unwritten)
    ∧ (s.cur.arg = none → exec (.callPct id) s = .fault .unwritten)

/-! ## Receive -/

/-- `RECEIVE` of a correct reply whose payload fits `MAX`: the payload goes through the staging into
`RXBUF`, `RES_LEN` is its length, `RES_RESENDS` and everything else stay (42_protocol_engine.md R191, R192,
R195, R198). -/
def Obligations.ReceiveGood : Prop :=
  ∀ (s : State) (id : Byte) (max : Half) (payload : List Byte) (rest : List RxItem),
    s.lockOwner = noPort ∨ s.lockOwner = portByte s.turn → s.cur.cmd = some (id.setWidth 16) →
    s.cur.max = some max → s.hears (replyFrame s.cfg id 0x00 payload) rest → payload.length ≤ max.toNat →
    payload.length ≤ s.cfg.stageMax →
    exec .receive s = .next ((((s.left rest).stages (replyHeader s.cfg id 0x00 payload) payload).receives
      payload).ends .ok 0x00 (BitVec.ofNat 16 payload.length) .success)

/-- `RECEIVE` of a reply that stops short, in its header or in its payload, at a timeout mark or because
nothing more has come: `TransportReadError`, the bytes that came are consumed, and `RES_LEN` is 0 or the
received length (42_protocol_engine.md R193, R194, R198; 20_memory.md R79). -/
def Obligations.ReceiveShort : Prop :=
  (∀ (s : State) (cmd max : Half) (bytes : List Byte) (after rest : List RxItem),
    s.lockOwner = noPort ∨ s.lockOwner = portByte s.turn → s.cur.cmd = some cmd → s.cur.max = some max →
    bytes.length < 6 → s.hears bytes after → stops after rest →
    exec .receive s = .next ((s.left rest).ends .transportReadError 0xFF 0 .localError))
  ∧ (∀ (s : State) (cmd max : Half) (header bytes : List Byte) (r : RepHeader) (after rest : List RxItem),
    s.lockOwner = noPort ∨ s.lockOwner = portByte s.turn → s.cur.cmd = some cmd → s.cur.max = some max →
    header.length = 6 → decRep s.cfg.endian header = some r → bytes.length < r.len.toNat →
    r.len.toNat ≤ s.cfg.stageMax → s.hears (header ++ bytes) after → stops after rest →
    exec .receive s = .next (({ s.left rest with stageHdr := Memory.write s.stageHdr 0 header }).ends
      .transportReadError 0xFF r.len .localError))

/-- `RECEIVE` of a reply that arrives whole and is not accepted: the first check that fails decides, in the
order checksum, status, command identifier, capacity; a status at or above `HWTHRESH` is logged
(42_protocol_engine.md R195 to R198; 30_encoding.md R116). -/
def Obligations.ReceiveChecks : Prop :=
  ∀ (s : State) (cmd max : Half) (header payload : List Byte) (r : RepHeader) (rest : List RxItem),
    s.lockOwner = noPort ∨ s.lockOwner = portByte s.turn → s.cur.cmd = some cmd → s.cur.max = some max →
    header.length = 6 → decRep s.cfg.endian header = some r → r.len.toNat = payload.length →
    payload.length ≤ s.cfg.stageMax → s.hears (header ++ payload) rest →
    let u := (s.left rest).stages header payload
    (repCks s.cfg header payload ≠ r.cks →
      exec .receive s = .next (u.ends .checksumMismatch 0xFF r.len .localError))
    ∧ (repCks s.cfg header payload = r.cks → r.status ≠ 0x00 → s.cfg.hwThresh ≤ r.status →
      exec .receive s = .next (({ u with log := s.log ++ [HwFault.mk s.turn cmd r.status] } : State).ends
        .deviceReportedError r.status r.len .deviceError))
    ∧ (repCks s.cfg header payload = r.cks → r.status ≠ 0x00 → r.status < s.cfg.hwThresh →
      exec .receive s = .next (u.ends .protocolStatusError r.status r.len .deviceError))
    ∧ (repCks s.cfg header payload = r.cks → r.status = 0x00 → r.cmd.setWidth 16 ≠ cmd →
      exec .receive s = .next (u.ends .commandMismatch 0xFF r.len .localError))
    ∧ (repCks s.cfg header payload = r.cks → r.status = 0x00 → r.cmd.setWidth 16 = cmd → max < r.len →
      exec .receive s = .next (u.ends .bufferTooSmall 0xFF r.len .localError))

/-- 42_protocol_engine.md R199: a received `length` above `STAGE_MAX` is the model fault
`MF_STAGE_OVERFLOW`, before the payload is read; with the default `STAGE_MAX` no receive meets it. -/
def Obligations.StageOverflow : Prop :=
  (∀ (s : State) (cmd max : Half) (header : List Byte) (r : RepHeader) (rest : List RxItem),
    s.hears header rest → header.length = 6 → decRep s.cfg.endian header = some r →
    s.cfg.stageMax < r.len.toNat → receiveCore cmd max s = .error .stageOverflow)
  ∧ (∀ (s : State) (cmd max : Half), 65535 ≤ s.cfg.stageMax → ∃ x, receiveCore cmd max s = .ok x)

/-- A reply frame with one byte changed outside the `length` field, under a byte-injective update, is
`ChecksumMismatch` when it arrives whole and `TransportReadError` when it stops short, at a timeout mark or
because nothing more has come: never `OK` (42_protocol_engine.md R217; 41_frame_codec.md R172; 20_memory.md
R79). -/
def Obligations.CorruptReply : Prop :=
  ∀ (s : State) (cmd max : Half) (id st x : Byte) (payload : List Byte) (k n : Nat)
    (after rest : List RxItem), s.lockOwner = noPort ∨ s.lockOwner = portByte s.turn → s.cur.cmd = some cmd → s.cur.max = some max →
    ByteInjective (crcStep s.cfg.crc) → payload.length ≤ s.cfg.stageMax → payload.length ≤ 65535 →
    k < 6 + payload.length → k ≠ 2 → k ≠ 3 → (replyFrame s.cfg id st payload)[k]? ≠ some x →
    (s.hears ((replyFrame s.cfg id st payload).set k x) rest →
      ∃ t, exec .receive s = .next t ∧ t.cur.resKind = some .checksumMismatch)
    ∧ (n < 6 + payload.length → s.hears (((replyFrame s.cfg id st payload).set k x).take n) after →
      stops after rest → ∃ t, exec .receive s = .next t ∧ t.cur.resKind = some .transportReadError)

/-- In a receive, `RECEIVE`, `EXCHANGE` and `TRANSACT`, `RXBUF` is as before on `BufferTooSmall` and on every
other result that is not `OK` (42_protocol_engine.md R215). The codec arms follow 43_command_dispatch.md R263,
"`RXBUF` is as the last `receiveCore` left it": as before on every result but `OK` and `PayloadShort`, which
comes after a receive that was `OK` and copied its payload, in every arm that makes one exchange; an arm that
reads chunks may have copied earlier ones. -/
def Obligations.NoPartialCopy : Prop :=
  (∀ (s : State) (cmd max : Half) (x : State × Reply), receiveCore cmd max s = .ok x → x.2.kind ≠ .ok →
    ∀ p : Fin 16, (x.1.port p).rxbuf = (s.port p).rxbuf)
  ∧ (∀ (s t : State) (i : Instr), i = .receive ∨ i = .exchange ∨ i = .transact → exec i s = .next t →
    t.cur.resKind ≠ some .ok → ∀ p : Fin 16, (t.port p).rxbuf = (s.port p).rxbuf)
  ∧ (∀ (s t : State) (id : Byte), ∀ i ∈ [Instr.callNone id, .callF32 id, .callU32 id, .callU8 id, .callVer id,
      .callId id, .callPct id], exec i s = .next t → t.cur.resKind ≠ some .ok →
    t.cur.resKind ≠ some .payloadShort → ∀ p : Fin 16, (t.port p).rxbuf = (s.port p).rxbuf)

/-- 42_protocol_engine.md R214: `SEND` and `TRANSACT` transmit any u16 `CMD` in the first two bytes they
send, and for a `CMD` of 0x100 or more every reply that passes the checksum and status checks gives
`CommandMismatch`. -/
def Obligations.WideIdentifiers : Prop :=
  (∀ (s t : State) (i : Instr) (cmd len : Half), i = .send ∨ i = .transact →
    s.lockOwner = noPort ∨ s.lockOwner = portByte s.turn → s.cur.cmd = some cmd → s.cur.len = some len →
    (Memory.read s.cur.txbuf 0 len.toNat).isSome = true → s.writesWhole → exec i s = .next t →
    ∃ b0 b1 more, t.txs = s.txs ++ b0 :: b1 :: more ∧ unpack16 s.cfg.endian b0 b1 = cmd)
  ∧ (∀ (s : State) (cmd max : Half) (header payload : List Byte) (r : RepHeader) (rest : List RxItem),
    0x100 ≤ cmd.toNat → header.length = 6 → decRep s.cfg.endian header = some r →
    r.len.toNat = payload.length → payload.length ≤ s.cfg.stageMax → s.hears (header ++ payload) rest →
    repCks s.cfg header payload = r.cks → r.status = 0x00 →
    ∃ t, receiveCore cmd max s = .ok (t, { kind := .commandMismatch, status := 0xFF, len := r.len }))

/-! ## Exchange -/

/-- `EXCHANGE` completes, whatever the channel answers, when it owns or can take the lock, its operands
hold values, the staging holds any reply, and a resend finds a cached request: the port is idle, the result
has its status, and at most `G.RETRY` resends were begun (42_protocol_engine.md R200 to R205). -/
def Obligations.ExchangeCompletes : Prop :=
  ∀ s : State, s.lockOwner = noPort ∨ s.lockOwner = portByte s.turn → s.cur.cmd.isSome = true →
    s.cur.max.isSome = true → 65535 ≤ s.cfg.stageMax → s.retry = 0 ∨ (s.rcValid = true ∧ s.cacheOk) →
    completes s (exec .exchange s)
    ∧ ∀ t, exec .exchange s = .next t → ∃ n : Byte, t.cur.resResends = some n ∧ n ≤ s.retry

/-- `EXCHANGE` with resends. `n` retriable receives, at most as many as `G.RETRY`, send the cached request `n`
times verbatim; then a correct reply ends it with `OK` and `RES_RESENDS` = `n`. It ends with its last receive's
own kind, status, length, state and log entry, and no further byte is sent, where that receive gives
`DeviceReportedError`, `ProtocolStatusError` or `BufferTooSmall`, whatever `n` is, and where it is retriable too
and `n` = `G.RETRY`. A resend whose write is short ends it with `TransportWriteError` and `RES_LEN` 0: that resend
is counted, no receive follows it, and the bytes that went stay sent (42_protocol_engine.md R193 to R198, R201 to
R205; 10_state.md R44, R47). -/
def Obligations.ExchangeResends : Prop :=
  ∀ (s : State) (cmd max len : Half) (header cached : List Byte) (xs : List Failure) (rest : List RxItem),
    s.lockOwner = noPort ∨ s.lockOwner = portByte s.turn → s.cur.cmd = some cmd →
    s.cur.max = some max → s.rcValid = true → Memory.read s.rcHdr 0 8 = some header →
    s.rcLen = some len → Memory.read s.rcPay 0 len.toNat = some cached →
    let sent := s.sends (List.replicate xs.length (header ++ cached)).flatten
    (∀ (id : Byte) (payload : List Byte) (mid : List RxItem), cmd = id.setWidth 16 → s.writesWhole →
      xs.length ≤ s.retry.toNat → payload.length ≤ max.toNat → payload.length ≤ s.cfg.stageMax →
      retried s.cfg cmd s.rxs xs mid → mid = (replyFrame s.cfg id 0x00 payload).map RxItem.byte ++ rest →
      exec .exchange s = .next (((((xs.foldl State.failed sent).left rest).stages
        (replyHeader s.cfg id 0x00 payload) payload).receives payload).endsExchange .ok 0x00
        (BitVec.ofNat 16 payload.length) (BitVec.ofNat 8 xs.length) .success))
    ∧ (∀ x : Failure, s.writesWhole → exchangeFails s cmd max s.rxs xs x rest →
      exec .exchange s = .next (sent.fails xs x rest))
    ∧ (∀ (whole counts script : List Nat) (part : List Byte) (n : Nat), xs.length = n + 1 →
      xs.length ≤ s.retry.toNat → wholeCounts (n * frameWrites cached) whole →
      cutWrite header cached part counts script → s.writeScript = whole ++ counts →
      retried s.cfg cmd s.rxs xs rest →
      exec .exchange s
        = .next ((xs.foldl State.failed s).resendCut n (n + 1) (header ++ cached) part rest script))

/-- The bounds of an `EXCHANGE`, a `TRANSACT` or a codec arm that does not hold: at most `G.RETRY` resends
(in a chunked read, of the last chunk's request); a retriable result means that all `G.RETRY` resends were
begun. With `G.RETRY` 0 an `EXCHANGE` sends no byte; and over a channel that takes every byte a `TRANSACT`, or
an arm that makes one exchange, sends its own request once and then once more for each resend, whatever the
device answers (42_protocol_engine.md R201 to R204, R206; 43_command_dispatch.md R248, R258). -/
def Obligations.ExchangeBounds : Prop :=
  (∀ (s t : State) (id : Byte), s.lockOwner = noPort ∨ s.lockOwner = portByte s.turn →
    ∀ i ∈ [Instr.exchange, .transact, .callNone id, .callF32 id, .callU32 id, .callU8 id, .callVer id,
      .callId id, .callChunk id, .callPct id], exec i s = .next t →
    ∃ (k : Kind) (n : Byte), t.cur.resKind = some k ∧ t.cur.resResends = some n ∧ n ≤ s.retry
      ∧ (k = .transportReadError ∨ k = .checksumMismatch ∨ k = .commandMismatch → n = s.retry))
  ∧ (∀ s t : State, s.lockOwner = noPort ∨ s.lockOwner = portByte s.turn → exec .exchange s = .next t →
    s.retry = 0 → t.txs = s.txs)
  ∧ (∀ (s t : State) (id : Byte) (cmd len : Half) (arg : Word) (payload : List Byte),
    s.lockOwner = noPort ∨ s.lockOwner = portByte s.turn → s.writesWhole →
    let sent := fun (c : Half) (request : List Byte) =>
      ∃ n : Byte, t.cur.resResends = some n ∧ t.txs
        = s.txs ++ (List.replicate (n.toNat + 1) (requestFrame s.cfg c request)).flatten
    (s.cur.cmd = some cmd → s.cur.len = some len → Memory.read s.cur.txbuf 0 len.toNat = some payload →
      exec .transact s = .next t → sent cmd payload)
    ∧ (∀ i ∈ [Instr.callNone id, .callF32 id, .callU32 id, .callU8 id, .callVer id, .callId id],
      exec i s = .next t → sent (id.setWidth 16) [])
    ∧ (s.cur.arg = some arg → exec (.callPct id) s = .next t →
      sent (id.setWidth 16) (pack32 s.cfg.endian (pctToF32 s.cfg.pct arg))))

/-- A resend that is due, whatever retriable result made it due, while the cache was never filled is
`MF_RESEND_NO_CACHE`; with a valid cache no `EXCHANGE` meets that fault, and a `TRANSACT` or a codec arm never does, because its own send filled the cache
(42_protocol_engine.md R190, R202, R203, R206; 70_reset_and_hazards.md R336). -/
def Obligations.ResendWithoutCache : Prop :=
  (∀ (s : State) (cmd max : Half) (bytes : List Byte) (after rest : List RxItem),
    s.lockOwner = noPort ∨ s.lockOwner = portByte s.turn → s.cur.cmd = some cmd → s.cur.max = some max →
    s.retry ≠ 0 → s.rcValid = false → bytes.length < 6 → s.hears bytes after → stops after rest →
    exec .exchange s = .fault .resendNoCache)
  ∧ (∀ (s : State) (cmd max : Half) (x : State × Reply),
    s.lockOwner = noPort ∨ s.lockOwner = portByte s.turn → s.cur.cmd = some cmd → s.cur.max = some max →
    s.retry ≠ 0 → s.rcValid = false → receiveCore cmd max s = .ok x →
    x.2.kind = .transportReadError ∨ x.2.kind = .checksumMismatch ∨ x.2.kind = .commandMismatch →
    exec .exchange s = .fault .resendNoCache)
  ∧ (∀ (s : State) (id : Byte), ∀ i ∈ [Instr.transact, .callNone id, .callF32 id, .callU32 id, .callU8 id,
      .callVer id, .callId id, .callChunk id, .callPct id], exec i s ≠ .fault .resendNoCache)
  ∧ (∀ s : State, s.rcValid = true → exec .exchange s ≠ .fault .resendNoCache)

/-! ## Transact -/

/-- `TRANSACT` over a channel that takes every byte, with a device that answers at once and correctly: one
request, one reply, no resend (42_protocol_engine.md R206). -/
def Obligations.TransactGood : Prop :=
  ∀ (s : State) (id : Byte) (len max : Half) (request reply : List Byte) (rest : List RxItem),
    s.lockOwner = noPort ∨ s.lockOwner = portByte s.turn → s.cur.cmd = some (id.setWidth 16) →
    s.cur.len = some len → Memory.read s.cur.txbuf 0 len.toNat = some request → s.cur.max = some max →
    s.writesWhole → s.hears (replyFrame s.cfg id 0x00 reply) rest → reply.length ≤ max.toNat →
    reply.length ≤ s.cfg.stageMax →
    exec .transact s = .next ((s.answered id request reply rest).endsExchange .ok 0x00
      (BitVec.ofNat 16 reply.length) 0 .success)

/-- 42_protocol_engine.md R207: a short write of the initial send, of the header or of the payload, ends
`TRANSACT` with `TransportWriteError`; nothing is received and nothing is sent again. -/
def Obligations.TransactSendFails : Prop :=
  ∀ (s : State) (cmd len : Half) (payload : List Byte) (k j : Nat) (script : List Nat),
    s.lockOwner = noPort ∨ s.lockOwner = portByte s.turn → s.cur.cmd = some cmd → s.cur.len = some len →
    Memory.read s.cur.txbuf 0 len.toNat = some payload →
    (s.writeScript = k :: script → k < 8 →
      exec .transact s = .next (({ s with writeScript := script }.sends
        ((requestHeader s.cfg cmd payload).take k)).endsExchange .transportWriteError 0xFF 0 0 .localError))
    ∧ (s.writeScript = k :: j :: script → 8 ≤ k → j < payload.length →
      exec .transact s = .next (({ s with writeScript := script }.sends
        (requestHeader s.cfg cmd payload ++ payload.take j)).endsExchange .transportWriteError 0xFF 0 0
        .localError))

/-! ## The codec arms -/

/-- Every codec arm completes, on every finite answer of the channel, when it owns or can take the lock and the
staging holds any reply; `WR_PCT` also needs `ARG` (43_command_dispatch.md R245, R248 to R258). That an answer
is finite, and that a read past its end is a timeout, is the model's choice: a turn sees the list of what has
come so far (log entries 10, 13 and 22). In the spec an endless run of empty chunks keeps `CALL.RD_CHUNK`
running for ever (R256; 70_reset_and_hazards.md R343); here such a run is one of the engine's single steps. -/
def Obligations.ArmsComplete : Prop :=
  ∀ (s : State) (id : Byte), s.lockOwner = noPort ∨ s.lockOwner = portByte s.turn → 65535 ≤ s.cfg.stageMax →
    completes s (exec (.callNone id) s) ∧ completes s (exec (.callF32 id) s)
    ∧ completes s (exec (.callU32 id) s) ∧ completes s (exec (.callU8 id) s)
    ∧ completes s (exec (.callVer id) s) ∧ completes s (exec (.callId id) s)
    ∧ completes s (exec (.callChunk id) s)
    ∧ (s.cur.arg.isSome = true → completes s (exec (.callPct id) s))

/-- `CALL.NONE` answered with an empty reply is `OK`; with a reply that has a payload it is
`BufferTooSmall`, because the bound is 0 (43_command_dispatch.md R250). -/
def Obligations.CallNoneResult : Prop :=
  ∀ (s : State) (id : Byte) (reply : List Byte) (rest : List RxItem),
    s.lockOwner = noPort ∨ s.lockOwner = portByte s.turn → s.writesWhole →
    s.hears (replyFrame s.cfg id 0x00 reply) rest → reply.length ≤ s.cfg.stageMax → reply.length ≤ 65535 →
    (reply = [] → exec (.callNone id) s =
      .next ((s.answered id [] [] rest).endsExchange .ok 0x00 0 0 .success))
    ∧ (reply ≠ [] → exec (.callNone id) s =
      .next (((((s.sends (requestFrame s.cfg (id.setWidth 16) [])).caches
        (requestHeader s.cfg (id.setWidth 16) []) []).left rest).stages
        (replyHeader s.cfg id 0x00 reply) reply).endsExchange .bufferTooSmall 0xFF
        (BitVec.ofNat 16 reply.length) 0 .localError))

/-- The scalar reads write `RES_VAL`: the float's bits and the u32 in `ENDIAN`, the byte zero-extended
(43_command_dispatch.md R251, R252, R253). -/
def Obligations.ScalarReads : Prop :=
  ∀ (s : State) (id b0 b1 b2 b3 : Byte) (rest : List RxItem),
    s.lockOwner = noPort ∨ s.lockOwner = portByte s.turn → s.writesWhole → 4 ≤ s.cfg.stageMax →
    (s.hears (replyFrame s.cfg id 0x00 [b0, b1, b2, b3]) rest →
      exec (.callF32 id) s = .next (((s.answered id [] [b0, b1, b2, b3] rest).modCur fun p =>
        { p with resVal := some (unpack32 s.cfg.endian b0 b1 b2 b3) }).endsExchange .ok 0x00 4 0 .success)
      ∧ exec (.callU32 id) s = .next (((s.answered id [] [b0, b1, b2, b3] rest).modCur fun p =>
        { p with resVal := some (unpack32 s.cfg.endian b0 b1 b2 b3) }).endsExchange .ok 0x00 4 0 .success))
    ∧ (s.hears (replyFrame s.cfg id 0x00 [b0]) rest →
      exec (.callU8 id) s = .next (((s.answered id [] [b0] rest).modCur fun p =>
        { p with resVal := some (b0.setWidth 32) }).endsExchange .ok 0x00 1 0 .success))

/-- The version read copies the eight bytes of the reply into `VER` (43_command_dispatch.md R254), and the
identity read splits the 68 bytes of the reply at offsets 0, 32, 36 and 52 (R255). -/
def Obligations.BlockReads : Prop :=
  ∀ (s : State) (id : Byte) (payload : List Byte) (rest : List RxItem),
    s.lockOwner = noPort ∨ s.lockOwner = portByte s.turn → s.writesWhole → 68 ≤ s.cfg.stageMax →
    s.hears (replyFrame s.cfg id 0x00 payload) rest →
    (payload.length = 8 → exec (.callVer id) s = .next (((s.answered id [] payload rest).modCur fun p =>
      { p with ver := Memory.write p.ver 0 payload }).endsExchange .ok 0x00 8 0 .success))
    ∧ (∀ (name date1 date2 : List Byte) (b0 b1 b2 b3 : Byte), name.length = 32 → date1.length = 16 →
      date2.length = 16 → payload = name ++ [b0, b1, b2, b3] ++ date1 ++ date2 →
      exec (.callId id) s = .next (((s.answered id [] payload rest).modCur fun p =>
        { p with
          idName := Memory.write p.idName 0 name, idType := some (unpack32 s.cfg.endian b0 b1 b2 b3)
          idDate1 := Memory.write p.idDate1 0 date1
          idDate2 := Memory.write p.idDate2 0 date2 }).endsExchange .ok 0x00 68 0 .success))

/-- The chunked read: the device answers each request with one chunk, and the last one carries the final
mark. `ACC[0:ACC_N]` then holds the chunks one after another, `RXBUF` begins with the last one, one request
was sent for each, and the result describes the last exchange; no other register, no byte beyond the ones
named and no other part of the block changes. Where retriable receives come before a chunk, its request is
resent once for each, `RES_RESENDS` counts those of the last chunk only, and the chunks are accepted as before
(43_command_dispatch.md R256; 42_protocol_engine.md R201). -/
def Obligations.ChunkedRead : Prop :=
  (∀ (s : State) (id : Byte) (chunks : List (List Byte)) (last : List Byte) (rest : List RxItem),
    s.lockOwner = noPort ∨ s.lockOwner = portByte s.turn → s.writesWhole → s.cfg.wf = true →
    (∀ c ∈ chunks, chunkFinal s.cfg c = false) → chunkFinal s.cfg last = true →
    (∀ c ∈ chunks ++ [last], c.length ≤ s.cfg.chunkSize.toNat ∧ c.length ≤ s.cfg.stageMax) →
    (chunks ++ [last]).flatten.length ≤ s.cfg.accMax →
    s.hears ((chunks ++ [last]).flatMap (replyFrame s.cfg id 0x00)) rest →
    ∃ t, exec (.callChunk id) s = .next t
      ∧ chunksRead s t id (chunks ++ [last]) (chunks ++ [last]) last .ok 0x00 rest)
  ∧ (∀ (s : State) (id : Byte) (rounds : List Round) (final : Round) (rest : List RxItem),
    s.lockOwner = noPort ∨ s.lockOwner = portByte s.turn → s.writesWhole → s.cfg.wf = true →
    (∀ r ∈ rounds, chunkFinal s.cfg r.chunk = false) → chunkFinal s.cfg final.chunk = true →
    (∀ r ∈ rounds ++ [final], roundOk s r) → (chunksOf (rounds ++ [final])).length ≤ s.cfg.accMax →
    chunksHeard s.cfg id s.rxs (rounds ++ [final]) rest →
    exec (.callChunk id) s = .next (((s.accepts id (rounds ++ [final])).left rest).endsExchange .ok 0x00
      (BitVec.ofNat 16 final.chunk.length) (BitVec.ofNat 8 final.failures.length) .success))

/-- The percentage write sends the four bytes of the converted `ARG`, which it also leaves in `TXBUF[0:4]`,
whatever the result; an empty correct reply is `OK`, and a correct reply with a payload is `BufferTooSmall` with
its length, because the bound is 0 (43_command_dispatch.md R258). -/
def Obligations.PercentWrite : Prop :=
  ∀ (s : State) (id : Byte) (arg : Word) (reply : List Byte) (rest : List RxItem),
    s.lockOwner = noPort ∨ s.lockOwner = portByte s.turn → s.cur.arg = some arg →
    let bytes := pack32 s.cfg.endian (pctToF32 s.cfg.pct arg)
    let pct := s.modCur fun p => { p with txbuf := Memory.write p.txbuf 0 bytes }
    (s.writesWhole → s.hears (replyFrame s.cfg id 0x00 []) rest →
      exec (.callPct id) s = .next ((pct.answered id bytes [] rest).endsExchange .ok 0x00 0 0 .success))
    ∧ (s.writesWhole → s.hears (replyFrame s.cfg id 0x00 reply) rest → reply ≠ [] →
      reply.length ≤ s.cfg.stageMax → reply.length ≤ 65535 →
      exec (.callPct id) s = .next (pct.answeredTooLong id bytes reply rest))
    ∧ (∀ t, exec (.callPct id) s = .next t → t.cur.txbuf = Memory.write s.cur.txbuf 0 bytes)

/-- The reference conversion, which the model has beside the device's open one (log entry 3), on the spec's
reference values (43_command_dispatch.md R259), and its rounding to nearest, ties to even: the significand `m`
and the exponent `x` of the result lie within half a unit of the last place of the exact quotient, and within a
quarter below a power of two, where the next float is half a unit away; `m` is even where the quotient lies
exactly half a unit away; and the sign is the argument's. -/
def Obligations.PercentReference : Prop :=
  (pctReference 0 = 0x00000000 ∧ pctReference 1 = 0x3C23D70A ∧ pctReference (-1) = 0xBC23D70A
    ∧ pctReference 50 = 0x3F000000 ∧ pctReference 100 = 0x3F800000 ∧ pctReference 5000 = 0x42480000
    ∧ pctReference (-250) = 0xC0200000 ∧ pctReference 12345 = 0x42F6E666
    ∧ pctReference 0x7FFFFFFF = 0x4BA3D70A ∧ pctReference 0x80000000 = 0xCBA3D70A)
  ∧ (∀ v : Word, v ≠ 0 →
    let f := pctReference v
    let x := f.toNat / 2 ^ 23 % 256
    let m := 2 ^ 23 + f.toNat % 2 ^ 23
    let result := 2 * (100 * m * 2 ^ (x - 120))
    let exact := 2 * (v.toInt.natAbs * 2 ^ 30)
    let halfUnit := 100 * 2 ^ (x - 120)
    f.msb = v.msb ∧ 120 ≤ x ∧ result ≤ exact + halfUnit ∧ exact ≤ result + halfUnit
      ∧ (m = 2 ^ 23 → 2 * result ≤ 2 * exact + halfUnit)
      ∧ (result = exact + halfUnit ∨ exact = result + halfUnit → m % 2 = 0))

/-- The arms on results other than `OK`. `RES_VAL`, `VER` and the identity registers are as before, for `CALL`
too (43_command_dispatch.md R263). A correct reply shorter than its kind's shape is `PayloadShort` with its
length (R249), and one longer than the bound, a chunk longer than `CHUNK_SIZE` included, is `BufferTooSmall` with
its length, and `RXBUF` is as before (R248, R249, R256). A short write of an arm's own send ends it with
`TransportWriteError`, nothing received and no resend (R248, R256, R258). A chunked read that fails after
accepted chunks, by `AccOverflow`, by a receive that is not `OK`, or by a short write of a later send or resend,
keeps those chunks in `ACC[0:ACC_N]`, and `RES_LEN` and `RES_RESENDS` describe the last exchange only (R256). -/
def Obligations.ArmFailures : Prop :=
  (∀ (s t : State) (id : Byte), ∀ i ∈ [Instr.call, .callNone id, .callF32 id, .callU32 id, .callU8 id,
      .callVer id, .callId id, .callChunk id, .callPct id], exec i s = .next t → t.cur.resKind ≠ some .ok →
    armRegistersKept s.cur t.cur)
  ∧ (∀ (s : State) (id : Byte) (chunks : List (List Byte)) (beyond : List Byte) (rest : List RxItem),
    s.lockOwner = noPort ∨ s.lockOwner = portByte s.turn → s.writesWhole → s.cfg.wf = true →
    (∀ c ∈ chunks, chunkFinal s.cfg c = false) →
    (∀ c ∈ chunks ++ [beyond], c.length ≤ s.cfg.chunkSize.toNat ∧ c.length ≤ s.cfg.stageMax) →
    chunks.flatten.length ≤ s.cfg.accMax → s.cfg.accMax < (chunks ++ [beyond]).flatten.length →
    s.hears ((chunks ++ [beyond]).flatMap (replyFrame s.cfg id 0x00)) rest →
    ∃ t, exec (.callChunk id) s = .next t
      ∧ chunksRead s t id (chunks ++ [beyond]) chunks beyond .accOverflow 0xFF rest)
  ∧ (∀ (s : State) (id : Byte) (reply : List Byte) (rest : List RxItem),
    s.lockOwner = noPort ∨ s.lockOwner = portByte s.turn → s.writesWhole → reply.length ≤ s.cfg.stageMax →
    s.hears (replyFrame s.cfg id 0x00 reply) rest →
    let t := (s.answered id [] reply rest).endsExchange .payloadShort 0xFF (BitVec.ofNat 16 reply.length) 0
      .success
    let long := s.answeredTooLong id [] reply rest
    let chunk := s.modCur fun p => { p with accN := some 0 }
    (reply.length < 4 → exec (.callF32 id) s = .next t ∧ exec (.callU32 id) s = .next t)
    ∧ (reply = [] → exec (.callU8 id) s = .next t)
    ∧ (reply.length < 8 → exec (.callVer id) s = .next t)
    ∧ (reply.length < 68 → exec (.callId id) s = .next t)
    ∧ (reply.length ≤ s.cfg.chunkSize.toNat → s.cfg.accMax < reply.length →
      exec (.callChunk id) s = .next ((chunk.answered id [] reply rest).endsExchange .accOverflow 0xFF
        (BitVec.ofNat 16 reply.length) 0 .success))
    ∧ (reply.length ≤ 65535 →
      (4 < reply.length → exec (.callF32 id) s = .next long ∧ exec (.callU32 id) s = .next long)
      ∧ (1 < reply.length → exec (.callU8 id) s = .next long)
      ∧ (8 < reply.length → exec (.callVer id) s = .next long)
      ∧ (68 < reply.length → exec (.callId id) s = .next long)
      ∧ (s.cfg.chunkSize.toNat < reply.length →
        exec (.callChunk id) s = .next (chunk.answeredTooLong id [] reply rest))))
  ∧ (∀ (s : State) (id : Byte) (arg : Word) (counts script : List Nat) (part : List Byte),
    s.lockOwner = noPort ∨ s.lockOwner = portByte s.turn → s.writeScript = counts →
    let bytes := pack32 s.cfg.endian (pctToF32 s.cfg.pct arg)
    let cut := fun (i : Instr) (u : State) (sent : List Byte) =>
      cutWrite (requestHeader s.cfg (id.setWidth 16) sent) sent part counts script →
      exec i s = .next (u.resendCut 0 0 (requestFrame s.cfg (id.setWidth 16) sent) part s.rxs script)
    (∀ i ∈ [Instr.callNone id, .callF32 id, .callU32 id, .callU8 id, .callVer id, .callId id], cut i s [])
    ∧ cut (.callChunk id) (s.modCur fun p => { p with accN := some 0 }) []
    ∧ (s.cur.arg = some arg →
      cut (.callPct id) (s.modCur fun p => { p with txbuf := Memory.write p.txbuf 0 bytes }) bytes))
  ∧ (∀ (s : State) (id : Byte) (rounds : List Round) (xs : List Failure) (mid rest : List RxItem),
    s.lockOwner = noPort ∨ s.lockOwner = portByte s.turn → s.cfg.wf = true →
    (∀ r ∈ rounds, roundOk s r ∧ chunkFinal s.cfg r.chunk = false) →
    (chunksOf rounds).length ≤ s.cfg.accMax → chunksHeard s.cfg id s.rxs rounds mid →
    let header := requestHeader s.cfg (id.setWidth 16) []
    let u := s.accepts id rounds
    (∀ x : Failure, s.writesWhole →
      exchangeFails s (id.setWidth 16) s.cfg.chunkSize mid xs x rest →
      exec (.callChunk id) s
        = .next ((u.sends (List.replicate (xs.length + 1) header).flatten).fails xs x rest))
    ∧ (∀ beyond : Round, s.writesWhole → roundOk s beyond →
      s.cfg.accMax < (chunksOf rounds).length + beyond.chunk.length →
      chunksHeard s.cfg id mid [beyond] rest →
      exec (.callChunk id) s = .next ((((u.heard id beyond).sends
        (List.replicate (requestsOf [beyond]) header).flatten).left rest).endsExchange .accOverflow 0xFF
        (BitVec.ofNat 16 beyond.chunk.length) (BitVec.ofNat 8 beyond.failures.length) .success))
    ∧ (∀ (whole script : List Nat) (k : Nat), rounds ≠ [] ∨ xs ≠ [] → xs.length ≤ s.retry.toNat →
      retried s.cfg (id.setWidth 16) mid xs rest → wholeCounts (requestsOf rounds + xs.length) whole → k < 8 →
      s.writeScript = whole ++ k :: script →
      exec (.callChunk id) s
        = .next ((xs.foldl State.failed u).resendCut xs.length xs.length header (header.take k) rest script)))

/-! ## Dispatch -/

/-- `CALL` runs the arm its lookup selects, for every kind of the mux, and no configured block meets an
entry without one (43_command_dispatch.md R242, R245, R247). -/
def Obligations.CallRunsArm : Prop :=
  (∀ (s : State) (cmd : Half) (e : Entry), s.cur.cmd = some cmd → lookup s.cfg.registry cmd = some e →
    (e.kind = 0 → exec .call s = exec (.callNone e.id) s) ∧ (e.kind = 1 → exec .call s = exec (.callF32 e.id) s)
    ∧ (e.kind = 2 → exec .call s = exec (.callU32 e.id) s) ∧ (e.kind = 3 → exec .call s = exec (.callU8 e.id) s)
    ∧ (e.kind = 4 → exec .call s = exec (.callVer e.id) s) ∧ (e.kind = 5 → exec .call s = exec (.callId e.id) s)
    ∧ (e.kind = 6 → exec .call s = exec (.callChunk e.id) s)
    ∧ (e.kind = 7 → exec .call s = exec (.callPct e.id) s))
  ∧ (∀ (s : State) (r : Refusal), s.cfg.wf = true → exec .call s ≠ .refused r)

/-- 43_command_dispatch.md R246: an unknown identifier ends `CALL` with `NoSuchCommand`, whoever owns the
lock, and touches neither the lock, the channel, the exchange state machine, the retry cache nor `RES_LEN`. -/
def Obligations.NoSuchCommand : Prop :=
  ∀ (s : State) (cmd : Half), s.cur.cmd = some cmd → lookup s.cfg.registry cmd = none →
    exec .call s = .next (s.finishes .noSuchCommand 0xFF)

/-- 43_command_dispatch.md R241: an identifier of 0x100 or more finds nothing, a smaller one finds the
entry that has it, the order of the entries has no effect, and no step writes the registry. -/
def Obligations.LookupRule : Prop :=
  (∀ (es : List Entry) (c : Half), 0x100 ≤ c.toNat → lookup es c = none)
  ∧ (∀ (es : List Entry) (c : Half), c.toNat < 0x100 →
    (∀ e, lookup es c = some e → e ∈ es ∧ e.id = c.setWidth 8)
    ∧ (lookup es c = none → ∀ e ∈ es, e.id ≠ c.setWidth 8))
  ∧ (∀ (es ds : List Entry) (c : Half), uniqueIds es = true → es.Perm ds → lookup ds c = lookup es c)
  ∧ (∀ s t : State, step s = .next t → t.cfg.registry = s.cfg.registry)

/-- The two commands the spec names, in a configured block whose staging holds eight bytes, over a channel that
takes every byte, with a device that answers at once and correctly: a `CALL` of each completes with the version
in `VER` and with an empty result (43_command_dispatch.md R243, R245). That the rows `CMD.VERSION_QUERY` and
`CMD.SHUTDOWN` write the command into `CMD` and then mean that `CALL` is the model's choice (log entry 19). -/
def Obligations.NamedCommands : Prop :=
  ∀ (s : State) (payload : List Byte) (rest : List RxItem), s.cfg.wf = true →
    s.lockOwner = noPort ∨ s.lockOwner = portByte s.turn → s.writesWhole → 8 ≤ s.cfg.stageMax →
    let v := s.modCur fun p => { p with cmd := some 0x0042 }
    let d := s.modCur fun p => { p with cmd := some 0x0062 }
    (payload.length = 8 → s.hears (replyFrame s.cfg 0x42 0x00 payload) rest →
      exec .cmdVersionQuery s = .next (((v.answered 0x42 [] payload rest).modCur fun p =>
        { p with ver := Memory.write p.ver 0 payload }).endsExchange .ok 0x00 8 0 .success)
      ∧ exec .call v = exec .cmdVersionQuery s)
    ∧ (s.hears (replyFrame s.cfg 0x62 0x00 []) rest →
      exec .cmdShutdown s = .next ((d.answered 0x62 [] [] rest).endsExchange .ok 0x00 0 0 .success)
      ∧ exec .call d = .next ((d.answered 0x62 [] [] rest).endsExchange .ok 0x00 0 0 .success))

/-- The frames as instructions: a request goes out byte by byte in the layout of 30_encoding.md R106, a reply
arrives behind what the device sent before in the layout of R108. The layouts are the spec's; that a frame, as
an instruction, is its own transmission or its own arrival is the model's choice (log entries 20 and 21). -/
def Obligations.FrameRows : Prop :=
  (∀ (s : State) (cmd len cks : Half) (payload : List Byte), s.writesWhole →
    exec (.frameRequest cmd len cks payload) s = .next (s.sends (pack16 s.cfg.endian cmd
      ++ pack16 s.cfg.endian len ++ pack16 s.cfg.endian 0 ++ pack16 s.cfg.endian cks ++ payload)))
  ∧ (∀ (s : State) (cmd st : Byte) (len cks : Half) (payload : List Byte),
    exec (.frameReply cmd st len cks payload) s = .next (s.left (s.rxs ++ ([cmd, st] ++ pack16 s.cfg.endian len
      ++ pack16 s.cfg.endian cks ++ payload).map RxItem.byte)))

/-! ## Steps -/

/-- A turn of a busy port runs the operation its `OPC` decodes to, as that port, and uses up the turn; so
does the first step of an operation that does not use the channel (30_encoding.md R101; that turns are events
is the model's choice, log entries 12 and 13). -/
def Obligations.StepRunsDecoded : Prop :=
  ∀ (s : State) (p : Fin 16) (rest : List Event) (i : Instr), p.val < s.cfg.nports →
    (s.port p).busy = true → s.engineOn p = false → decode .le .opc [(s.port p).opc] = .ok (i, []) →
    i.wf = true
    ∧ (s.inputs = .turn p :: rest → step s = exec i { s with inputs := rest, turn := p })
    ∧ (s.inputs = .begin p :: rest →
      i = .crc ∨ i = .encreq ∨ i = .decreq ∨ i = .encrep ∨ i = .decrep ∨ i = .lock ∨ i = .unlock ∨ i = .setretry →
      step s = exec i { s with inputs := rest, turn := p })

/-- Whatever a port's turn runs, whole or only its first step, the registers of the other ports, the
parameters and the coming events stay; so do the port's own `OPC`, `CMD`, `LEN`, `MAX`, `SEED` and `ARG`, its
header-field registers but in the two decoders, `HBUF` and `HBN` but in the two encoders, and `TXBUF` but in
`WR_PCT`, which writes the converted `ARG` at its front; bytes are only added behind the bytes sent and only
taken from the front of the bytes received; and a turn's operation has ended with a result, or holds, or is one
the engine is still in the middle of (10_state.md R31 to R33, R39, R40, R42, R59; 60_exceptions.md R310; turns
are the model's form, log entries 12 and 13). -/
def Obligations.TurnFrame : Prop :=
  ∀ (s t : State) (p : Fin 16), (takeTurn p s = .next t ∨ beginTurn p s = .next t) →
    operandsKept (s.port p) (t.port p)
    ∧ ((s.port p).opc ≠ 0x03 → (s.port p).opc ≠ 0x05 → headerFieldsKept (s.port p) (t.port p))
    ∧ ((s.port p).opc ≠ 0x02 → (s.port p).opc ≠ 0x04 →
      (t.port p).hbuf = (s.port p).hbuf ∧ (t.port p).hbn = (s.port p).hbn)
    ∧ ((t.port p).txbuf = (s.port p).txbuf
      ∨ ∃ cmd e arg, (s.port p).opc = 0x30 ∧ (s.port p).cmd = some cmd ∧ lookup s.cfg.registry cmd = some e
        ∧ e.kind = 7 ∧ (s.port p).arg = some arg
        ∧ (t.port p).txbuf = Memory.write (s.port p).txbuf 0 (pack32 s.cfg.endian (pctToF32 s.cfg.pct arg)))
    ∧ (∀ q : Fin 16, q ≠ p → t.port q = s.port q) ∧ t.cfg = s.cfg ∧ t.inputs = s.inputs ∧ t.reads = s.reads
    ∧ t.free = s.free ∧ s.txs <+: t.txs ∧ t.rxs <:+ s.rxs ∧ s.log <+: t.log
    ∧ (s.hasTurn p = true → s.engineOn p = false →
      let ended :=
        (t.port p).busy = false ∧ (t.port p).resKind.isSome = true ∧ (t.port p).resStatus.isSome = true
      (takeTurn p s = .next t → ended ∨ t = { s with turn := p })
      ∧ (beginTurn p s = .next t →
        ended ∨ t = { s with turn := p } ∨ (t.engineOn p = true ∧ (t.port p).busy = true)))

/-- A port that does not own the lock another port owns can change nothing shared by its turn: not the lock,
the retry count, the retry cache, the staging, the exchange state machine, the log or the channel
(42_protocol_engine.md R182, R184; 20_memory.md R89). -/
def Obligations.LockExclusion : Prop :=
  ∀ (s t : State) (p : Fin 16), s.lockOwner ≠ noPort → s.lockOwner ≠ portByte p → s.engineOn p = false →
    (takeTurn p s = .next t ∨ beginTurn p s = .next t) →
    controlKept s t ∧ buffersKept s t ∧ channelKept s t

/-! ## The host interface -/

/-- A host write to a writable register and a read of the same bytes: the read returns the bytes written,
the least significant at the lowest address, whatever `ENDIAN` is; every byte that held a value and was not
written keeps it; a byte of `TXBUF` or `HBUF` that was not written and held no value, and a register the write
does not name, keep having none; and nothing the host does not reach changes: not the lock, `G.ACTIVE`, the
exchange state machine, the log, the retry cache, the staging, the channel, the parameters or the coming events
(20_memory.md R73, R74, R76; 10_state.md R62, R64). -/
def Obligations.HostWriteThenRead : Prop :=
  ∀ (s t : State) (addr : BitVec 24) (size : Nat) (v : Word) (r : Row),
    findRow s.cfg.accMax (addrOffset addr) size = some r → r.reg ≠ .opc →
    hostAccess ⟨addr, size, some v⟩ s = .next t →
    hostAccess ⟨addr, size, none⟩ t
      = .next { t with reads := t.reads ++ [v &&& (BitVec.allOnes 32 >>> (32 - 8 * size))] }
    ∧ controlKept s t ∧ buffersKept s t ∧ channelKept s t ∧ t.cfg = s.cfg ∧ t.inputs = s.inputs
    ∧ t.reads = s.reads ∧ t.turn = s.turn
    ∧ ∀ (p : Fin 16) (reg : HostReg) (k : Nat),
      (p = addrPort addr → reg = r.reg → k < r.size →
        (k < addrOffset addr - r.off ∨ addrOffset addr - r.off + size ≤ k) →
        (∀ b, hostByte s p reg k = some b → hostByte t p reg k = some b)
        ∧ (reg = .txbuf ∨ reg = .hbuf → hostByte t p reg k = hostByte s p reg k))
      ∧ (p ≠ addrPort addr ∨ reg ≠ r.reg → hostByte t p reg k = hostByte s p reg k)

/-- The checks on a host access, in order: an unmapped address or an absent port, then alignment, then a
busy port, then a write to a read-only row, then a read of a register without a value; a write that passes
them takes effect, whether its register held a value or not, and a read that passes them changes nothing
(20_memory.md R72 to R76; 60_exceptions.md R295, R301). That an access of size 0 is misaligned at a byte of a row
and unmapped elsewhere, and that an access which leaves its row is unmapped before it is misaligned, against
vector MF3, is the model's choice (log entry 23). -/
def Obligations.HostChecks : Prop :=
  ∀ (s : State) (a : Access),
    let p := addrPort a.addr
    (s.cfg.nports ≤ p.val ∨ findRow s.cfg.accMax (addrOffset a.addr) a.size = none →
      hostAccess a s = .fault .hostUnmapped)
    ∧ (∀ r, p.val < s.cfg.nports → findRow s.cfg.accMax (addrOffset a.addr) a.size = some r →
      (aligned a.addr a.size = false → hostAccess a s = .fault .hostMisaligned)
      ∧ (aligned a.addr a.size = true → (s.port p).busy = true →
        (a.data.isSome = true ∨ readableWhileBusy r.reg = false) → hostAccess a s = .fault .hostBusy)
      ∧ (aligned a.addr a.size = true → (s.port p).busy = false → a.data.isSome = true → r.writable = false →
        hostAccess a s = .fault .hostRo)
      ∧ (∀ v, aligned a.addr a.size = true → (s.port p).busy = false → a.data = some v → r.writable = true →
        hostAccess a s = .next (hostWrite p r.reg (addrOffset a.addr - r.off) a.size v s))
      ∧ (aligned a.addr a.size = true → (s.port p).busy = false ∨ readableWhileBusy r.reg = true →
        a.data = none →
        (hostValue s p r.reg (addrOffset a.addr - r.off) a.size = none → hostAccess a s = .fault .unwritten)
        ∧ (∀ v, hostValue s p r.reg (addrOffset a.addr - r.off) a.size = some v →
          hostAccess a s = .next { s with reads := s.reads ++ [v] })))

/-- A host write to the `OPC` of an idle port stores the code and sets `BUSY`, and nothing else, whatever the
code (30_encoding.md R101; 20_memory.md R74). That the write is a step of its own, which leaves `BUSY` at 1 and
the result registers as they were until a later turn of the port, is the model's choice, for an unassigned code
too, whose operation R103 ends at once (log entries 12 and 25). -/
def Obligations.OpcWriteStarts : Prop :=
  ∀ (s : State) (p : Fin 16) (v : Word), p.val < s.cfg.nports → (s.port p).busy = false →
    hostAccess ⟨BitVec.ofNat 24 (p.val * 0x100000), 1, some v⟩ s
      = .next (s.modPort p fun q => { q with opc := v.setWidth 8, busy := true })

/-! ## Reset -/

/-- 70_reset_and_hazards.md R330: the values of 10_state.md R65, every element of its table that is the block's
own, for a block of any parameters; "no value" is the spec's own (10_state.md R62). -/
def Obligations.ResetValues : Prop :=
  ∀ c : Params,
    (∀ p : Fin 16,
      let q := (State.resetWith c).port p
      q.opc = 0x00 ∧ q.busy = false ∧ q.cmd = none ∧ q.len = none ∧ q.max = none ∧ q.seed = none ∧ q.arg = none
      ∧ q.hCmd = none ∧ q.hSt = none ∧ q.hLen = none ∧ q.hRsv = none ∧ q.hCks = none ∧ q.hbn = none
      ∧ q.resKind = none ∧ q.resStatus = none ∧ q.resLen = none ∧ q.resVal = none ∧ q.resResends = none
      ∧ q.idType = none ∧ q.accN = none
      ∧ ∀ a, Memory.get q.hbuf a = none ∧ Memory.get q.txbuf a = none ∧ Memory.get q.rxbuf a = none
        ∧ Memory.get q.ver a = none ∧ Memory.get q.idName a = none ∧ Memory.get q.idDate1 a = none
        ∧ Memory.get q.idDate2 a = none ∧ Memory.get q.acc a = none)
    ∧ (State.resetWith c).lockOwner = 0xFF ∧ (State.resetWith c).retry = c.retryReset
    ∧ (State.resetWith c).rcValid = false ∧ (State.resetWith c).fsm = .idle ∧ fsmCode .idle = 0
    ∧ (State.resetWith c).active = 0xFF ∧ (State.resetWith c).log = []
    ∧ (State.resetWith c).engine = none ∧ (State.resetWith c).rcLen = none
    ∧ ∀ a, Memory.get (State.resetWith c).rcHdr a = none ∧ Memory.get (State.resetWith c).rcPay a = none
      ∧ Memory.get (State.resetWith c).stageHdr a = none ∧ Memory.get (State.resetWith c).stage a = none

/-- Reset may come at any step; it abandons every operation and every hold without a result, the bytes sent and
the bytes not yet read stay as they are, to be read by the next receive (70_reset_and_hazards.md R331), and
every other element of the block has its value of R330. That reset comes as an event, and that the coming write
counts and the parameters stay through it, is the model's form of it (log entries 12 and 15). -/
def Obligations.ResetEvent : Prop :=
  ∀ (s : State) (rest : List Event), s.inputs = .reset :: rest →
    ∃ t, step s = .next t ∧ channelKept s t ∧ t.cfg = s.cfg ∧ t.engine = none
      ∧ t.lockOwner = noPort ∧ t.rcValid = false ∧ t.retry = s.cfg.retryReset ∧ t.fsm = .idle
      ∧ t.active = noPort ∧ t.log = [] ∧ (∀ p : Fin 16, t.port p = Port.reset)
      ∧ t.rcHdr = [] ∧ t.rcLen = none ∧ t.rcPay = [] ∧ t.stageHdr = [] ∧ t.stage = []
      ∧ t = { State.resetWith s.cfg with
          txs := s.txs, rxs := s.rxs, writeScript := s.writeScript
          inputs := rest, reads := s.reads, free := s.free }

/-! ## Invariants -/

/-- Every step, from any state in which the invariant holds, keeps it: the byte stores stay canonical and
inside their sizes, the lock is free or a present port's, a free lock means an idle state machine and no
running operation, a running operation's port is busy and owns the lock and `G.FSM` shows its phase, the
result registers hold a kind with its status, the accumulator holds the bytes `ACC_N` counts, and a valid
cache holds a whole request (42_protocol_engine.md R185, R211; 60_exceptions.md R293; 10_state.md R52, R57). -/
def Obligations.StepKeepsInvariant : Prop := ∀ s t : State, s.Inv → step s = .next t → t.Inv

/-- The machine after reset satisfies the invariant, whatever further entries its registry holds. -/
def Obligations.ResetInvariant : Prop := State.reset.Inv

/-- Each step of the engine takes one transition of the exchange state machine, or none
(42_protocol_engine.md R210, R211). That the engine's step is one channel call with the write of `G.FSM` it
leads to, so that no step makes two, is the model's choice (log entry 13). -/
def Obligations.FsmTransitions : Prop :=
  ∀ s t : State, s.Inv → engineStep s = .next t →
    t.fsm = s.fsm ∨ t.fsm = .idle ∨ t.fsm = .sending
    ∨ (s.fsm = .sending ∧ (t.fsm = .localError ∨ t.fsm = .awaitingReply))
    ∨ (s.fsm = .awaitingReply ∧ (t.fsm = .success ∨ t.fsm = .localError ∨ t.fsm = .deviceError))
    ∨ (s.fsm = .localError ∧ t.fsm = .resending)
    ∨ (s.fsm = .resending ∧ (t.fsm = .localError ∨ t.fsm = .awaitingReply))

/-- A channel operation that is run one engine step at a time, with nothing between its steps, ends as the
same operation run in one step: with the same state, or the same fault, or holding (20_memory.md R87, R88; that
the model has both forms is its own choice, log entry 13). -/
def Obligations.SteppedIsAtomic : Prop :=
  ∀ (s : State) (i : Instr) (job : Job), s.engine = none → jobOf i s = some job → ∃ n, ∀ m, n ≤ m →
    (match beginJob job s with
      | .next u => runEngine m u
      | .fault f => .fault f
      | .refused r => .refused r) = exec i s

/-! ## Completion and resends -/

/-- An operation's results become visible together. A step of the engine that does not end its operation leaves
`RES_KIND`, `RES_STATUS`, `RES_LEN`, `RES_RESENDS`, `RES_VAL`, `VER` and the identity registers of every port
as they were, and in a `SEND` the retry cache too, which changes with that `SEND`'s completion. A step that
ends it leaves its port idle with a result and no operation under way (20_memory.md R87; 60_exceptions.md R297;
42_protocol_engine.md R190; the single steps are the model's form, log entry 13). -/
def Obligations.ResultsTogether : Prop :=
  ∀ (s t : State) (e : Engine), s.engine = some e → engineStep s = .next t →
    ((∀ p : Fin 16, resultsKept (s.port p) (t.port p) ∧ (t.port p).busy = (s.port p).busy)
      ∧ t.engine.isSome = true
      ∧ (e.job = .send → t.rcValid = s.rcValid ∧ t.rcHdr = s.rcHdr ∧ t.rcLen = s.rcLen ∧ t.rcPay = s.rcPay))
    ∨ (t.engine = none ∧ t.active = noPort ∧ (t.port s.turn).busy = false
      ∧ (t.port s.turn).resKind.isSome = true ∧ (t.port s.turn).resStatus.isSome = true
      ∧ (t.port s.turn).resLen.isSome = true ∧ ∀ p : Fin 16, p ≠ s.turn → t.port p = s.port p)

/-- `TRANSACT` and the codec arms with resends, over a channel that takes every byte: what is resent is the
request that the operation's own send cached, verbatim. After `n` retriable receives, at most as many as
`G.RETRY`, a correct reply gives the result it would have given at once, with `RES_RESENDS` = `n`. The operation
ends with its last receive's own kind, status, length, state and log entry, and no further byte is sent, where
that receive gives `DeviceReportedError`, `ProtocolStatusError` or `BufferTooSmall`, for an arm against its
kind's bound, whatever `n` is, and where it is retriable too and `n` = `G.RETRY`. A resend whose write is short
ends it with `TransportWriteError` and `RES_LEN` 0: that resend is counted, no receive follows it, and the bytes
that went stay sent (42_protocol_engine.md R190, R193 to R198, R201 to R206; 43_command_dispatch.md R248 to
R258; 10_state.md R44). -/
def Obligations.OwnRequestResent : Prop :=
  ∀ (s : State) (id : Byte) (len max : Half) (arg : Word) (request : List Byte) (xs : List Failure)
      (rest : List RxItem),
    s.lockOwner = noPort ∨ s.lockOwner = portByte s.turn →
    let bytes := pack32 s.cfg.endian (pctToF32 s.cfg.pct arg)
    let pct := fun u : State => u.modCur fun p => { p with txbuf := Memory.write p.txbuf 0 bytes }
    let chunk := fun u : State => u.modCur fun p => { p with accN := some 0 }
    let done : State → Host.Outcome State Fault Refusal := .next
    (∀ (reply : List Byte) (mid : List RxItem), s.writesWhole → xs.length ≤ s.retry.toNat →
      reply.length ≤ s.cfg.stageMax → retried s.cfg (id.setWidth 16) s.rxs xs mid →
      mid = (replyFrame s.cfg id 0x00 reply).map RxItem.byte ++ rest →
      let failed := xs.foldl State.failed s
      let u := failed.answeredAfter xs.length id [] reply rest
      let ends := fun t : State =>
        t.endsExchange .ok 0x00 (BitVec.ofNat 16 reply.length) (BitVec.ofNat 8 xs.length) .success
      (s.cur.cmd = some (id.setWidth 16) → s.cur.len = some len →
        Memory.read s.cur.txbuf 0 len.toNat = some request → s.cur.max = some max → reply.length ≤ max.toNat →
        exec .transact s = done (ends (failed.answeredAfter xs.length id request reply rest)))
      ∧ (reply = [] → exec (.callNone id) s = done (ends u))
      ∧ (∀ b0 b1 b2 b3, reply = [b0, b1, b2, b3] →
        let v := u.modCur fun p => { p with resVal := some (unpack32 s.cfg.endian b0 b1 b2 b3) }
        exec (.callF32 id) s = done (ends v) ∧ exec (.callU32 id) s = done (ends v))
      ∧ (∀ b0, reply = [b0] → exec (.callU8 id) s
        = done (ends (u.modCur fun p => { p with resVal := some (b0.setWidth 32) })))
      ∧ (reply.length = 8 → exec (.callVer id) s
        = done (ends (u.modCur fun p => { p with ver := Memory.write p.ver 0 reply })))
      ∧ (∀ (name date1 date2 : List Byte) (b0 b1 b2 b3 : Byte), name.length = 32 → date1.length = 16 →
        date2.length = 16 → reply = name ++ [b0, b1, b2, b3] ++ date1 ++ date2 →
        exec (.callId id) s = done (ends (u.modCur fun p =>
          { p with
            idName := Memory.write p.idName 0 name, idType := some (unpack32 s.cfg.endian b0 b1 b2 b3)
            idDate1 := Memory.write p.idDate1 0 date1, idDate2 := Memory.write p.idDate2 0 date2 })))
      ∧ (chunkFinal s.cfg reply = true → reply.length ≤ s.cfg.chunkSize.toNat → reply.length ≤ s.cfg.accMax →
        exec (.callChunk id) s = done (ends (((chunk failed).answeredAfter xs.length id [] reply
          rest).modCur fun p =>
            { p with acc := Memory.write p.acc 0 reply, accN := some (BitVec.ofNat 32 reply.length) })))
      ∧ (reply = [] → s.cur.arg = some arg → exec (.callPct id) s
        = done (ends ((pct failed).answeredAfter xs.length id bytes [] rest))))
    ∧ (∀ (cmd : Half) (x : Failure), s.writesWhole →
      let fails := fun (i : Instr) (c bound : Half) (u : State) (sent : List Byte) =>
        exchangeFails s c bound s.rxs xs x rest →
        exec i s = done (((u.sends (List.replicate (xs.length + 1) (requestFrame s.cfg c sent)).flatten).caches
          (requestHeader s.cfg c sent) sent).fails xs x rest)
      (s.cur.cmd = some cmd → s.cur.len = some len → Memory.read s.cur.txbuf 0 len.toNat = some request →
        s.cur.max = some max → fails .transact cmd max s request)
      ∧ fails (.callNone id) (id.setWidth 16) 0 s [] ∧ fails (.callF32 id) (id.setWidth 16) 4 s []
      ∧ fails (.callU32 id) (id.setWidth 16) 4 s [] ∧ fails (.callU8 id) (id.setWidth 16) 1 s []
      ∧ fails (.callVer id) (id.setWidth 16) 8 s [] ∧ fails (.callId id) (id.setWidth 16) 68 s []
      ∧ fails (.callChunk id) (id.setWidth 16) s.cfg.chunkSize (chunk s) []
      ∧ (s.cur.arg = some arg → fails (.callPct id) (id.setWidth 16) 0 (pct s) bytes))
    ∧ (xs ≠ [] → xs.length ≤ s.retry.toNat →
      let cut := fun (i : Instr) (c : Half) (u : State) (sent : List Byte) =>
        ∀ (whole counts script : List Nat) (part : List Byte), retried s.cfg c s.rxs xs rest →
          wholeCounts (xs.length * frameWrites sent) whole →
          cutWrite (requestHeader s.cfg c sent) sent part counts script →
          s.writeScript = whole ++ counts →
          exec i s = done ((xs.foldl State.failed (u.caches (requestHeader s.cfg c sent) sent)).resendCut
            xs.length xs.length (requestFrame s.cfg c sent) part rest script)
      (∀ cmd, s.cur.cmd = some cmd → s.cur.len = some len →
        Memory.read s.cur.txbuf 0 len.toNat = some request → s.cur.max = some max → cut .transact cmd s request)
      ∧ (∀ i ∈ [Instr.callNone id, .callF32 id, .callU32 id, .callU8 id, .callVer id, .callId id],
        cut i (id.setWidth 16) s [])
      ∧ cut (.callChunk id) (id.setWidth 16) (chunk s) []
      ∧ (s.cur.arg = some arg → cut (.callPct id) (id.setWidth 16) (pct s) bytes))
end

