-- ==== Sys2Proof/Laws/Bytes.lean ====
section
/-! SUPPORT. Byte order and header layouts: `pack` and `unpack` are inverse, and how long the headers are. -/

namespace Sys2Proof.Machine

theorem byteAt_toNat {w : Nat} (v : BitVec w) (k : Nat) :
    (byteAt v k).toNat = v.toNat / 2 ^ (8 * k) % 256 := by
  simp [byteAt, BitVec.extractLsb'_toNat, Nat.shiftRight_eq_div_pow]

theorem append_toNat {w : Nat} (x : BitVec w) (y : Byte) :
    (x ++ y).toNat = x.toNat * 256 + y.toNat := by
  rw [BitVec.toNat_append, ← Nat.shiftLeft_add_eq_or_of_lt y.isLt, Nat.shiftLeft_eq]

theorem byteAt_append_high (b0 b1 : Byte) : byteAt (b1 ++ b0 : Half) 1 = b1 :=
  BitVec.eq_of_toNat_eq (by
    rw [byteAt_toNat, show (b1 ++ b0 : Half).toNat = _ from append_toNat b1 b0]
    have := b0.isLt; have := b1.isLt; omega)

theorem byteAt_append_low (b0 b1 : Byte) : byteAt (b1 ++ b0 : Half) 0 = b0 :=
  BitVec.eq_of_toNat_eq (by
    rw [byteAt_toNat, show (b1 ++ b0 : Half).toNat = _ from append_toNat b1 b0]
    have := b0.isLt; omega)

theorem append_byteAt (v : Half) : (byteAt v 1 ++ byteAt v 0 : Half) = v :=
  BitVec.eq_of_toNat_eq (by
    rw [show (byteAt v 1 ++ byteAt v 0 : Half).toNat = _ from append_toNat _ _, byteAt_toNat, byteAt_toNat]
    have := v.isLt; omega)

theorem append_byteAt4 (v : Word) : (byteAt v 3 ++ byteAt v 2 ++ byteAt v 1 ++ byteAt v 0 : Word) = v :=
  BitVec.eq_of_toNat_eq (by
    rw [show (byteAt v 3 ++ byteAt v 2 ++ byteAt v 1 ++ byteAt v 0 : Word).toNat = _ from append_toNat _ _,
      append_toNat, append_toNat, byteAt_toNat, byteAt_toNat, byteAt_toNat, byteAt_toNat]
    have := v.isLt; omega)

@[simp] theorem pack16_length (en : Endian) (v : Half) : (pack16 en v).length = 2 := by
  cases en <;> rfl

@[simp] theorem pack32_length (en : Endian) (v : Word) : (pack32 en v).length = 4 := by
  cases en <;> rfl

/-- The two bytes of a u16 in either order. -/
theorem pack16_cases (en : Endian) (v : Half) :
    ∃ b0 b1, pack16 en v = [b0, b1] ∧ unpack16 en b0 b1 = v := by
  cases en
  · exact ⟨_, _, rfl, append_byteAt v⟩
  · exact ⟨_, _, rfl, append_byteAt v⟩

theorem pack16_unpack16 (en : Endian) (b0 b1 : Byte) : pack16 en (unpack16 en b0 b1) = [b0, b1] := by
  cases en <;> simp [pack16, unpack16, byteAt_append_high, byteAt_append_low]

/-- The four bytes of a u32 in either order. -/
theorem unpack32List_pack32 (en : Endian) (v : Word) (rest : List Byte) :
    unpack32List en (pack32 en v ++ rest) = v := by
  cases en <;> exact append_byteAt4 v

/-! ## Headers -/

@[simp] theorem encReq_length (en : Endian) (h : ReqHeader) : (encReq en h).length = 8 := by
  simp [encReq]

@[simp] theorem encRep_length (en : Endian) (h : RepHeader) : (encRep en h).length = 6 := by
  simp [encRep]

@[simp] theorem buildReq_length (c : Params) (cmd : Half) (pay : List Byte) :
    (buildReq c cmd pay).length = 8 := by simp [buildReq]

/-- Six bytes or more decode as a reply header, fewer do not. -/
theorem decRep_isSome (en : Endian) (h : List Byte) : (decRep en h).isSome = decide (6 ≤ h.length) := by
  match h with
  | [] | [_] | [_, _] | [_, _, _] | [_, _, _, _] | [_, _, _, _, _] => rfl
  | _ :: _ :: _ :: _ :: _ :: _ :: t => simp [decRep]

theorem decRep_eq_none (en : Endian) (h : List Byte) : decRep en h = none ↔ h.length < 6 := by
  have := decRep_isSome en h
  cases hd : decRep en h <;> simp [hd] at this <;> simp <;> omega

/-- Eight bytes or more decode as a request header, fewer do not. -/
theorem decReq_isSome (en : Endian) (h : List Byte) : (decReq en h).isSome = decide (8 ≤ h.length) := by
  match h with
  | [] | [_] | [_, _] | [_, _, _] | [_, _, _, _] | [_, _, _, _, _] | [_, _, _, _, _, _]
  | [_, _, _, _, _, _, _] => rfl
  | _ :: _ :: _ :: _ :: _ :: _ :: _ :: _ :: t => simp [decReq]

/-- A reply header followed by anything decodes to its fields. -/
theorem decRep_encRep_append (en : Endian) (h : RepHeader) (rest : List Byte) :
    decRep en (encRep en h ++ rest) = some h := by
  obtain ⟨a, b, e1, f1⟩ := pack16_cases en h.len
  obtain ⟨c, d, e2, f2⟩ := pack16_cases en h.cks
  simp [encRep, e1, e2, decRep, f1, f2]

/-- A request header followed by anything decodes to its fields. -/
theorem decReq_encReq_append (en : Endian) (h : ReqHeader) (rest : List Byte) :
    decReq en (encReq en h ++ rest) = some h := by
  obtain ⟨a0, b0, e0, f0⟩ := pack16_cases en h.cmd
  obtain ⟨a, b, e1, f1⟩ := pack16_cases en h.len
  obtain ⟨c, d, e2, f2⟩ := pack16_cases en h.rsv
  obtain ⟨c', d', e3, f3⟩ := pack16_cases en h.cks
  simp [encReq, e0, e1, e2, e3, decReq, f0, f1, f2, f3]

end Sys2Proof.Machine
end

