-- ==== Sys2Proof/Laws/State.lean ====
section
/-! SUPPORT. What every named update of the state leaves as it was, field by field, and what it writes. -/

namespace Sys2Proof.Machine

/-! ## Reading a port after an update of a port -/

@[simp] theorem State.port_modPort_self (s : State) (p : Fin 16) (f : Port → Port) :
    (s.modPort p f).port p = f (s.port p) := by simp [State.port, State.modPort]

theorem State.port_modPort_of_ne (s : State) (p q : Fin 16) (f : Port → Port) (h : q ≠ p) :
    (s.modPort p f).port q = s.port q := by
  have h' : p.val ≠ q.val := fun e => h (Fin.ext e.symm)
  simp [State.port, State.modPort, h']

theorem State.port_modPort (s : State) (p q : Fin 16) (f : Port → Port) :
    (s.modPort p f).port q = if q = p then f (s.port p) else s.port q := by
  by_cases h : q = p
  · subst h; simp
  · simp [h, s.port_modPort_of_ne p q f h]

@[simp] theorem State.cur_modCur (s : State) (f : Port → Port) : (s.modCur f).cur = f s.cur :=
  s.port_modPort_self s.turn f

theorem State.port_modCur_of_ne (s : State) (q : Fin 16) (f : Port → Port) (h : q ≠ s.turn) :
    (s.modCur f).port q = s.port q := s.port_modPort_of_ne s.turn q f h

theorem State.port_modCur_turn (s : State) (f : Port → Port) :
    (s.modCur f).port s.turn = f (s.port s.turn) := s.port_modPort_self s.turn f

/-- An update that changes nothing. -/
theorem State.modPort_id (s : State) (p : Fin 16) : (s.modPort p fun q => q) = s := by
  simp [State.modPort, State.port]

/-- Two updates of one port are one. -/
theorem State.modPort_modPort (s : State) (p : Fin 16) (f g : Port → Port) :
    (s.modPort p f).modPort p g = s.modPort p (g ∘ f) := by
  simp [State.modPort, State.port]

/-- Two updates of the issuing port are one. -/
theorem State.modCur_modCur (s : State) (f g : Port → Port) :
    (s.modCur f).modCur g = s.modCur (g ∘ f) := State.modPort_modPort s s.turn f g

/-! ## `State.modPort` -/

@[simp] theorem State.modPort_cfg (s : State) (p : Fin 16) (f : Port → Port) : (s.modPort p f).cfg = s.cfg := rfl
@[simp] theorem State.modPort_lockOwner (s : State) (p : Fin 16) (f : Port → Port) : (s.modPort p f).lockOwner = s.lockOwner := rfl
@[simp] theorem State.modPort_retry (s : State) (p : Fin 16) (f : Port → Port) : (s.modPort p f).retry = s.retry := rfl
@[simp] theorem State.modPort_rcValid (s : State) (p : Fin 16) (f : Port → Port) : (s.modPort p f).rcValid = s.rcValid := rfl
@[simp] theorem State.modPort_rcHdr (s : State) (p : Fin 16) (f : Port → Port) : (s.modPort p f).rcHdr = s.rcHdr := rfl
@[simp] theorem State.modPort_rcLen (s : State) (p : Fin 16) (f : Port → Port) : (s.modPort p f).rcLen = s.rcLen := rfl
@[simp] theorem State.modPort_rcPay (s : State) (p : Fin 16) (f : Port → Port) : (s.modPort p f).rcPay = s.rcPay := rfl
@[simp] theorem State.modPort_stageHdr (s : State) (p : Fin 16) (f : Port → Port) : (s.modPort p f).stageHdr = s.stageHdr := rfl
@[simp] theorem State.modPort_stage (s : State) (p : Fin 16) (f : Port → Port) : (s.modPort p f).stage = s.stage := rfl
@[simp] theorem State.modPort_fsm (s : State) (p : Fin 16) (f : Port → Port) : (s.modPort p f).fsm = s.fsm := rfl
@[simp] theorem State.modPort_active (s : State) (p : Fin 16) (f : Port → Port) : (s.modPort p f).active = s.active := rfl
@[simp] theorem State.modPort_log (s : State) (p : Fin 16) (f : Port → Port) : (s.modPort p f).log = s.log := rfl
@[simp] theorem State.modPort_engine (s : State) (p : Fin 16) (f : Port → Port) : (s.modPort p f).engine = s.engine := rfl
@[simp] theorem State.modPort_txs (s : State) (p : Fin 16) (f : Port → Port) : (s.modPort p f).txs = s.txs := rfl
@[simp] theorem State.modPort_rxs (s : State) (p : Fin 16) (f : Port → Port) : (s.modPort p f).rxs = s.rxs := rfl
@[simp] theorem State.modPort_writeScript (s : State) (p : Fin 16) (f : Port → Port) : (s.modPort p f).writeScript = s.writeScript := rfl
@[simp] theorem State.modPort_turn (s : State) (p : Fin 16) (f : Port → Port) : (s.modPort p f).turn = s.turn := rfl
@[simp] theorem State.modPort_inputs (s : State) (p : Fin 16) (f : Port → Port) : (s.modPort p f).inputs = s.inputs := rfl
@[simp] theorem State.modPort_reads (s : State) (p : Fin 16) (f : Port → Port) : (s.modPort p f).reads = s.reads := rfl
@[simp] theorem State.modPort_free (s : State) (p : Fin 16) (f : Port → Port) : (s.modPort p f).free = s.free := rfl

/-! ## `State.modCur` -/

@[simp] theorem State.modCur_cfg (s : State) (f : Port → Port) : (s.modCur f).cfg = s.cfg := rfl
@[simp] theorem State.modCur_lockOwner (s : State) (f : Port → Port) : (s.modCur f).lockOwner = s.lockOwner := rfl
@[simp] theorem State.modCur_retry (s : State) (f : Port → Port) : (s.modCur f).retry = s.retry := rfl
@[simp] theorem State.modCur_rcValid (s : State) (f : Port → Port) : (s.modCur f).rcValid = s.rcValid := rfl
@[simp] theorem State.modCur_rcHdr (s : State) (f : Port → Port) : (s.modCur f).rcHdr = s.rcHdr := rfl
@[simp] theorem State.modCur_rcLen (s : State) (f : Port → Port) : (s.modCur f).rcLen = s.rcLen := rfl
@[simp] theorem State.modCur_rcPay (s : State) (f : Port → Port) : (s.modCur f).rcPay = s.rcPay := rfl
@[simp] theorem State.modCur_stageHdr (s : State) (f : Port → Port) : (s.modCur f).stageHdr = s.stageHdr := rfl
@[simp] theorem State.modCur_stage (s : State) (f : Port → Port) : (s.modCur f).stage = s.stage := rfl
@[simp] theorem State.modCur_fsm (s : State) (f : Port → Port) : (s.modCur f).fsm = s.fsm := rfl
@[simp] theorem State.modCur_active (s : State) (f : Port → Port) : (s.modCur f).active = s.active := rfl
@[simp] theorem State.modCur_log (s : State) (f : Port → Port) : (s.modCur f).log = s.log := rfl
@[simp] theorem State.modCur_engine (s : State) (f : Port → Port) : (s.modCur f).engine = s.engine := rfl
@[simp] theorem State.modCur_txs (s : State) (f : Port → Port) : (s.modCur f).txs = s.txs := rfl
@[simp] theorem State.modCur_rxs (s : State) (f : Port → Port) : (s.modCur f).rxs = s.rxs := rfl
@[simp] theorem State.modCur_writeScript (s : State) (f : Port → Port) : (s.modCur f).writeScript = s.writeScript := rfl
@[simp] theorem State.modCur_turn (s : State) (f : Port → Port) : (s.modCur f).turn = s.turn := rfl
@[simp] theorem State.modCur_inputs (s : State) (f : Port → Port) : (s.modCur f).inputs = s.inputs := rfl
@[simp] theorem State.modCur_reads (s : State) (f : Port → Port) : (s.modCur f).reads = s.reads := rfl
@[simp] theorem State.modCur_free (s : State) (f : Port → Port) : (s.modCur f).free = s.free := rfl

/-! ## `State.setFsm` -/

@[simp] theorem State.setFsm_cfg (s : State) (f : Fsm) : (s.setFsm f).cfg = s.cfg := rfl
@[simp] theorem State.setFsm_ports (s : State) (f : Fsm) : (s.setFsm f).ports = s.ports := rfl
@[simp] theorem State.setFsm_lockOwner (s : State) (f : Fsm) : (s.setFsm f).lockOwner = s.lockOwner := rfl
@[simp] theorem State.setFsm_retry (s : State) (f : Fsm) : (s.setFsm f).retry = s.retry := rfl
@[simp] theorem State.setFsm_rcValid (s : State) (f : Fsm) : (s.setFsm f).rcValid = s.rcValid := rfl
@[simp] theorem State.setFsm_rcHdr (s : State) (f : Fsm) : (s.setFsm f).rcHdr = s.rcHdr := rfl
@[simp] theorem State.setFsm_rcLen (s : State) (f : Fsm) : (s.setFsm f).rcLen = s.rcLen := rfl
@[simp] theorem State.setFsm_rcPay (s : State) (f : Fsm) : (s.setFsm f).rcPay = s.rcPay := rfl
@[simp] theorem State.setFsm_stageHdr (s : State) (f : Fsm) : (s.setFsm f).stageHdr = s.stageHdr := rfl
@[simp] theorem State.setFsm_stage (s : State) (f : Fsm) : (s.setFsm f).stage = s.stage := rfl
@[simp] theorem State.setFsm_active (s : State) (f : Fsm) : (s.setFsm f).active = s.active := rfl
@[simp] theorem State.setFsm_log (s : State) (f : Fsm) : (s.setFsm f).log = s.log := rfl
@[simp] theorem State.setFsm_engine (s : State) (f : Fsm) : (s.setFsm f).engine = s.engine := rfl
@[simp] theorem State.setFsm_txs (s : State) (f : Fsm) : (s.setFsm f).txs = s.txs := rfl
@[simp] theorem State.setFsm_rxs (s : State) (f : Fsm) : (s.setFsm f).rxs = s.rxs := rfl
@[simp] theorem State.setFsm_writeScript (s : State) (f : Fsm) : (s.setFsm f).writeScript = s.writeScript := rfl
@[simp] theorem State.setFsm_turn (s : State) (f : Fsm) : (s.setFsm f).turn = s.turn := rfl
@[simp] theorem State.setFsm_inputs (s : State) (f : Fsm) : (s.setFsm f).inputs = s.inputs := rfl
@[simp] theorem State.setFsm_reads (s : State) (f : Fsm) : (s.setFsm f).reads = s.reads := rfl
@[simp] theorem State.setFsm_free (s : State) (f : Fsm) : (s.setFsm f).free = s.free := rfl
@[simp] theorem State.setFsm_port (s : State) (f : Fsm) (q : Fin 16) : (s.setFsm f).port q = s.port q := rfl
@[simp] theorem State.setFsm_cur (s : State) (f : Fsm) : (s.setFsm f).cur = s.cur := rfl

/-! ## `State.setEngine` -/

@[simp] theorem State.setEngine_cfg (s : State) (e : Option Engine) : (s.setEngine e).cfg = s.cfg := rfl
@[simp] theorem State.setEngine_ports (s : State) (e : Option Engine) : (s.setEngine e).ports = s.ports := rfl
@[simp] theorem State.setEngine_lockOwner (s : State) (e : Option Engine) : (s.setEngine e).lockOwner = s.lockOwner := rfl
@[simp] theorem State.setEngine_retry (s : State) (e : Option Engine) : (s.setEngine e).retry = s.retry := rfl
@[simp] theorem State.setEngine_rcValid (s : State) (e : Option Engine) : (s.setEngine e).rcValid = s.rcValid := rfl
@[simp] theorem State.setEngine_rcHdr (s : State) (e : Option Engine) : (s.setEngine e).rcHdr = s.rcHdr := rfl
@[simp] theorem State.setEngine_rcLen (s : State) (e : Option Engine) : (s.setEngine e).rcLen = s.rcLen := rfl
@[simp] theorem State.setEngine_rcPay (s : State) (e : Option Engine) : (s.setEngine e).rcPay = s.rcPay := rfl
@[simp] theorem State.setEngine_stageHdr (s : State) (e : Option Engine) : (s.setEngine e).stageHdr = s.stageHdr := rfl
@[simp] theorem State.setEngine_stage (s : State) (e : Option Engine) : (s.setEngine e).stage = s.stage := rfl
@[simp] theorem State.setEngine_fsm (s : State) (e : Option Engine) : (s.setEngine e).fsm = s.fsm := rfl
@[simp] theorem State.setEngine_active (s : State) (e : Option Engine) : (s.setEngine e).active = s.active := rfl
@[simp] theorem State.setEngine_log (s : State) (e : Option Engine) : (s.setEngine e).log = s.log := rfl
@[simp] theorem State.setEngine_txs (s : State) (e : Option Engine) : (s.setEngine e).txs = s.txs := rfl
@[simp] theorem State.setEngine_rxs (s : State) (e : Option Engine) : (s.setEngine e).rxs = s.rxs := rfl
@[simp] theorem State.setEngine_writeScript (s : State) (e : Option Engine) : (s.setEngine e).writeScript = s.writeScript := rfl
@[simp] theorem State.setEngine_turn (s : State) (e : Option Engine) : (s.setEngine e).turn = s.turn := rfl
@[simp] theorem State.setEngine_inputs (s : State) (e : Option Engine) : (s.setEngine e).inputs = s.inputs := rfl
@[simp] theorem State.setEngine_reads (s : State) (e : Option Engine) : (s.setEngine e).reads = s.reads := rfl
@[simp] theorem State.setEngine_free (s : State) (e : Option Engine) : (s.setEngine e).free = s.free := rfl
@[simp] theorem State.setEngine_port (s : State) (e : Option Engine) (q : Fin 16) : (s.setEngine e).port q = s.port q := rfl
@[simp] theorem State.setEngine_cur (s : State) (e : Option Engine) : (s.setEngine e).cur = s.cur := rfl

/-! ## `State.logFault` -/

@[simp] theorem State.logFault_cfg (s : State) (c : Half) (st : Byte) : (s.logFault c st).cfg = s.cfg := rfl
@[simp] theorem State.logFault_ports (s : State) (c : Half) (st : Byte) : (s.logFault c st).ports = s.ports := rfl
@[simp] theorem State.logFault_lockOwner (s : State) (c : Half) (st : Byte) : (s.logFault c st).lockOwner = s.lockOwner := rfl
@[simp] theorem State.logFault_retry (s : State) (c : Half) (st : Byte) : (s.logFault c st).retry = s.retry := rfl
@[simp] theorem State.logFault_rcValid (s : State) (c : Half) (st : Byte) : (s.logFault c st).rcValid = s.rcValid := rfl
@[simp] theorem State.logFault_rcHdr (s : State) (c : Half) (st : Byte) : (s.logFault c st).rcHdr = s.rcHdr := rfl
@[simp] theorem State.logFault_rcLen (s : State) (c : Half) (st : Byte) : (s.logFault c st).rcLen = s.rcLen := rfl
@[simp] theorem State.logFault_rcPay (s : State) (c : Half) (st : Byte) : (s.logFault c st).rcPay = s.rcPay := rfl
@[simp] theorem State.logFault_stageHdr (s : State) (c : Half) (st : Byte) : (s.logFault c st).stageHdr = s.stageHdr := rfl
@[simp] theorem State.logFault_stage (s : State) (c : Half) (st : Byte) : (s.logFault c st).stage = s.stage := rfl
@[simp] theorem State.logFault_fsm (s : State) (c : Half) (st : Byte) : (s.logFault c st).fsm = s.fsm := rfl
@[simp] theorem State.logFault_active (s : State) (c : Half) (st : Byte) : (s.logFault c st).active = s.active := rfl
@[simp] theorem State.logFault_engine (s : State) (c : Half) (st : Byte) : (s.logFault c st).engine = s.engine := rfl
@[simp] theorem State.logFault_txs (s : State) (c : Half) (st : Byte) : (s.logFault c st).txs = s.txs := rfl
@[simp] theorem State.logFault_rxs (s : State) (c : Half) (st : Byte) : (s.logFault c st).rxs = s.rxs := rfl
@[simp] theorem State.logFault_writeScript (s : State) (c : Half) (st : Byte) : (s.logFault c st).writeScript = s.writeScript := rfl
@[simp] theorem State.logFault_turn (s : State) (c : Half) (st : Byte) : (s.logFault c st).turn = s.turn := rfl
@[simp] theorem State.logFault_inputs (s : State) (c : Half) (st : Byte) : (s.logFault c st).inputs = s.inputs := rfl
@[simp] theorem State.logFault_reads (s : State) (c : Half) (st : Byte) : (s.logFault c st).reads = s.reads := rfl
@[simp] theorem State.logFault_free (s : State) (c : Half) (st : Byte) : (s.logFault c st).free = s.free := rfl
@[simp] theorem State.logFault_port (s : State) (c : Half) (st : Byte) (q : Fin 16) : (s.logFault c st).port q = s.port q := rfl
@[simp] theorem State.logFault_cur (s : State) (c : Half) (st : Byte) : (s.logFault c st).cur = s.cur := rfl

/-! ## `finish` -/

@[simp] theorem finish_cfg (s : State) (k : Kind) (st : Byte) (l : Option Half) : (finish k st l s).cfg = s.cfg := rfl
@[simp] theorem finish_lockOwner (s : State) (k : Kind) (st : Byte) (l : Option Half) : (finish k st l s).lockOwner = s.lockOwner := rfl
@[simp] theorem finish_retry (s : State) (k : Kind) (st : Byte) (l : Option Half) : (finish k st l s).retry = s.retry := rfl
@[simp] theorem finish_rcValid (s : State) (k : Kind) (st : Byte) (l : Option Half) : (finish k st l s).rcValid = s.rcValid := rfl
@[simp] theorem finish_rcHdr (s : State) (k : Kind) (st : Byte) (l : Option Half) : (finish k st l s).rcHdr = s.rcHdr := rfl
@[simp] theorem finish_rcLen (s : State) (k : Kind) (st : Byte) (l : Option Half) : (finish k st l s).rcLen = s.rcLen := rfl
@[simp] theorem finish_rcPay (s : State) (k : Kind) (st : Byte) (l : Option Half) : (finish k st l s).rcPay = s.rcPay := rfl
@[simp] theorem finish_stageHdr (s : State) (k : Kind) (st : Byte) (l : Option Half) : (finish k st l s).stageHdr = s.stageHdr := rfl
@[simp] theorem finish_stage (s : State) (k : Kind) (st : Byte) (l : Option Half) : (finish k st l s).stage = s.stage := rfl
@[simp] theorem finish_fsm (s : State) (k : Kind) (st : Byte) (l : Option Half) : (finish k st l s).fsm = s.fsm := rfl
@[simp] theorem finish_active (s : State) (k : Kind) (st : Byte) (l : Option Half) : (finish k st l s).active = s.active := rfl
@[simp] theorem finish_log (s : State) (k : Kind) (st : Byte) (l : Option Half) : (finish k st l s).log = s.log := rfl
@[simp] theorem finish_engine (s : State) (k : Kind) (st : Byte) (l : Option Half) : (finish k st l s).engine = s.engine := rfl
@[simp] theorem finish_txs (s : State) (k : Kind) (st : Byte) (l : Option Half) : (finish k st l s).txs = s.txs := rfl
@[simp] theorem finish_rxs (s : State) (k : Kind) (st : Byte) (l : Option Half) : (finish k st l s).rxs = s.rxs := rfl
@[simp] theorem finish_writeScript (s : State) (k : Kind) (st : Byte) (l : Option Half) : (finish k st l s).writeScript = s.writeScript := rfl
@[simp] theorem finish_turn (s : State) (k : Kind) (st : Byte) (l : Option Half) : (finish k st l s).turn = s.turn := rfl
@[simp] theorem finish_inputs (s : State) (k : Kind) (st : Byte) (l : Option Half) : (finish k st l s).inputs = s.inputs := rfl
@[simp] theorem finish_reads (s : State) (k : Kind) (st : Byte) (l : Option Half) : (finish k st l s).reads = s.reads := rfl
@[simp] theorem finish_free (s : State) (k : Kind) (st : Byte) (l : Option Half) : (finish k st l s).free = s.free := rfl

/-! ## `setResends` -/

@[simp] theorem setResends_cfg (s : State) (n : Byte) : (setResends n s).cfg = s.cfg := rfl
@[simp] theorem setResends_lockOwner (s : State) (n : Byte) : (setResends n s).lockOwner = s.lockOwner := rfl
@[simp] theorem setResends_retry (s : State) (n : Byte) : (setResends n s).retry = s.retry := rfl
@[simp] theorem setResends_rcValid (s : State) (n : Byte) : (setResends n s).rcValid = s.rcValid := rfl
@[simp] theorem setResends_rcHdr (s : State) (n : Byte) : (setResends n s).rcHdr = s.rcHdr := rfl
@[simp] theorem setResends_rcLen (s : State) (n : Byte) : (setResends n s).rcLen = s.rcLen := rfl
@[simp] theorem setResends_rcPay (s : State) (n : Byte) : (setResends n s).rcPay = s.rcPay := rfl
@[simp] theorem setResends_stageHdr (s : State) (n : Byte) : (setResends n s).stageHdr = s.stageHdr := rfl
@[simp] theorem setResends_stage (s : State) (n : Byte) : (setResends n s).stage = s.stage := rfl
@[simp] theorem setResends_fsm (s : State) (n : Byte) : (setResends n s).fsm = s.fsm := rfl
@[simp] theorem setResends_active (s : State) (n : Byte) : (setResends n s).active = s.active := rfl
@[simp] theorem setResends_log (s : State) (n : Byte) : (setResends n s).log = s.log := rfl
@[simp] theorem setResends_engine (s : State) (n : Byte) : (setResends n s).engine = s.engine := rfl
@[simp] theorem setResends_txs (s : State) (n : Byte) : (setResends n s).txs = s.txs := rfl
@[simp] theorem setResends_rxs (s : State) (n : Byte) : (setResends n s).rxs = s.rxs := rfl
@[simp] theorem setResends_writeScript (s : State) (n : Byte) : (setResends n s).writeScript = s.writeScript := rfl
@[simp] theorem setResends_turn (s : State) (n : Byte) : (setResends n s).turn = s.turn := rfl
@[simp] theorem setResends_inputs (s : State) (n : Byte) : (setResends n s).inputs = s.inputs := rfl
@[simp] theorem setResends_reads (s : State) (n : Byte) : (setResends n s).reads = s.reads := rfl
@[simp] theorem setResends_free (s : State) (n : Byte) : (setResends n s).free = s.free := rfl

/-! ## `stageHeader` -/

@[simp] theorem stageHeader_cfg (s : State) (h : List Byte) : (stageHeader h s).cfg = s.cfg := rfl
@[simp] theorem stageHeader_ports (s : State) (h : List Byte) : (stageHeader h s).ports = s.ports := rfl
@[simp] theorem stageHeader_lockOwner (s : State) (h : List Byte) : (stageHeader h s).lockOwner = s.lockOwner := rfl
@[simp] theorem stageHeader_retry (s : State) (h : List Byte) : (stageHeader h s).retry = s.retry := rfl
@[simp] theorem stageHeader_rcValid (s : State) (h : List Byte) : (stageHeader h s).rcValid = s.rcValid := rfl
@[simp] theorem stageHeader_rcHdr (s : State) (h : List Byte) : (stageHeader h s).rcHdr = s.rcHdr := rfl
@[simp] theorem stageHeader_rcLen (s : State) (h : List Byte) : (stageHeader h s).rcLen = s.rcLen := rfl
@[simp] theorem stageHeader_rcPay (s : State) (h : List Byte) : (stageHeader h s).rcPay = s.rcPay := rfl
@[simp] theorem stageHeader_stage (s : State) (h : List Byte) : (stageHeader h s).stage = s.stage := rfl
@[simp] theorem stageHeader_fsm (s : State) (h : List Byte) : (stageHeader h s).fsm = s.fsm := rfl
@[simp] theorem stageHeader_active (s : State) (h : List Byte) : (stageHeader h s).active = s.active := rfl
@[simp] theorem stageHeader_log (s : State) (h : List Byte) : (stageHeader h s).log = s.log := rfl
@[simp] theorem stageHeader_engine (s : State) (h : List Byte) : (stageHeader h s).engine = s.engine := rfl
@[simp] theorem stageHeader_txs (s : State) (h : List Byte) : (stageHeader h s).txs = s.txs := rfl
@[simp] theorem stageHeader_rxs (s : State) (h : List Byte) : (stageHeader h s).rxs = s.rxs := rfl
@[simp] theorem stageHeader_writeScript (s : State) (h : List Byte) : (stageHeader h s).writeScript = s.writeScript := rfl
@[simp] theorem stageHeader_turn (s : State) (h : List Byte) : (stageHeader h s).turn = s.turn := rfl
@[simp] theorem stageHeader_inputs (s : State) (h : List Byte) : (stageHeader h s).inputs = s.inputs := rfl
@[simp] theorem stageHeader_reads (s : State) (h : List Byte) : (stageHeader h s).reads = s.reads := rfl
@[simp] theorem stageHeader_free (s : State) (h : List Byte) : (stageHeader h s).free = s.free := rfl
@[simp] theorem stageHeader_port (s : State) (h : List Byte) (q : Fin 16) : (stageHeader h s).port q = s.port q := rfl
@[simp] theorem stageHeader_cur (s : State) (h : List Byte) : (stageHeader h s).cur = s.cur := rfl

/-! ## `stagePayload` -/

@[simp] theorem stagePayload_cfg (s : State) (h : List Byte) : (stagePayload h s).cfg = s.cfg := rfl
@[simp] theorem stagePayload_ports (s : State) (h : List Byte) : (stagePayload h s).ports = s.ports := rfl
@[simp] theorem stagePayload_lockOwner (s : State) (h : List Byte) : (stagePayload h s).lockOwner = s.lockOwner := rfl
@[simp] theorem stagePayload_retry (s : State) (h : List Byte) : (stagePayload h s).retry = s.retry := rfl
@[simp] theorem stagePayload_rcValid (s : State) (h : List Byte) : (stagePayload h s).rcValid = s.rcValid := rfl
@[simp] theorem stagePayload_rcHdr (s : State) (h : List Byte) : (stagePayload h s).rcHdr = s.rcHdr := rfl
@[simp] theorem stagePayload_rcLen (s : State) (h : List Byte) : (stagePayload h s).rcLen = s.rcLen := rfl
@[simp] theorem stagePayload_rcPay (s : State) (h : List Byte) : (stagePayload h s).rcPay = s.rcPay := rfl
@[simp] theorem stagePayload_stageHdr (s : State) (h : List Byte) : (stagePayload h s).stageHdr = s.stageHdr := rfl
@[simp] theorem stagePayload_fsm (s : State) (h : List Byte) : (stagePayload h s).fsm = s.fsm := rfl
@[simp] theorem stagePayload_active (s : State) (h : List Byte) : (stagePayload h s).active = s.active := rfl
@[simp] theorem stagePayload_log (s : State) (h : List Byte) : (stagePayload h s).log = s.log := rfl
@[simp] theorem stagePayload_engine (s : State) (h : List Byte) : (stagePayload h s).engine = s.engine := rfl
@[simp] theorem stagePayload_txs (s : State) (h : List Byte) : (stagePayload h s).txs = s.txs := rfl
@[simp] theorem stagePayload_rxs (s : State) (h : List Byte) : (stagePayload h s).rxs = s.rxs := rfl
@[simp] theorem stagePayload_writeScript (s : State) (h : List Byte) : (stagePayload h s).writeScript = s.writeScript := rfl
@[simp] theorem stagePayload_turn (s : State) (h : List Byte) : (stagePayload h s).turn = s.turn := rfl
@[simp] theorem stagePayload_inputs (s : State) (h : List Byte) : (stagePayload h s).inputs = s.inputs := rfl
@[simp] theorem stagePayload_reads (s : State) (h : List Byte) : (stagePayload h s).reads = s.reads := rfl
@[simp] theorem stagePayload_free (s : State) (h : List Byte) : (stagePayload h s).free = s.free := rfl
@[simp] theorem stagePayload_port (s : State) (h : List Byte) (q : Fin 16) : (stagePayload h s).port q = s.port q := rfl
@[simp] theorem stagePayload_cur (s : State) (h : List Byte) : (stagePayload h s).cur = s.cur := rfl

/-! ## `chanWrite` -/

@[simp] theorem chanWrite_cfg (s : State) (bs : List Byte) : ((chanWrite bs s).2).cfg = s.cfg := rfl
@[simp] theorem chanWrite_ports (s : State) (bs : List Byte) : ((chanWrite bs s).2).ports = s.ports := rfl
@[simp] theorem chanWrite_lockOwner (s : State) (bs : List Byte) : ((chanWrite bs s).2).lockOwner = s.lockOwner := rfl
@[simp] theorem chanWrite_retry (s : State) (bs : List Byte) : ((chanWrite bs s).2).retry = s.retry := rfl
@[simp] theorem chanWrite_rcValid (s : State) (bs : List Byte) : ((chanWrite bs s).2).rcValid = s.rcValid := rfl
@[simp] theorem chanWrite_rcHdr (s : State) (bs : List Byte) : ((chanWrite bs s).2).rcHdr = s.rcHdr := rfl
@[simp] theorem chanWrite_rcLen (s : State) (bs : List Byte) : ((chanWrite bs s).2).rcLen = s.rcLen := rfl
@[simp] theorem chanWrite_rcPay (s : State) (bs : List Byte) : ((chanWrite bs s).2).rcPay = s.rcPay := rfl
@[simp] theorem chanWrite_stageHdr (s : State) (bs : List Byte) : ((chanWrite bs s).2).stageHdr = s.stageHdr := rfl
@[simp] theorem chanWrite_stage (s : State) (bs : List Byte) : ((chanWrite bs s).2).stage = s.stage := rfl
@[simp] theorem chanWrite_fsm (s : State) (bs : List Byte) : ((chanWrite bs s).2).fsm = s.fsm := rfl
@[simp] theorem chanWrite_active (s : State) (bs : List Byte) : ((chanWrite bs s).2).active = s.active := rfl
@[simp] theorem chanWrite_log (s : State) (bs : List Byte) : ((chanWrite bs s).2).log = s.log := rfl
@[simp] theorem chanWrite_engine (s : State) (bs : List Byte) : ((chanWrite bs s).2).engine = s.engine := rfl
@[simp] theorem chanWrite_rxs (s : State) (bs : List Byte) : ((chanWrite bs s).2).rxs = s.rxs := rfl
@[simp] theorem chanWrite_turn (s : State) (bs : List Byte) : ((chanWrite bs s).2).turn = s.turn := rfl
@[simp] theorem chanWrite_inputs (s : State) (bs : List Byte) : ((chanWrite bs s).2).inputs = s.inputs := rfl
@[simp] theorem chanWrite_reads (s : State) (bs : List Byte) : ((chanWrite bs s).2).reads = s.reads := rfl
@[simp] theorem chanWrite_free (s : State) (bs : List Byte) : ((chanWrite bs s).2).free = s.free := rfl
@[simp] theorem chanWrite_port (s : State) (bs : List Byte) (q : Fin 16) : ((chanWrite bs s).2).port q = s.port q := rfl
@[simp] theorem chanWrite_cur (s : State) (bs : List Byte) : ((chanWrite bs s).2).cur = s.cur := rfl

/-! ## `chanRead` -/

@[simp] theorem chanRead_cfg (s : State) (n : Nat) : ((chanRead n s).2).cfg = s.cfg := rfl
@[simp] theorem chanRead_ports (s : State) (n : Nat) : ((chanRead n s).2).ports = s.ports := rfl
@[simp] theorem chanRead_lockOwner (s : State) (n : Nat) : ((chanRead n s).2).lockOwner = s.lockOwner := rfl
@[simp] theorem chanRead_retry (s : State) (n : Nat) : ((chanRead n s).2).retry = s.retry := rfl
@[simp] theorem chanRead_rcValid (s : State) (n : Nat) : ((chanRead n s).2).rcValid = s.rcValid := rfl
@[simp] theorem chanRead_rcHdr (s : State) (n : Nat) : ((chanRead n s).2).rcHdr = s.rcHdr := rfl
@[simp] theorem chanRead_rcLen (s : State) (n : Nat) : ((chanRead n s).2).rcLen = s.rcLen := rfl
@[simp] theorem chanRead_rcPay (s : State) (n : Nat) : ((chanRead n s).2).rcPay = s.rcPay := rfl
@[simp] theorem chanRead_stageHdr (s : State) (n : Nat) : ((chanRead n s).2).stageHdr = s.stageHdr := rfl
@[simp] theorem chanRead_stage (s : State) (n : Nat) : ((chanRead n s).2).stage = s.stage := rfl
@[simp] theorem chanRead_fsm (s : State) (n : Nat) : ((chanRead n s).2).fsm = s.fsm := rfl
@[simp] theorem chanRead_active (s : State) (n : Nat) : ((chanRead n s).2).active = s.active := rfl
@[simp] theorem chanRead_log (s : State) (n : Nat) : ((chanRead n s).2).log = s.log := rfl
@[simp] theorem chanRead_engine (s : State) (n : Nat) : ((chanRead n s).2).engine = s.engine := rfl
@[simp] theorem chanRead_txs (s : State) (n : Nat) : ((chanRead n s).2).txs = s.txs := rfl
@[simp] theorem chanRead_writeScript (s : State) (n : Nat) : ((chanRead n s).2).writeScript = s.writeScript := rfl
@[simp] theorem chanRead_turn (s : State) (n : Nat) : ((chanRead n s).2).turn = s.turn := rfl
@[simp] theorem chanRead_inputs (s : State) (n : Nat) : ((chanRead n s).2).inputs = s.inputs := rfl
@[simp] theorem chanRead_reads (s : State) (n : Nat) : ((chanRead n s).2).reads = s.reads := rfl
@[simp] theorem chanRead_free (s : State) (n : Nat) : ((chanRead n s).2).free = s.free := rfl
@[simp] theorem chanRead_port (s : State) (n : Nat) (q : Fin 16) : ((chanRead n s).2).port q = s.port q := rfl
@[simp] theorem chanRead_cur (s : State) (n : Nat) : ((chanRead n s).2).cur = s.cur := rfl

/-! ## `cacheRequest` -/

@[simp] theorem cacheRequest_cfg (s : State) (h pay : List Byte) : (cacheRequest h pay s).cfg = s.cfg := rfl
@[simp] theorem cacheRequest_ports (s : State) (h pay : List Byte) : (cacheRequest h pay s).ports = s.ports := rfl
@[simp] theorem cacheRequest_lockOwner (s : State) (h pay : List Byte) : (cacheRequest h pay s).lockOwner = s.lockOwner := rfl
@[simp] theorem cacheRequest_retry (s : State) (h pay : List Byte) : (cacheRequest h pay s).retry = s.retry := rfl
@[simp] theorem cacheRequest_stageHdr (s : State) (h pay : List Byte) : (cacheRequest h pay s).stageHdr = s.stageHdr := rfl
@[simp] theorem cacheRequest_stage (s : State) (h pay : List Byte) : (cacheRequest h pay s).stage = s.stage := rfl
@[simp] theorem cacheRequest_fsm (s : State) (h pay : List Byte) : (cacheRequest h pay s).fsm = s.fsm := rfl
@[simp] theorem cacheRequest_active (s : State) (h pay : List Byte) : (cacheRequest h pay s).active = s.active := rfl
@[simp] theorem cacheRequest_log (s : State) (h pay : List Byte) : (cacheRequest h pay s).log = s.log := rfl
@[simp] theorem cacheRequest_engine (s : State) (h pay : List Byte) : (cacheRequest h pay s).engine = s.engine := rfl
@[simp] theorem cacheRequest_txs (s : State) (h pay : List Byte) : (cacheRequest h pay s).txs = s.txs := rfl
@[simp] theorem cacheRequest_rxs (s : State) (h pay : List Byte) : (cacheRequest h pay s).rxs = s.rxs := rfl
@[simp] theorem cacheRequest_writeScript (s : State) (h pay : List Byte) : (cacheRequest h pay s).writeScript = s.writeScript := rfl
@[simp] theorem cacheRequest_turn (s : State) (h pay : List Byte) : (cacheRequest h pay s).turn = s.turn := rfl
@[simp] theorem cacheRequest_inputs (s : State) (h pay : List Byte) : (cacheRequest h pay s).inputs = s.inputs := rfl
@[simp] theorem cacheRequest_reads (s : State) (h pay : List Byte) : (cacheRequest h pay s).reads = s.reads := rfl
@[simp] theorem cacheRequest_free (s : State) (h pay : List Byte) : (cacheRequest h pay s).free = s.free := rfl
@[simp] theorem cacheRequest_port (s : State) (h pay : List Byte) (q : Fin 16) : (cacheRequest h pay s).port q = s.port q := rfl
@[simp] theorem cacheRequest_cur (s : State) (h pay : List Byte) : (cacheRequest h pay s).cur = s.cur := rfl

/-! ## `clearAcc` -/

@[simp] theorem clearAcc_cfg (s : State) : (clearAcc s).cfg = s.cfg := rfl
@[simp] theorem clearAcc_lockOwner (s : State) : (clearAcc s).lockOwner = s.lockOwner := rfl
@[simp] theorem clearAcc_retry (s : State) : (clearAcc s).retry = s.retry := rfl
@[simp] theorem clearAcc_rcValid (s : State) : (clearAcc s).rcValid = s.rcValid := rfl
@[simp] theorem clearAcc_rcHdr (s : State) : (clearAcc s).rcHdr = s.rcHdr := rfl
@[simp] theorem clearAcc_rcLen (s : State) : (clearAcc s).rcLen = s.rcLen := rfl
@[simp] theorem clearAcc_rcPay (s : State) : (clearAcc s).rcPay = s.rcPay := rfl
@[simp] theorem clearAcc_stageHdr (s : State) : (clearAcc s).stageHdr = s.stageHdr := rfl
@[simp] theorem clearAcc_stage (s : State) : (clearAcc s).stage = s.stage := rfl
@[simp] theorem clearAcc_fsm (s : State) : (clearAcc s).fsm = s.fsm := rfl
@[simp] theorem clearAcc_active (s : State) : (clearAcc s).active = s.active := rfl
@[simp] theorem clearAcc_log (s : State) : (clearAcc s).log = s.log := rfl
@[simp] theorem clearAcc_engine (s : State) : (clearAcc s).engine = s.engine := rfl
@[simp] theorem clearAcc_txs (s : State) : (clearAcc s).txs = s.txs := rfl
@[simp] theorem clearAcc_rxs (s : State) : (clearAcc s).rxs = s.rxs := rfl
@[simp] theorem clearAcc_writeScript (s : State) : (clearAcc s).writeScript = s.writeScript := rfl
@[simp] theorem clearAcc_turn (s : State) : (clearAcc s).turn = s.turn := rfl
@[simp] theorem clearAcc_inputs (s : State) : (clearAcc s).inputs = s.inputs := rfl
@[simp] theorem clearAcc_reads (s : State) : (clearAcc s).reads = s.reads := rfl
@[simp] theorem clearAcc_free (s : State) : (clearAcc s).free = s.free := rfl

/-! ## `stagePct` -/

@[simp] theorem stagePct_cfg (s : State) (pay : List Byte) : (stagePct pay s).cfg = s.cfg := rfl
@[simp] theorem stagePct_lockOwner (s : State) (pay : List Byte) : (stagePct pay s).lockOwner = s.lockOwner := rfl
@[simp] theorem stagePct_retry (s : State) (pay : List Byte) : (stagePct pay s).retry = s.retry := rfl
@[simp] theorem stagePct_rcValid (s : State) (pay : List Byte) : (stagePct pay s).rcValid = s.rcValid := rfl
@[simp] theorem stagePct_rcHdr (s : State) (pay : List Byte) : (stagePct pay s).rcHdr = s.rcHdr := rfl
@[simp] theorem stagePct_rcLen (s : State) (pay : List Byte) : (stagePct pay s).rcLen = s.rcLen := rfl
@[simp] theorem stagePct_rcPay (s : State) (pay : List Byte) : (stagePct pay s).rcPay = s.rcPay := rfl
@[simp] theorem stagePct_stageHdr (s : State) (pay : List Byte) : (stagePct pay s).stageHdr = s.stageHdr := rfl
@[simp] theorem stagePct_stage (s : State) (pay : List Byte) : (stagePct pay s).stage = s.stage := rfl
@[simp] theorem stagePct_fsm (s : State) (pay : List Byte) : (stagePct pay s).fsm = s.fsm := rfl
@[simp] theorem stagePct_active (s : State) (pay : List Byte) : (stagePct pay s).active = s.active := rfl
@[simp] theorem stagePct_log (s : State) (pay : List Byte) : (stagePct pay s).log = s.log := rfl
@[simp] theorem stagePct_engine (s : State) (pay : List Byte) : (stagePct pay s).engine = s.engine := rfl
@[simp] theorem stagePct_txs (s : State) (pay : List Byte) : (stagePct pay s).txs = s.txs := rfl
@[simp] theorem stagePct_rxs (s : State) (pay : List Byte) : (stagePct pay s).rxs = s.rxs := rfl
@[simp] theorem stagePct_writeScript (s : State) (pay : List Byte) : (stagePct pay s).writeScript = s.writeScript := rfl
@[simp] theorem stagePct_turn (s : State) (pay : List Byte) : (stagePct pay s).turn = s.turn := rfl
@[simp] theorem stagePct_inputs (s : State) (pay : List Byte) : (stagePct pay s).inputs = s.inputs := rfl
@[simp] theorem stagePct_reads (s : State) (pay : List Byte) : (stagePct pay s).reads = s.reads := rfl
@[simp] theorem stagePct_free (s : State) (pay : List Byte) : (stagePct pay s).free = s.free := rfl

/-! ## `releaseChannel` and `endChannelOp` -/

theorem releaseChannel_eq (took : Bool) (s : State) :
    releaseChannel took s =
      { s with
        active := noPort
        lockOwner := if took then noPort else s.lockOwner
        fsm := if took then .idle else s.fsm } := by cases took <;> rfl

@[simp] theorem releaseChannel_turn (took : Bool) (s : State) : (releaseChannel took s).turn = s.turn := by
  cases took <;> rfl
@[simp] theorem releaseChannel_cfg (took : Bool) (s : State) : (releaseChannel took s).cfg = s.cfg := by
  cases took <;> rfl
@[simp] theorem releaseChannel_port (took : Bool) (s : State) (q : Fin 16) :
    (releaseChannel took s).port q = s.port q := by cases took <;> rfl
@[simp] theorem releaseChannel_cur (took : Bool) (s : State) : (releaseChannel took s).cur = s.cur := by
  cases took <;> rfl
@[simp] theorem releaseChannel_active (took : Bool) (s : State) : (releaseChannel took s).active = noPort := by
  cases took <;> rfl
@[simp] theorem releaseChannel_engine (took : Bool) (s : State) :
    (releaseChannel took s).engine = s.engine := by cases took <;> rfl

/-- The end of a channel operation: the result, and the lock and the engine as they were before it. -/
theorem endChannelOp_eq (took : Bool) (k : Kind) (st : Byte) (l : Half) (s : State) :
    endChannelOp took k st l s =
      { s.modCur (fun p =>
          { p with resKind := some k, resStatus := some st, resLen := some l, busy := false }) with
        active := noPort
        lockOwner := if took then noPort else s.lockOwner
        fsm := if took then .idle else s.fsm } := by cases took <;> rfl

/-! ## What the updates write -/

@[simp] theorem State.setFsm_fsm (s : State) (f : Fsm) : (s.setFsm f).fsm = f := rfl
@[simp] theorem State.setEngine_engine (s : State) (e : Option Engine) : (s.setEngine e).engine = e := rfl
@[simp] theorem State.logFault_log (s : State) (c : Half) (st : Byte) :
    (s.logFault c st).log = s.log ++ [⟨s.turn, c, st⟩] := rfl
@[simp] theorem stageHeader_stageHdr (s : State) (h : List Byte) :
    (stageHeader h s).stageHdr = Memory.write s.stageHdr 0 h := rfl
@[simp] theorem stagePayload_stage (s : State) (h : List Byte) :
    (stagePayload h s).stage = Memory.write s.stage 0 h := rfl
@[simp] theorem chanWrite_txs (s : State) (bs : List Byte) :
    (chanWrite bs s).2.txs = s.txs ++ bs.take (writeCount s.writeScript bs.length) := rfl
@[simp] theorem chanWrite_writeScript (s : State) (bs : List Byte) :
    (chanWrite bs s).2.writeScript = s.writeScript.tail := rfl
@[simp] theorem chanWrite_count (s : State) (bs : List Byte) :
    (chanWrite bs s).1 = writeCount s.writeScript bs.length := rfl
@[simp] theorem chanRead_bytes (s : State) (n : Nat) : (chanRead n s).1 = (takeRx n s.rxs).1 := rfl
@[simp] theorem chanRead_rxs (s : State) (n : Nat) : (chanRead n s).2.rxs = (takeRx n s.rxs).2 := rfl
@[simp] theorem cacheRequest_rcValid (s : State) (h pay : List Byte) : (cacheRequest h pay s).rcValid = true := rfl
@[simp] theorem cacheRequest_rcHdr (s : State) (h pay : List Byte) :
    (cacheRequest h pay s).rcHdr = Memory.write s.rcHdr 0 h := rfl
@[simp] theorem cacheRequest_rcLen (s : State) (h pay : List Byte) :
    (cacheRequest h pay s).rcLen = some (BitVec.ofNat 16 pay.length) := rfl
@[simp] theorem cacheRequest_rcPay (s : State) (h pay : List Byte) :
    (cacheRequest h pay s).rcPay = Memory.write s.rcPay 0 pay := rfl

theorem finish_cur (k : Kind) (st : Byte) (l : Option Half) (s : State) :
    (finish k st l s).cur =
      { s.cur with
        resKind := some k, resStatus := some st
        resLen := (match l with | some l => some l | none => s.cur.resLen)
        busy := false } := by
  cases l <;> simp [finish]

theorem finish_port_of_ne (k : Kind) (st : Byte) (l : Option Half) (s : State) (q : Fin 16)
    (h : q ≠ s.turn) : (finish k st l s).port q = s.port q := s.port_modCur_of_ne q _ h

/-- `finish` clears `BUSY` of the issuing port, and of no other. -/
theorem finish_busy (k : Kind) (st : Byte) (l : Option Half) (s : State) (q : Fin 16) :
    ((finish k st l s).port q).busy = (!decide (q = s.turn) && (s.port q).busy) := by
  by_cases h : q = s.turn
  · subst h
    simp [finish, State.port_modCur_turn]
  · simp [finish_port_of_ne k st l s q h, h]

@[simp] theorem setResends_cur (n : Byte) (s : State) :
    (setResends n s).cur = { s.cur with resResends := some n } := by simp [setResends]

theorem setResends_port_of_ne (n : Byte) (s : State) (q : Fin 16) (h : q ≠ s.turn) :
    (setResends n s).port q = s.port q := s.port_modCur_of_ne q _ h

end Sys2Proof.Machine
end

