-- ==== Sys2Proof/Laws/Channel.lean ====
section
/-! SUPPORT. What a channel call and a frame's two writes can do, said once. -/

namespace Sys2Proof.Machine

/-! ## Writes -/

theorem writeCount_le (script : List Nat) (n : Nat) : writeCount script n ≤ n := by
  cases script <;> simp [writeCount]

@[simp] theorem writeCount_nil (n : Nat) : writeCount [] n = n := rfl

/-- A channel write appends a front part of the bytes offered and uses up one answer of the channel. -/
theorem chanWrite_eq (bs : List Byte) (s : State) :
    (chanWrite bs s).2 =
      { s with
        txs := s.txs ++ bs.take (chanWrite bs s).1
        writeScript := s.writeScript.tail } := rfl

theorem chanWrite_le (bs : List Byte) (s : State) : (chanWrite bs s).1 ≤ bs.length :=
  writeCount_le _ _

/-- Everything a frame's two writes can do (42_protocol_engine.md R189): they touch the bytes sent and
the channel's answers only, a front part of the frame is sent, and when they report success all of it. -/
theorem transmit_cases (h pay : List Byte) (s : State) :
    ∃ w n, (transmit h pay s).2 = { s with txs := s.txs ++ w, writeScript := s.writeScript.drop n }
      ∧ w <+: h ++ pay
      ∧ ((transmit h pay s).1 = true → w = h ++ pay ∧ n = if pay = [] then 1 else 2) := by
  unfold transmit
  simp only []
  split
  · exact ⟨h.take (chanWrite h s).1, 1, by rw [chanWrite_eq, List.drop_one],
      (List.take_prefix _ _).trans (List.prefix_append _ _), by simp⟩
  · next h1 =>
    have hw : h.take (chanWrite h s).1 = h := List.take_of_length_le (by omega)
    split
    · next h2 =>
      have : pay = [] := List.length_eq_zero_iff.mp h2
      subst this
      refine ⟨h, 1, ?_, by simp, by simp⟩
      rw [chanWrite_eq, hw, List.drop_one]
    · next h2 =>
      have h3 : pay ≠ [] := fun e => h2 (by simp [e])
      refine ⟨h ++ pay.take (chanWrite pay (chanWrite h s).2).1, 2, ?_, ?_, ?_⟩
      · have e : s.writeScript.tail.tail = s.writeScript.drop 2 := by
          rw [← List.drop_one, ← List.drop_one, List.drop_drop]
        rw [chanWrite_eq pay, chanWrite_eq h, hw]
        simp [e]
      · exact List.prefix_append_right_inj h |>.mpr (List.take_prefix _ _)
      · intro hk
        simp only [decide_eq_true_eq] at hk
        rw [List.take_of_length_le hk]
        simp [h3]

/-- Where the channel takes every byte, a frame goes whole. -/
theorem transmit_whole (h pay : List Byte) (s : State) (hs : s.writeScript = []) :
    transmit h pay s = (true, { s with txs := s.txs ++ (h ++ pay) }) := by
  unfold transmit
  simp only [chanWrite_count, hs, writeCount_nil, Nat.lt_irrefl, if_false]
  split
  · next h2 =>
    have : pay = [] := List.length_eq_zero_iff.mp h2
    subst this
    simp [chanWrite, hs]
  · simp [chanWrite, hs]

/-! ## Reads -/

theorem takeRx_length_le (n : Nat) (rx : List RxItem) : (takeRx n rx).1.length ≤ n := by
  induction n generalizing rx with
  | zero => cases rx <;> simp [takeRx]
  | succ n ih =>
    match rx with
    | [] => simp [takeRx]
    | .timeout :: rest => simp [takeRx]
    | .byte b :: rest => have := ih rest; simp [takeRx]; omega

/-- A read takes its bytes, and a timeout mark that ended it, from the front of the stream. -/
theorem takeRx_front (n : Nat) (rx : List RxItem) :
    ∃ mark, rx = (takeRx n rx).1.map RxItem.byte ++ mark ++ (takeRx n rx).2
      ∧ (mark = [] ∨ mark = [RxItem.timeout]) := by
  induction n generalizing rx with
  | zero => exact ⟨[], by cases rx <;> simp [takeRx]⟩
  | succ n ih =>
    match rx with
    | [] => exact ⟨[], by simp [takeRx]⟩
    | .timeout :: rest => exact ⟨[.timeout], by simp [takeRx]⟩
    | .byte b :: rest =>
      obtain ⟨mark, h1, h2⟩ := ih rest
      refine ⟨mark, ?_, h2⟩
      simp only [takeRx, List.map_cons, List.cons_append]
      rw [← h1]

/-- A read of bytes that are there gets exactly them. -/
theorem takeRx_bytes (bs : List Byte) (rest : List RxItem) :
    takeRx bs.length (bs.map RxItem.byte ++ rest) = (bs, rest) := by
  induction bs with
  | nil => cases rest <;> simp [takeRx]
  | cons b bs ih => simp [takeRx, ih]

/-- A read that gets all it asked for leaves the rest of the stream, timeout marks included. -/
theorem takeRx_full (n : Nat) (rx : List RxItem) (h : n ≤ (takeRx n rx).1.length) :
    rx = (takeRx n rx).1.map RxItem.byte ++ (takeRx n rx).2 := by
  induction n generalizing rx with
  | zero => cases rx <;> simp [takeRx]
  | succ n ih =>
    match rx with
    | [] => simp [takeRx] at h
    | .timeout :: rest => simp [takeRx] at h
    | .byte b :: rest =>
      simp only [takeRx, List.length_cons] at h
      simp only [takeRx, List.map_cons, List.cons_append]
      rw [← ih rest (by omega)]

/-- A read shortens the stream by at least the bytes it returns. -/
theorem takeRx_shorter (n : Nat) (rx : List RxItem) :
    (takeRx n rx).1.length + (takeRx n rx).2.length ≤ rx.length := by
  obtain ⟨mark, h, _⟩ := takeRx_front n rx
  have := congrArg List.length h
  simp at this
  omega

/-- What a read leaves is the end of the stream. -/
theorem takeRx_suffix (n : Nat) (rx : List RxItem) : (takeRx n rx).2 <:+ rx := by
  obtain ⟨mark, h, _⟩ := takeRx_front n rx
  exact ⟨_, h.symm⟩

end Sys2Proof.Machine
end

