-- ==== Sys2Proof/Laws/Memory.lean ====
section
/-! SUPPORT. The laws of the byte stores: read after write, every operation keeps the canonical form,
and the stores of the machine after reset have it. -/

namespace Sys2Proof.Machine

/-! ## One byte -/

@[simp] theorem Memory.get_nil (a : Nat) : Memory.get [] a = none := rfl

theorem Memory.get_cons (b : Nat) (v : Byte) (m : Memory) (a : Nat) :
    Memory.get ((b, v) :: m) a = if b = a then some v else Memory.get m a := rfl

/-- A byte below or above every offset of a part of a store is found in the other part. -/
theorem Memory.get_append (m n : Memory) (a : Nat) :
    Memory.get (m ++ n) a = (Memory.get m a).or (Memory.get n a) := by
  induction m with
  | nil => simp
  | cons c m ih =>
    obtain ⟨b, v⟩ := c
    simp only [List.cons_append, Memory.get_cons, ih]
    split <;> simp

theorem Memory.get_filter (f : Nat → Bool) (m : Memory) (a : Nat) :
    Memory.get (m.filter fun c => f c.1) a = if f a then Memory.get m a else none := by
  induction m with
  | nil => simp
  | cons c m ih =>
    obtain ⟨b, v⟩ := c
    rw [List.filter_cons]
    by_cases hb : b = a
    · subst hb
      by_cases hf : f b <;> simp [hf, Memory.get_cons, ih]
    · by_cases hf : f b <;> simp [hf, Memory.get_cons, ih, hb]

theorem Memory.get_cells (a : Nat) (bs : List Byte) (x : Nat) :
    Memory.get (Memory.cells a bs) x = if a ≤ x then bs[x - a]? else none := by
  induction bs generalizing a with
  | nil => simp [Memory.cells]
  | cons b bs ih =>
    rw [Memory.cells, Memory.get_cons, ih]
    by_cases h : a = x
    · subst h; simp
    · by_cases h' : a ≤ x
      · have e : x - a = (x - (a + 1)) + 1 := by omega
        simp [h, h', e]
        omega
      · have : ¬ a + 1 ≤ x := by omega
        simp [h, h', this]

/-- Read after write: a byte inside the written range is the one written, any other is as before. -/
theorem Memory.get_write (m : Memory) (a : Nat) (bs : List Byte) (x : Nat) :
    Memory.get (Memory.write m a bs) x
      = if a ≤ x ∧ x < a + bs.length then bs[x - a]? else Memory.get m x := by
  rw [Memory.write, Memory.get_append, Memory.get_append, Memory.get_filter (fun n => decide (n < a)),
    Memory.get_filter (fun n => decide (a + bs.length ≤ n)), Memory.get_cells]
  by_cases h1 : x < a
  · have h2 : ¬ a ≤ x := by omega
    have h3 : ¬ a + bs.length ≤ x := by omega
    simp [h1, h2, h3]
  · have h2 : a ≤ x := by omega
    by_cases h3 : x < a + bs.length
    · have h4 : ¬ a + bs.length ≤ x := by omega
      simp [h1, h2, h3, h4]
    · have h4 : a + bs.length ≤ x := by omega
      have h5 : bs[x - a]? = none := List.getElem?_eq_none (by omega)
      simp [h1, h2, h3, h4, h5]

theorem Memory.get_write_out (m : Memory) (a : Nat) (bs : List Byte) (x : Nat)
    (h : x < a ∨ a + bs.length ≤ x) : Memory.get (Memory.write m a bs) x = Memory.get m x := by
  rw [Memory.get_write, if_neg (by omega)]

/-! ## A range of bytes -/

@[simp] theorem Memory.read_zero (m : Memory) (a : Nat) : Memory.read m a 0 = some [] := rfl

theorem Memory.read_succ (m : Memory) (a n : Nat) :
    Memory.read m a (n + 1) =
      (match Memory.get m a, Memory.read m (a + 1) n with
        | some b, some bs => some (b :: bs)
        | _, _ => none) := rfl

/-- A range that can be read has as many bytes as were asked for. -/
theorem Memory.read_length (m : Memory) (a n : Nat) (bs : List Byte)
    (h : Memory.read m a n = some bs) : bs.length = n := by
  induction n generalizing a bs with
  | zero => simp at h; simp [← h]
  | succ n ih =>
    rw [Memory.read_succ] at h
    split at h
    · next b cs _ h2 => cases h; simp [ih _ _ h2]
    · cases h

/-- Each byte of a range is the byte of the store at its offset. -/
theorem Memory.get_of_read (m : Memory) (a n : Nat) (bs : List Byte)
    (h : Memory.read m a n = some bs) (k : Nat) (hk : k < n) : Memory.get m (a + k) = bs[k]? := by
  induction n generalizing a bs k with
  | zero => omega
  | succ n ih =>
    rw [Memory.read_succ] at h
    split at h
    · next b cs h1 h2 =>
      cases h
      cases k with
      | zero => simpa using h1
      | succ k =>
        have := ih (a + 1) cs h2 k (by omega)
        rw [show a + (k + 1) = a + 1 + k by omega, this]
        simp
    · cases h

/-- A range reads as `bs` exactly when each of its bytes does. -/
theorem Memory.read_eq_some (m : Memory) (a : Nat) (bs : List Byte)
    (h : ∀ k, k < bs.length → Memory.get m (a + k) = bs[k]?) :
    Memory.read m a bs.length = some bs := by
  induction bs generalizing a with
  | nil => rfl
  | cons b bs ih =>
    have h0 := h 0 (by simp)
    have h1 := ih (a + 1) (fun k hk => by
      have := h (k + 1) (by simpa using hk)
      rw [show a + (k + 1) = a + 1 + k by omega] at this
      simpa using this)
    simp at h0
    simp [Memory.read_succ, h0, h1]

/-- Two stores that agree on a range read the same there. -/
theorem Memory.read_congr (m m' : Memory) (a n : Nat)
    (h : ∀ k, k < n → Memory.get m (a + k) = Memory.get m' (a + k)) :
    Memory.read m a n = Memory.read m' a n := by
  induction n generalizing a with
  | zero => rfl
  | succ n ih =>
    rw [Memory.read_succ, Memory.read_succ, show Memory.get m a = Memory.get m' a from by
      simpa using h 0 (by omega), ih (a + 1) (fun k hk => by
        have := h (k + 1) (by omega)
        rwa [show a + (k + 1) = a + 1 + k by omega] at this)]

/-- The bytes just written read back. -/
theorem Memory.read_write_same (m : Memory) (a : Nat) (bs : List Byte) :
    Memory.read (Memory.write m a bs) a bs.length = some bs :=
  Memory.read_eq_some _ _ _ fun k hk => by
    rw [Memory.get_write, if_pos (by omega), show a + k - a = k by omega]

/-- A range apart from the bytes written reads as before. -/
theorem Memory.read_write_out (m : Memory) (a : Nat) (bs : List Byte) (b n : Nat)
    (h : b + n ≤ a ∨ a + bs.length ≤ b) :
    Memory.read (Memory.write m a bs) b n = Memory.read m b n :=
  Memory.read_congr _ _ _ _ fun k hk => Memory.get_write_out _ _ _ _ (by omega)

/-- A range that can be read, and then the next one, are together one range. -/
theorem Memory.read_append (m : Memory) (a n k : Nat) (bs cs : List Byte)
    (h1 : Memory.read m a n = some bs) (h2 : Memory.read m (a + n) k = some cs) :
    Memory.read m a (n + k) = some (bs ++ cs) := by
  have l1 := Memory.read_length _ _ _ _ h1
  have l2 := Memory.read_length _ _ _ _ h2
  have := Memory.read_eq_some m a (bs ++ cs) (fun i hi => by
    simp only [List.length_append] at hi
    by_cases h : i < n
    · rw [Memory.get_of_read _ _ _ _ h1 i h, List.getElem?_append_left (by omega)]
    · have := Memory.get_of_read _ _ _ _ h2 (i - n) (by omega)
      rw [show a + n + (i - n) = a + i by omega] at this
      rw [this, List.getElem?_append_right (by omega), l1])
  simpa [l1, l2] using this

/-- A longer range that can be read has every shorter one at its front. -/
theorem Memory.read_take (m : Memory) (a n k : Nat) (bs : List Byte)
    (h : Memory.read m a n = some bs) (hk : k ≤ n) : Memory.read m a k = some (bs.take k) := by
  have l := Memory.read_length _ _ _ _ h
  have := Memory.read_eq_some m a (bs.take k) (fun i hi => by
    simp only [List.length_take] at hi
    rw [Memory.get_of_read _ _ _ _ h i (by omega), List.getElem?_take_of_lt (by omega)])
  simpa [l, hk] using this

/-! ## The canonical form -/

theorem Memory.wf_cons (c : Host.Cell) (m : Memory) :
    Memory.wf (c :: m) = (m.all (fun d => decide (c.1 < d.1)) && Memory.wf m) := rfl

/-- The canonical form is the strict order of the offsets. -/
theorem Memory.wf_iff (m : Memory) :
    Memory.wf m = true ↔ m.Pairwise (fun c d => c.1 < d.1) := by
  induction m with
  | nil => simp [Memory.wf]
  | cons c m ih => simp [Memory.wf_cons, ih, List.pairwise_cons]

theorem Memory.cells_mem (a : Nat) (bs : List Byte) (c : Host.Cell)
    (h : c ∈ Memory.cells a bs) : a ≤ c.1 ∧ c.1 < a + bs.length := by
  induction bs generalizing a with
  | nil => simp [Memory.cells] at h
  | cons b bs ih =>
    rw [Memory.cells, List.mem_cons] at h
    rcases h with rfl | h
    · simp
    · have := ih (a + 1) h
      simp only [List.length_cons]
      omega

theorem Memory.cells_pairwise (a : Nat) (bs : List Byte) :
    (Memory.cells a bs).Pairwise (fun c d => c.1 < d.1) := by
  induction bs generalizing a with
  | nil => simp [Memory.cells]
  | cons b bs ih =>
    rw [Memory.cells, List.pairwise_cons]
    exact ⟨fun c hc => by have := Memory.cells_mem _ _ _ hc; omega, ih (a + 1)⟩

/-- A write keeps the canonical form. -/
theorem Memory.wf_write (m : Memory) (a : Nat) (bs : List Byte) (h : Memory.wf m = true) :
    Memory.wf (Memory.write m a bs) = true := by
  rw [Memory.wf_iff] at *
  rw [Memory.write, List.pairwise_append, List.pairwise_append]
  refine ⟨⟨h.filter _, Memory.cells_pairwise a bs, fun c hc d hd => ?_⟩, h.filter _, fun c hc d hd => ?_⟩
  · have h1 := (List.mem_filter.mp hc).2
    have h2 := Memory.cells_mem _ _ _ hd
    simp at h1
    omega
  · have h2 := (List.mem_filter.mp hd).2
    simp at h2
    rcases List.mem_append.mp hc with hc | hc
    · have h1 := (List.mem_filter.mp hc).2
      simp at h1
      omega
    · have h1 := Memory.cells_mem _ _ _ hc
      omega

/-- A write inside a buffer keeps the store inside it. -/
theorem Memory.within_write (size : Nat) (m : Memory) (a : Nat) (bs : List Byte)
    (h : Memory.within size m = true) (hb : a + bs.length ≤ size) :
    Memory.within size (Memory.write m a bs) = true := by
  simp only [Memory.within, List.all_eq_true, decide_eq_true_eq] at *
  intro c hc
  rcases List.mem_append.mp hc with hc | hc
  · rcases List.mem_append.mp hc with hc | hc
    · exact h c (List.mem_filter.mp hc).1
    · have := Memory.cells_mem _ _ _ hc
      omega
  · exact h c (List.mem_filter.mp hc).1

/-- The stores of a port after reset have the canonical form. -/
theorem Port.reset_wf :
    Memory.wf Port.reset.hbuf ∧ Memory.wf Port.reset.txbuf ∧ Memory.wf Port.reset.rxbuf
      ∧ Memory.wf Port.reset.ver ∧ Memory.wf Port.reset.idName ∧ Memory.wf Port.reset.idDate1
      ∧ Memory.wf Port.reset.idDate2 ∧ Memory.wf Port.reset.acc := by decide

/-- The machine's memory right after reset has the canonical form: the shared stores, and those of every
port. -/
theorem State.reset_wf :
    Memory.wf State.reset.rcHdr ∧ Memory.wf State.reset.rcPay ∧ Memory.wf State.reset.stageHdr
      ∧ Memory.wf State.reset.stage ∧ ∀ p : Fin 16, State.reset.port p = Port.reset := by
  refine ⟨rfl, rfl, rfl, rfl, fun p => ?_⟩
  simp [State.port, State.reset, State.resetWith]

end Sys2Proof.Machine
end

