-- ==== Sys2Proof/Laws/Runs.lean ====
section
/-! SUPPORT. What the body of a channel operation can change, said once for every core and every codec
arm: `Runs s t` holds when `t` is reached from `s` inside such a body. -/

namespace Sys2Proof.Machine

/-- The registers of a port that no body of a channel operation writes (43_command_dispatch.md R263). -/
def Port.fixed (p : Port) : Port :=
  { p with
    txbuf := [], rxbuf := [], resVal := none, ver := [], idName := [], idType := none, idDate1 := []
    idDate2 := [], accN := none, acc := [] }

/-- What the body of a channel operation leaves as it was, and how it uses the channel and the log. -/
structure Runs (s t : State) : Prop where
  cfg : t.cfg = s.cfg
  turn : t.turn = s.turn
  inputs : t.inputs = s.inputs
  reads : t.reads = s.reads
  free : t.free = s.free
  lockOwner : t.lockOwner = s.lockOwner
  retry : t.retry = s.retry
  active : t.active = s.active
  engine : t.engine = s.engine
  others : otherPortsKept s t
  cur : t.cur.fixed = s.cur.fixed
  sent : s.txs <+: t.txs
  taken : t.rxs <:+ s.rxs
  logged : s.log <+: t.log

theorem Runs.refl (s : State) : Runs s s :=
  ⟨rfl, rfl, rfl, rfl, rfl, rfl, rfl, rfl, rfl, fun _ _ => rfl, rfl, List.prefix_rfl, List.suffix_rfl,
    List.prefix_rfl⟩

theorem Runs.trans {s t u : State} (h : Runs s t) (k : Runs t u) : Runs s u where
  cfg := k.cfg.trans h.cfg
  turn := k.turn.trans h.turn
  inputs := k.inputs.trans h.inputs
  reads := k.reads.trans h.reads
  free := k.free.trans h.free
  lockOwner := k.lockOwner.trans h.lockOwner
  retry := k.retry.trans h.retry
  active := k.active.trans h.active
  engine := k.engine.trans h.engine
  others := fun q hq => (k.others q (by rw [h.turn]; exact hq)).trans (h.others q hq)
  cur := k.cur.trans h.cur
  sent := h.sent.trans k.sent
  taken := k.taken.trans h.taken
  logged := h.logged.trans k.logged

/-! ## The small updates -/

theorem Runs.setFsm (s : State) (f : Fsm) : Runs s (s.setFsm f) :=
  ⟨rfl, rfl, rfl, rfl, rfl, rfl, rfl, rfl, rfl, fun _ _ => rfl, rfl, List.prefix_rfl, List.suffix_rfl,
    List.prefix_rfl⟩

theorem Runs.logFault (s : State) (c : Half) (st : Byte) : Runs s (s.logFault c st) :=
  ⟨rfl, rfl, rfl, rfl, rfl, rfl, rfl, rfl, rfl, fun _ _ => rfl, rfl, List.prefix_rfl, List.suffix_rfl,
    List.prefix_append _ _⟩

theorem Runs.stageHeader (s : State) (h : List Byte) : Runs s (stageHeader h s) :=
  ⟨rfl, rfl, rfl, rfl, rfl, rfl, rfl, rfl, rfl, fun _ _ => rfl, rfl, List.prefix_rfl, List.suffix_rfl,
    List.prefix_rfl⟩

theorem Runs.stagePayload (s : State) (h : List Byte) : Runs s (stagePayload h s) :=
  ⟨rfl, rfl, rfl, rfl, rfl, rfl, rfl, rfl, rfl, fun _ _ => rfl, rfl, List.prefix_rfl, List.suffix_rfl,
    List.prefix_rfl⟩

theorem Runs.cacheRequest (s : State) (h pay : List Byte) : Runs s (cacheRequest h pay s) :=
  ⟨rfl, rfl, rfl, rfl, rfl, rfl, rfl, rfl, rfl, fun _ _ => rfl, rfl, List.prefix_rfl, List.suffix_rfl,
    List.prefix_rfl⟩

theorem Runs.chanWrite (s : State) (bs : List Byte) : Runs s (chanWrite bs s).2 :=
  ⟨rfl, rfl, rfl, rfl, rfl, rfl, rfl, rfl, rfl, fun _ _ => rfl, rfl, List.prefix_append _ _,
    List.suffix_rfl, List.prefix_rfl⟩

theorem Runs.chanRead (s : State) (n : Nat) : Runs s (chanRead n s).2 :=
  ⟨rfl, rfl, rfl, rfl, rfl, rfl, rfl, rfl, rfl, fun _ _ => rfl, rfl, List.prefix_rfl,
    takeRx_suffix n s.rxs, List.prefix_rfl⟩

/-- An update of the issuing port that keeps its fixed registers. -/
theorem Runs.modCur (s : State) (f : Port → Port) (hf : ∀ p, (f p).fixed = p.fixed) :
    Runs s (s.modCur f) where
  cfg := rfl
  turn := rfl
  inputs := rfl
  reads := rfl
  free := rfl
  lockOwner := rfl
  retry := rfl
  active := rfl
  engine := rfl
  others := fun q hq => s.port_modCur_of_ne q f hq
  cur := by rw [State.cur_modCur, hf]
  sent := List.prefix_rfl
  taken := List.suffix_rfl
  logged := List.prefix_rfl

theorem Runs.transmit (h pay : List Byte) (s : State) : Runs s (transmit h pay s).2 := by
  obtain ⟨w, n, e, _, _⟩ := transmit_cases h pay s
  rw [e]
  exact ⟨rfl, rfl, rfl, rfl, rfl, rfl, rfl, rfl, rfl, fun _ _ => rfl, rfl, List.prefix_append _ _,
    List.suffix_rfl, List.prefix_rfl⟩

theorem Runs.clearAcc (s : State) : Runs s (clearAcc s) := Runs.modCur s _ fun _ => rfl

theorem Runs.stagePct (s : State) (pay : List Byte) : Runs s (stagePct pay s) := Runs.modCur s _ fun _ => rfl

/-! ## The cores -/

theorem Runs.requestSent (h pay : List Byte) (s : State) : Runs s (requestSent h pay s) := by
  unfold Sys2Proof.Machine.requestSent
  split
  · exact Runs.setFsm _ _
  · exact (Runs.cacheRequest _ _ _).trans (Runs.setFsm _ _)

theorem Runs.sendCore (cmd : Half) (pay : List Byte) (s : State) : Runs s (sendCore cmd pay s).2 := by
  have h := (Runs.setFsm s .sending).trans (Runs.transmit (buildReq s.cfg cmd pay) pay (s.setFsm .sending))
  unfold Sys2Proof.Machine.sendCore
  simp only []
  split
  · exact h.trans (Runs.requestSent _ _ _)
  · exact h.trans (Runs.setFsm _ _)

theorem Runs.localReply (k : Kind) (l : Half) (s : State) : Runs s (localReply k l s).1 := Runs.setFsm _ _

theorem Runs.deviceReply (cmd : Half) (st : Byte) (l : Half) (s : State) :
    Runs s (deviceReply cmd st l s).1 := by
  unfold Sys2Proof.Machine.deviceReply
  simp only []
  split
  · exact (Runs.logFault _ _ _).trans (Runs.setFsm _ _)
  · exact Runs.setFsm _ _

theorem Runs.judgeReply (cmd max : Half) (r : RepHeader) (h pay : List Byte) (s : State) :
    Runs s (judgeReply cmd max r h pay s).1 := by
  unfold Sys2Proof.Machine.judgeReply
  split
  · exact Runs.localReply _ _ _
  split
  · exact Runs.deviceReply _ _ _ _
  split
  · exact Runs.localReply _ _ _
  split
  · exact Runs.setFsm _ _
  split
  · exact Runs.localReply _ _ _
  · refine Runs.trans ?_ (Runs.setFsm _ _)
    exact Runs.modCur s _ fun _ => rfl

theorem Runs.receiveCore {cmd max : Half} {s : State} {x : State × Reply}
    (h : receiveCore cmd max s = .ok x) : Runs s x.1 := by
  have h0 := (Runs.setFsm s .awaitingReply).trans (Runs.chanRead (s.setFsm .awaitingReply) 6)
  simp only [Sys2Proof.Machine.receiveCore] at h
  split at h
  · cases h; exact h0.trans (Runs.localReply _ _ _)
  · have h1 := h0.trans (Runs.stageHeader _ (Sys2Proof.Machine.chanRead 6 (s.setFsm .awaitingReply)).1)
    split at h
    · cases h
    split at h
    · cases h; exact h1.trans (Runs.judgeReply _ _ _ _ _ _)
    split at h
    · cases h; exact (h1.trans (Runs.chanRead _ _)).trans (Runs.localReply _ _ _)
    · cases h
      exact ((h1.trans (Runs.chanRead _ _)).trans (Runs.stagePayload _ _)).trans (Runs.judgeReply _ _ _ _ _ _)

/-- A computation that meets a fault meets it whatever follows: a run of two ends only where both do. -/
theorem bind_eq_ok {α β : Type} {x : Except Fault α} {f : α → Except Fault β} {b : β} :
    (x >>= f) = .ok b ↔ ∃ a, x = .ok a ∧ f a = .ok b := by
  cases x with
  | error e => simp [Bind.bind, Except.bind]
  | ok a => simp [Bind.bind, Except.bind]

theorem Runs.resendCore {s : State} {w : Bool × State} (h : resendCore s = .ok w) : Runs s w.2 := by
  unfold Sys2Proof.Machine.resendCore at h
  obtain ⟨hd, _, h⟩ := bind_eq_ok.mp h
  obtain ⟨pay, _, h⟩ := bind_eq_ok.mp h
  cases h
  exact Runs.transmit _ _ _

theorem Runs.retryLoop {cmd max : Half} (left n : Nat) {x : State × Reply} {y : State × Result}
    (h : retryLoop cmd max left n x = .ok y) : Runs x.1 y.1 := by
  induction left generalizing n x with
  | zero => cases h; exact Runs.refl _
  | succ left ih =>
    rw [Sys2Proof.Machine.retryLoop] at h
    split at h
    · obtain ⟨w, hw, h⟩ := bind_eq_ok.mp h
      have h1 := (Runs.setFsm x.1 .resending).trans (Runs.resendCore hw)
      split at h
      · obtain ⟨z, hz, h⟩ := bind_eq_ok.mp h
        exact (h1.trans (Runs.receiveCore hz)).trans (ih (n + 1) h)
      · cases h; exact h1.trans (Runs.setFsm _ _)
    · cases h; exact Runs.refl _

theorem Runs.exchangeCore {cmd max : Half} {s : State} {y : State × Result}
    (h : exchangeCore cmd max s = .ok y) : Runs s y.1 := by
  obtain ⟨x, hx, h⟩ := bind_eq_ok.mp h
  exact (Runs.receiveCore hx).trans (Runs.retryLoop _ _ h)

/-! ## The codec arms -/

theorem Runs.armExchange {id : Byte} {pay : List Byte} {bound : Half} {s : State} {y : State × Result}
    (h : armExchange id pay bound s = .ok y) : Runs s y.1 := by
  simp only [Sys2Proof.Machine.armExchange] at h
  split at h
  · exact (Runs.sendCore _ _ _).trans (Runs.exchangeCore h)
  · cases h; exact Runs.sendCore _ _ _

theorem Runs.fixedRead {size : Nat} {store : List Byte → Port → Port} {x y : State × Result}
    (hs : ∀ bs p, (store bs p).fixed = p.fixed) (h : fixedRead size store x = .ok y) : Runs x.1 y.1 := by
  unfold Sys2Proof.Machine.fixedRead at h
  split at h
  · cases h; exact Runs.refl _
  split at h
  · cases h; exact Runs.refl _
  · obtain ⟨bs, _, h⟩ := bind_eq_ok.mp h
    cases h
    exact Runs.modCur _ _ (hs bs)

theorem storeWord_fixed (en : Endian) (bs : List Byte) (p : Port) : (storeWord en bs p).fixed = p.fixed := rfl
theorem storeByte_fixed (bs : List Byte) (p : Port) : (storeByte bs p).fixed = p.fixed := rfl
theorem storeVersion_fixed (bs : List Byte) (p : Port) : (storeVersion bs p).fixed = p.fixed := rfl
theorem storeIdentity_fixed (en : Endian) (bs : List Byte) (p : Port) :
    (storeIdentity en bs p).fixed = p.fixed := rfl

theorem Runs.acceptChunk {x : State × Result} {y : State × Option Result}
    (h : acceptChunk x = .ok y) : Runs x.1 y.1 := by
  unfold Sys2Proof.Machine.acceptChunk at h
  split at h
  · cases h; exact Runs.refl _
  · obtain ⟨bs, _, h⟩ := bind_eq_ok.mp h
    obtain ⟨n, _, h⟩ := bind_eq_ok.mp h
    split at h
    · cases h; exact Runs.refl _
    · dsimp only at h
      split at h <;> cases h <;> exact Runs.modCur _ (fun p => { p with acc := _, accN := _ }) fun _ => rfl

theorem Runs.chunkLoop (id : Byte) (fuel : Nat) {s : State} {y : State × Result}
    (h : chunkLoop id fuel s = .ok y) : Runs s y.1 := by
  induction fuel generalizing s with
  | zero => cases h; exact Runs.refl _
  | succ fuel ih =>
    rw [Sys2Proof.Machine.chunkLoop] at h
    obtain ⟨x, hx, h⟩ := bind_eq_ok.mp h
    obtain ⟨z, hz, h⟩ := bind_eq_ok.mp h
    have h1 := (Runs.armExchange hx).trans (Runs.acceptChunk hz)
    split at h
    · cases h; exact h1
    · exact h1.trans (ih h)

/-- The arm of a codec (43_command_dispatch.md R247). -/
def armBody (codec : Codec) (id : Byte) : State → Except Fault (State × Result) :=
  match codec with
  | .none => armNone id
  | .rdF32 => armF32 id
  | .rdU32 => armU32 id
  | .rdU8 => armU8 id
  | .rdVer => armVer id
  | .rdId => armId id
  | .rdChunk => armChunk id
  | .wrPct => armPct id

/-- The dispatch mux runs the arm of its codec inside the lock. -/
theorem execArm_eq (codec : Codec) (id : Byte) (s : State) :
    execArm codec id s = runArm (armBody codec id) s := by cases codec <;> rfl

theorem Runs.armBody {codec : Codec} {id : Byte} {s : State} {y : State × Result}
    (h : armBody codec id s = .ok y) : Runs s y.1 := by
  cases codec
  case none => exact Runs.armExchange h
  case rdF32 =>
    obtain ⟨x, hx, h⟩ := bind_eq_ok.mp h
    exact (Runs.armExchange hx).trans (Runs.fixedRead (storeWord_fixed _) h)
  case rdU32 =>
    obtain ⟨x, hx, h⟩ := bind_eq_ok.mp h
    exact (Runs.armExchange hx).trans (Runs.fixedRead (storeWord_fixed _) h)
  case rdU8 =>
    obtain ⟨x, hx, h⟩ := bind_eq_ok.mp h
    exact (Runs.armExchange hx).trans (Runs.fixedRead storeByte_fixed h)
  case rdVer =>
    obtain ⟨x, hx, h⟩ := bind_eq_ok.mp h
    exact (Runs.armExchange hx).trans (Runs.fixedRead storeVersion_fixed h)
  case rdId =>
    obtain ⟨x, hx, h⟩ := bind_eq_ok.mp h
    exact (Runs.armExchange hx).trans (Runs.fixedRead (storeIdentity_fixed _) h)
  case rdChunk => exact (Runs.clearAcc s).trans (Runs.chunkLoop _ _ h)
  case wrPct =>
    obtain ⟨arg, _, h⟩ := bind_eq_ok.mp h
    exact (Runs.stagePct _ _).trans (Runs.armExchange h)

end Sys2Proof.Machine
end

