-- ==== Sys2Proof/Laws/Sound.lean ====
section
/-! SUPPORT. The data part of the invariant (`Sound`: byte stores, result registers, accumulator, retry
cache), and that every core, arm and host write keeps it. -/

namespace Sys2Proof.Machine

/-- The data part of the invariant, of one port. -/
structure PortSound (c : Params) (p : Port) : Prop where
  stores : ∀ x ∈ p.stores c.accMax, storeOk x
  status : p.statusOk c.hwThresh
  acc : p.accOk c.accMax

/-- The data part of the invariant. -/
structure Sound (s : State) : Prop where
  params : s.cfg.wf = true
  ports : ∀ p : Fin 16, PortSound s.cfg (s.port p)
  shared : ∀ x ∈ s.stores, storeOk x
  cache : s.cacheOk

theorem State.Inv.sound {s : State} (h : s.Inv) : Sound s :=
  ⟨h.params, fun p => ⟨h.stores.1 p, h.status p, h.acc p⟩, h.stores.2, h.cache⟩

/-- A state with the same parameters, ports, shared stores and cache is as sound. -/
theorem Sound.congr {s t : State} (h : Sound s) (hc : t.cfg = s.cfg) (hp : t.ports = s.ports)
    (h1 : t.rcValid = s.rcValid) (h2 : t.rcHdr = s.rcHdr) (h3 : t.rcLen = s.rcLen)
    (h4 : t.rcPay = s.rcPay) (h5 : t.stageHdr = s.stageHdr) (h6 : t.stage = s.stage) : Sound t where
  params := hc ▸ h.params
  ports := fun p => by
    have : t.port p = s.port p := by simp [State.port, hp]
    rw [this, hc]; exact h.ports p
  shared := by
    have := h.shared
    simp only [State.stores] at this ⊢
    rwa [hc, h2, h4, h5, h6]
  cache := by
    have := h.cache
    simp only [State.cacheOk] at this ⊢
    rwa [h1, h2, h3, h4]

theorem Sound.setFsm {s : State} (h : Sound s) (f : Fsm) : Sound (s.setFsm f) :=
  h.congr rfl rfl rfl rfl rfl rfl rfl rfl

theorem Sound.setEngine {s : State} (h : Sound s) (e : Option Engine) : Sound (s.setEngine e) :=
  h.congr rfl rfl rfl rfl rfl rfl rfl rfl

theorem Sound.logFault {s : State} (h : Sound s) (c : Half) (st : Byte) : Sound (s.logFault c st) :=
  h.congr rfl rfl rfl rfl rfl rfl rfl rfl

theorem Sound.chanWrite {s : State} (h : Sound s) (bs : List Byte) : Sound (chanWrite bs s).2 :=
  h.congr rfl rfl rfl rfl rfl rfl rfl rfl

theorem Sound.chanRead {s : State} (h : Sound s) (n : Nat) : Sound (chanRead n s).2 :=
  h.congr rfl rfl rfl rfl rfl rfl rfl rfl

theorem Sound.transmit {s : State} (h : Sound s) (hd pay : List Byte) : Sound (transmit hd pay s).2 := by
  obtain ⟨w, n, e, _, _⟩ := transmit_cases hd pay s
  rw [e]
  exact h.congr rfl rfl rfl rfl rfl rfl rfl rfl

/-- An update of one port that keeps that port sound. -/
theorem Sound.modPort {s : State} (h : Sound s) (p : Fin 16) (f : Port → Port)
    (hf : PortSound s.cfg (f (s.port p))) : Sound (s.modPort p f) where
  params := h.params
  ports := fun q => by
    rw [State.port_modPort]
    split
    · exact hf
    · exact h.ports q
  shared := h.shared
  cache := h.cache

theorem Sound.modCur {s : State} (h : Sound s) (f : Port → Port)
    (hf : PortSound s.cfg (f s.cur)) : Sound (s.modCur f) := h.modPort s.turn f hf

theorem storeOk.write {size : Nat} {m : Memory} (h : storeOk (size, m)) (a : Nat) (bs : List Byte)
    (hb : a + bs.length ≤ size) : storeOk (size, Memory.write m a bs) :=
  ⟨Memory.wf_write _ _ _ h.1, Memory.within_write _ _ _ _ h.2 hb⟩

theorem Sound.stageHeader {s : State} (h : Sound s) (hd : List Byte) (hl : hd.length = 6) :
    Sound (stageHeader hd s) where
  params := h.params
  ports := h.ports
  shared := by
    have := h.shared
    simp only [State.stores, Sys2Proof.Machine.stageHeader, List.mem_cons, List.not_mem_nil, or_false,
      forall_eq_or_imp, forall_eq] at this ⊢
    exact ⟨this.1, this.2.1, this.2.2.1.write 0 hd (by omega), this.2.2.2⟩
  cache := h.cache

theorem Sound.stagePayload {s : State} (h : Sound s) (pay : List Byte) (hl : pay.length ≤ s.cfg.stageMax) :
    Sound (stagePayload pay s) where
  params := h.params
  ports := h.ports
  shared := by
    have := h.shared
    simp only [State.stores, Sys2Proof.Machine.stagePayload, List.mem_cons, List.not_mem_nil, or_false,
      forall_eq_or_imp, forall_eq] at this ⊢
    exact ⟨this.1, this.2.1, this.2.2.1, this.2.2.2.write 0 pay (by omega)⟩
  cache := h.cache

theorem Sound.cacheRequest {s : State} (h : Sound s) (hd pay : List Byte) (h8 : hd.length = 8)
    (hl : pay.length ≤ 65535) : Sound (cacheRequest hd pay s) where
  params := h.params
  ports := h.ports
  shared := by
    have := h.shared
    simp only [State.stores, Sys2Proof.Machine.cacheRequest, List.mem_cons, List.not_mem_nil, or_false,
      forall_eq_or_imp, forall_eq] at this ⊢
    exact ⟨this.1.write 0 hd (by omega), this.2.1.write 0 pay (by omega), this.2.2⟩
  cache := by
    intro _
    have h1 := Memory.read_write_same s.rcHdr 0 hd
    rw [h8] at h1
    refine ⟨by simp [Sys2Proof.Machine.cacheRequest, h1], _, rfl, ?_⟩
    have : (BitVec.ofNat 16 pay.length).toNat = pay.length := by simp; omega
    simp [Sys2Proof.Machine.cacheRequest, this, Memory.read_write_same]

/-! ## The send -/

theorem Sound.requestSent {s : State} (h : Sound s) (hd pay : List Byte) (h8 : hd.length = 8)
    (hl : pay.length ≤ 65535) : Sound (requestSent hd pay s) := by
  unfold Sys2Proof.Machine.requestSent
  split
  · exact h.setFsm _
  · exact (h.cacheRequest hd pay h8 hl).setFsm _

theorem Sound.sendCore {s : State} (h : Sound s) (cmd : Half) (pay : List Byte) (hl : pay.length ≤ 65535) :
    Sound (sendCore cmd pay s).2 := by
  unfold Sys2Proof.Machine.sendCore
  simp only []
  split
  · exact ((h.setFsm _).transmit _ _).requestSent _ _ (buildReq_length _ _ _) hl
  · exact ((h.setFsm _).transmit _ _).setFsm _

/-! ## The receive -/

theorem statusFits_local (hw : Byte) (k : Kind)
    (hk : k ≠ .ok ∧ k ≠ .deviceReportedError ∧ k ≠ .protocolStatusError) :
    statusFits hw k localStatus = true := by
  cases k <;> simp_all [statusFits]

theorem statusFits_device (hw st : Byte) (h : st ≠ 0x00#8) : statusFits hw (statusKind hw st) st = true := by
  unfold statusKind
  split
  · next h1 => simpa [statusFits, h] using h1
  · next h1 => simpa [statusFits, h] using h1

/-- What a judged reply keeps and returns. -/
theorem Sound.judgeReply {s : State} (h : Sound s) (cmd max : Half) (r : RepHeader) (hd pay : List Byte)
    (hl : pay.length ≤ 65535) :
    Sound (judgeReply cmd max r hd pay s).1
      ∧ statusFits s.cfg.hwThresh (judgeReply cmd max r hd pay s).2.kind
          (judgeReply cmd max r hd pay s).2.status = true := by
  unfold Sys2Proof.Machine.judgeReply
  split
  · exact ⟨h.setFsm _, statusFits_local _ .checksumMismatch (by decide)⟩
  split
  · next hst =>
    refine ⟨?_, statusFits_device _ _ hst⟩
    unfold deviceReply
    simp only []
    split
    · exact (h.logFault _ _).setFsm _
    · exact h.setFsm _
  split
  · exact ⟨h.setFsm _, statusFits_local _ .commandMismatch (by decide)⟩
  split
  · exact ⟨h.setFsm _, rfl⟩
  split
  · exact ⟨h.setFsm _, statusFits_local _ .bufferTooSmall (by decide)⟩
  · refine ⟨Sound.setFsm (h.modCur _ ?_) _, rfl⟩
    have hp := h.ports s.turn
    refine ⟨?_, hp.status, hp.acc⟩
    have := hp.stores
    simp only [Port.stores, List.mem_cons, List.not_mem_nil, or_false, forall_eq_or_imp, forall_eq] at this ⊢
    exact ⟨this.1, this.2.1, this.2.2.1.write 0 pay (by omega), this.2.2.2⟩

theorem Sound.receiveCore {s : State} (h : Sound s) {cmd max : Half} {x : State × Reply}
    (hx : receiveCore cmd max s = .ok x) :
    Sound x.1 ∧ statusFits s.cfg.hwThresh x.2.kind x.2.status = true := by
  have h0 : Sound (Machine.chanRead 6 (s.setFsm .awaitingReply)).2 := (h.setFsm _).chanRead _
  simp only [Sys2Proof.Machine.receiveCore] at hx
  split at hx
  · cases hx; exact ⟨h0.setFsm _, statusFits_local _ .transportReadError (by decide)⟩
  · next r hr =>
    have h6 : (Machine.chanRead 6 (s.setFsm .awaitingReply)).1.length = 6 := by
      have h1 := takeRx_length_le 6 (s.setFsm .awaitingReply).rxs
      have h2 : ¬ (Machine.chanRead 6 (s.setFsm .awaitingReply)).1.length < 6 := fun hlt => by
        rw [(decRep_eq_none _ _).mpr hlt] at hr
        cases hr
      rw [chanRead_bytes] at h2 ⊢
      omega
    have h1 := h0.stageHeader _ h6
    split at hx
    · cases hx
    · next hsm =>
      split at hx
      · cases hx; exact h1.judgeReply _ _ _ _ _ (by simp)
      · split at hx
        · cases hx; exact ⟨(h1.chanRead _).setFsm _, statusFits_local _ .transportReadError (by decide)⟩
        · cases hx
          generalize hp : Machine.chanRead r.len.toNat _ = p
          have hle : p.1.length ≤ r.len.toNat := by rw [← hp]; exact takeRx_length_le _ _
          have hs : Sound p.2 := by rw [← hp]; exact h1.chanRead _
          have hcfg : p.2.cfg = s.cfg := by rw [← hp]; rfl
          have hlt := r.len.isLt
          have := (hs.stagePayload p.1 (by
            rw [hcfg]
            omega)).judgeReply cmd max r (Machine.chanRead 6 (s.setFsm .awaitingReply)).1 p.1 (by omega)
          rw [stagePayload_cfg, hcfg] at this
          exact this

/-! ## The exchange -/

theorem Sound.resendCore {s : State} (h : Sound s) {w : Bool × State} (hw : resendCore s = .ok w) :
    Sound w.2 := by
  unfold Sys2Proof.Machine.resendCore at hw
  obtain ⟨hd, _, hw⟩ := bind_eq_ok.mp hw
  obtain ⟨pay, _, hw⟩ := bind_eq_ok.mp hw
  cases hw
  exact h.transmit _ _

theorem Sound.retryLoop {cmd max : Half} (left n : Nat) {x : State × Reply} {y : State × Result}
    (hs : Sound x.1) (hf : statusFits x.1.cfg.hwThresh x.2.kind x.2.status = true)
    (h : retryLoop cmd max left n x = .ok y) :
    Sound y.1 ∧ statusFits x.1.cfg.hwThresh y.2.kind y.2.status = true := by
  induction left generalizing n x with
  | zero => cases h; exact ⟨hs, hf⟩
  | succ left ih =>
    rw [Sys2Proof.Machine.retryLoop] at h
    split at h
    · obtain ⟨w, hw, h⟩ := bind_eq_ok.mp h
      have h1 := Sound.resendCore (hs.setFsm .resending) hw
      have hc1 := (Runs.resendCore hw).cfg
      split at h
      · obtain ⟨z, hz, h⟩ := bind_eq_ok.mp h
        have h2 := h1.receiveCore hz
        have hc : z.1.cfg = x.1.cfg := (Runs.receiveCore hz).cfg.trans hc1
        have := ih (n + 1) h2.1 (by rw [hc]; rw [hc1] at h2; exact h2.2) h
        rwa [hc] at this
      · cases h; exact ⟨h1.setFsm _, statusFits_local _ .transportWriteError (by decide)⟩
    · cases h; exact ⟨hs, hf⟩

theorem Sound.exchangeCore {s : State} (h : Sound s) {cmd max : Half} {y : State × Result}
    (hy : exchangeCore cmd max s = .ok y) :
    Sound y.1 ∧ statusFits s.cfg.hwThresh y.2.kind y.2.status = true := by
  obtain ⟨x, hx, hy⟩ := bind_eq_ok.mp hy
  have h1 := h.receiveCore hx
  have hc := (Runs.receiveCore hx).cfg
  have := Sound.retryLoop _ _ h1.1 (by rw [hc]; exact h1.2) hy
  rwa [hc] at this

/-! ## The arms -/

theorem Sound.armExchange {s : State} (h : Sound s) {id : Byte} {pay : List Byte} {bound : Half}
    {y : State × Result} (hl : pay.length ≤ 65535) (hy : armExchange id pay bound s = .ok y) :
    Sound y.1 ∧ statusFits s.cfg.hwThresh y.2.kind y.2.status = true := by
  have hc := (Runs.sendCore (id.setWidth 16) pay s).cfg
  simp only [Sys2Proof.Machine.armExchange] at hy
  split at hy
  · have := (h.sendCore (id.setWidth 16) pay hl).exchangeCore hy
    rwa [hc] at this
  · cases hy; exact ⟨h.sendCore _ _ hl, statusFits_local _ .transportWriteError (by decide)⟩

theorem Sound.fixedRead {size : Nat} {store : List Byte → Port → Port} {x y : State × Result}
    (h : Sound x.1) (hf : statusFits x.1.cfg.hwThresh x.2.kind x.2.status = true)
    (hs : ∀ bs p, bs.length = size → PortSound x.1.cfg p → PortSound x.1.cfg (store bs p))
    (hy : fixedRead size store x = .ok y) :
    Sound y.1 ∧ statusFits x.1.cfg.hwThresh y.2.kind y.2.status = true := by
  unfold Sys2Proof.Machine.fixedRead at hy
  split at hy
  · cases hy; exact ⟨h, hf⟩
  split at hy
  · cases hy; exact ⟨h, statusFits_local _ .payloadShort (by decide)⟩
  · obtain ⟨bs, hb, hy⟩ := bind_eq_ok.mp hy
    cases hy
    refine ⟨h.modCur _ (hs bs _ ?_ (h.ports _)), rfl⟩
    unfold State.needRx need at hb
    split at hb
    · next hr => cases hb; exact Memory.read_length _ _ _ _ hr
    · cases hb

theorem PortSound.storeWord {c : Params} {p : Port} (h : PortSound c p) (en : Endian) (bs : List Byte) :
    PortSound c (storeWord en bs p) := ⟨h.stores, h.status, h.acc⟩

theorem PortSound.storeByte {c : Params} {p : Port} (h : PortSound c p) (bs : List Byte) :
    PortSound c (storeByte bs p) := ⟨h.stores, h.status, h.acc⟩

theorem PortSound.storeVersion {c : Params} {p : Port} (h : PortSound c p) (bs : List Byte)
    (hl : bs.length = 8) : PortSound c (storeVersion bs p) := by
  refine ⟨?_, h.status, h.acc⟩
  have := h.stores
  simp only [Port.stores, Sys2Proof.Machine.storeVersion, List.mem_cons, List.not_mem_nil, or_false,
    forall_eq_or_imp, forall_eq] at this ⊢
  exact ⟨this.1, this.2.1, this.2.2.1, this.2.2.2.1.write 0 bs (by omega), this.2.2.2.2⟩

theorem PortSound.storeIdentity {c : Params} {p : Port} (h : PortSound c p) (en : Endian) (bs : List Byte) :
    PortSound c (storeIdentity en bs p) := by
  refine ⟨?_, h.status, h.acc⟩
  have := h.stores
  simp only [Port.stores, Sys2Proof.Machine.storeIdentity, List.mem_cons, List.not_mem_nil, or_false,
    forall_eq_or_imp, forall_eq] at this ⊢
  exact ⟨this.1, this.2.1, this.2.2.1, this.2.2.2.1, this.2.2.2.2.1.write 0 _ (by simp),
    this.2.2.2.2.2.1.write 0 _ (by simp), this.2.2.2.2.2.2.1.write 0 _ (by simp), this.2.2.2.2.2.2.2⟩

/-- The parameters of a configured block bound the accumulator (20_memory.md R71). -/
theorem Params.wf_accMax {c : Params} (h : c.wf = true) : c.accMax ≤ 0xC0000 := by
  simp only [Params.wf, Bool.and_eq_true, decide_eq_true_eq] at h
  exact h.1.1.2

theorem Sound.acceptChunk {x : State × Result} {y : State × Option Result} (h : Sound x.1)
    (hf : statusFits x.1.cfg.hwThresh x.2.kind x.2.status = true) (hy : acceptChunk x = .ok y) :
    Sound y.1 ∧ ∀ r, y.2 = some r → statusFits x.1.cfg.hwThresh r.kind r.status = true := by
  unfold Sys2Proof.Machine.acceptChunk at hy
  split at hy
  · cases hy; exact ⟨h, fun r hr => by cases hr; exact hf⟩
  · obtain ⟨bs, hb, hy⟩ := bind_eq_ok.mp hy
    obtain ⟨n, hn, hy⟩ := bind_eq_ok.mp hy
    have hl : bs.length = x.2.len.toNat := by
      unfold State.needRx need at hb
      split at hb
      · next hr => cases hb; exact Memory.read_length _ _ _ _ hr
      · cases hb
    have hn' : x.1.cur.accN = some n := by
      unfold need at hn
      split at hn
      · next hr => cases hn; exact hr
      · cases hn
    split at hy
    · cases hy; exact ⟨h, fun r hr => by cases hr; exact statusFits_local _ .accOverflow (by decide)⟩
    · next hle =>
      have hmax := Params.wf_accMax h.params
      have hp := h.ports x.1.turn
      have hs : Sound (x.1.modCur fun p =>
          { p with
            acc := Memory.write p.acc n.toNat bs
            accN := some (BitVec.ofNat 32 (n.toNat + x.2.len.toNat)) }) := by
        refine h.modCur _ ⟨?_, hp.status, ?_⟩
        · have := hp.stores
          simp only [Port.stores, List.mem_cons, List.not_mem_nil, or_false, forall_eq_or_imp,
            forall_eq] at this ⊢
          exact ⟨this.1, this.2.1, this.2.2.1, this.2.2.2.1, this.2.2.2.2.1, this.2.2.2.2.2.1,
            this.2.2.2.2.2.2.1, this.2.2.2.2.2.2.2.write _ _ (by omega)⟩
        · intro m hm
          cases hm
          obtain ⟨_, h2⟩ := hp.acc n hn'
          have e : (BitVec.ofNat 32 (n.toNat + x.2.len.toNat)).toNat = n.toNat + bs.length := by
            simp; omega
          rw [e]
          refine ⟨by omega, ?_⟩
          obtain ⟨old, ho⟩ := Option.isSome_iff_exists.mp h2
          rw [show Memory.read (Memory.write x.1.cur.acc n.toNat bs) 0 (n.toNat + bs.length) = some (old ++ bs) from
            Memory.read_append _ _ _ _ _ _
              ((Memory.read_write_out _ _ _ _ _ (by omega)).trans ho)
              (by rw [Nat.zero_add]; exact Memory.read_write_same _ _ _)]
          rfl
      dsimp only at hy
      split at hy <;> cases hy
      · exact ⟨hs, fun r hr => by cases hr; rfl⟩
      · exact ⟨hs, fun r hr => by cases hr⟩

theorem Sound.chunkLoop (id : Byte) (fuel : Nat) {s : State} {y : State × Result} (h : Sound s)
    (hy : chunkLoop id fuel s = .ok y) :
    Sound y.1 ∧ statusFits s.cfg.hwThresh y.2.kind y.2.status = true := by
  induction fuel generalizing s with
  | zero => cases hy; exact ⟨h, statusFits_local _ .transportReadError (by decide)⟩
  | succ fuel ih =>
    rw [Sys2Proof.Machine.chunkLoop] at hy
    obtain ⟨x, hx, hy⟩ := bind_eq_ok.mp hy
    obtain ⟨z, hz, hy⟩ := bind_eq_ok.mp hy
    have hc := (Runs.armExchange hx).cfg
    have h1 := h.armExchange (by simp) hx
    have h2 := h1.1.acceptChunk (by rw [hc]; exact h1.2) hz
    have hc2 := (Runs.acceptChunk hz).cfg.trans hc
    rw [hc] at h2
    split at hy
    · next r hr => cases hy; exact ⟨h2.1, h2.2 r hr⟩
    · have := ih h2.1 hy
      rwa [hc2] at this

theorem Sound.clearAcc {s : State} (h : Sound s) : Sound (clearAcc s) := by
  have hp := h.ports s.turn
  refine h.modCur _ ⟨hp.stores, hp.status, ?_⟩
  intro n hn
  cases hn
  exact ⟨by simp, rfl⟩

theorem Sound.stagePct {s : State} (h : Sound s) (pay : List Byte) (hl : pay.length ≤ 65535) :
    Sound (stagePct pay s) := by
  have hp := h.ports s.turn
  refine h.modCur _ ⟨?_, hp.status, hp.acc⟩
  have := hp.stores
  simp only [Port.stores, List.mem_cons, List.not_mem_nil, or_false, forall_eq_or_imp, forall_eq] at this ⊢
  exact ⟨this.1, this.2.1.write 0 pay (by omega), this.2.2⟩

@[simp] theorem pctPayload_length (c : Params) (arg : Word) : (pctPayload c arg).length = 4 := by
  simp [pctPayload]

theorem Sound.armBody {codec : Codec} {id : Byte} {s : State} {y : State × Result} (h : Sound s)
    (hy : armBody codec id s = .ok y) :
    Sound y.1 ∧ statusFits s.cfg.hwThresh y.2.kind y.2.status = true := by
  have fixed : ∀ {size : Nat} {store : List Byte → Port → Port} {x : State × Result} (bound : Half),
      (∀ bs p, bs.length = size → PortSound s.cfg p → PortSound s.cfg (store bs p)) →
      Sys2Proof.Machine.armExchange id [] bound s = .ok x → Sys2Proof.Machine.fixedRead size store x = .ok y →
      Sound y.1 ∧ statusFits s.cfg.hwThresh y.2.kind y.2.status = true := by
    intro size store x bound hs hx hy
    have h1 := h.armExchange (by simp) hx
    have hc := (Runs.armExchange hx).cfg
    have := h1.1.fixedRead (by rw [hc]; exact h1.2) (by rw [hc]; exact hs) hy
    rwa [hc] at this
  cases codec
  case none => exact h.armExchange (by simp) hy
  case rdF32 =>
    obtain ⟨x, hx, hy⟩ := bind_eq_ok.mp hy
    exact fixed _ (fun bs p _ hp => hp.storeWord _ bs) hx hy
  case rdU32 =>
    obtain ⟨x, hx, hy⟩ := bind_eq_ok.mp hy
    exact fixed _ (fun bs p _ hp => hp.storeWord _ bs) hx hy
  case rdU8 =>
    obtain ⟨x, hx, hy⟩ := bind_eq_ok.mp hy
    exact fixed _ (fun bs p _ hp => hp.storeByte bs) hx hy
  case rdVer =>
    obtain ⟨x, hx, hy⟩ := bind_eq_ok.mp hy
    exact fixed _ (fun bs p hl hp => hp.storeVersion bs hl) hx hy
  case rdId =>
    obtain ⟨x, hx, hy⟩ := bind_eq_ok.mp hy
    exact fixed _ (fun bs p _ hp => hp.storeIdentity _ bs) hx hy
  case rdChunk => exact Sound.chunkLoop (s := Machine.clearAcc s) _ _ h.clearAcc hy
  case wrPct =>
    obtain ⟨arg, _, hy⟩ := bind_eq_ok.mp hy
    exact (h.stagePct _ (by simp)).armExchange (by simp) hy

/-! ## The end of an operation -/

theorem Sound.finish {s : State} (h : Sound s) (k : Kind) (st : Byte) (l : Option Half)
    (hf : statusFits s.cfg.hwThresh k st = true) : Sound (finish k st l s) := by
  have hp := h.ports s.turn
  exact h.modCur _ ⟨hp.stores, hf, hp.acc⟩

theorem Sound.setResends {s : State} (h : Sound s) (n : Byte) : Sound (setResends n s) := by
  have hp := h.ports s.turn
  exact h.modCur _ ⟨hp.stores, hp.status, hp.acc⟩

theorem Sound.releaseChannel {s : State} (h : Sound s) (took : Bool) : Sound (releaseChannel took s) := by
  unfold Sys2Proof.Machine.releaseChannel
  split <;> exact h.congr rfl rfl rfl rfl rfl rfl rfl rfl

theorem Sound.endChannelOp {s : State} (h : Sound s) (took : Bool) (k : Kind) (st : Byte) (l : Half)
    (hf : statusFits s.cfg.hwThresh k st = true) : Sound (endChannelOp took k st l s) :=
  (h.releaseChannel took).finish _ _ _ (by rw [releaseChannel_cfg]; exact hf)

theorem Sound.endExchange {x : State × Result} (h : Sound x.1) (took : Bool)
    (hf : statusFits x.1.cfg.hwThresh x.2.kind x.2.status = true) : Sound (endExchange took x) :=
  (h.setResends _).endChannelOp _ _ _ _ hf

end Sys2Proof.Machine
end

