-- ==== Sys2Proof/Laws/Invariant.lean ====
section
/-! SUPPORT. The lock and engine part of the invariant: how it carries over a running operation, its end,
and the pieces of a step. -/

namespace Sys2Proof.Machine

/-! ## Port numbers -/

theorem portByte_ne_noPort (p : Fin 16) : portByte p ≠ noPort := by revert p; decide

theorem portByte_inj {p q : Fin 16} (h : portByte p = portByte q) : p = q := by revert p q; decide

/-! ## Which state an invariant state is close to -/

/-- The parts of the invariant that the lock and the engine make. -/
structure Control (s : State) : Prop where
  lock : s.lockOk
  free : s.lockOwner = noPort → s.fsm = .idle
  quiet : s.engine = none → s.active = noPort
  running : ∀ e, s.engine = some e → s.runningOk e
  absent : ∀ p : Fin 16, s.cfg.nports ≤ p.val → (s.port p).busy = false

theorem State.Inv.control {s : State} (h : s.Inv) : Control s :=
  ⟨h.lock, h.free, h.quiet, h.running, h.absent⟩

theorem State.Inv.of {s : State} (h : Sound s) (k : Control s) : s.Inv :=
  ⟨h.params, ⟨fun p => (h.ports p).stores, h.shared⟩, k.lock, k.free, k.quiet, k.running, k.absent,
    fun p => (h.ports p).status, fun p => (h.ports p).acc, h.cache⟩

/-- The invariant does not see the issuing port, the events to come, the values read or the counter of
the free values, the channel and the log. -/
theorem State.Inv.congr {s t : State} (h : s.Inv) (hc : t.cfg = s.cfg) (hp : t.ports = s.ports)
    (h1 : t.rcValid = s.rcValid) (h2 : t.rcHdr = s.rcHdr) (h3 : t.rcLen = s.rcLen)
    (h4 : t.rcPay = s.rcPay) (h5 : t.stageHdr = s.stageHdr) (h6 : t.stage = s.stage)
    (h7 : t.lockOwner = s.lockOwner) (h8 : t.fsm = s.fsm) (h9 : t.active = s.active)
    (h10 : t.engine = s.engine) : t.Inv := by
  have hport : ∀ p, t.port p = s.port p := fun p => by simp [State.port, hp]
  refine State.Inv.of (h.sound.congr hc hp h1 h2 h3 h4 h5 h6) ⟨?_, ?_, ?_, ?_, ?_⟩
  · have := h.lock; simp only [State.lockOk] at this ⊢; rwa [hc, h7]
  · rw [h7, h8]; exact h.free
  · rw [h9, h10]; exact h.quiet
  · intro e he
    have := h.running e (by rw [← h10]; exact he)
    simp only [State.runningOk, hport] at this ⊢
    rwa [hc, h7, h8, h9]
  · intro p hle
    rw [hport]
    exact h.absent p (by rw [← hc]; exact hle)

theorem State.Inv.setTurn {s : State} (h : s.Inv) (p : Fin 16) : ({ s with turn := p } : State).Inv :=
  h.congr rfl rfl rfl rfl rfl rfl rfl rfl rfl rfl rfl rfl

theorem State.Inv.setInputs {s : State} (h : s.Inv) (es : List Event) :
    ({ s with inputs := es } : State).Inv := h.congr rfl rfl rfl rfl rfl rfl rfl rfl rfl rfl rfl rfl

/-! ## A running operation -/

/-- The body of an operation leaves every port's `BUSY` as it was. -/
theorem Runs.busy {s t : State} (h : Runs s t) (q : Fin 16) : (t.port q).busy = (s.port q).busy := by
  by_cases hq : q = s.turn
  · subst hq
    have := congrArg Port.busy h.cur
    simpa [Port.fixed, State.cur, h.turn] using this
  · rw [h.others q hq]

/-- The engine stands at a new phase of the operation it is running. -/
theorem Control.stillRunning {s t : State} {e e' : Engine} (h : Control s) (he : s.engine = some e)
    (hr : Runs s t) (hk : engineOk s.cfg e') (hf : t.fsm = phaseFsm e'.phase) :
    Control (t.setEngine (some e')) := by
  obtain ⟨_, _, p, ha, hl, hb⟩ := h.running e he
  refine ⟨?_, ?_, ?_, ?_, ?_⟩
  · have := h.lock
    simp only [State.lockOk, State.setEngine_lockOwner, State.setEngine_cfg, hr.lockOwner, hr.cfg] at this ⊢
    exact this
  · intro hn
    rw [State.setEngine_lockOwner, hr.lockOwner, hl] at hn
    exact absurd hn (portByte_ne_noPort p)
  · intro hn; cases hn
  · intro e'' he''
    cases he''
    refine ⟨by rw [State.setEngine_cfg, hr.cfg]; exact hk, hf, p, ?_, ?_, ?_⟩
    · rw [State.setEngine_active, hr.active, ha]
    · rw [State.setEngine_lockOwner, hr.lockOwner, hl]
    · rw [State.setEngine_port, hr.busy, hb]
  · intro q hq
    rw [State.setEngine_port, hr.busy]
    exact h.absent q (by rw [← hr.cfg]; exact hq)

/-- The end of an operation whose port `p` owned the lock while it ran. -/
theorem Control.ended {s t : State} (p : Fin 16) (k : Kind) (st : Byte) (l : Half) (took : Bool)
    (hn : p.val < s.cfg.nports) (ha : ∀ q : Fin 16, s.cfg.nports ≤ q.val → (s.port q).busy = false)
    (hc : t.cfg = s.cfg) (hl : t.lockOwner = portByte p) (hb : ∀ q, (t.port q).busy = (s.port q).busy) :
    Control ((endChannelOp took k st l t).setEngine none) := by
  have hcfg : ((endChannelOp took k st l t).setEngine none).cfg = s.cfg := by
    rw [State.setEngine_cfg, endChannelOp, finish_cfg, releaseChannel_cfg, hc]
  refine ⟨?_, ?_, ?_, ?_, ?_⟩
  · cases took
    · right
      exact ⟨p, by rw [hcfg]; exact hn, hl⟩
    · left; rfl
  · intro hf
    cases took
    · exact absurd (hl.symm.trans hf) (portByte_ne_noPort _)
    · rfl
  · intro _
    cases took <;> rfl
  · intro e he; cases he
  · intro q hq
    rw [State.setEngine_port, endChannelOp, finish_busy, releaseChannel_port, hb,
      ha q (by rw [← hcfg]; exact hq), Bool.and_false]

/-- The end of a running operation, with the result of its last exchange. -/
theorem State.Inv.endRunning {s u : State} {e : Engine} (h : s.Inv) (he : s.engine = some e)
    (hr : Runs s u) (hs : Sound u) (k : Kind) (st : Byte) (l : Half) (took : Bool)
    (hf : statusFits s.cfg.hwThresh k st = true) :
    ((endChannelOp took k st l u).setEngine none).Inv := by
  obtain ⟨_, _, p, ha, hl, hb⟩ := h.running e he
  have hn : p.val < s.cfg.nports := by
    rcases Nat.lt_or_ge p.val s.cfg.nports with hlt | hge
    · exact hlt
    · rw [h.absent p hge] at hb; cases hb
  exact State.Inv.of ((hs.endChannelOp took k st l (by rw [hr.cfg]; exact hf)).setEngine none)
    (Control.ended p k st l took hn h.absent hr.cfg (hr.lockOwner.trans hl) hr.busy)

/-- The same with the count of resends written first. -/
theorem State.Inv.endRunningExchange {s : State} {x : State × Result} {e : Engine} (h : s.Inv)
    (he : s.engine = some e) (hr : Runs s x.1) (hs : Sound x.1) (took : Bool)
    (hf : statusFits s.cfg.hwThresh x.2.kind x.2.status = true) :
    ((endExchange took x).setEngine none).Inv := by
  obtain ⟨_, _, p, ha, hl, hb⟩ := h.running e he
  have hn : p.val < s.cfg.nports := by
    rcases Nat.lt_or_ge p.val s.cfg.nports with hlt | hge
    · exact hlt
    · rw [h.absent p hge] at hb; cases hb
  refine State.Inv.of ((hs.endExchange took (by rw [hr.cfg]; exact hf)).setEngine none)
    (Control.ended p _ _ _ took hn h.absent hr.cfg (hr.lockOwner.trans hl) fun q => ?_)
  have : ((setResends x.2.resends x.1).port q).busy = (x.1.port q).busy := by
    by_cases hq : q = x.1.turn
    · subst hq; simp [setResends, State.port_modCur_turn]
    · rw [setResends_port_of_ne _ _ _ hq]
  rw [this, hr.busy]

/-- The engine stands at a new phase of the operation it is running. -/
theorem State.Inv.stillRunning {s u : State} {e e' : Engine} (h : s.Inv) (he : s.engine = some e)
    (hr : Runs s u) (hs : Sound u) (hk : engineOk s.cfg e') (hf : u.fsm = phaseFsm e'.phase) :
    (u.setEngine (some e')).Inv :=
  State.Inv.of (hs.setEngine _) (h.control.stillRunning he hr hk hf)

/-! ## One engine step -/

/-- The end of a job, or its next chunk. -/
theorem State.Inv.endJob {s t : State} {x : State × Result} {e : Engine} (h : s.Inv)
    (he : s.engine = some e) (hr : Runs s x.1) (hs : Sound x.1)
    (hf : statusFits s.cfg.hwThresh x.2.kind x.2.status = true) (ht : endJob e x = .ok t) : t.Inv := by
  have hok := (h.running e he).1
  unfold Sys2Proof.Machine.endJob at ht
  split at ht
  · cases ht; exact h.endRunning he hr hs _ _ _ _ hf
  · cases ht; exact h.endRunning he hr hs _ _ _ _ hf
  · cases ht; exact h.endRunningExchange he hr hs _ hf
  · cases ht; exact h.endRunningExchange he hr hs _ hf
  · next codec id hj =>
    obtain ⟨y, hy, ht⟩ := bind_eq_ok.mp ht
    have key : Runs s y.1 ∧ Sound y.1 ∧ ∀ r, y.2 = some r → statusFits s.cfg.hwThresh r.kind r.status = true := by
      have fixed : ∀ {size : Nat} {store : List Byte → Port → Port},
          (∀ bs p, (store bs p).fixed = p.fixed) →
          (∀ bs p, bs.length = size → PortSound x.1.cfg p → PortSound x.1.cfg (store bs p)) →
          (fixedRead size store x).map (fun y => (y.1, some y.2)) = .ok y →
          Runs s y.1 ∧ Sound y.1 ∧ ∀ r, y.2 = some r → statusFits s.cfg.hwThresh r.kind r.status = true := by
        intro size store h1 h2 hy
        cases hz : fixedRead size store x with
        | error f => rw [hz] at hy; cases hy
        | ok z =>
          rw [hz] at hy
          cases hy
          have hz1 := hs.fixedRead (by rw [hr.cfg]; exact hf) h2 hz
          rw [hr.cfg] at hz1
          exact ⟨hr.trans (Runs.fixedRead h1 hz), hz1.1, fun r hr' => by cases hr'; exact hz1.2⟩
      cases codec
      case none => cases hy; exact ⟨hr, hs, fun r hr' => by cases hr'; exact hf⟩
      case rdF32 => exact fixed (storeWord_fixed _) (fun bs p _ hp => hp.storeWord _ bs) hy
      case rdU32 => exact fixed (storeWord_fixed _) (fun bs p _ hp => hp.storeWord _ bs) hy
      case rdU8 => exact fixed storeByte_fixed (fun bs p _ hp => hp.storeByte bs) hy
      case rdVer => exact fixed storeVersion_fixed (fun bs p hl hp => hp.storeVersion bs hl) hy
      case rdId => exact fixed (storeIdentity_fixed _) (fun bs p _ hp => hp.storeIdentity _ bs) hy
      case rdChunk =>
        have := hs.acceptChunk (by rw [hr.cfg]; exact hf) hy
        rw [hr.cfg] at this
        exact ⟨hr.trans (Runs.acceptChunk hy), this⟩
      case wrPct => cases hy; exact ⟨hr, hs, fun r hr' => by cases hr'; exact hf⟩
    split at ht
    · next r hr' =>
      cases ht
      exact h.endRunningExchange (x := (y.1, r)) he key.1 key.2.1 _ (key.2.2 r hr')
    · cases ht
      exact h.stillRunning he (key.1.trans (Runs.setFsm _ _)) (key.2.1.setFsm _) ⟨by simp [phaseOk], hok.2⟩ rfl

/-- A receive's outcome and what `G.FSM` shows agree (42_protocol_engine.md R210). -/
theorem judgeReply_fsm (cmd max : Half) (r : RepHeader) (hd pay : List Byte) (s : State) :
    (judgeReply cmd max r hd pay s).1.fsm = phaseFsm (.received (judgeReply cmd max r hd pay s).2) := by
  unfold judgeReply
  split
  · rfl
  split
  · unfold deviceReply statusKind
    simp only []
    split <;> rfl
  split
  · rfl
  split
  · rfl
  split <;> rfl

/-- What follows the last write of a request: `t` is the state that write left. -/
theorem State.Inv.requestWritten {s t : State} {e : Engine} (h : s.Inv) (he : s.engine = some e)
    (hr : Runs s t) (hs : Sound t) {header payload : List Byte} (h8 : header.length = 8)
    (hl : payload.length ≤ 65535) : (requestWritten e header payload t).Inv := by
  obtain ⟨_, hres, hlim⟩ := (h.running e he).1
  unfold Sys2Proof.Machine.requestWritten
  split
  · exact h.stillRunning he (hr.trans (Runs.setFsm _ _)) (hs.setFsm _) ⟨⟨h8, hl⟩, hres, hlim⟩ rfl
  · exact h.stillRunning he (hr.trans (Runs.requestSent _ _ _)) (hs.requestSent _ _ h8 hl)
      ⟨trivial, hres, hlim⟩ rfl

/-- One engine step keeps the invariant. -/
theorem State.Inv.engineMove {s t : State} {e : Engine} (h : s.Inv) (he : s.engine = some e)
    (ht : engineMove e s = .ok t) : t.Inv := by
  obtain ⟨⟨hphase, hres, hlim⟩, hfsm, _⟩ := h.running e he
  have hs := h.sound
  unfold Sys2Proof.Machine.engineMove at ht
  split at ht
  · next payload hp =>
    rw [hp] at hphase hfsm
    dsimp only at ht
    have hw := Runs.chanWrite s (buildReq s.cfg e.cmd payload)
    have hsw := hs.chanWrite (buildReq s.cfg e.cmd payload)
    split at ht
    · cases ht
      exact h.stillRunning he (hw.trans (Runs.setFsm _ _)) (hsw.setFsm _) ⟨trivial, hres, hlim⟩ rfl
    split at ht
    · cases ht
      exact h.requestWritten he hw hsw (buildReq_length _ _ _) hphase
    · cases ht
      exact h.stillRunning he hw hsw ⟨⟨buildReq_length _ _ _, hphase⟩, hres, hlim⟩ hfsm
  · next header payload hp =>
    rw [hp] at hphase hfsm
    dsimp only at ht
    have hw := Runs.chanWrite s payload
    have hsw := hs.chanWrite payload
    split at ht
    · cases ht
      exact h.stillRunning he (hw.trans (Runs.setFsm _ _)) (hsw.setFsm _) ⟨trivial, hres, hlim⟩ rfl
    · cases ht
      exact h.requestWritten he hw hsw hphase.1 hphase.2
  · next ok hp =>
    unfold afterSend at ht
    split at ht
    · split at ht
      · exact h.endJob he (Runs.refl s) hs rfl ht
      · obtain ⟨max, _, ht⟩ := bind_eq_ok.mp ht
        cases ht
        exact h.stillRunning he (Runs.setFsm _ _) (hs.setFsm _)
          ⟨trivial, Nat.zero_le _, by have := s.retry.isLt; simp only; omega⟩ rfl
    · exact h.endJob he (Runs.refl s) hs (statusFits_local _ .transportWriteError (by decide)) ht
  · next header payload hp =>
    rw [hp] at hphase
    exact h.endJob he (Runs.requestSent _ _ _) (hs.requestSent _ _ hphase.1 hphase.2) rfl ht
  · next hp =>
    rw [hp] at hfsm
    dsimp only at ht
    have hw := Runs.chanRead s 6
    have hsw := hs.chanRead 6
    split at ht
    · cases ht
      exact h.stillRunning he (hw.trans (Runs.setFsm _ _)) (hsw.setFsm _)
        ⟨statusFits_local _ .transportReadError (by decide), hres, hlim⟩ rfl
    · next r hr =>
      have h6 : (chanRead 6 s).1.length = 6 := by
        have h1 := takeRx_length_le 6 s.rxs
        have h2 : ¬ (chanRead 6 s).1.length < 6 := fun hlt => by
          rw [(decRep_eq_none _ _).mpr hlt] at hr
          cases hr
        rw [chanRead_bytes] at h2 ⊢
        omega
      have hw1 := hw.trans (Runs.stageHeader _ (chanRead 6 s).1)
      have hs1 := hsw.stageHeader _ h6
      split at ht
      · cases ht
      · next hst =>
        split at ht
        · cases ht
          have hj := hs1.judgeReply e.cmd e.max r (chanRead 6 s).1 [] (by simp)
          exact h.stillRunning he (hw1.trans (Runs.judgeReply _ _ _ _ _ _)) hj.1 ⟨hj.2, hres, hlim⟩
            (judgeReply_fsm _ _ _ _ _ _)
        · cases ht
          refine h.stillRunning he hw1 hs1 ⟨⟨h6, ?_⟩, hres, hlim⟩ hfsm
          intro r' hr'
          rw [hr] at hr'
          cases hr'
          exact Nat.le_of_not_lt hst
  · next header hp =>
    rw [hp] at hphase hfsm
    obtain ⟨h6, hlen⟩ := hphase
    split at ht
    · next hnone => exact absurd ((decRep_eq_none _ _).mp hnone) (by omega)
    · next r hr =>
      dsimp only at ht
      have hw := Runs.chanRead s r.len.toNat
      have hsw := hs.chanRead r.len.toNat
      split at ht
      · cases ht
        exact h.stillRunning he (hw.trans (Runs.setFsm _ _)) (hsw.setFsm _)
          ⟨statusFits_local _ .transportReadError (by decide), hres, hlim⟩ rfl
      · cases ht
        have hle : (chanRead r.len.toNat s).1.length ≤ r.len.toNat := takeRx_length_le _ _
        have hlt := r.len.isLt
        have hst := hsw.stagePayload (chanRead r.len.toNat s).1 (Nat.le_trans hle (hlen r hr))
        have hj := hst.judgeReply e.cmd e.max r header (chanRead r.len.toNat s).1 (by omega)
        exact h.stillRunning he ((hw.trans (Runs.stagePayload _ _)).trans (Runs.judgeReply _ _ _ _ _ _)) hj.1
          ⟨hj.2, hres, hlim⟩ (judgeReply_fsm _ _ _ _ _ _)
  · next r hp =>
    rw [hp] at hphase
    unfold afterReceive at ht
    split at ht
    · next hc =>
      cases ht
      exact h.stillRunning he (Runs.setFsm _ _) (hs.setFsm _) ⟨trivial, hc.2.2, hlim⟩ rfl
    · exact h.endJob (x := (s, r.result e.resends)) he (Runs.refl s) hs hphase ht
  · next hp =>
    rw [hp] at hfsm
    obtain ⟨header, _, ht⟩ := bind_eq_ok.mp ht
    obtain ⟨payload, _, ht⟩ := bind_eq_ok.mp ht
    dsimp only at ht
    have hw := Runs.chanWrite s header
    have hsw := hs.chanWrite header
    split at ht
    · cases ht
      exact h.stillRunning he (hw.trans (Runs.setFsm _ _)) (hsw.setFsm _) ⟨trivial, hres, hlim⟩ rfl
    split at ht
    · cases ht
      exact h.stillRunning he (hw.trans (Runs.setFsm _ _)) (hsw.setFsm _) ⟨trivial, hres, hlim⟩ rfl
    · cases ht
      exact h.stillRunning he hw hsw ⟨trivial, hres, hlim⟩ hfsm
  · next hp =>
    obtain ⟨payload, _, ht⟩ := bind_eq_ok.mp ht
    cases ht
    have hw := Runs.chanWrite s payload
    have hsw := hs.chanWrite payload
    unfold resendDone
    split
    · exact h.stillRunning he (hw.trans (Runs.setFsm _ _)) (hsw.setFsm _) ⟨trivial, hres, hlim⟩ rfl
    · exact h.stillRunning he (hw.trans (Runs.setFsm _ _)) (hsw.setFsm _) ⟨trivial, hres, hlim⟩ rfl
  · next hp =>
    exact h.endJob he (Runs.refl s) hs (statusFits_local _ .transportWriteError (by decide)) ht

end Sys2Proof.Machine
end

