-- ==== Sys2Proof/Laws/InvariantExec.lean ====
section
/-! SUPPORT. The pieces of a step keep the invariant: every instruction, the first step of a channel
operation, a host access and reset. -/

namespace Sys2Proof.Machine

/-- What `beginChannelOp` does when it proceeds (42_protocol_engine.md R183). -/
theorem beginChannelOp_some {s s1 : State} {took : Bool} (h : beginChannelOp s = some (took, s1)) :
    s1 = { s with lockOwner := portByte s.turn, active := portByte s.turn }
      ∧ (s.lockOwner = portByte s.turn ∧ took = false ∨ s.lockOwner = noPort ∧ took = true) := by
  unfold beginChannelOp at h
  split at h
  · next h1 => cases h; exact ⟨by rw [← h1], .inl ⟨h1, rfl⟩⟩
  split at h
  · next h2 => cases h; exact ⟨rfl, .inr ⟨h2, rfl⟩⟩
  · cases h

/-- It holds exactly while another port owns the lock. -/
theorem beginChannelOp_none {s : State} :
    beginChannelOp s = none ↔ s.lockOwner ≠ portByte s.turn ∧ s.lockOwner ≠ noPort := by
  unfold beginChannelOp
  split
  · simp [*]
  split <;> simp [*]

/-- A meaning that answers a next state met no fault. -/
theorem outcome_next {r : Except Fault State} {t : State} : outcome r = .next t ↔ r = .ok t := by
  cases r <;> simp [outcome]

/-- What an operation under the lock can answer: it holds, or its body ran with the lock its own. -/
theorem underLock_next {body : Bool → State → Except Fault State} {s t : State}
    (h : underLock body s = .next t) :
    (beginChannelOp s = none ∧ t = s)
      ∨ ∃ took s1, beginChannelOp s = some (took, s1) ∧ body took s1 = .ok t := by
  unfold underLock at h
  split at h
  · next hn => cases h; exact .inl ⟨hn, rfl⟩
  · next took s1 hs => exact .inr ⟨took, s1, hs, outcome_next.mp h⟩

/-! ## A state in which the issuing port may start -/

/-- The issuing port is there, and the engine is not in the middle of its operation. -/
structure Startable (s : State) : Prop where
  inv : s.Inv
  there : s.turn.val < s.cfg.nports
  notOn : s.engineOn s.turn = false

/-- A free or own lock means that the engine runs nothing. -/
theorem Startable.noEngine {s : State} (h : Startable s)
    (hl : s.lockOwner = portByte s.turn ∨ s.lockOwner = noPort) : s.engine = none := by
  cases he : s.engine with
  | none => rfl
  | some e =>
    obtain ⟨_, _, p, ha, hlo, _⟩ := h.inv.running e he
    rcases hl with hl | hl
    · have := h.notOn
      simp [State.engineOn, he, ha, ← hlo, hl] at this
    · exact absurd (hlo.symm.trans hl) (portByte_ne_noPort p)

/-- The state inside the lock is sound, and the engine runs nothing. -/
theorem Startable.begun {s s1 : State} {took : Bool} (h : Startable s)
    (hb : beginChannelOp s = some (took, s1)) :
    Sound s1 ∧ s1.engine = none ∧ s1.lockOwner = portByte s.turn ∧ s1.cfg = s.cfg ∧ s1.turn = s.turn
      ∧ s1.ports = s.ports := by
  obtain ⟨rfl, hc⟩ := beginChannelOp_some hb
  exact ⟨h.inv.sound.congr rfl rfl rfl rfl rfl rfl rfl rfl,
    h.noEngine (by rcases hc with hc | hc <;> simp [hc.1]), rfl, rfl, rfl, rfl⟩

/-- A whole channel operation, from its start to its end. -/
theorem Startable.ended {s s1 u : State} {took : Bool} (h : Startable s)
    (hb : beginChannelOp s = some (took, s1)) (hr : Runs s1 u) (hs : Sound u) (k : Kind) (st : Byte) (l : Half)
    (hf : statusFits s.cfg.hwThresh k st = true) : (endChannelOp took k st l u).Inv := by
  obtain ⟨_, he, hl, hc, ht, hp⟩ := h.begun hb
  have hport : ∀ q, s1.port q = s.port q := fun q => by simp [State.port, hp]
  have hctl := Control.ended (s := s1) (t := u) s.turn k st l took (by rw [hc]; exact h.there)
    (fun q hq => by rw [hport]; exact h.inv.absent q (by rw [← hc]; exact hq)) hr.cfg
    (hr.lockOwner.trans hl) hr.busy
  have := State.Inv.of ((hs.endChannelOp took k st l (by rw [hr.cfg, hc]; exact hf)).setEngine none) hctl
  refine this.congr rfl rfl rfl rfl rfl rfl rfl rfl rfl rfl rfl ?_
  rw [State.setEngine_engine, endChannelOp, finish_engine, releaseChannel_engine, hr.engine, he]

/-- The same with the count of resends written first. -/
theorem Startable.endedExchange {s s1 : State} {x : State × Result} {took : Bool} (h : Startable s)
    (hb : beginChannelOp s = some (took, s1)) (hr : Runs s1 x.1) (hs : Sound x.1)
    (hf : statusFits s.cfg.hwThresh x.2.kind x.2.status = true) : (endExchange took x).Inv := by
  obtain ⟨_, he, hl, hc, ht, hp⟩ := h.begun hb
  have hport : ∀ q, s1.port q = s.port q := fun q => by simp [State.port, hp]
  have hbusy : ∀ q, ((setResends x.2.resends x.1).port q).busy = (s1.port q).busy := fun q => by
    rw [← hr.busy]
    by_cases hq : q = x.1.turn
    · subst hq; simp [setResends, State.port_modCur_turn]
    · rw [setResends_port_of_ne _ _ _ hq]
  have hctl := Control.ended (s := s1) (t := setResends x.2.resends x.1) s.turn x.2.kind x.2.status x.2.len took
    (by rw [hc]; exact h.there)
    (fun q hq => by rw [hport]; exact h.inv.absent q (by rw [← hc]; exact hq)) hr.cfg
    (hr.lockOwner.trans hl) hbusy
  have := State.Inv.of ((hs.endExchange took (by rw [hr.cfg, hc]; exact hf)).setEngine none) hctl
  refine this.congr rfl rfl rfl rfl rfl rfl rfl rfl rfl rfl rfl ?_
  rw [State.setEngine_engine, endExchange, endChannelOp, finish_engine, releaseChannel_engine,
    setResends_engine, hr.engine, he]

/-! ## Operations without the channel -/

/-- An update of the issuing port that keeps it sound and does not set its `BUSY`. -/
theorem State.Inv.modCur {s : State} (h : s.Inv) (f : Port → Port) (hf : PortSound s.cfg (f s.cur))
    (hb : (f s.cur).busy = s.cur.busy) : (s.modCur f).Inv := by
  have hbusy : ∀ q, ((s.modCur f).port q).busy = (s.port q).busy := fun q => by
    by_cases hq : q = s.turn
    · subst hq; rw [State.port_modCur_turn]; exact hb
    · rw [s.port_modCur_of_ne q f hq]
  refine State.Inv.of (h.sound.modCur f hf) ⟨h.lock, h.free, h.quiet, ?_, ?_⟩
  · intro e he
    obtain ⟨h1, h2, p, ha, hl, hp⟩ := h.running e he
    exact ⟨h1, h2, p, ha, hl, by rw [hbusy]; exact hp⟩
  · intro q hq
    rw [hbusy]
    exact h.absent q hq

/-- The end of an operation that is none of the engine's. -/
theorem Startable.finish {s : State} (h : Startable s) (k : Kind) (st : Byte) (l : Option Half)
    (hf : statusFits s.cfg.hwThresh k st = true) : (finish k st l s).Inv := by
  refine State.Inv.of (h.inv.sound.finish k st l hf) ⟨h.inv.lock, h.inv.free, h.inv.quiet, ?_, ?_⟩
  · intro e he
    obtain ⟨h1, h2, p, ha, hl, hp⟩ := h.inv.running e he
    refine ⟨h1, h2, p, ha, hl, ?_⟩
    rw [finish_busy, hp]
    have hne : p ≠ s.turn := fun hpt => by
      have := h.notOn
      have he' : s.engine = some e := he
      have ha' : s.active = portByte p := ha
      simp [State.engineOn, he', ha', hpt] at this
    simp [hne]
  · intro q hq
    rw [finish_busy, h.inv.absent q hq, Bool.and_false]

theorem Startable.modCur {s : State} (h : Startable s) (f : Port → Port) (hf : PortSound s.cfg (f s.cur))
    (hb : (f s.cur).busy = s.cur.busy) : Startable (s.modCur f) :=
  ⟨h.inv.modCur f hf hb, h.there, h.notOn⟩

/-- The lock changes hands, or stays, while the engine runs nothing. -/
theorem Startable.setLock {s : State} (h : Startable s) (hl : s.lockOpen = true) :
    Startable { s with lockOwner := portByte s.turn } := by
  have he : s.engine = none := h.noEngine (by
    simp only [State.lockOpen, Bool.or_eq_true, beq_iff_eq] at hl
    exact hl.symm)
  refine ⟨State.Inv.of (h.inv.sound.congr rfl rfl rfl rfl rfl rfl rfl rfl) ⟨?_, ?_, h.inv.quiet, ?_, h.inv.absent⟩,
    h.there, h.notOn⟩
  · exact .inr ⟨s.turn, h.there, rfl⟩
  · intro hn; exact absurd hn (portByte_ne_noPort _)
  · intro e he'; rw [show _ = _ from he] at he'; cases he'

theorem PortSound.headers {c : Params} {p q : Port} (h : PortSound c p) (hs : ∀ n, q.stores n = p.stores n)
    (h1 : q.resKind = p.resKind) (h2 : q.resStatus = p.resStatus) (h3 : q.accN = p.accN)
    (h4 : q.acc = p.acc) : PortSound c q := by
  refine ⟨by rw [hs]; exact h.stores, ?_, ?_⟩
  · have := h.status; simp only [Port.statusOk, h1, h2] at this ⊢; exact this
  · have := h.acc; simp only [Port.accOk, h3, h4] at this ⊢; exact this

theorem PortSound.hbufWrite {c : Params} {p : Port} (h : PortSound c p) (a : Nat) (bs : List Byte)
    (n : Option Byte) (hl : a + bs.length ≤ 8) :
    PortSound c { p with hbuf := Memory.write p.hbuf a bs, hbn := n } := by
  refine ⟨?_, h.status, h.acc⟩
  have := h.stores
  simp only [Port.stores, List.mem_cons, List.not_mem_nil, or_false, forall_eq_or_imp, forall_eq] at this ⊢
  exact ⟨this.1.write a bs hl, this.2⟩

/-! ## Every instruction -/

theorem Startable.execArm {s t : State} (h : Startable s) (codec : Codec) (id : Byte)
    (ht : execArm codec id s = .next t) : t.Inv := by
  rw [execArm_eq] at ht
  rcases underLock_next ht with ⟨_, rfl⟩ | ⟨took, s1, hb, hx⟩
  · exact h.inv
  · obtain ⟨x, hx1, hy⟩ := bind_eq_ok.mp hx
    cases hy
    have hs1 := (h.begun hb).1
    have := hs1.armBody hx1
    exact h.endedExchange hb (Runs.armBody hx1) this.1 (by rw [← (h.begun hb).2.2.2.1]; exact this.2)

theorem Startable.execCall {s t : State} (h : Startable s) (ht : execCall s = .next t) : t.Inv := by
  unfold Sys2Proof.Machine.execCall at ht
  split at ht
  · cases ht
  split at ht
  · cases ht; exact h.finish _ _ _ (statusFits_local _ .noSuchCommand (by decide))
  split at ht
  · cases ht
  · exact h.execArm _ _ ht

theorem Startable.callCommand {s t : State} (h : Startable s) (cmd : Half)
    (ht : callCommand cmd s = .next t) : t.Inv :=
  (h.modCur _ ((h.inv.sound.ports s.turn).headers (fun _ => rfl) rfl rfl rfl rfl) rfl).execCall ht

/-- The operations without the channel keep the invariant. -/
theorem Startable.execPlain {s t : State} (h : Startable s) (i : Instr)
    (hi : i = .crc ∨ i = .encreq ∨ i = .decreq ∨ i = .encrep ∨ i = .decrep ∨ i = .lock ∨ i = .unlock
      ∨ i = .setretry) (ht : exec i s = .next t) : t.Inv := by
  have hp := h.inv.sound.ports s.turn
  rcases hi with rfl | rfl | rfl | rfl | rfl | rfl | rfl | rfl
  · have ht := outcome_next.mp (show outcome _ = _ from ht)
    obtain ⟨bytes, _, ht⟩ := bind_eq_ok.mp ht
    obtain ⟨seed, _, ht⟩ := bind_eq_ok.mp ht
    cases ht
    exact (h.modCur _ (hp.headers (fun _ => rfl) rfl rfl rfl rfl) rfl).finish _ _ _ rfl
  · have ht := outcome_next.mp (show outcome _ = _ from ht)
    obtain ⟨hd, _, ht⟩ := bind_eq_ok.mp ht
    cases ht
    exact (h.modCur _ (hp.hbufWrite 0 (encReq s.cfg.endian hd) _ (by simp)) rfl).finish _ _ _ rfl
  · have ht := outcome_next.mp (show outcome _ = _ from ht)
    obtain ⟨n, _, ht⟩ := bind_eq_ok.mp ht
    obtain ⟨bytes, _, ht⟩ := bind_eq_ok.mp ht
    split at ht
    · cases ht; exact h.finish _ _ _ (statusFits_local _ .malformedHeader (by decide))
    · cases ht
      exact (h.modCur _ (hp.headers (fun _ => rfl) rfl rfl rfl rfl) rfl).finish _ _ _ rfl
  · have ht := outcome_next.mp (show outcome _ = _ from ht)
    obtain ⟨hd, _, ht⟩ := bind_eq_ok.mp ht
    cases ht
    exact (h.modCur _ (hp.hbufWrite 0 (encRep s.cfg.endian hd) _ (by simp)) rfl).finish _ _ _ rfl
  · have ht := outcome_next.mp (show outcome _ = _ from ht)
    obtain ⟨n, _, ht⟩ := bind_eq_ok.mp ht
    obtain ⟨bytes, _, ht⟩ := bind_eq_ok.mp ht
    split at ht
    · cases ht; exact h.finish _ _ _ (statusFits_local _ .malformedHeader (by decide))
    · cases ht
      exact (h.modCur _ (hp.headers (fun _ => rfl) rfl rfl rfl rfl) rfl).finish _ _ _ rfl
  · unfold exec execLock at ht
    dsimp only at ht
    split at ht
    · next hl => cases ht; exact (h.setLock hl).finish _ _ _ rfl
    · cases ht; exact h.inv
  · unfold exec execUnlock at ht
    dsimp only at ht
    split at ht
    · next hl =>
      have he := h.noEngine (.inl hl)
      cases ht
      refine Startable.finish (s := { s with lockOwner := noPort, fsm := .idle })
        ⟨State.Inv.of (h.inv.sound.congr rfl rfl rfl rfl rfl rfl rfl rfl)
          ⟨.inl rfl, fun _ => rfl, h.inv.quiet, ?_, h.inv.absent⟩, h.there, h.notOn⟩ .ok 0x00#8 none rfl
      intro e he'
      rw [show _ = _ from he] at he'
      cases he'
    · cases ht; exact h.finish _ _ _ (statusFits_local _ .notOwner (by decide))
  · unfold exec execSetretry at ht
    dsimp only at ht
    split at ht
    · have ht := outcome_next.mp ht
      obtain ⟨arg, _, ht⟩ := bind_eq_ok.mp ht
      cases ht
      exact Startable.finish (s := { s with retry := byteAt arg 0 })
        ⟨h.inv.congr rfl rfl rfl rfl rfl rfl rfl rfl rfl rfl rfl rfl, h.there, h.notOn⟩ .ok 0x00#8 none rfl
    · cases ht; exact h.inv

/-- A payload that can be read is one a frame can hold. -/
theorem needPayload_length {s : State} {pay : List Byte} (h : s.needPayload = .ok pay) :
    pay.length ≤ 65535 := by
  obtain ⟨len, _, h⟩ := bind_eq_ok.mp h
  unfold need at h
  split at h
  · next hr =>
    cases h
    rw [Memory.read_length _ _ _ _ hr]
    have := len.isLt
    omega
  · cases h

/-- The channel operations keep the invariant. -/
theorem Startable.execChannel {s t : State} (h : Startable s) (i : Instr)
    (hi : i = .send ∨ i = .receive ∨ i = .exchange ∨ i = .transact) (ht : exec i s = .next t) : t.Inv := by
  rcases hi with rfl | rfl | rfl | rfl
  · rcases underLock_next ht with ⟨_, rfl⟩ | ⟨took, s1, hb, hx⟩
    · exact h.inv
    · obtain ⟨cmd, _, hx⟩ := bind_eq_ok.mp hx
      obtain ⟨pay, hp, hx⟩ := bind_eq_ok.mp hx
      have hs := (h.begun hb).1.sendCore cmd pay (needPayload_length hp)
      have hr := Runs.sendCore cmd pay s1
      dsimp only at hx
      split at hx <;> cases hx
      · exact h.ended hb hr hs _ _ _ rfl
      · exact h.ended hb hr hs _ _ _ (statusFits_local _ .transportWriteError (by decide))
  · rcases underLock_next ht with ⟨_, rfl⟩ | ⟨took, s1, hb, hx⟩
    · exact h.inv
    · obtain ⟨cmd, _, hx⟩ := bind_eq_ok.mp hx
      obtain ⟨max, _, hx⟩ := bind_eq_ok.mp hx
      obtain ⟨x, hx1, hx⟩ := bind_eq_ok.mp hx
      cases hx
      have hs := (h.begun hb).1.receiveCore hx1
      exact h.ended hb (Runs.receiveCore hx1) hs.1 _ _ _ (by rw [← (h.begun hb).2.2.2.1]; exact hs.2)
  · rcases underLock_next ht with ⟨_, rfl⟩ | ⟨took, s1, hb, hx⟩
    · exact h.inv
    · obtain ⟨cmd, _, hx⟩ := bind_eq_ok.mp hx
      obtain ⟨max, _, hx⟩ := bind_eq_ok.mp hx
      obtain ⟨x, hx1, hx⟩ := bind_eq_ok.mp hx
      cases hx
      have hs := (h.begun hb).1.exchangeCore hx1
      exact h.endedExchange hb (Runs.exchangeCore hx1) hs.1 (by rw [← (h.begun hb).2.2.2.1]; exact hs.2)
  · rcases underLock_next ht with ⟨_, rfl⟩ | ⟨took, s1, hb, hx⟩
    · exact h.inv
    · obtain ⟨cmd, _, hx⟩ := bind_eq_ok.mp hx
      obtain ⟨pay, hp, hx⟩ := bind_eq_ok.mp hx
      have hs := (h.begun hb).1.sendCore cmd pay (needPayload_length hp)
      have hr := Runs.sendCore cmd pay s1
      dsimp only at hx
      split at hx
      · obtain ⟨max, _, hx⟩ := bind_eq_ok.mp hx
        obtain ⟨x, hx1, hx⟩ := bind_eq_ok.mp hx
        cases hx
        have hs2 := hs.exchangeCore hx1
        exact h.endedExchange hb (hr.trans (Runs.exchangeCore hx1)) hs2.1
          (by rw [← (h.begun hb).2.2.2.1, ← hr.cfg]; exact hs2.2)
      · cases hx
        exact h.endedExchange (x := ((sendCore cmd pay s1).2, writeFailed 0)) hb hr hs
          (statusFits_local _ .transportWriteError (by decide))

/-! ## The first step of a channel operation -/

/-- The engine stands at its first phase. -/
theorem Startable.entered {s s1 u : State} {took : Bool} {e : Engine} (h : Startable s)
    (hbusy : s.cur.busy = true) (hb : beginChannelOp s = some (took, s1)) (hr : Runs s1 u) (hs : Sound u)
    (hk : engineOk s.cfg e) (hf : u.fsm = phaseFsm e.phase) : (u.setEngine (some e)).Inv := by
  obtain ⟨rfl, _⟩ := beginChannelOp_some hb
  refine State.Inv.of (hs.setEngine _) ⟨?_, ?_, ?_, ?_, ?_⟩
  · exact .inr ⟨s.turn, by rw [State.setEngine_cfg, hr.cfg]; exact h.there, hr.lockOwner⟩
  · intro hn
    rw [State.setEngine_lockOwner, hr.lockOwner] at hn
    exact absurd hn (portByte_ne_noPort _)
  · intro hn; cases hn
  · intro e' he
    cases he
    exact ⟨by rw [State.setEngine_cfg, hr.cfg]; exact hk, hf, s.turn, hr.active, hr.lockOwner,
      by rw [State.setEngine_port, hr.busy]; exact hbusy⟩
  · intro q hq
    rw [State.setEngine_port, hr.busy]
    exact h.inv.absent q (by rw [State.setEngine_cfg, hr.cfg] at hq; exact hq)

theorem Startable.beginJob {s t : State} (h : Startable s) (hbusy : s.cur.busy = true) (job : Job)
    (ht : beginJob job s = .next t) : t.Inv := by
  rcases underLock_next ht with ⟨_, rfl⟩ | ⟨took, s1, hb, hx⟩
  · exact h.inv
  have hs := (h.begun hb).1
  have hc := (h.begun hb).2.2.2.1
  unfold startJob at hx
  split at hx
  · obtain ⟨cmd, _, hx⟩ := bind_eq_ok.mp hx
    obtain ⟨pay, hp, hx⟩ := bind_eq_ok.mp hx
    cases hx
    exact h.entered hbusy hb (Runs.setFsm _ _) (hs.setFsm _)
      ⟨needPayload_length hp, Nat.le_refl _, Nat.zero_le _⟩ rfl
  · obtain ⟨cmd, _, hx⟩ := bind_eq_ok.mp hx
    obtain ⟨pay, hp, hx⟩ := bind_eq_ok.mp hx
    cases hx
    exact h.entered hbusy hb (Runs.setFsm _ _) (hs.setFsm _)
      ⟨needPayload_length hp, Nat.le_refl _, Nat.zero_le _⟩ rfl
  · obtain ⟨cmd, _, hx⟩ := bind_eq_ok.mp hx
    obtain ⟨max, _, hx⟩ := bind_eq_ok.mp hx
    cases hx
    exact h.entered hbusy hb (Runs.setFsm _ _) (hs.setFsm _) ⟨trivial, Nat.le_refl _, Nat.zero_le _⟩ rfl
  · obtain ⟨cmd, _, hx⟩ := bind_eq_ok.mp hx
    obtain ⟨max, _, hx⟩ := bind_eq_ok.mp hx
    cases hx
    exact h.entered hbusy hb (Runs.setFsm _ _) (hs.setFsm _)
      ⟨trivial, Nat.zero_le _, by have := s1.retry.isLt; simp only; omega⟩ rfl
  · cases hx
    exact h.entered hbusy hb ((Runs.clearAcc _).trans (Runs.setFsm _ _)) (hs.clearAcc.setFsm _)
      ⟨by simp [phaseOk], Nat.le_refl _, Nat.zero_le _⟩ rfl
  · obtain ⟨arg, _, hx⟩ := bind_eq_ok.mp hx
    cases hx
    exact h.entered hbusy hb ((Runs.stagePct _ _).trans (Runs.setFsm _ _))
      ((hs.stagePct _ (by simp)).setFsm _) ⟨by simp [phaseOk], Nat.le_refl _, Nat.zero_le _⟩ rfl
  · cases hx
    exact h.entered hbusy hb (Runs.setFsm _ _) (hs.setFsm _)
      ⟨by simp [phaseOk], Nat.le_refl _, Nat.zero_le _⟩ rfl

/-! ## Host accesses and reset -/

/-- A host write to port `p` of a row of the map keeps the invariant: it reaches none of the result
registers, stays inside its row, and sets `BUSY` only of a port that is there. -/
theorem State.Inv.modPort {s : State} (h : s.Inv) (p : Fin 16) (hn : p.val < s.cfg.nports) (f : Port → Port)
    (hf : PortSound s.cfg (f (s.port p))) (hb : (f (s.port p)).busy = false → (s.port p).busy = false) :
    (s.modPort p f).Inv := by
  refine State.Inv.of (h.sound.modPort p f hf) ⟨h.lock, h.free, h.quiet, ?_, ?_⟩
  · intro e he
    obtain ⟨h1, h2, q, ha, hl, hq⟩ := h.running e he
    refine ⟨h1, h2, q, ha, hl, ?_⟩
    rw [State.port_modPort]
    split
    · next hqp =>
      subst hqp
      cases hbf : (f (s.port q)).busy
      · rw [hb hbf] at hq; cases hq
      · rfl
    · exact hq
  · intro q hq
    rw [State.port_modPort]
    split
    · next hqp => subst hqp; exact absurd hn (Nat.not_lt.mpr hq)
    · exact h.absent q hq

theorem State.Inv.writeScalar {s : State} (h : s.Inv) {w : Nat} (p : Fin 16) (hn : p.val < s.cfg.nports)
    (old : Option (BitVec w)) (put : Option (BitVec w) → Port → Port) (k size : Nat) (v : Word)
    (hput : ∀ x q, (∀ n, (put x q).stores n = q.stores n) ∧ (put x q).resKind = q.resKind
      ∧ (put x q).resStatus = q.resStatus ∧ (put x q).accN = q.accN ∧ (put x q).acc = q.acc
      ∧ (put x q).busy = q.busy) : (writeScalar s p old put k size v).Inv := by
  have key : ∀ x, (s.modPort p (put x)).Inv := fun x => by
    obtain ⟨h1, h2, h3, h4, h5, h6⟩ := hput x (s.port p)
    exact h.modPort p hn _ ((h.sound.ports p).headers h1 h2 h3 h4 h5) (by rw [h6]; exact id)
  unfold Sys2Proof.Machine.writeScalar
  dsimp only
  split
  · exact (key _).congr rfl rfl rfl rfl rfl rfl rfl rfl rfl rfl rfl rfl
  · exact key _

@[simp] theorem lowBytes_length (n : Nat) (v : Word) : (lowBytes n v).length = n := by simp [lowBytes]

/-- An access that the map answers lies inside its row. -/
theorem findRow_some {accMax off size : Nat} {r : Row} (h : findRow accMax off size = some r) :
    r ∈ hostMap accMax ∧ r.off ≤ off ∧ off + size ≤ r.off + r.size := by
  have h1 := List.mem_of_find?_eq_some h
  have h2 := List.find?_some h
  simp only [Bool.and_eq_true, decide_eq_true_eq] at h2
  exact ⟨h1, h2.1.1, h2.2⟩

/-- The row of a buffer the host may write has the buffer's size. -/
theorem hostMap_size {accMax : Nat} {r : Row} (h : r ∈ hostMap accMax) :
    (r.reg = .hbuf → r.size = 8) ∧ (r.reg = .txbuf → r.size = 65535) := by
  simp only [hostMap, List.mem_cons, List.not_mem_nil, or_false] at h
  rcases h with rfl | rfl | rfl | rfl | rfl | rfl | rfl | rfl | rfl | rfl | rfl | rfl | rfl | rfl | rfl | rfl
    | rfl | rfl | rfl | rfl | rfl | rfl | rfl | rfl | rfl | rfl | rfl | rfl | rfl | rfl | rfl | rfl <;> simp

/-- A host write changes registers of a port and the counter of the free values, and nothing else. -/
theorem hostWrite_kept (p : Fin 16) (reg : HostReg) (k size : Nat) (v : Word) (s : State) :
    hostWrite p reg k size v s
      = { s with
          ports := (hostWrite p reg k size v s).ports
          free := (hostWrite p reg k size v s).free } := by
  have key : ∀ {w : Nat} (old : Option (BitVec w)) (put : Option (BitVec w) → Port → Port),
      writeScalar s p old put k size v
        = { s with
            ports := (writeScalar s p old put k size v).ports
            free := (writeScalar s p old put k size v).free } := by
    intro w old put
    unfold writeScalar
    dsimp only
    split <;> rfl
  cases reg <;> first | rfl | (dsimp only [hostWrite]; exact key _ _)

/-- A host write to a writable row keeps the invariant. -/
theorem State.Inv.hostWrite {s : State} (h : s.Inv) (p : Fin 16) (hn : p.val < s.cfg.nports) (r : Row)
    (off size : Nat) (v : Word) (hr : findRow s.cfg.accMax off size = some r) :
    (hostWrite p r.reg (off - r.off) size v s).Inv := by
  obtain ⟨hm, h1, h2⟩ := findRow_some hr
  obtain ⟨h8, h65535⟩ := hostMap_size hm
  have hp := h.sound.ports p
  cases hreg : r.reg <;> simp only [Sys2Proof.Machine.hostWrite]
  case opc =>
    apply h.modPort p hn
    · exact hp.headers (fun _ => rfl) rfl rfl rfl rfl
    · exact fun hb => nomatch hb
  case hbuf =>
    have := h8 hreg
    apply h.modPort p hn
    · exact hp.hbufWrite _ _ _ (by simp; omega)
    · exact id
  case txbuf =>
    have := h65535 hreg
    apply h.modPort p hn
    · refine ⟨?_, hp.status, hp.acc⟩
      have := hp.stores
      simp only [Port.stores, List.mem_cons, List.not_mem_nil, or_false, forall_eq_or_imp, forall_eq] at this ⊢
      exact ⟨this.1, this.2.1.write _ _ (by simp; omega), this.2.2⟩
    · exact id
  all_goals first
    | exact h
    | (apply h.writeScalar p hn
       exact fun _ _ => ⟨fun _ => rfl, rfl, rfl, rfl, rfl, rfl⟩)

/-- A host access keeps the invariant. -/
theorem State.Inv.hostAccess {s t : State} (h : s.Inv) (a : Access) (ht : hostAccess a s = .next t) :
    t.Inv := by
  unfold Sys2Proof.Machine.hostAccess at ht
  dsimp only at ht
  split at ht
  · cases ht
  next hn =>
  split at ht
  · cases ht
  next r hr =>
  split at ht
  · cases ht
  split at ht
  · cases ht
  split at ht
  · split at ht
    · cases ht; exact h.hostWrite _ (Nat.not_le.mp hn) r _ _ _ hr
    · cases ht
  · split at ht
    · cases ht; exact h.congr rfl rfl rfl rfl rfl rfl rfl rfl rfl rfl rfl rfl
    · cases ht

/-- The block after reset satisfies the invariant, whatever configuration it was built from. -/
theorem State.Inv.resetWith {c : Params} (hc : c.wf = true) : (State.resetWith c).Inv := by
  have hport : ∀ p, (State.resetWith c).port p = Port.reset := fun p => by
    simp [State.port, State.resetWith]
  refine State.Inv.of ⟨hc, fun p => ?_, ?_, nofun⟩ ⟨.inl rfl, fun _ => rfl, fun _ => rfl, nofun, ?_⟩
  · rw [hport]
    refine ⟨?_, trivial, nofun⟩
    intro x hx
    simp only [Port.stores, Port.reset, List.mem_cons, List.not_mem_nil, or_false] at hx
    rcases hx with rfl | rfl | rfl | rfl | rfl | rfl | rfl | rfl <;> exact ⟨rfl, rfl⟩
  · intro x hx
    simp only [State.stores, State.resetWith, List.mem_cons, List.not_mem_nil, or_false] at hx
    rcases hx with rfl | rfl | rfl | rfl <;> exact ⟨rfl, rfl⟩
  · intro p _
    rw [hport]; rfl

end Sys2Proof.Machine
end

