-- ==== Sys2Proof/Laws/PerInstr.lean ====
section
/-! SUPPORT. Facts about each instruction as syntax, one lemma per constructor. -/

namespace Sys2Proof.Laws.EncodedSize

open Sys2Proof.Machine (encReq encRep pack16)

/-- How many bytes an instruction's words have (30_encoding.md R100, R106, R108, R113, R117): one for an
operation code, two for a mux selection and a command, and a frame's header with its payload. -/
def size : Instr → Nat
  | .crc | .encreq | .decreq | .encrep | .decrep => 1
  | .lock | .unlock | .setretry => 1
  | .send | .receive | .exchange | .transact => 1
  | .call => 1
  | .callNone _ | .callF32 _ | .callU32 _ | .callU8 _ => 2
  | .callVer _ | .callId _ | .callChunk _ | .callPct _ => 2
  | .cmdVersionQuery | .cmdShutdown => 2
  | .frameRequest _ len _ _ => 8 + len.toNat
  | .frameReply _ _ len _ _ => 6 + len.toNat

/-- In either byte order, a well-formed instruction's words have its size. -/
def Statement (i : Instr) : Prop :=
  ∀ en : Endian, i.wf = true → (encode en i).2.length = size i

theorem crc : Statement .crc := fun _ _ => rfl
theorem encreq : Statement .encreq := fun _ _ => rfl
theorem decreq : Statement .decreq := fun _ _ => rfl
theorem encrep : Statement .encrep := fun _ _ => rfl
theorem decrep : Statement .decrep := fun _ _ => rfl
theorem lock : Statement .lock := fun _ _ => rfl
theorem unlock : Statement .unlock := fun _ _ => rfl
theorem setretry : Statement .setretry := fun _ _ => rfl
theorem send : Statement .send := fun _ _ => rfl
theorem receive : Statement .receive := fun _ _ => rfl
theorem exchange : Statement .exchange := fun _ _ => rfl
theorem transact : Statement .transact := fun _ _ => rfl
theorem call : Statement .call := fun _ _ => rfl
theorem callNone (id : Byte) : Statement (.callNone id) := fun _ _ => rfl
theorem callF32 (id : Byte) : Statement (.callF32 id) := fun _ _ => rfl
theorem callU32 (id : Byte) : Statement (.callU32 id) := fun _ _ => rfl
theorem callU8 (id : Byte) : Statement (.callU8 id) := fun _ _ => rfl
theorem callVer (id : Byte) : Statement (.callVer id) := fun _ _ => rfl
theorem callId (id : Byte) : Statement (.callId id) := fun _ _ => rfl
theorem callChunk (id : Byte) : Statement (.callChunk id) := fun _ _ => rfl
theorem callPct (id : Byte) : Statement (.callPct id) := fun _ _ => rfl

theorem cmdVersionQuery : Statement .cmdVersionQuery := fun en _ => by cases en <;> rfl

theorem cmdShutdown : Statement .cmdShutdown := fun en _ => by cases en <;> rfl

theorem frameRequest (cmd len cks : Half) (payload : List Byte) :
    Statement (.frameRequest cmd len cks payload) := fun en h => by
  have hl : len.toNat = payload.length := beq_iff_eq.mp h
  cases en <;> simp [encode, encReq, pack16, size, hl] <;> omega

theorem frameReply (cmd status : Byte) (len cks : Half) (payload : List Byte) :
    Statement (.frameReply cmd status len cks payload) := fun en h => by
  have hl : len.toNat = payload.length := beq_iff_eq.mp h
  cases en <;> simp [encode, encRep, pack16, size, hl] <;> omega

end Sys2Proof.Laws.EncodedSize
end

