-- ==== Sys2Proof/Laws/Protocol.lean ====
section
/-! SUPPORT. What the cores of the protocol engine answer: a send over an open channel, a receive of a
whole or a short reply, the retry loop, and when a receive or an exchange completes. -/

namespace Sys2Proof.Machine

/-- Writing no byte at offset 0 changes nothing. -/
theorem Memory.write_nil (m : Memory) : Memory.write m 0 [] = m := by
  simp [Memory.write, Memory.cells]

/-! ## Frames -/

@[simp] theorem replyHeader_length (c : Params) (cmd st : Byte) (pay : List Byte) :
    (replyHeader c cmd st pay).length = 6 := by simp [replyHeader]

@[simp] theorem requestHeader_length (c : Params) (cmd : Half) (pay : List Byte) :
    (requestHeader c cmd pay).length = 8 := by simp [requestHeader]

theorem buildReq_eq (c : Params) (cmd : Half) (pay : List Byte) :
    buildReq c cmd pay = requestHeader c cmd pay := rfl

/-- The reply checksum does not depend on the checksum field (40_checksum.md R144). -/
theorem repCks_encRep (c : Params) (cmd st : Byte) (len k k' : Half) (pay : List Byte) :
    repCks c (encRep c.endian ⟨cmd, st, len, k⟩) pay = repCks c (encRep c.endian ⟨cmd, st, len, k'⟩) pay := by
  obtain ⟨a, b, e, _⟩ := pack16_cases c.endian len
  simp [repCks, encRep, e]

theorem decRep_replyHeader (c : Params) (cmd st : Byte) (pay : List Byte) :
    decRep c.endian (replyHeader c cmd st pay) =
      some ⟨cmd, st, BitVec.ofNat 16 pay.length, repCks c (replyHeader c cmd st pay) pay⟩ := by
  have := decRep_encRep_append c.endian ⟨cmd, st, BitVec.ofNat 16 pay.length,
    repCks c (encRep c.endian ⟨cmd, st, BitVec.ofNat 16 pay.length, 0#16⟩) pay⟩ []
  rw [List.append_nil] at this
  refine this.trans (congrArg some ?_)
  exact congrArg (RepHeader.mk cmd st _) (repCks_encRep c cmd st _ _ _ pay)

/-! ## Send -/

/-- A request over a channel that takes every byte. -/
theorem sendCore_whole (cmd : Half) (pay : List Byte) (s : State) (h : s.writesWhole) :
    sendCore cmd pay s =
      (true, ((s.sends (requestFrame s.cfg cmd pay)).caches (requestHeader s.cfg cmd pay) pay).setFsm
        .awaitingReply) := by
  unfold sendCore
  dsimp only
  rw [transmit_whole _ _ (s.setFsm .sending) h]
  by_cases h0 : s.retry = 0#8
  · simp only [requestSent, State.caches, State.sends, State.setFsm_retry, h0, if_true]
    rfl
  · simp only [requestSent, State.caches, State.sends, State.setFsm_retry, h0, if_true, if_false]
    rfl

/-- What a request leaves as it was: everything but the bytes sent, the channel's answers, the cache and
`G.FSM`. -/
theorem sendCore_rxs (cmd : Half) (pay : List Byte) (s : State) : (sendCore cmd pay s).2.rxs = s.rxs := by
  obtain ⟨w, n, e, _, _⟩ := transmit_cases (buildReq s.cfg cmd pay) pay (s.setFsm .sending)
  unfold sendCore requestSent
  simp only []
  split
  · split <;> rw [e] <;> rfl
  · rw [e]; rfl

/-! ## Receive -/

/-- A channel read, with what it takes and leaves named. -/
theorem chanRead_of {n : Nat} {s : State} {bytes : List Byte} {rest : List RxItem}
    (h : takeRx n s.rxs = (bytes, rest)) : chanRead n s = (bytes, s.left rest) := by
  rw [chanRead, h]; rfl

/-- Everything a receive can do: its header stops short; or its payload does; or the reply arrived whole
and the checks judge it (42_protocol_engine.md R192 to R195). -/
theorem receiveCore_cases {cmd max : Half} {s : State} {x : State × Reply}
    (h : receiveCore cmd max s = .ok x) :
    (∃ bytes rest, takeRx 6 s.rxs = (bytes, rest) ∧ bytes.length < 6
      ∧ x = localReply .transportReadError 0#16 ((s.setFsm .awaitingReply).left rest))
    ∨ ∃ header r rest, takeRx 6 s.rxs = (header, rest) ∧ header.length = 6
      ∧ decRep s.cfg.endian header = some r ∧ r.len.toNat ≤ s.cfg.stageMax
      ∧ ((∃ bytes rest', takeRx r.len.toNat rest = (bytes, rest') ∧ bytes.length < r.len.toNat
          ∧ x = localReply .transportReadError r.len (stageHeader header ((s.setFsm .awaitingReply).left rest')))
        ∨ ∃ payload rest', rest = payload.map RxItem.byte ++ rest' ∧ payload.length = r.len.toNat
          ∧ x = judgeReply cmd max r header payload
            (((s.setFsm .awaitingReply).left rest').stages header payload)) := by
  obtain ⟨⟨header, rest⟩, h6⟩ : ∃ t : List Byte × List RxItem, t = takeRx 6 s.rxs := ⟨_, rfl⟩
  have hle := takeRx_length_le 6 s.rxs
  rw [← h6] at hle
  have e1 := chanRead_of (s := s.setFsm .awaitingReply) h6.symm
  unfold receiveCore at h
  simp only [e1] at h
  split at h
  · next hn =>
    cases h
    exact .inl ⟨header, rest, h6.symm, (decRep_eq_none _ _).mp hn, rfl⟩
  · next r hr =>
    have hlen : header.length = 6 := by
      have : ¬ header.length < 6 := fun hlt => by
        rw [(decRep_eq_none _ _).mpr hlt] at hr
        cases hr
      dsimp only at hle
      omega
    refine .inr ⟨header, r, rest, h6.symm, hlen, hr, ?_⟩
    by_cases hst : s.cfg.stageMax < r.len.toNat
    · rw [if_pos hst] at h
      cases h
    rw [if_neg hst] at h
    refine ⟨Nat.le_of_not_lt hst, ?_⟩
    by_cases h0 : r.len = 0#16
    · rw [if_pos h0] at h
      cases h
      refine .inr ⟨[], rest, rfl, by rw [h0]; rfl, ?_⟩
      rw [State.stages, Memory.write_nil]
      rfl
    · rw [if_neg h0] at h
      obtain ⟨⟨payload, rest'⟩, hp⟩ : ∃ t : List Byte × List RxItem, t = takeRx r.len.toNat rest := ⟨_, rfl⟩
      have hle' := takeRx_length_le r.len.toNat rest
      rw [← hp] at hle'
      have e2 := chanRead_of (s := stageHeader header ((s.setFsm .awaitingReply).left rest)) hp.symm
      simp only [e2] at h
      split at h
      · next hlt => cases h; exact .inl ⟨payload, rest', hp.symm, hlt, rfl⟩
      · next hlt =>
        cases h
        have hfull := takeRx_full r.len.toNat rest (by rw [← hp]; exact Nat.le_of_not_lt hlt)
        rw [← hp] at hfull
        dsimp only at hle'
        exact .inr ⟨payload, rest', hfull, by omega, rfl⟩

/-- A receive of a reply that arrives whole: the checks judge it. -/
theorem receiveCore_whole {cmd max : Half} {s : State} {header payload : List Byte} {r : RepHeader}
    {rest : List RxItem} (h6 : header.length = 6) (hr : decRep s.cfg.endian header = some r)
    (hl : r.len.toNat = payload.length) (hs : payload.length ≤ s.cfg.stageMax)
    (hh : s.hears (header ++ payload) rest) :
    receiveCore cmd max s = .ok (judgeReply cmd max r header payload
      (((s.setFsm .awaitingReply).left rest).stages header payload)) := by
  have h1 : takeRx 6 s.rxs = (header, payload.map RxItem.byte ++ rest) := by
    rw [hh, List.map_append, List.append_assoc, ← h6]
    exact takeRx_bytes _ _
  have e1 : chanRead 6 (s.setFsm .awaitingReply)
      = (header, (s.setFsm .awaitingReply).left (payload.map RxItem.byte ++ rest)) := by
    simp only [chanRead, State.setFsm_rxs, h1, State.left]
  unfold receiveCore
  simp only [e1, hr]
  rw [if_neg (show ¬ s.cfg.stageMax < r.len.toNat by omega)]
  split
  · next h0 =>
    have : payload = [] := List.length_eq_zero_iff.mp (by rw [← hl, h0]; rfl)
    subst this
    simp only [State.stages, Memory.write_nil]
    rfl
  · have e2 : takeRx r.len.toNat (payload.map RxItem.byte ++ rest) = (payload, rest) := by
      rw [hl]; exact takeRx_bytes _ _
    have e3 : chanRead r.len.toNat
        (stageHeader header ((s.setFsm .awaitingReply).left (payload.map RxItem.byte ++ rest)))
        = (payload, stageHeader header ((s.setFsm .awaitingReply).left rest)) := by
      rw [chanRead, show (stageHeader header ((s.setFsm .awaitingReply).left
        (payload.map RxItem.byte ++ rest))).rxs = payload.map RxItem.byte ++ rest from rfl, e2]
      rfl
    rw [e3]
    dsimp only
    rw [if_neg (by omega)]
    rfl

/-- A read that asks for more than the device's bytes takes them all, and stops after them. -/
theorem takeRx_stops {n : Nat} {bs : List Byte} {after rest : List RxItem} (h : bs.length < n)
    (ha : stops after rest) : takeRx n (bs.map RxItem.byte ++ after) = (bs, rest) := by
  induction bs generalizing n with
  | nil =>
    obtain ⟨m, rfl⟩ := Nat.exists_eq_succ_of_ne_zero (Nat.ne_of_gt h)
    rcases ha with rfl | ⟨rfl, rfl⟩ <;> rfl
  | cons b bs ih =>
    obtain ⟨m, rfl⟩ := Nat.exists_eq_succ_of_ne_zero (Nat.ne_of_gt (Nat.lt_of_le_of_lt (Nat.zero_le _) h))
    simp [takeRx, ih (n := m) (by simpa using h)]

/-- A receive whose header stops short. -/
theorem receiveCore_short_header {cmd max : Half} {s : State} {bytes : List Byte} {after rest : List RxItem}
    (hl : bytes.length < 6) (hh : s.hears bytes after) (ha : stops after rest) :
    receiveCore cmd max s =
      .ok ((s.left rest).setFsm .localError, ⟨.transportReadError, localStatus, 0#16⟩) := by
  have e1 : chanRead 6 (s.setFsm .awaitingReply) = (bytes, (s.setFsm .awaitingReply).left rest) := by
    simp only [chanRead, State.setFsm_rxs, hh.trans rfl, takeRx_stops hl ha, State.left]
  unfold receiveCore
  simp only [e1, (decRep_eq_none _ _).mpr hl]
  rfl

/-- A correct reply that fits is accepted. -/
theorem judgeReply_good (id : Byte) (max : Half) (payload : List Byte) (s : State)
    (hm : payload.length ≤ max.toNat) :
    judgeReply (id.setWidth 16) max ⟨id, 0x00#8, BitVec.ofNat 16 payload.length,
        repCks s.cfg (replyHeader s.cfg id 0x00#8 payload) payload⟩ (replyHeader s.cfg id 0x00#8 payload) payload s
      = ((s.receives payload).setFsm .success, ⟨.ok, 0x00#8, BitVec.ofNat 16 payload.length⟩) := by
  have hlt := max.isLt
  have hn : (BitVec.ofNat 16 payload.length).toNat = payload.length := by
    simp; omega
  unfold judgeReply
  simp only [replyCksOk, beq_self_eq_true, Bool.true_eq_false, if_false, ne_eq, not_true_eq_false]
  split
  · next h0 =>
    have : payload = [] := List.length_eq_zero_iff.mp (by rw [← hn, h0]; rfl)
    subst this
    have e : s.receives [] = s := by
      simp only [State.receives, Memory.write_nil]
      exact s.modPort_id s.turn
    rw [e]; rfl
  · rw [if_neg (by rw [BitVec.not_lt, BitVec.le_def, hn]; exact hm)]
    rfl

/-- A receive of a correct reply that fits. -/
theorem receiveCore_good {id : Byte} {max : Half} {s : State} {payload : List Byte} {rest : List RxItem}
    (hm : payload.length ≤ max.toNat) (hs : payload.length ≤ s.cfg.stageMax)
    (hh : s.hears (replyFrame s.cfg id 0x00#8 payload) rest) :
    receiveCore (id.setWidth 16) max s =
      .ok (((((s.left rest).stages (replyHeader s.cfg id 0x00#8 payload) payload).receives payload).setFsm
        .success), ⟨.ok, 0x00#8, BitVec.ofNat 16 payload.length⟩) := by
  have hlt := max.isLt
  rw [receiveCore_whole (replyHeader_length _ _ _ _) (decRep_replyHeader _ _ _ _) (by simp; omega) hs hh]
  exact congrArg _ (judgeReply_good id max payload
    (((s.setFsm .awaitingReply).left rest).stages (replyHeader s.cfg id 0x00#8 payload) payload) hm)

/-- With a staging buffer for any reply, a receive completes (42_protocol_engine.md R199). -/
theorem receiveCore_completes (cmd max : Half) (s : State) (h : 65535 ≤ s.cfg.stageMax) :
    ∃ x, receiveCore cmd max s = .ok x := by
  unfold receiveCore
  dsimp only
  split
  · exact ⟨_, rfl⟩
  · next r _ =>
    have hlt := r.len.isLt
    rw [if_neg (show ¬ s.cfg.stageMax < r.len.toNat by omega)]
    split
    · exact ⟨_, rfl⟩
    split <;> exact ⟨_, rfl⟩

theorem judgeReply_fits (cmd max : Half) (r : RepHeader) (hd pay : List Byte) (s : State) :
    statusFits s.cfg.hwThresh (judgeReply cmd max r hd pay s).2.kind (judgeReply cmd max r hd pay s).2.status
      = true := by
  unfold judgeReply
  split
  · exact statusFits_local _ .checksumMismatch (by decide)
  split
  · next hst => exact statusFits_device _ _ hst
  split
  · exact statusFits_local _ .commandMismatch (by decide)
  split
  · rfl
  split
  · exact statusFits_local _ .bufferTooSmall (by decide)
  · rfl

/-- The status of a receive is its kind's (60_exceptions.md R293). -/
theorem receiveCore_fits {cmd max : Half} {s : State} {x : State × Reply} (h : receiveCore cmd max s = .ok x) :
    statusFits s.cfg.hwThresh x.2.kind x.2.status = true := by
  rcases receiveCore_cases h with ⟨_, _, _, _, rfl⟩ | ⟨_, _, _, _, _, _, _, ⟨_, _, _, _, rfl⟩ | ⟨_, _, _, _, rfl⟩⟩
  · exact statusFits_local _ .transportReadError (by decide)
  · exact statusFits_local _ .transportReadError (by decide)
  · exact judgeReply_fits _ _ _ _ _ _

/-- What a judged reply puts in `RXBUF`: on `OK` the payload, on any other result nothing. -/
theorem judgeReply_rxbuf (cmd max : Half) (r : RepHeader) (hd pay : List Byte) (s : State)
    (hl : pay.length = r.len.toNat) :
    ((judgeReply cmd max r hd pay s).2.kind = .ok →
      (judgeReply cmd max r hd pay s).2.len = r.len
        ∧ (judgeReply cmd max r hd pay s).1.cur.rxbuf = Memory.write s.cur.rxbuf 0 pay)
    ∧ ((judgeReply cmd max r hd pay s).2.kind ≠ .ok → (judgeReply cmd max r hd pay s).1.ports = s.ports) := by
  unfold judgeReply
  split
  · exact ⟨nofun, fun _ => rfl⟩
  split
  · unfold deviceReply statusKind
    dsimp only
    split <;> exact ⟨nofun, fun _ => rfl⟩
  split
  · exact ⟨nofun, fun _ => rfl⟩
  split
  · next h0 =>
    have : pay = [] := List.length_eq_zero_iff.mp (by rw [hl, h0]; rfl)
    subst this
    refine ⟨fun _ => ⟨h0.symm, ?_⟩, fun hk => absurd rfl hk⟩
    rw [Memory.write_nil]; rfl
  split
  · exact ⟨nofun, fun _ => rfl⟩
  · refine ⟨fun _ => ⟨rfl, ?_⟩, fun hk => absurd rfl hk⟩
    simp

/-- What a receive puts in `RXBUF`: on `OK` as many bytes as it reports, on any other result nothing. -/
theorem receiveCore_rxbuf {cmd max : Half} {s : State} {x : State × Reply} (h : receiveCore cmd max s = .ok x) :
    (x.2.kind = .ok → ∃ pay : List Byte, pay.length = x.2.len.toNat
      ∧ x.1.cur.rxbuf = Memory.write s.cur.rxbuf 0 pay)
    ∧ (x.2.kind ≠ .ok → x.1.ports = s.ports) := by
  rcases receiveCore_cases h with
    ⟨_, _, _, _, rfl⟩ | ⟨header, r, _, _, _, _, _, ⟨_, _, _, _, rfl⟩ | ⟨pay, rest', _, hl, rfl⟩⟩
  · exact ⟨nofun, fun _ => rfl⟩
  · exact ⟨nofun, fun _ => rfl⟩
  · obtain ⟨h1, h2⟩ := judgeReply_rxbuf cmd max r header pay
      (((s.setFsm .awaitingReply).left rest').stages header pay) hl
    exact ⟨fun hk => ⟨pay, by rw [(h1 hk).1, hl], (h1 hk).2⟩, h2⟩

theorem judgeReply_rxs (cmd max : Half) (r : RepHeader) (hd pay : List Byte) (s : State) :
    (judgeReply cmd max r hd pay s).1.rxs = s.rxs := by
  unfold judgeReply
  split
  · rfl
  split
  · unfold deviceReply
    dsimp only
    split <;> rfl
  split
  · rfl
  split
  · rfl
  split <;> rfl

/-- A receive that is `OK` took a reply header at least. -/
theorem receiveCore_takes {cmd max : Half} {s : State} {x : State × Reply} (h : receiveCore cmd max s = .ok x)
    (hk : x.2.kind = .ok) : x.1.rxs.length + 6 ≤ s.rxs.length := by
  rcases receiveCore_cases h with
    ⟨_, _, _, _, rfl⟩ | ⟨header, r, rest, h6, hl, _, _, ⟨_, _, _, _, rfl⟩ | ⟨pay, rest', he, _, rfl⟩⟩
  · cases hk
  · cases hk
  · have := takeRx_shorter 6 s.rxs
    rw [h6, he] at this
    simp only [List.length_append, List.length_map, hl] at this
    rw [judgeReply_rxs]
    show rest'.length + 6 ≤ _
    omega

/-! ## The retry cache -/

/-- A valid cache can be resent. -/
def State.canResend (s : State) : Prop :=
  s.rcValid = true ∧ ∃ header len payload, Memory.read s.rcHdr 0 8 = some header ∧ s.rcLen = some len
    ∧ Memory.read s.rcPay 0 len.toNat = some payload

/-- No core but a send writes the cache. -/
structure CacheKept (s t : State) : Prop where
  valid : t.rcValid = s.rcValid
  hdr : t.rcHdr = s.rcHdr
  len : t.rcLen = s.rcLen
  pay : t.rcPay = s.rcPay

theorem CacheKept.refl (s : State) : CacheKept s s := ⟨rfl, rfl, rfl, rfl⟩

theorem CacheKept.trans {s t u : State} (h : CacheKept s t) (k : CacheKept t u) : CacheKept s u :=
  ⟨k.valid.trans h.valid, k.hdr.trans h.hdr, k.len.trans h.len, k.pay.trans h.pay⟩

theorem CacheKept.canResend {s t : State} (h : CacheKept s t) (hs : s.canResend) : t.canResend := by
  obtain ⟨h1, a, b, c, h2, h3, h4⟩ := hs
  exact ⟨h.valid.trans h1, a, b, c, by rw [h.hdr]; exact h2, by rw [h.len]; exact h3, by rw [h.pay]; exact h4⟩

theorem CacheKept.judgeReply (cmd max : Half) (r : RepHeader) (hd pay : List Byte) (s : State) :
    CacheKept s (judgeReply cmd max r hd pay s).1 := by
  unfold Machine.judgeReply
  split
  · exact ⟨rfl, rfl, rfl, rfl⟩
  split
  · unfold deviceReply
    dsimp only
    split <;> exact ⟨rfl, rfl, rfl, rfl⟩
  split
  · exact ⟨rfl, rfl, rfl, rfl⟩
  split
  · exact ⟨rfl, rfl, rfl, rfl⟩
  split <;> exact ⟨rfl, rfl, rfl, rfl⟩

theorem CacheKept.receiveCore {cmd max : Half} {s : State} {x : State × Reply}
    (h : receiveCore cmd max s = .ok x) : CacheKept s x.1 := by
  rcases receiveCore_cases h with
    ⟨_, _, _, _, rfl⟩ | ⟨header, r, _, _, _, _, _, ⟨_, _, _, _, rfl⟩ | ⟨pay, rest', _, _, rfl⟩⟩
  · exact ⟨rfl, rfl, rfl, rfl⟩
  · exact ⟨rfl, rfl, rfl, rfl⟩
  · obtain ⟨a, b, c, d⟩ := CacheKept.judgeReply cmd max r header pay
      (((s.setFsm .awaitingReply).left rest').stages header pay)
    exact ⟨a.trans rfl, b.trans rfl, c.trans rfl, d.trans rfl⟩

theorem CacheKept.transmit (h pay : List Byte) (s : State) : CacheKept s (transmit h pay s).2 := by
  obtain ⟨w, n, e, _, _⟩ := transmit_cases h pay s
  rw [e]
  exact ⟨rfl, rfl, rfl, rfl⟩

/-- A resend of a valid cache is one transmission of it. -/
theorem resendCore_of {s : State} {header payload : List Byte} {len : Half} (h1 : s.rcValid = true)
    (h2 : Memory.read s.rcHdr 0 8 = some header) (h3 : s.rcLen = some len)
    (h4 : Memory.read s.rcPay 0 len.toNat = some payload) :
    resendCore s = .ok (transmit header payload s) := by
  simp [resendCore, State.needCachedHeader, State.needCachedPayload, need, h1, h2, h3, h4, bind, Except.bind,
    pure, Except.pure]

theorem resendCore_completes {s : State} (h : s.canResend) :
    ∃ w, resendCore s = .ok w ∧ CacheKept s w.2 := by
  obtain ⟨h1, header, len, payload, h2, h3, h4⟩ := h
  exact ⟨_, resendCore_of h1 h2 h3 h4, CacheKept.transmit _ _ _⟩

/-! ## The retry loop -/

/-- A result that is not retriable ends the loop at once (42_protocol_engine.md R204.4). -/
theorem retryLoop_done {cmd max : Half} (left n : Nat) (x : State × Reply) (h : retriable x.2.kind = false) :
    retryLoop cmd max left n x = .ok (x.1, x.2.result n) := by
  cases left <;> simp [retryLoop, h]

/-- The loop completes where a resend finds a request. -/
theorem retryLoop_completes (cmd max : Half) (left n : Nat) (x : State × Reply)
    (hst : 65535 ≤ x.1.cfg.stageMax) (hc : left = 0 ∨ x.1.canResend) :
    ∃ y, retryLoop cmd max left n x = .ok y := by
  induction left generalizing n x with
  | zero => exact ⟨_, rfl⟩
  | succ left ih =>
    rw [retryLoop]
    split
    · have hc' : (x.1.setFsm .resending).canResend :=
        CacheKept.canResend ⟨rfl, rfl, rfl, rfl⟩ (hc.resolve_left (Nat.succ_ne_zero _))
      obtain ⟨w, hw, hk⟩ := resendCore_completes hc'
      have hcfg := (Runs.resendCore hw).cfg
      rw [hw]
      simp only [bind, Except.bind]
      split
      · obtain ⟨y, hy⟩ := receiveCore_completes cmd max w.2 (by rw [hcfg]; exact hst)
        rw [hy]
        exact ih (n + 1) y (by rw [(Runs.receiveCore hy).cfg, hcfg]; exact hst)
          (.inr ((hk.trans (CacheKept.receiveCore hy)).canResend hc'))
      · exact ⟨_, rfl⟩
    · exact ⟨_, rfl⟩

/-- What the loop returns: the status of its kind, and a count of resends within the budget. -/
theorem retryLoop_result {cmd max : Half} (left n : Nat) {x : State × Reply} {y : State × Result}
    (hf : statusFits x.1.cfg.hwThresh x.2.kind x.2.status = true) (h : retryLoop cmd max left n x = .ok y) :
    statusFits x.1.cfg.hwThresh y.2.kind y.2.status = true
      ∧ ∃ m, n ≤ m ∧ m ≤ n + left ∧ y.2.resends = BitVec.ofNat 8 m
        ∧ (retriable y.2.kind = true → m = n + left) := by
  induction left generalizing n x with
  | zero => cases h; exact ⟨hf, n, Nat.le_refl _, Nat.le_refl _, rfl, fun _ => rfl⟩
  | succ left ih =>
    rw [retryLoop] at h
    split at h
    · obtain ⟨w, hw, h⟩ := bind_eq_ok.mp h
      have hc1 := (Runs.resendCore hw).cfg
      split at h
      · obtain ⟨z, hz, h⟩ := bind_eq_ok.mp h
        have hc : z.1.cfg = x.1.cfg := (Runs.receiveCore hz).cfg.trans hc1
        have hz' := receiveCore_fits hz
        rw [hc1] at hz'
        obtain ⟨h1, m, h2, h3, h4, h5⟩ := ih (n + 1) (by rw [hc]; exact hz') h
        rw [hc] at h1
        exact ⟨h1, m, by omega, by omega, h4, fun hr => by have := h5 hr; omega⟩
      · cases h
        exact ⟨statusFits_local _ .transportWriteError (by decide), n + 1, by omega, by omega, rfl, nofun⟩
    · next hr =>
      cases h
      exact ⟨hf, n, Nat.le_refl _, by omega, rfl, fun hr' => absurd hr' hr⟩

/-- What a whole exchange puts in `RXBUF`: on `OK` as many bytes as it reports, on any other result nothing. -/
theorem retryLoop_rxbuf {cmd max : Half} (left n : Nat) {x : State × Reply} {y : State × Result}
    (h : retryLoop cmd max left n x = .ok y) :
    (y.2.kind = .ok → (x.2.kind = .ok ∧ y.1 = x.1 ∧ y.2.len = x.2.len)
      ∨ ∃ pay : List Byte, pay.length = y.2.len.toNat ∧ y.1.cur.rxbuf = Memory.write x.1.cur.rxbuf 0 pay)
    ∧ (y.2.kind ≠ .ok → y.1.ports = x.1.ports) := by
  induction left generalizing n x with
  | zero => cases h; exact ⟨fun hk => .inl ⟨hk, rfl, rfl⟩, fun _ => rfl⟩
  | succ left ih =>
    rw [retryLoop] at h
    split at h
    · obtain ⟨w, hw, h⟩ := bind_eq_ok.mp h
      have hp : w.2.ports = x.1.ports := by
        unfold resendCore at hw
        obtain ⟨hd, _, hw⟩ := bind_eq_ok.mp hw
        obtain ⟨pay, _, hw⟩ := bind_eq_ok.mp hw
        cases hw
        obtain ⟨_, _, e, _, _⟩ := transmit_cases hd pay (x.1.setFsm .resending)
        rw [e]; rfl
      have ht : w.2.turn = x.1.turn := (Runs.resendCore hw).turn
      have hcur : w.2.cur = x.1.cur := by simp [State.cur, State.port, hp, ht]
      split at h
      · obtain ⟨z, hz, h⟩ := bind_eq_ok.mp h
        obtain ⟨r1, r2⟩ := receiveCore_rxbuf hz
        obtain ⟨h1, h2⟩ := ih (n + 1) h
        refine ⟨fun hk => .inr ?_, fun hk => ?_⟩
        · rcases h1 hk with ⟨a, b, c⟩ | ⟨pay, a, b⟩
          · obtain ⟨pay, e1, e2⟩ := r1 a
            exact ⟨pay, by rw [e1, c], by rw [b, e2, hcur]⟩
          · by_cases hz' : z.2.kind = .ok
            · have hd := retryLoop_done (cmd := cmd) (max := max) left (n + 1) z (by rw [hz']; rfl)
              rw [hd] at h
              cases h
              obtain ⟨pay, e1, e2⟩ := r1 hz'
              exact ⟨pay, e1, by rw [e2, hcur]⟩
            · have e := r2 hz'
              have : z.1.cur = x.1.cur := by
                simp [State.cur, State.port, e, (Runs.receiveCore hz).turn, hp, ht]
              exact ⟨pay, a, by rw [b, this]⟩
        · have := h2 hk
          by_cases hz' : z.2.kind = .ok
          · have hd := retryLoop_done (cmd := cmd) (max := max) left (n + 1) z (by rw [hz']; rfl)
            rw [hd] at h
            cases h
            exact absurd hz' hk
          · rw [this, r2 hz', hp]
      · cases h; exact ⟨nofun, fun _ => hp⟩
    · cases h; exact ⟨fun hk => .inl ⟨hk, rfl, rfl⟩, fun _ => rfl⟩

/-- The bytes an `OK` exchange reports can be read from `RXBUF`. -/
theorem exchangeCore_rx {cmd max : Half} {s : State} {y : State × Result} (h : exchangeCore cmd max s = .ok y)
    (hk : y.2.kind = .ok) : ∃ bs, Memory.read y.1.cur.rxbuf 0 y.2.len.toNat = some bs := by
  obtain ⟨x, hx, h⟩ := bind_eq_ok.mp h
  have key : ∃ m : Memory, ∃ pay : List Byte, pay.length = y.2.len.toNat ∧ y.1.cur.rxbuf = Memory.write m 0 pay := by
    rcases (retryLoop_rxbuf _ _ h).1 hk with ⟨a, b, c⟩ | ⟨pay, a, b⟩
    · obtain ⟨pay, e1, e2⟩ := (receiveCore_rxbuf hx).1 a
      exact ⟨_, pay, by rw [e1, c], by rw [b, e2]⟩
    · exact ⟨_, pay, a, b⟩
  obtain ⟨m, pay, h1, h2⟩ := key
  exact ⟨pay, by rw [h2, ← h1]; exact Memory.read_write_same m 0 pay⟩

/-- An exchange completes where the staging holds any reply and a resend finds a request. -/
theorem exchangeCore_completes (cmd max : Half) (s : State) (hst : 65535 ≤ s.cfg.stageMax)
    (hc : s.retry = 0#8 ∨ s.canResend) : ∃ y, exchangeCore cmd max s = .ok y := by
  obtain ⟨x, hx⟩ := receiveCore_completes cmd max s hst
  unfold exchangeCore
  rw [hx]
  refine retryLoop_completes cmd max _ 0 x (by rw [(Runs.receiveCore hx).cfg]; exact hst) ?_
  rcases hc with hc | hc
  · exact .inl (by rw [hc]; rfl)
  · exact .inr ((CacheKept.receiveCore hx).canResend hc)

/-- What an exchange returns: the status of its kind, and a count of resends within `G.RETRY`. -/
theorem exchangeCore_result {cmd max : Half} {s : State} {y : State × Result}
    (h : exchangeCore cmd max s = .ok y) :
    statusFits s.cfg.hwThresh y.2.kind y.2.status = true
      ∧ ∃ m, m ≤ s.retry.toNat ∧ y.2.resends = BitVec.ofNat 8 m
        ∧ (retriable y.2.kind = true → m = s.retry.toNat) := by
  obtain ⟨x, hx, h⟩ := bind_eq_ok.mp h
  have hc := (Runs.receiveCore hx).cfg
  obtain ⟨h1, m, _, h3, h4, h5⟩ := retryLoop_result _ _ (by rw [hc]; exact receiveCore_fits hx) h
  rw [hc] at h1
  exact ⟨h1, m, by omega, h4, fun hr => by have := h5 hr; omega⟩

/-- After a request that went whole, with retries enabled, a resend finds it. -/
theorem sendCore_canResend {cmd : Half} {pay : List Byte} {s : State} (hl : pay.length ≤ 65535)
    (h : (sendCore cmd pay s).1 = true) :
    (sendCore cmd pay s).2.retry = 0#8 ∨ (sendCore cmd pay s).2.canResend := by
  have hr := (Runs.sendCore cmd pay s).retry
  by_cases h0 : s.retry = 0#8
  · exact .inl (hr.trans h0)
  · right
    have h1 : (transmit (buildReq s.cfg cmd pay) pay (s.setFsm .sending)).1 = true := by
      unfold sendCore at h
      simp only [] at h
      split at h
      · assumption
      · exact absurd h (by simp)
    have h2 : (transmit (buildReq s.cfg cmd pay) pay (s.setFsm .sending)).2.retry = s.retry :=
      (Runs.transmit _ _ _).retry
    unfold sendCore
    simp only [h1, if_true, requestSent, h2, if_neg h0]
    refine ⟨rfl, buildReq s.cfg cmd pay, BitVec.ofNat 16 pay.length, pay, ?_, rfl, ?_⟩
    · have := Memory.read_write_same (transmit (buildReq s.cfg cmd pay) pay (s.setFsm .sending)).2.rcHdr 0
        (buildReq s.cfg cmd pay)
      rw [buildReq_length] at this
      exact this
    · have e : (BitVec.ofNat 16 pay.length).toNat = pay.length := by simp; omega
      rw [e]
      exact Memory.read_write_same _ 0 pay

/-- An arm's send and exchange complete. -/
theorem armExchange_completes (id : Byte) (pay : List Byte) (bound : Half) (s : State)
    (hl : pay.length ≤ 65535) (hst : 65535 ≤ s.cfg.stageMax) : ∃ y, armExchange id pay bound s = .ok y := by
  simp only [armExchange]
  split
  · next hw =>
    exact exchangeCore_completes _ _ _ (by rw [(Runs.sendCore (id.setWidth 16) pay s).cfg]; exact hst)
      (sendCore_canResend hl hw)
  · exact ⟨_, rfl⟩

theorem armExchange_result {id : Byte} {pay : List Byte} {bound : Half} {s : State} {y : State × Result}
    (h : armExchange id pay bound s = .ok y) :
    statusFits s.cfg.hwThresh y.2.kind y.2.status = true := by
  simp only [armExchange] at h
  split at h
  · have := (exchangeCore_result h).1
    rwa [(Runs.sendCore (id.setWidth 16) pay s).cfg] at this
  · cases h; exact statusFits_local _ .transportWriteError (by decide)

/-- An `OK` result of an arm's exchange can be read from `RXBUF`. -/
theorem armExchange_rx {id : Byte} {pay : List Byte} {bound : Half} {s : State} {y : State × Result}
    (h : armExchange id pay bound s = .ok y) (hk : y.2.kind = .ok) :
    ∃ bs, Memory.read y.1.cur.rxbuf 0 y.2.len.toNat = some bs := by
  simp only [armExchange] at h
  split at h
  · exact exchangeCore_rx h hk
  · cases h; cases hk

/-- An `OK` exchange of an arm took a reply header at least. -/
theorem armExchange_takes {id : Byte} {pay : List Byte} {bound : Half} {s : State} {y : State × Result}
    (h : armExchange id pay bound s = .ok y) (hk : y.2.kind = .ok) :
    y.1.rxs.length + 6 ≤ s.rxs.length := by
  have loop : ∀ (cmd max : Half) (left n : Nat) (x : State × Reply) (z : State × Result),
      retryLoop cmd max left n x = .ok z → z.2.kind = .ok → x.2.kind = .ok ∧ z.1 = x.1
        ∨ z.1.rxs.length + 6 ≤ x.1.rxs.length := by
    intro cmd max left
    induction left with
    | zero => intro n x z hz hk; cases hz; exact .inl ⟨hk, rfl⟩
    | succ left ih =>
      intro n x z hz hk
      rw [retryLoop] at hz
      split at hz
      · obtain ⟨w, hw, hz⟩ := bind_eq_ok.mp hz
        have h1 := (Runs.resendCore hw).taken.length_le
        split at hz
        · obtain ⟨v, hv, hz⟩ := bind_eq_ok.mp hz
          have h2 := (Runs.receiveCore hv).taken.length_le
          right
          rw [State.setFsm_rxs] at h1
          rcases ih _ _ _ hz hk with ⟨a, b⟩ | h3
          · have := receiveCore_takes hv a
            rw [b]; omega
          · omega
        · cases hz; cases hk
      · cases hz; exact .inl ⟨hk, rfl⟩
  simp only [armExchange] at h
  split at h
  · obtain ⟨x, hx, h⟩ := bind_eq_ok.mp h
    have hrx := sendCore_rxs (id.setWidth 16) pay s
    have h2 := (Runs.receiveCore hx).taken.length_le
    rw [hrx] at h2
    rcases loop _ _ _ _ _ _ h hk with ⟨a, b⟩ | h3
    · have := receiveCore_takes hx a
      rw [b, ← hrx]; omega
    · omega
  · cases h; cases hk

/-! ## The chunk loop -/

/-- A chunk that asks for another one took a reply header at least. -/
theorem chunk_takes {id : Byte} {bound : Half} {s : State} {x : State × Result} {u : State}
    (hx : armExchange id [] bound s = .ok x) (hy : acceptChunk x = .ok (u, none)) :
    u.rxs.length + 6 ≤ s.rxs.length := by
  have hk : x.2.kind = .ok := by
    unfold acceptChunk at hy
    split at hy
    · cases hy
    · next hk => exact Decidable.not_not.mp hk
  have h1 := armExchange_takes hx hk
  have h2 : u.rxs.length ≤ x.1.rxs.length := (Runs.acceptChunk hy).taken.length_le
  omega

/-- Fuel above the bytes that wait is never used up: more of it changes nothing (log entry 22). -/
theorem chunkLoop_fuel (id : Byte) (fuel : Nat) (s : State) (h : s.rxs.length < fuel) :
    chunkLoop id (fuel + 1) s = chunkLoop id fuel s := by
  induction fuel generalizing s with
  | zero => omega
  | succ fuel ih =>
    rw [chunkLoop, chunkLoop]
    cases hx : readCore .rdChunk id s with
    | error f => rfl
    | ok x =>
      simp only [bind, Except.bind]
      cases hy : acceptChunk x with
      | error f => rfl
      | ok y =>
        obtain ⟨u, o⟩ := y
        cases o with
        | some r => rfl
        | none => exact ih u (by have := chunk_takes hx hy; omega)

end Sys2Proof.Machine
end

