-- ==== Sys2Proof/Laws/Wrapper.lean ====
section
/-! SUPPORT. What the wrapper of a channel operation does around its body, and the short transfers
of a send and a receive. -/

namespace Sys2Proof.Machine

/-- The state the body of a channel operation runs in: the acting port holds the lock (42_protocol_engine.md R183). -/
def State.held (s : State) : State := { s with lockOwner := portByte s.turn, active := portByte s.turn }

/-- A channel operation of the holder, or with the channel free, runs at once (42_protocol_engine.md R183). -/
theorem beginChannelOp_open {s : State} (h : s.lockOwner = noPort ∨ s.lockOwner = portByte s.turn) :
    beginChannelOp s = some (decide (s.lockOwner = noPort), s.held) := by
  unfold beginChannelOp
  by_cases h1 : s.lockOwner = portByte s.turn
  · have h2 : ¬ s.lockOwner = noPort := by rw [h1]; exact portByte_ne_noPort _
    rw [if_pos h1, decide_eq_false h2]
    have : s.held = { s with active := portByte s.turn } := by rw [State.held, ← h1]
    rw [this]
  · have h2 : s.lockOwner = noPort := h.resolve_right h1
    rw [if_neg h1, if_pos h2, decide_eq_true h2]; rfl

/-- The body of a channel operation that does not hold runs with the lock and `G.ACTIVE` taken. -/
theorem underLock_open {body : Bool → State → Except Fault State} {s : State}
    (h : s.lockOwner = noPort ∨ s.lockOwner = portByte s.turn) :
    underLock body s = outcome (body (decide (s.lockOwner = noPort)) s.held) := by
  unfold underLock
  rw [beginChannelOp_open h]

/-- What `endChannelOp` leaves of a body that kept the lock and the issuing port (42_protocol_engine.md R183). -/
theorem endChannelOp_held {s u : State} (h : s.lockOwner = noPort ∨ s.lockOwner = portByte s.turn)
    (hu : u.lockOwner = portByte s.turn) (ht : u.turn = s.turn) (k : Kind) (st : Byte) (len : Half) :
    endChannelOp (decide (s.lockOwner = noPort)) k st len u
      = ({ u with lockOwner := s.lockOwner } : State).ends k st len u.fsm := by
  obtain ⟨⟩ := u
  dsimp only at hu ht
  subst hu ht
  by_cases h2 : s.lockOwner = noPort
  · have h3 : ¬ noPort = portByte s.turn := fun e => portByte_ne_noPort _ e.symm
    simp only [endChannelOp, releaseChannel, h2, decide_true, if_true, State.ends, if_neg h3]
    rfl
  · have h1 := h.resolve_left h2
    simp only [endChannelOp, releaseChannel, State.ends, h1, if_true, decide_eq_false (portByte_ne_noPort _)]
    rfl

/-- Two states agree everywhere but in who holds the channel, which port is active, and the exchange state machine. -/
def SameButHold (u v : State) : Prop :=
  u.cfg = v.cfg ∧ u.ports = v.ports ∧ u.retry = v.retry ∧ u.rcValid = v.rcValid ∧ u.rcHdr = v.rcHdr ∧ u.rcLen = v.rcLen
  ∧ u.rcPay = v.rcPay ∧ u.stageHdr = v.stageHdr ∧ u.stage = v.stage ∧ u.log = v.log ∧ u.engine = v.engine ∧ u.txs = v.txs
  ∧ u.rxs = v.rxs ∧ u.writeScript = v.writeScript ∧ u.turn = v.turn ∧ u.inputs = v.inputs ∧ u.reads = v.reads ∧ u.free = v.free

/-- The end of a channel operation whose body left `u`: it is `v.ends`, for any `v` that agrees
with `u` but for the hold and has the lock as it was before. -/
theorem endChannelOp_same {s u v : State} (h : s.lockOwner = noPort ∨ s.lockOwner = portByte s.turn)
    (hu : u.lockOwner = portByte s.turn) (ht : u.turn = s.turn) (hv : v.lockOwner = s.lockOwner)
    (huv : SameButHold u v) (k : Kind) (st : Byte) (len : Half) :
    endChannelOp (decide (s.lockOwner = noPort)) k st len u = v.ends k st len u.fsm := by
  rw [endChannelOp_held h hu ht]
  obtain ⟨⟩ := u
  obtain ⟨⟩ := v
  obtain ⟨rfl, rfl, rfl, rfl, rfl, rfl, rfl, rfl, rfl, rfl, rfl, rfl, rfl, rfl, rfl, rfl, rfl, rfl⟩ := huv
  dsimp only at hv
  subst hv
  rfl

/-- An operand that holds a value is read. -/
theorem need_some {α} {x : Option α} {v : α} (h : x = some v) : need x = .ok v := by rw [h]; rfl

/-- `CMD`, `MAX` and `TXBUF[0:LEN]` are read as they were before the operation took the lock. -/
theorem held_cmd {s : State} {cmd} (h1 : s.cur.cmd = some cmd) : s.held.needCmd = .ok cmd := need_some h1
theorem held_max {s : State} {cmd} (h1 : s.cur.max = some cmd) : s.held.needMax = .ok cmd := need_some h1
theorem held_pay {s : State} {len payload} (h2 : s.cur.len = some len)
    (h3 : Memory.read s.cur.txbuf 0 len.toNat = some payload) :
    s.held.needPayload = .ok payload := by
    simp only [State.needPayload, State.needLen]
    rw [show s.held.cur = s.cur from rfl, h2]
    simp only [need, bind, Except.bind, h3]

/-- A send whose header write is short: the payload is not attempted (42_protocol_engine.md R189). -/
theorem sendCore_short_header {s : State} {cmd : Half} {payload : List Byte} {k : Nat}
    {script : List Nat} (h : s.writeScript = k :: script) (hk : k < 8) :
    sendCore cmd payload s = (false, (({ s with writeScript := script }.sends
      ((requestHeader s.cfg cmd payload).take k)).setFsm .localError)) := by
  have hm : min k 8 = k := by omega
  simp [sendCore, transmit, chanWrite, writeCount, h, buildReq_eq, hm, hk, State.setFsm, State.sends]

/-- A send whose payload write is short (42_protocol_engine.md R188). -/
theorem sendCore_short_payload {s : State} {cmd : Half} {payload : List Byte} {k j : Nat}
    {script : List Nat} (h : s.writeScript = k :: j :: script) (hk : 8 ≤ k) (hj : j < payload.length) :
    sendCore cmd payload s = (false, (({ s with writeScript := script }.sends
      ((requestHeader s.cfg cmd payload) ++ payload.take j)).setFsm .localError)) := by
  have hm : min k 8 = 8 := by omega
  have hm2 : min j payload.length = j := by omega
  have : ¬ payload = [] := by rintro rfl; simp at hj
  have hn : ¬ payload.length ≤ j := by omega
  have ht : (requestHeader s.cfg cmd payload).take 8 = requestHeader s.cfg cmd payload := List.take_of_length_le (by simp)
  simp [sendCore, transmit, chanWrite, writeCount, h, buildReq_eq, hm, hm2, this, hn, ht, State.setFsm, State.sends, List.append_assoc]

/-- A receive whose payload stops short (42_protocol_engine.md R194). -/
theorem receiveCore_short_payload {cmd max : Half} {s : State} {header bytes : List Byte} {r : RepHeader}
    {after rest : List RxItem}
    (h6 : header.length = 6) (hr : decRep s.cfg.endian header = some r) (hl : bytes.length < r.len.toNat)
    (hs : r.len.toNat ≤ s.cfg.stageMax) (hh : s.hears (header ++ bytes) after)
    (ha : stops after rest) :
    receiveCore cmd max s =
      .ok ((stageHeader header (s.left rest)).setFsm .localError, ⟨.transportReadError, localStatus, r.len⟩) := by
  have h1 : takeRx 6 s.rxs = (header, bytes.map RxItem.byte ++ after) := by
    rw [hh, List.map_append, List.append_assoc, ← h6]
    exact takeRx_bytes _ _
  have e1 : chanRead 6 (s.setFsm .awaitingReply)
      = (header, (s.setFsm .awaitingReply).left (bytes.map RxItem.byte ++ after)) := chanRead_of h1
  unfold receiveCore
  simp only [e1, hr]
  rw [if_neg (show ¬ s.cfg.stageMax < r.len.toNat by omega)]
  have h0 : ¬ r.len = 0#16 := by rintro h; rw [h] at hl; simp at hl
  have e3 : chanRead r.len.toNat (stageHeader header ((s.setFsm .awaitingReply).left (bytes.map RxItem.byte ++ after)))
        = (bytes, stageHeader header ((s.setFsm .awaitingReply).left rest)) := chanRead_of (takeRx_stops hl ha)
  rw [if_neg h0, e3]
  dsimp only
  rw [if_pos hl]
  rfl

end Sys2Proof.Machine
end

