-- ==== Sys2Proof/Tests/Slice0.lean ====
section
/-! SUPPORT. Tests. The expected values are those of spec/95_test_vectors.md, whose vector each test names,
or written out by hand from the encoding tables; a `witness_` theorem shows a state and operands that meet
the hypotheses of the statement it names. -/

namespace Sys2Proof.Tests

open Sys2Proof Sys2Proof.Machine

-- Each test waits for the kernel. One at a time keeps the threads that wait few.
set_option Elab.async false

/-! ## The test configuration (95_test_vectors.md section 1) -/

/-- The base configuration: `REF_CRC`, two ports, the two required registry entries. -/
def cfg : Params where
  crc := .reference
  endian := .le
  hwThresh := 0x20
  retryReset := 0
  nports := 2
  stageMax := 65535
  registry := [⟨0x42, 0, 8, 4⟩, ⟨0x62, 0, 0, 0⟩]
  chunkSize := 512
  chunkFinal := .standard
  accMax := 262144
  pct := .reference

/-- The test registry of 95_test_vectors.md section 1.3. -/
def cfgAll : Params :=
  { cfg with
    registry := cfg.registry ++ [⟨0x10, 0, 4, 1⟩, ⟨0x11, 0, 4, 2⟩, ⟨0x12, 0, 1, 3⟩, ⟨0x20, 0, 68, 5⟩,
      ⟨0x30, 0, 512, 6⟩, ⟨0x50, 4, 0, 7⟩] }

/-- Port 0 has begun an operation with these operands, and the channel answers by these scripts. -/
def ready (c : Params) (f : Port → Port) (rx : List RxItem) (tx : List Nat) : State :=
  { (State.resetWith c).modPort 0 (fun p => { f p with busy := true }) with rxs := rx, writeScript := tx }

/-- These bytes from the device. -/
def wire (bs : List Byte) : List RxItem := bs.map RxItem.byte

/-- An answer is a next state in which this holds. -/
def next (o : Host.Outcome State Fault Refusal) (f : State → Bool) : Bool :=
  match o with
  | .next t => f t
  | _ => false

/-- An answer is this fault. -/
def faults (o : Host.Outcome State Fault Refusal) (f : Fault) : Bool :=
  match o with
  | .fault g => g == f
  | _ => false

/-- The result kind, the status and `RES_LEN` of port 0. -/
def result (t : State) (k : Kind) (st : Byte) (len : Half) : Bool :=
  (t.port 0).resKind == some k && (t.port 0).resStatus == some st && (t.port 0).resLen == some len
    && !(t.port 0).busy

/-! ## Well-formedness -/

theorem test_cfg_wf : cfg.wf = true ∧ cfgAll.wf = true := by decide
theorem test_wf_request_length : (Instr.frameRequest 0x23 2 0 [0xAA]).wf = false := by decide
theorem test_wf_reply_length : (Instr.frameReply 0x42 0 0 0 [0x01]).wf = false := by decide
theorem test_wf_duplicate_id :
    ({ cfg with registry := ⟨0x42, 0, 0, 0⟩ :: cfg.registry } : Params).wf = false := by decide
theorem test_wf_illegal_kind :
    ({ cfg with registry := ⟨0x10, 0, 0, 8⟩ :: cfg.registry } : Params).wf = false := by decide
theorem test_wf_request_size :
    ({ cfg with registry := ⟨0x10, 4, 4, 1⟩ :: cfg.registry } : Params).wf = false := by decide
theorem test_wf_reply_size :
    ({ cfg with registry := ⟨0x10, 0, 5, 1⟩ :: cfg.registry } : Params).wf = false := by decide
theorem test_wf_no_version_entry : ({ cfg with registry := [⟨0x62, 0, 0, 0⟩] } : Params).wf = false := by decide
theorem test_wf_no_shutdown_entry : ({ cfg with registry := [⟨0x42, 0, 8, 4⟩] } : Params).wf = false := by decide
theorem test_wf_no_port : ({ cfg with nports := 0 } : Params).wf = false := by decide
theorem test_wf_17_ports : ({ cfg with nports := 17 } : Params).wf = false := by decide
theorem test_wf_acc_too_large : ({ cfg with accMax := 0xC0001 } : Params).wf = false := by decide
theorem test_wf_short_table : ({ cfg with crc := .msbFirst [0] } : Params).wf = false := by decide
theorem test_configure_refuses : configure { cfg with nports := 0 } = .refused .badConfiguration := rfl

/-! ## Decoding: a word of every row, from 30_encoding.md R101, R106, R108, R117 and 43_command_dispatch.md R243 -/

theorem test_decode_crc : decode .le .opc [0x01] = .ok (.crc, []) := rfl
theorem test_decode_encreq : decode .le .opc [0x02] = .ok (.encreq, []) := rfl
theorem test_decode_decreq : decode .le .opc [0x03] = .ok (.decreq, []) := rfl
theorem test_decode_encrep : decode .le .opc [0x04] = .ok (.encrep, []) := rfl
theorem test_decode_decrep : decode .le .opc [0x05] = .ok (.decrep, []) := rfl
theorem test_decode_lock : decode .le .opc [0x10] = .ok (.lock, []) := rfl
theorem test_decode_unlock : decode .le .opc [0x11] = .ok (.unlock, []) := rfl
theorem test_decode_setretry : decode .le .opc [0x12] = .ok (.setretry, []) := rfl
theorem test_decode_send : decode .le .opc [0x20] = .ok (.send, []) := rfl
theorem test_decode_receive : decode .le .opc [0x21] = .ok (.receive, []) := rfl
theorem test_decode_exchange : decode .le .opc [0x22] = .ok (.exchange, []) := rfl
theorem test_decode_transact : decode .le .opc [0x23] = .ok (.transact, []) := rfl
theorem test_decode_call : decode .le .opc [0x30] = .ok (.call, []) := rfl
theorem test_decode_unassigned : decode .le .opc [0x06] = .error (.unassignedCode 0x06) := rfl
theorem test_decode_callNone : decode .le .mux [0x00, 0x62] = .ok (.callNone 0x62, []) := rfl
theorem test_decode_callF32 : decode .le .mux [0x01, 0x10] = .ok (.callF32 0x10, []) := rfl
theorem test_decode_callU32 : decode .le .mux [0x02, 0x11] = .ok (.callU32 0x11, []) := rfl
theorem test_decode_callU8 : decode .le .mux [0x03, 0x12] = .ok (.callU8 0x12, []) := rfl
theorem test_decode_callVer : decode .le .mux [0x04, 0x42] = .ok (.callVer 0x42, []) := rfl
theorem test_decode_callId : decode .le .mux [0x05, 0x20] = .ok (.callId 0x20, []) := rfl
theorem test_decode_callChunk : decode .le .mux [0x06, 0x30] = .ok (.callChunk 0x30, []) := rfl
theorem test_decode_callPct : decode .le .mux [0x07, 0x50] = .ok (.callPct 0x50, []) := rfl
theorem test_decode_illegal_kind : decode .le .mux [0x08, 0x50] = .error (.illegalKind 0x08) := rfl
theorem test_decode_version : decode .le .command [0x42, 0x00] = .ok (.cmdVersionQuery, []) := rfl
theorem test_decode_shutdown : decode .be .command [0x00, 0x62] = .ok (.cmdShutdown, []) := rfl
theorem test_decode_unnamed : decode .le .command [0x42, 0x01] = .error (.unnamedCommand 0x0142) := rfl

/-- Frame Q4. -/
theorem test_decode_request :
    decode .le .request [0x23, 0x00, 0x03, 0x00, 0x00, 0x00, 0xA1, 0x8B, 0xAA, 0xBB, 0xCC, 0x99]
      = .ok (.frameRequest 0x0023 3 0x8BA1 [0xAA, 0xBB, 0xCC], [0x99]) := rfl

/-- A nonzero reserved field (30_encoding.md R105). -/
theorem test_decode_reserved :
    decode .le .request [0x23, 0x00, 0x00, 0x00, 0xEF, 0xBE, 0x00, 0x00]
      = .error (.reservedNonzero 0xBEEF) := rfl

/-- Frame A17. -/
theorem test_decode_reply :
    decode .le .reply [0x23, 0x00, 0x01, 0x00, 0x54, 0x16, 0x5A]
      = .ok (.frameReply 0x23 0x00 1 0x1654 [0x5A], []) := rfl

theorem test_decode_truncated : decode .le .reply [0x23, 0x00, 0x01, 0x00, 0x54, 0x16] = .error .truncated := rfl

/-- The table's numbering: byte 0 is bits 7..0 of a row's word. -/
theorem test_table_words :
    decodeTableWord 8 0x30 = some .call ∧ decodeTableWord 8 0x06 = some (.callChunk 0)
      ∧ decodeTableWord 16 0x0042 = some .cmdVersionQuery
      ∧ decodeTableWord 64 0x4848000000000042 = some (.frameRequest 0x42 0 0x4848 [])
      ∧ decodeTableWord 48 0x4DA500002142 = some (.frameReply 0x42 0x21 0 0x4DA5 []) := by decide

theorem test_fetch_lock : next (step (State.reset.withFetchWord 8 0x10)) fun t => t.lockOwner == 0 := by
  decide +kernel

/-! ## The checksum and the header operations -/

/-- CK3. -/
theorem test_crc : next (exec .crc (ready cfg (fun p =>
    { p with len := some 1, seed := some 0xFFFF, txbuf := [(0, 0x42)] }) [] [])) fun t =>
      (t.port 0).resVal == some 0x00008976 && (t.port 0).resLen == none := by decide +kernel

/-- FC2. -/
theorem test_encreq : next (exec .encreq (ready cfg (fun p =>
    { p with hCmd := some 0x0123, hLen := some 3, hRsv := some 0xBEEF, hCks := some 0 }) [] [])) fun t =>
      Memory.read (t.port 0).hbuf 0 8 == some [0x23, 0x01, 0x03, 0x00, 0xEF, 0xBE, 0x00, 0x00]
        && (t.port 0).hbn == some 8 := by decide +kernel

/-- The eight bytes `62 FF 00 00 E7 80 12 34` in `HBUF`. -/
def header8 : Memory := [(0, 0x62), (1, 0xFF), (2, 0x00), (3, 0x00), (4, 0xE7), (5, 0x80), (6, 0x12), (7, 0x34)]

/-- FC6: `HBN` 9 reads eight bytes. -/
theorem test_decreq : next (exec .decreq (ready cfg (fun p =>
    { p with hbn := some 9, hbuf := header8 }) [] [])) fun t =>
      (t.port 0).hCmd == some 0xFF62 && (t.port 0).hRsv == some 0x80E7 && (t.port 0).hCks == some 0x3412
        && (t.port 0).hSt == none := by decide +kernel

/-- FC4: `HBN` 0 with an unwritten `HBUF`. -/
theorem test_decreq_empty : next (exec .decreq (ready cfg (fun p => { p with hbn := some 0 }) [] [])) fun t =>
      (t.port 0).resKind == some .malformedHeader && (t.port 0).hCmd == none := by decide +kernel

/-- FC7: bytes 6 and 7 of `HBUF` stay, and the command's high byte is dropped. -/
theorem test_encrep : next (exec .encrep (ready cfg (fun p =>
    { p with hCmd := some 0x0142, hSt := some 0x21, hLen := some 0, hCks := some 0x4DA5, hbuf := header8 })
      [] [])) fun t =>
      Memory.read (t.port 0).hbuf 0 8 == some [0x42, 0x21, 0x00, 0x00, 0xA5, 0x4D, 0x12, 0x34]
        && (t.port 0).hbn == some 6 := by decide +kernel

/-- FC11. -/
theorem test_decrep : next (exec .decrep (ready cfg (fun p =>
    { p with hbn := some 8, hbuf := header8 }) [] [])) fun t =>
      (t.port 0).hCmd == some 0x0062 && (t.port 0).hSt == some 0xFF && (t.port 0).hCks == some 0x80E7
        && (t.port 0).hRsv == none := by decide +kernel

/-! ## The lock -/

/-- LK6: port 0 waits while port 1 owns the lock. -/
theorem test_lock_holds : next (exec .lock { ready cfg id [] [] with lockOwner := 1 }) fun t =>
    (t.port 0).busy && t.lockOwner == 1 := by decide +kernel

theorem test_unlock_other : next (exec .unlock { ready cfg id [] [] with lockOwner := 1 }) fun t =>
    (t.port 0).resKind == some .notOwner && t.lockOwner == 1 := by decide +kernel

/-- LK3. -/
theorem test_unlock_owner :
    next (exec .unlock { ready cfg id [] [] with lockOwner := 0, fsm := .success }) fun t =>
      t.lockOwner == 0xFF && t.fsm == .idle && (t.port 0).resKind == some .ok := by decide +kernel

/-- LK7. -/
theorem test_setretry : next (exec .setretry (ready cfg (fun p => { p with arg := some 0x12345603 }) [] []))
    fun t => t.retry == 3 && t.lockOwner == 0xFF := by decide +kernel

/-! ## Send and receive -/

/-- SD2: frame Q3, and the cache. -/
theorem test_send : next (exec .send { ready cfg (fun p =>
    { p with cmd := some 0x0123, len := some 3, txbuf := [(0, 0xAA), (1, 0xBB), (2, 0xCC)] }) [] [] with
      retry := 2 }) fun t =>
    t.txs == [0x23, 0x01, 0x03, 0x00, 0x00, 0x00, 0xE4, 0xE4, 0xAA, 0xBB, 0xCC] && t.rcValid
      && result t .ok 0x00 0 && t.fsm == .idle := by decide +kernel

/-- SD4: the payload write stops after one byte. -/
theorem test_send_short : next (exec .send { ready cfg (fun p =>
    { p with cmd := some 0x0123, len := some 3, txbuf := [(0, 0xAA), (1, 0xBB), (2, 0xCC)] }) [] [8, 1] with
      retry := 1 }) fun t =>
    t.txs == [0x23, 0x01, 0x03, 0x00, 0x00, 0x00, 0xE4, 0xE4, 0xAA] && !t.rcValid
      && result t .transportWriteError 0xFF 0 := by decide +kernel

/-- Port 0 receives for command 0x42 with a `MAX` of 8. -/
def receive8 (rx : List Byte) : State := ready cfg (fun p => { p with cmd := some 0x42, max := some 8 }) (wire rx) []

/-- RX1. -/
theorem test_receive : next (exec .receive (receive8
    [0x42, 0x00, 0x08, 0x00, 0x7D, 0x97, 0x01, 0x02, 0x00, 0x03, 0x04, 0x05, 0x00, 0x01])) fun t =>
    Memory.read (t.port 0).rxbuf 0 8 == some [0x01, 0x02, 0x00, 0x03, 0x04, 0x05, 0x00, 0x01]
      && result t .ok 0x00 8 && t.rxs == [] && t.fsm == .idle := by decide +kernel

/-- RX10: the status check comes before the command check, and the log holds the expected command. -/
theorem test_receive_device_error : next (exec .receive (receive8 [0x43, 0x21, 0x00, 0x00, 0x05, 0x08])) fun t =>
    t.log == [⟨0, 0x0042, 0x21⟩] && result t .deviceReportedError 0x21 0 := by decide +kernel

/-! ## Exchange and transact -/

/-- EX3. -/
theorem test_exchange_no_cache : faults (exec .exchange { ready cfg (fun p =>
    { p with cmd := some 0x62, max := some 0 }) [] [] with retry := 1 }) .resendNoCache := by decide +kernel

/-- EX1. -/
theorem test_exchange : next (exec .exchange (ready cfg (fun p => { p with cmd := some 0x62, max := some 0 })
    (wire [0x62, 0x00, 0x00, 0x00, 0x48, 0xDA]) [])) fun t =>
    result t .ok 0x00 0 && (t.port 0).resResends == some 0 && t.txs == [] := by decide +kernel

/-- TR2: one timeout, one resend. -/
theorem test_transact : next (exec .transact { ready cfg (fun p =>
    { p with cmd := some 0x62, len := some 0, max := some 0 })
      (.timeout :: wire [0x62, 0x00, 0x00, 0x00, 0x48, 0xDA]) [] with retry := 2 }) fun t =>
    result t .ok 0x00 0 && (t.port 0).resResends == some 1 && t.rcValid
      && t.txs == [0x62, 0, 0, 0, 0, 0, 0x20, 0x33, 0x62, 0, 0, 0, 0, 0, 0x20, 0x33] := by decide +kernel

/-- TR5: the resend's header write stops after three bytes. -/
theorem test_transact_resend_fails : next (exec .transact { ready cfg (fun p =>
    { p with cmd := some 0x62, len := some 0, max := some 0 }) [.timeout] [8, 3] with retry := 2 }) fun t =>
    result t .transportWriteError 0xFF 0 && (t.port 0).resResends == some 1
      && t.txs == [0x62, 0, 0, 0, 0, 0, 0x20, 0x33, 0x62, 0, 0] := by decide +kernel

/-! ## The registry and the arms -/

/-- Port 0 calls this command with the test registry. -/
def calling (cmd : Half) (rx : List RxItem) : State := ready cfgAll (fun p => { p with cmd := some cmd }) rx []

/-- CL1. -/
theorem test_call : next (exec .call (calling 0x42 (wire
    [0x42, 0x00, 0x08, 0x00, 0x7D, 0x97, 0x01, 0x02, 0x00, 0x03, 0x04, 0x05, 0x00, 0x01]))) fun t =>
    result t .ok 0x00 8 && t.txs == [0x42, 0x00, 0x00, 0x00, 0x00, 0x00, 0x48, 0x48]
      && Memory.read (t.port 0).ver 0 8 == some [0x01, 0x02, 0x00, 0x03, 0x04, 0x05, 0x00, 0x01] := by
  decide +kernel

/-- CL5. -/
theorem test_call_unknown : next (exec .call { calling 0x0142 [] with lockOwner := 1 }) fun t =>
    (t.port 0).resKind == some .noSuchCommand && (t.port 0).resLen == none && t.txs == [] := by decide +kernel

/-- CL3. -/
theorem test_callNone : next (exec (.callNone 0x62) (calling 0 (wire [0x62, 0x00, 0x01, 0x00, 0x4F, 0x19, 0x09])))
    fun t => result t .bufferTooSmall 0xFF 1 && (t.port 0).rxbuf == [] := by decide +kernel

/-- CL6. -/
theorem test_callF32 : next (exec (.callF32 0x10)
    (calling 0 (wire [0x10, 0x00, 0x04, 0x00, 0x21, 0x96, 0x00, 0x00, 0x48, 0x42]))) fun t =>
    (t.port 0).resVal == some 0x42480000 && result t .ok 0x00 4 := by decide +kernel

/-- CL8. -/
theorem test_callU32 : next (exec (.callU32 0x11)
    (calling 0 (wire [0x11, 0x00, 0x04, 0x00, 0x7D, 0xC5, 0x78, 0x56, 0x34, 0x12]))) fun t =>
    (t.port 0).resVal == some 0x12345678 && result t .ok 0x00 4 := by decide +kernel

/-- CL9. -/
theorem test_callU32_short : next (exec (.callU32 0x11)
    (calling 0 (wire [0x11, 0x00, 0x02, 0x00, 0xDA, 0x7B, 0x78, 0x56]))) fun t =>
    (t.port 0).resVal == none && result t .payloadShort 0xFF 2
      && Memory.read (t.port 0).rxbuf 0 2 == some [0x78, 0x56] := by decide +kernel

/-- CL11. -/
theorem test_callU8 : next (exec (.callU8 0x12) (calling 0 (wire [0x12, 0x00, 0x01, 0x00, 0xF7, 0x12, 0xFF])))
    fun t => (t.port 0).resVal == some 0x000000FF && result t .ok 0x00 1 := by decide +kernel

/-- CL13. -/
theorem test_callVer_short : next (exec (.callVer 0x42)
    (calling 0 (wire [0x42, 0x00, 0x05, 0x00, 0xAD, 0xC5, 0x01, 0x02, 0x03, 0x04, 0x05]))) fun t =>
    (t.port 0).ver == [] && result t .payloadShort 0xFF 5 := by decide +kernel

/-- The 68 bytes of `ID68`. -/
def id68 : List Byte :=
  [0x58, 0x44, 0x4F, 0x54, 0x2D, 0x53, 0x45, 0x4E, 0x53, 0x4F, 0x52] ++ List.replicate 21 0x00
    ++ [0x01, 0x00, 0x00, 0x00]
    ++ [0x32, 0x30, 0x32, 0x30, 0x2D, 0x30, 0x31, 0x2D, 0x30, 0x32] ++ List.replicate 6 0x00
    ++ [0x32, 0x30, 0x32, 0x31, 0x2D, 0x30, 0x33, 0x2D, 0x30, 0x34] ++ List.replicate 6 0x00

/-- CL15. -/
theorem test_callId : next (exec (.callId 0x20)
    (calling 0 (wire ([0x20, 0x00, 0x44, 0x00, 0x7D, 0x56] ++ id68)))) fun t =>
    result t .ok 0x00 68 && (t.port 0).idType == some 1
      && Memory.read (t.port 0).idName 0 11
        == some [0x58, 0x44, 0x4F, 0x54, 0x2D, 0x53, 0x45, 0x4E, 0x53, 0x4F, 0x52]
      && Memory.read (t.port 0).idDate1 8 3 == some [0x30, 0x32, 0x00]
      && Memory.read (t.port 0).idDate2 8 3 == some [0x30, 0x34, 0x00] := by decide +kernel

/-- CL18: a chunk of one byte is not final, and the two chunks follow one another. -/
theorem test_callChunk : next (exec (.callChunk 0x30) (calling 0 (wire
    [0x30, 0x00, 0x01, 0x00, 0x9A, 0x93, 0x80, 0x30, 0x00, 0x02, 0x00, 0x2A, 0x6D, 0x00, 0x80]))) fun t =>
    result t .ok 0x00 2 && (t.port 0).accN == some 3
      && Memory.read (t.port 0).acc 0 3 == some [0x80, 0x00, 0x80] := by decide +kernel

/-- CL21. -/
theorem test_callPct : next (exec (.callPct 0x50) (ready cfgAll (fun p => { p with arg := some 5000 })
    (wire [0x50, 0x00, 0x00, 0x00, 0x84, 0x7E]) [])) fun t =>
    result t .ok 0x00 0
      && t.txs == [0x50, 0x00, 0x04, 0x00, 0x00, 0x00, 0x3F, 0x2F, 0x00, 0x00, 0x48, 0x42] := by decide +kernel

/-- S6, by the row of the version query. -/
theorem test_cmdVersionQuery : next (exec .cmdVersionQuery (calling 0 (wire
    [0x42, 0x00, 0x08, 0x00, 0x7D, 0x97, 0x01, 0x02, 0x00, 0x03, 0x04, 0x05, 0x00, 0x01]))) fun t =>
    (t.port 0).cmd == some 0x42 && result t .ok 0x00 8 := by decide +kernel

/-- S7, by the row of the shutdown command. -/
theorem test_cmdShutdown : next (exec .cmdShutdown (calling 0 (wire [0x62, 0x00, 0x00, 0x00, 0x48, 0xDA]))) fun t =>
    result t .ok 0x00 0 && t.txs == [0x62, 0, 0, 0, 0, 0, 0x20, 0x33] := by decide +kernel

/-- Frame Q4 on the wire. -/
theorem test_frameRequest : next (exec (.frameRequest 0x0023 3 0x8BA1 [0xAA, 0xBB, 0xCC]) (ready cfg id [] []))
    fun t => t.txs == [0x23, 0x00, 0x03, 0x00, 0x00, 0x00, 0xA1, 0x8B, 0xAA, 0xBB, 0xCC] := by decide +kernel

/-- Frame A17 on the wire. -/
theorem test_frameReply : next (exec (.frameReply 0x23 0x00 1 0x1654 [0x5A]) (ready cfg id [] []))
    fun t => t.rxs == wire [0x23, 0x00, 0x01, 0x00, 0x54, 0x16, 0x5A] := by decide +kernel

/-! ## Host accesses (95_test_vectors.md section 3.10) -/

/-- MF1: `ld8 RES_KIND` from reset. -/
theorem test_host_unwritten : faults (hostAccess ⟨0x000020, 1, none⟩ (State.resetWith cfg)) .unwritten := by
  decide +kernel
/-- MF10: `RECEIVE` from reset with `CMD` written and `MAX` never written. -/
theorem test_receive_without_max :
    faults (exec .receive ((State.resetWith cfg).modCur fun p => { p with cmd := some 0x42 })) .unwritten := by
  decide +kernel
theorem test_host_read_only : faults (hostAccess ⟨0x000020, 1, some 0⟩ (State.resetWith cfg)) .hostRo := by
  decide +kernel
theorem test_host_misaligned : faults (hostAccess ⟨0x010001, 2, some 0⟩ (State.resetWith cfg)) .hostMisaligned := by
  decide +kernel
theorem test_host_two_rows : faults (hostAccess ⟨0x000004, 4, some 0⟩ (State.resetWith cfg)) .hostUnmapped := by
  decide +kernel
theorem test_host_absent_port : faults (hostAccess ⟨0x500003, 2, some 0⟩ (State.resetWith cfg)) .hostUnmapped := by
  decide +kernel
theorem test_host_busy : faults (hostAccess ⟨0x000002, 2, some 0⟩ (ready cfg id [] [])) .hostBusy := by
  decide +kernel
theorem test_host_shared_row : next (hostAccess ⟨0x0000C0, 1, none⟩ (ready cfg id [] [])) fun t =>
    t.reads == [0xFF] := by decide +kernel

/-! ## Witnesses of the statements' hypotheses -/

/-- A byte-injective update: the table whose entry `i` is `i`. -/
def plainTable : CrcAlg := .msbFirst ((List.range 256).map (BitVec.ofNat 16))

theorem plainTable_step (s : Half) (b : Byte) :
    crcStep plainTable s b = (s <<< 8) ^^^ (byteAt s 1 ^^^ b).setWidth 16 := by
  have hlt := (byteAt s 1 ^^^ b).isLt
  have e : ((List.range 256).map (BitVec.ofNat 16)).getD (byteAt s 1 ^^^ b).toNat 0#16
      = (byteAt s 1 ^^^ b).setWidth 16 := by
    rw [List.getD_eq_getElem?_getD, List.getElem?_map, List.getElem?_range (by simpa using hlt)]
    exact BitVec.eq_of_toNat_eq (by simp)
  simp only [crcStep, plainTable, crcMsbFirst, e]

theorem plainTable_injective : ByteInjective (crcStep plainTable) := by
  have bits : ∀ (s : Half) (b : Byte) (k : Nat), (crcStep plainTable s b).getLsbD k
      = ((decide (k < 16) && !decide (k < 8) && s.getLsbD (k - 8))
        ^^ (decide (k < 16) && (decide (k < 8) && (s.getLsbD (8 + k) ^^ b.getLsbD k)))) := by
    intro s b k
    rw [plainTable_step]
    by_cases h8 : k < 8 <;> by_cases h16 : k < 16 <;> simp [byteAt, h8, h16]
    rw [BitVec.getLsbD_of_ge b k (by omega), Bool.xor_false, BitVec.getLsbD_eq_getElem (by omega)]
  constructor
  · intro s b b' h
    refine BitVec.eq_of_getLsbD_eq fun k hk => ?_
    have := congrArg (fun v => v.getLsbD k) h
    simp only [bits] at this
    have h16 : k < 16 := by omega
    simpa [hk, h16] using this
  · intro b s s' h
    refine BitVec.eq_of_getLsbD_eq fun k hk => ?_
    by_cases h8 : k < 8
    · have := congrArg (fun v => v.getLsbD (k + 8)) h
      simp only [bits] at this
      have h1 : k + 8 < 16 := by omega
      have h2 : ¬ k + 8 < 8 := by omega
      simpa [h1, h2] using this
    · have := congrArg (fun v => v.getLsbD (k - 8)) h
      simp only [bits] at this
      have h1 : k - 8 < 16 := by omega
      have h2 : k - 8 < 8 := by omega
      have h3 : 8 + (k - 8) = k := by omega
      simpa [h1, h2, h3] using this

/-- Port 0 holds a value in every operand: `CMD` 0x42, `LEN` 3, `MAX` 8. -/
def loaded (rx : List RxItem) (tx : List Nat) : State :=
  ready cfgAll (fun p =>
    { p with
      cmd := some 0x0042, len := some 3, max := some 8, seed := some 0xFFFF, arg := some 5000
      txbuf := [(0, 0xAA), (1, 0xBB), (2, 0xCC)], hCmd := some 0x0142, hSt := some 0x21, hLen := some 0
      hRsv := some 0xBEEF, hCks := some 0x4DA5, hbn := some 8, hbuf := header8 }) rx tx

/-- The same, with the lock held by port 0's own `LOCK`. -/
def locked (rx : List RxItem) (tx : List Nat) : State := { loaded rx tx with lockOwner := portByte 0 }

/-- The same, while port 1 owns the lock. -/
def waiting : State := { loaded [] [] with lockOwner := portByte 1 }

/-- The same, with a cached request and two retries. -/
def cached (rx : List RxItem) : State :=
  { loaded rx [] with retry := 2, rcValid := true, rcHdr := header8, rcLen := some 1, rcPay := [(0, 0x5A)] }

/-- Eight payload bytes. -/
def pay8 : List Byte := [1, 2, 3, 4, 5, 6, 7, 8]

theorem witness_lock_free_or_own :
    ((loaded [] []).lockOwner = noPort ∨ (loaded [] []).lockOwner = portByte (loaded [] []).turn)
    ∧ ((locked [] []).lockOwner = noPort ∨ (locked [] []).lockOwner = portByte (locked [] []).turn)
    ∧ waiting.lockOwner ≠ noPort ∧ waiting.lockOwner ≠ portByte waiting.turn := by decide +kernel

theorem witness_DecodeOfEncode :
    (Instr.frameRequest 0xFFFF 3 0x8BA1 [0xAA, 0xBB, 0xCC]).wf = true
    ∧ (Instr.frameReply 0xFF 0xFF 0 0xFFFF []).wf = true ∧ (Instr.callPct 0xFF).wf = true := by decide

theorem witness_EncodeOfDecode :
    decode .be .request [0x01, 0x23, 0x00, 0x01, 0x00, 0x00, 0xE4, 0xE4, 0xAA, 0x99]
      = .ok (.frameRequest 0x0123 1 0xE4E4 [0xAA], [0x99])
    ∧ decode .le .opc [0x30, 0x99] = .ok (.call, [0x99]) := ⟨rfl, rfl⟩

theorem witness_UnassignedCodes :
    (1 : Fin 16).val < (State.resetWith cfg).cfg.nports ∧ ((State.resetWith cfg).port 1).busy = false
    ∧ (State.resetWith cfg).engineOn 1 = false
    ∧ ∀ c ∈ ([0x00, 0x06, 0x0F, 0x13, 0x1F, 0x24, 0x2F, 0x31, 0xFF] : List Byte),
      c = 0x00 ∨ (0x06 ≤ c ∧ c ≤ 0x0F) ∨ (0x13 ≤ c ∧ c ≤ 0x1F) ∨ (0x24 ≤ c ∧ c ≤ 0x2F) ∨ 0x31 ≤ c := by
  decide +kernel

theorem witness_CrcResult :
    ((loaded [] []).cur.len = some 3 ∧ (loaded [] []).cur.seed = some 0xFFFF
      ∧ Memory.read (loaded [] []).cur.txbuf 0 3 = some [0xAA, 0xBB, 0xCC])
    ∧ ((ready cfg (fun p => { p with len := some 0, seed := some 0x1234 }) [] []).cur.len = some 0
      ∧ (ready cfg (fun p => { p with len := some 0, seed := some 0x1234 }) [] []).cur.seed = some 0x1234)
    ∧ (ready cfg id [] []).cur.len = none
    ∧ (ready cfg (fun p => { p with len := some 1 }) [] []).cur.seed = none
    ∧ (ready cfg (fun p => { p with len := some 1 }) [] []).cur.len = some 1
    ∧ Memory.read (ready cfg (fun p => { p with len := some 1 }) [] []).cur.txbuf 0 1 = none := by
  decide +kernel

theorem witness_ChecksumLaws : ([0x42] : List Byte) = [0x42] ∧ (0xFFFF : Half) = 0xFFFF := ⟨rfl, rfl⟩

theorem witness_Detection : ByteInjective (crcStep plainTable) ∧ (0x00 : Byte) ≠ 0x01 :=
  ⟨plainTable_injective, by decide⟩

theorem witness_EncreqResult :
    ((loaded [] []).cur.hCmd = some 0x0142 ∧ (loaded [] []).cur.hLen = some 0
      ∧ (loaded [] []).cur.hRsv = some 0xBEEF ∧ (loaded [] []).cur.hCks = some 0x4DA5)
    ∧ (ready cfg id [] []).cur.hCks = none := by decide +kernel

theorem witness_DecreqResult :
    ((loaded [] []).cur.hbn = some 8 ∧ 8 ≤ (8 : Byte).toNat
      ∧ Memory.read (loaded [] []).cur.hbuf 0 8 = some [0x62, 0xFF, 0x00, 0x00, 0xE7, 0x80, 0x12, 0x34])
    ∧ ((ready cfg (fun p => { p with hbn := some 7, hbuf := header8 }) [] []).cur.hbn = some 7
      ∧ (7 : Byte).toNat < 8
      ∧ (Memory.read (ready cfg (fun p => { p with hbn := some 7, hbuf := header8 }) [] []).cur.hbuf 0 7).isSome
        = true)
    ∧ (ready cfg (fun p => { p with hbn := some 0 }) [] []).cur.hbn = some 0
    ∧ (ready cfg id [] []).cur.hbn = none
    ∧ ((ready cfg (fun p => { p with hbn := some 9 }) [] []).cur.hbn = some 9
      ∧ Memory.read (ready cfg (fun p => { p with hbn := some 9 }) [] []).cur.hbuf 0 (min 9 8) = none) := by
  decide +kernel

theorem witness_EncrepResult :
    ((loaded [] []).cur.hCmd = some 0x0142 ∧ (loaded [] []).cur.hSt = some 0x21
      ∧ (loaded [] []).cur.hLen = some 0 ∧ (loaded [] []).cur.hCks = some 0x4DA5)
    ∧ (6 ≤ 6 ∧ next (exec .encrep (loaded [] [])) fun _ => true)
    ∧ (ready cfg id [] []).cur.hSt = none := by decide +kernel

theorem witness_DecrepResult :
    ((loaded [] []).cur.hbn = some 8 ∧ 6 ≤ (8 : Byte).toNat
      ∧ Memory.read (loaded [] []).cur.hbuf 0 6 = some [0x62, 0xFF, 0x00, 0x00, 0xE7, 0x80])
    ∧ ((ready cfg (fun p => { p with hbn := some 5, hbuf := header8 }) [] []).cur.hbn = some 5
      ∧ (5 : Byte).toNat < 6
      ∧ (Memory.read (ready cfg (fun p => { p with hbn := some 5, hbuf := header8 }) [] []).cur.hbuf 0 5).isSome
        = true)
    ∧ (ready cfg (fun p => { p with hbn := some 0 }) [] []).cur.hbn = some 0
    ∧ (ready cfg id [] []).cur.hbn = none
    ∧ ((ready cfg (fun p => { p with hbn := some 6 }) [] []).cur.hbn = some 6
      ∧ Memory.read (ready cfg (fun p => { p with hbn := some 6 }) [] []).cur.hbuf 0 (min 6 6) = none) := by
  decide +kernel

theorem witness_HeaderRoundTrips :
    ([0x62, 0xFF, 0x00, 0x00, 0xE7, 0x80, 0x12, 0x34] : List Byte).length = 8
    ∧ ([0x62, 0xFF, 0x00, 0x00, 0xE7, 0x80] : List Byte).length = 6
    ∧ (loaded [] []).cur.hCmd = some 0x0142
    ∧ next (exec .encrep (loaded [] [])) (fun t => next (exec .decrep t) fun _ => true) := by decide +kernel

/-- A configuration with a byte-injective update. -/
def cfgPlain : Params := { cfg with crc := plainTable }

/-- The version reply with byte `k` set to `x`. -/
def broken (k : Nat) (x : Byte) : List Byte := (replyFrame cfgPlain 0x42 0x00 pay8).set k x

theorem witness_FrameLaws :
    pay8.length ≤ 65535 ∧ ByteInjective (crcStep cfgPlain.crc)
    ∧ ∀ k ∈ [0, 1, 4, 5, 6, 13], k ≠ 2 ∧ k ≠ 3 ∧ k < 6 + pay8.length ∧ ((broken k 0xEE).take 6).length = 6
      ∧ (broken k 0xEE).take 6 ++ (broken k 0xEE).drop 6 = (replyFrame cfgPlain 0x42 0x00 pay8).set k 0xEE
      ∧ (replyFrame cfgPlain 0x42 0x00 pay8)[k]? ≠ some 0xEE
      ∧ (decRep cfgPlain.endian ((broken k 0xEE).take 6)).isSome = true :=
  ⟨by decide, plainTable_injective, by decide +kernel⟩

theorem witness_LockResult :
    (locked [] []).lockOwner = portByte (locked [] []).turn ∧ (loaded [] []).lockOwner = noPort
    ∧ waiting.lockOwner ≠ noPort ∧ waiting.lockOwner ≠ portByte waiting.turn
    ∧ next (exec .lock (loaded [] [])) (fun t => t != loaded [] [] && next (exec .unlock t) fun _ => true) := by
  decide +kernel

theorem witness_UnlockResult :
    (locked [] []).lockOwner = portByte (locked [] []).turn ∧ waiting.lockOwner ≠ portByte waiting.turn
    ∧ (loaded [] []).lockOwner = noPort := by decide +kernel

theorem witness_SetretryResult :
    ((loaded [] []).cur.arg = some 5000 ∧ (ready cfg id [] []).cur.arg = none
      ∧ (ready cfg id [] []).lockOwner = noPort
      ∧ waiting.lockOwner ≠ noPort ∧ waiting.lockOwner ≠ portByte waiting.turn)
    ∧ (loaded [] []).retry = 0 ∧ ∃ y, exchangeCore 0x42 8 (loaded [] []) = .ok y :=
  ⟨by decide +kernel, rfl, _, rfl⟩

theorem witness_HoldChangesNothing :
    waiting.lockOwner ≠ noPort ∧ waiting.lockOwner ≠ portByte waiting.turn
    ∧ waiting.cfg.wf = true ∧ waiting.cur.cmd = some 0x0042
    ∧ lookup waiting.cfg.registry 0x0042 = some ⟨0x42, 0, 8, 4⟩ := by decide +kernel

theorem witness_SendWhole :
    (loaded [] []).cur.cmd = some 0x0042 ∧ (loaded [] []).cur.len = some 3
    ∧ Memory.read (loaded [] []).cur.txbuf 0 (3 : Half).toNat = some [0xAA, 0xBB, 0xCC]
    ∧ (loaded [] []).writesWhole := ⟨rfl, rfl, by decide, rfl⟩

/-- At both ends of the counts' ranges. -/
theorem witness_SendShort :
    (∀ k ∈ [0, 7], (loaded [] [k]).cur.cmd = some 0x0042 ∧ (loaded [] [k]).cur.len = some 3
      ∧ Memory.read (loaded [] [k]).cur.txbuf 0 3 = some [0xAA, 0xBB, 0xCC]
      ∧ (loaded [] [k]).writeScript = k :: [] ∧ k < 8)
    ∧ ∀ j ∈ [0, 2], (loaded [] [8, j]).cur.cmd = some 0x0042 ∧ (loaded [] [8, j]).cur.len = some 3
      ∧ Memory.read (loaded [] [8, j]).cur.txbuf 0 3 = some [0xAA, 0xBB, 0xCC]
      ∧ (loaded [] [8, j]).writeScript = 8 :: j :: [] ∧ 8 ≤ 8
      ∧ j < ([0xAA, 0xBB, 0xCC] : List Byte).length := by decide +kernel

theorem witness_OperandsUnwritten :
    (ready cfg id [] []).cur.cmd = none ∧ (ready cfg id [] []).cur.len = none
    ∧ (ready cfg id [] []).cur.max = none ∧ (ready cfg id [] []).cur.arg = none
    ∧ (ready cfg (fun p => { p with len := some 1 }) [] []).cur.len = some 1
    ∧ Memory.read (ready cfg (fun p => { p with len := some 1 }) [] []).cur.txbuf 0 1 = none
    ∧ (let s := ready cfg (fun p => { p with cmd := some 0x42, len := some 0 }) [] []
      s.cur.cmd = some 0x0042 ∧ s.cur.len = some 0 ∧ Memory.read s.cur.txbuf 0 0 = some [] ∧ s.cur.max = none
        ∧ s.writeScript = []) := by decide +kernel

/-- The device sends one correct reply to command 0x42 with this payload. -/
def replied (payload : List Byte) : State := loaded ((replyFrame cfgAll 0x42 0x00 payload).map RxItem.byte ++ []) []

theorem witness_ReceiveGood :
    (∀ payload : List Byte, (replied payload).cur.cmd = some ((0x42 : Byte).setWidth 16)
      ∧ (replied payload).cur.max = some 8
      ∧ (replied payload).hears (replyFrame (replied payload).cfg 0x42 0x00 payload) [])
    ∧ ([] : List Byte).length ≤ (8 : Half).toNat ∧ pay8.length ≤ (8 : Half).toNat ∧ pay8.length ≤ cfgAll.stageMax :=
  ⟨fun _ => ⟨rfl, rfl, rfl⟩, by decide, by decide, by decide⟩

/-- The header of A1, whose `length` is 8. -/
def headerA1 : List Byte := [0x42, 0x00, 0x08, 0x00, 0x7D, 0x97]

theorem witness_ReceiveShort :
    (stops [.timeout] [] ∧ stops [.timeout, .byte 0x42] [.byte 0x42] ∧ stops [] [])
    ∧ (∀ (bytes : List Byte) (after : List RxItem),
      (loaded (bytes.map RxItem.byte ++ after) []).hears bytes after)
    ∧ ([] : List Byte).length < 6 ∧ (headerA1.take 5).length < 6
    ∧ headerA1.length = 6 ∧ decRep cfgAll.endian headerA1 = some ⟨0x42, 0x00, 8, 0x977D⟩
    ∧ ([] : List Byte).length < (8 : Half).toNat ∧ (pay8.take 7).length < (8 : Half).toNat
    ∧ (8 : Half).toNat ≤ cfgAll.stageMax
    ∧ (∀ (bytes : List Byte) (after : List RxItem),
      (loaded ((headerA1 ++ bytes).map RxItem.byte ++ after) []).hears (headerA1 ++ bytes) after) :=
  ⟨⟨.inl rfl, .inl rfl, .inr ⟨rfl, rfl⟩⟩, fun _ _ => rfl, by decide, by decide, rfl, rfl, by decide, by decide, by decide, fun _ _ => rfl⟩

/-- The device sends a correct reply frame with this command, status and payload. -/
def judged (cmd st : Byte) (payload : List Byte) : State :=
  loaded ((replyFrame cfgAll cmd st payload).map RxItem.byte) []

/-- One reply for each check: a wrong checksum (A4), statuses at both sides of `HWTHRESH` and 0x01, a
wrong command, and a payload of one byte more than `MAX`. -/
theorem witness_ReceiveChecks :
    (decRep cfgAll.endian [0x42, 0x21, 0x00, 0x00, 0xA4, 0x4D] = some ⟨0x42, 0x21, 0, 0x4DA4⟩
      ∧ repCks cfgAll [0x42, 0x21, 0x00, 0x00, 0xA4, 0x4D] [] ≠ 0x4DA4)
    ∧ (∀ st ∈ ([0x20, 0xFF] : List Byte), ∃ r, decRep cfgAll.endian (replyHeader cfgAll 0x42 st []) = some r
      ∧ r.len.toNat = 0 ∧ repCks cfgAll (replyHeader cfgAll 0x42 st []) [] = r.cks ∧ r.status ≠ 0x00
      ∧ cfgAll.hwThresh ≤ r.status)
    ∧ (∀ st ∈ ([0x01, 0x1F] : List Byte), ∃ r, decRep cfgAll.endian (replyHeader cfgAll 0x42 st []) = some r
      ∧ r.len.toNat = 0 ∧ repCks cfgAll (replyHeader cfgAll 0x42 st []) [] = r.cks ∧ r.status ≠ 0x00
      ∧ r.status < cfgAll.hwThresh)
    ∧ (∃ r, decRep cfgAll.endian (replyHeader cfgAll 0x43 0x00 []) = some r
      ∧ repCks cfgAll (replyHeader cfgAll 0x43 0x00 []) [] = r.cks ∧ r.status = 0x00
      ∧ r.cmd.setWidth 16 ≠ (0x0042 : Half))
    ∧ (∃ r, decRep cfgAll.endian (replyHeader cfgAll 0x42 0x00 (0 :: pay8)) = some r
      ∧ r.len.toNat = (0 :: pay8).length ∧ repCks cfgAll (replyHeader cfgAll 0x42 0x00 (0 :: pay8)) (0 :: pay8) = r.cks
      ∧ r.status = 0x00 ∧ r.cmd.setWidth 16 = (0x0042 : Half) ∧ (8 : Half) < r.len) := by
  refine ⟨by decide +kernel, ?_, ?_, ⟨_, rfl, by decide +kernel⟩, ⟨_, rfl, by decide +kernel⟩⟩
  · intro st h
    rcases List.mem_pair.mp h with rfl | rfl <;> exact ⟨_, rfl, by decide +kernel⟩
  · intro st h
    rcases List.mem_pair.mp h with rfl | rfl <;> exact ⟨_, rfl, by decide +kernel⟩

/-- A staging buffer of 16 bytes, and the header of A25 with its length one above it; and the default one. -/
theorem witness_StageOverflow :
    (ready { cfg with stageMax := 16 } id (wire [0x20, 0x00, 0x11, 0x00, 0x7D, 0x56] ++ []) []).hears
      [0x20, 0x00, 0x11, 0x00, 0x7D, 0x56] []
    ∧ decRep cfg.endian [0x20, 0x00, 0x11, 0x00, 0x7D, 0x56] = some ⟨0x20, 0x00, 17, 0x567D⟩
    ∧ 16 < (17 : Half).toNat ∧ 65535 ≤ cfg.stageMax := ⟨rfl, rfl, by decide, by decide⟩

/-- The device sends the version reply with byte `k` set to 0xEE, whole or cut after `n` bytes. -/
def corrupted (k : Nat) (rest : List RxItem) (n : Nat) : State :=
  ready cfgPlain (fun p => { p with cmd := some 0x42, max := some 8 })
    (((broken k 0xEE).take n).map RxItem.byte ++ rest) []

theorem witness_CorruptReply :
    ByteInjective (crcStep cfgPlain.crc) ∧ pay8.length ≤ cfgPlain.stageMax ∧ pay8.length ≤ 65535
    ∧ (∀ k ∈ [0, 1, 4, 5, 6, 13], k < 6 + pay8.length ∧ k ≠ 2 ∧ k ≠ 3
      ∧ (replyFrame cfgPlain 0x42 0x00 pay8)[k]? ≠ some 0xEE
      ∧ (corrupted k [] 14).rxs = (broken k 0xEE).map RxItem.byte ++ [])
    ∧ ∀ n ∈ [0, 5, 6, 13], n < 6 + pay8.length
      ∧ (corrupted 6 [.timeout] n).rxs = ((broken 6 0xEE).take n).map RxItem.byte ++ [.timeout]
      ∧ (corrupted 6 [] n).rxs = ((broken 6 0xEE).take n).map RxItem.byte ++ [] :=
  ⟨plainTable_injective, by decide, by decide, by decide +kernel, by decide +kernel⟩

theorem witness_NoPartialCopy :
    (∃ x, receiveCore 0x42 7 (replied pay8) = .ok x ∧ x.2.kind ≠ .ok)
    ∧ next (exec .receive (loaded [] [])) (fun t => t.cur.resKind != some .ok)
    ∧ next (exec .exchange (loaded [] [])) (fun t => t.cur.resKind != some .ok)
    ∧ next (exec .transact (loaded [] [])) (fun t => t.cur.resKind != some .ok)
    ∧ ∀ i ∈ [Instr.callNone 0x42, .callF32 0x42, .callU32 0x42, .callU8 0x42, .callVer 0x42, .callId 0x42,
      .callPct 0x42], next (exec i (loaded [] [])) (fun t => t.cur.resKind == some .transportReadError) :=
  ⟨⟨_, rfl, by decide +kernel⟩, by decide +kernel⟩

theorem witness_WideIdentifiers :
    (next (exec .send (loaded [] [])) (fun _ => true) ∧ next (exec .transact (loaded [] [])) (fun _ => true)
      ∧ (Memory.read (loaded [] []).cur.txbuf 0 (3 : Half).toNat).isSome = true)
    ∧ 0x100 ≤ (0x0100 : Half).toNat ∧ 0x100 ≤ (0xFFFF : Half).toNat
    ∧ ∃ r, decRep cfgAll.endian (replyHeader cfgAll 0x42 0x00 pay8) = some r ∧ r.len.toNat = pay8.length
      ∧ repCks cfgAll (replyHeader cfgAll 0x42 0x00 pay8) pay8 = r.cks ∧ r.status = 0x00
      ∧ (replied pay8).hears (replyHeader cfgAll 0x42 0x00 pay8 ++ pay8) [] :=
  ⟨by decide +kernel, by decide, by decide, _, rfl, by decide +kernel, by decide +kernel, by decide +kernel, rfl⟩

theorem witness_ExchangeCompletes :
    ((loaded [] []).cur.cmd.isSome = true ∧ (loaded [] []).cur.max.isSome = true
      ∧ 65535 ≤ (loaded [] []).cfg.stageMax ∧ (loaded [] []).retry = 0)
    ∧ (cached []).rcValid = true ∧ (cached []).cacheOk ∧ (cached []).retry = 2 :=
  ⟨by decide +kernel, rfl, fun _ => ⟨by decide, _, rfl, by decide⟩, rfl⟩

/-- A receive that met a timeout mark at once. -/
def timedOut : Failure := ⟨.transportReadError, 0xFF, 0, .localError, [], [], []⟩

/-- Timeouts one after another are retriable receives. -/
theorem retried_timeouts (c : Params) (cmd : Half) (n : Nat) (rest : List RxItem) :
    retried c cmd (List.replicate n .timeout ++ rest) (List.replicate n timedOut) rest := by
  induction n with
  | zero => rfl
  | succ n ih => exact ⟨_, .inl ⟨[], _, by decide, rfl, .inl rfl, rfl⟩, ih⟩

/-- A retriable receive of each form: five bytes and no more; all but one byte of a payload; a wrong checksum
(A4); and a reply to another command. -/
theorem witness_receiveRetriable (rest : List RxItem) :
    receiveRetriable cfgAll 0x42 (wire (headerA1.take 5)) [] timedOut
    ∧ receiveRetriable cfgAll 0x42 ((headerA1 ++ pay8.take 7).map RxItem.byte ++ .timeout :: rest) rest
      ⟨.transportReadError, 0xFF, 8, .localError, headerA1, [], []⟩
    ∧ receiveRetriable cfgAll 0x42
      ((([0x42, 0x21, 0x00, 0x00, 0xA4, 0x4D] : List Byte) ++ []).map RxItem.byte ++ rest) rest
      ⟨.checksumMismatch, 0xFF, 0, .localError, [0x42, 0x21, 0x00, 0x00, 0xA4, 0x4D], [], []⟩
    ∧ receiveRetriable cfgAll 0x42 ((replyHeader cfgAll 0x43 0x00 [0x09] ++ [0x09]).map RxItem.byte ++ rest) rest
      ⟨.commandMismatch, 0xFF, 1, .localError, replyHeader cfgAll 0x43 0x00 [0x09], [0x09], []⟩ :=
  ⟨.inl ⟨headerA1.take 5, [], by decide, rfl, .inr ⟨rfl, rfl⟩, rfl⟩,
    .inr (.inl ⟨_, _, ⟨0x42, 0x00, 8, 0x977D⟩, _, rfl, rfl, by decide, by decide, rfl, .inl rfl, rfl⟩),
    .inr (.inr ⟨_, _, ⟨0x42, 0x21, 0, 0x4DA4⟩, ⟨rfl, rfl, rfl, by decide, rfl⟩, .inl ⟨by decide +kernel, rfl⟩⟩),
    .inr (.inr ⟨_, _, ⟨0x43, 0x00, 1, _⟩, ⟨rfl, rfl, rfl, by decide, rfl⟩,
      .inr ⟨by decide +kernel, rfl, by decide, rfl⟩⟩)⟩

/-- A receive of each form that is refused for good: a status at either side of `HWTHRESH`, and a payload of one
byte more than `MAX`. -/
theorem witness_receiveTerminal (rest : List RxItem) :
    receiveTerminal cfgAll 0 0x42 8 ((replyHeader cfgAll 0x42 0x20 [] ++ []).map RxItem.byte ++ rest) rest
      ⟨.deviceReportedError, 0x20, 0, .deviceError, replyHeader cfgAll 0x42 0x20 [], [], [⟨0, 0x42, 0x20⟩]⟩
    ∧ receiveTerminal cfgAll 0 0x42 8 ((replyHeader cfgAll 0x42 0x1F [] ++ []).map RxItem.byte ++ rest) rest
      ⟨.protocolStatusError, 0x1F, 0, .deviceError, replyHeader cfgAll 0x42 0x1F [], [], []⟩
    ∧ receiveTerminal cfgAll 0 0x42 8
      ((replyHeader cfgAll 0x42 0x00 (0 :: pay8) ++ 0 :: pay8).map RxItem.byte ++ rest) rest
      ⟨.bufferTooSmall, 0xFF, 9, .localError, replyHeader cfgAll 0x42 0x00 (0 :: pay8), 0 :: pay8, []⟩ :=
  ⟨⟨_, _, ⟨0x42, 0x20, 0, _⟩, ⟨rfl, rfl, rfl, by decide, rfl⟩, by decide +kernel,
      .inl ⟨by decide, by decide, rfl⟩⟩,
    ⟨_, _, ⟨0x42, 0x1F, 0, _⟩, ⟨rfl, rfl, rfl, by decide, rfl⟩, by decide +kernel,
      .inr (.inl ⟨by decide, by decide, rfl⟩)⟩,
    ⟨_, _, ⟨0x42, 0x00, 9, _⟩, ⟨rfl, rfl, rfl, by decide, rfl⟩, by decide +kernel,
      .inr (.inr ⟨rfl, rfl, by decide, rfl⟩)⟩⟩

/-- With `G.RETRY` 2 an exchange ends at a refused first receive, at one after two timeouts, and at a third
timeout. -/
theorem witness_exchangeFails (max : Half) :
    (∀ n ∈ [0, 2], ∃ x, exchangeFails (cached []) 0x42 max (List.replicate n .timeout
        ++ ((replyHeader cfgAll 0x42 0x20 [] ++ []).map RxItem.byte ++ [])) (List.replicate n timedOut) x [])
    ∧ exchangeFails (cached []) 0x42 max (List.replicate 2 .timeout ++ [.timeout])
      (List.replicate 2 timedOut) timedOut [] := by
  constructor
  · intro n hn
    refine ⟨⟨.deviceReportedError, 0x20, 0, .deviceError, replyHeader cfgAll 0x42 0x20 [], [], [⟨0, 0x42, 0x20⟩]⟩,
      _, retried_timeouts _ _ _ _, .inr ⟨?_, ?_⟩⟩
    · rw [List.length_replicate]
      rcases List.mem_pair.mp hn with rfl | rfl <;> decide +kernel
    · exact ⟨_, _, ⟨0x42, 0x20, 0, _⟩, ⟨rfl, rfl, rfl, by decide, rfl⟩, by decide +kernel,
        .inl ⟨by decide, by decide, rfl⟩⟩
  · exact ⟨_, retried_timeouts _ _ _ _, .inl ⟨rfl, .inl ⟨[], _, by decide, rfl, .inl rfl, rfl⟩⟩⟩

/-- No retriable receive, as many as `G.RETRY`, and one more; and both ends of a short resend. -/
theorem witness_ExchangeResends :
    (cached []).writesWhole ∧ (cached []).rcValid = true
    ∧ Memory.read (cached []).rcHdr 0 8 = some [0x62, 0xFF, 0x00, 0x00, 0xE7, 0x80, 0x12, 0x34]
    ∧ (cached []).rcLen = some 1 ∧ Memory.read (cached []).rcPay 0 (1 : Half).toNat = some [0x5A]
    ∧ (∀ n ∈ [0, 2], (List.replicate n timedOut).length ≤ (cached []).retry.toNat
      ∧ retried cfgAll 0x42 (List.replicate n .timeout ++ ((replyFrame cfgAll 0x42 0x00 pay8).map RxItem.byte ++ []))
        (List.replicate n timedOut) ((replyFrame cfgAll 0x42 0x00 pay8).map RxItem.byte ++ []))
    ∧ (∀ items, (cached items).rxs = items)
    ∧ (∀ n ∈ [0, 1], (List.replicate (n + 1) timedOut).length ≤ (cached []).retry.toNat
      ∧ wholeCounts (n * frameWrites [0x5A]) (List.replicate (2 * n) 65535))
    ∧ (∀ k ∈ [0, 7], k < 8) ∧ (8 ≤ 8 ∧ 0 < ([0x5A] : List Byte).length) := by
  refine ⟨rfl, rfl, by decide, rfl, by decide, fun n hn => ⟨?_, retried_timeouts _ _ _ _⟩, fun _ => rfl,
    by decide +kernel, by decide, by decide⟩
  rw [List.length_replicate]
  rcases List.mem_pair.mp hn with rfl | rfl <;> decide +kernel

theorem witness_ExchangeBounds :
    next (exec .exchange (loaded [] [])) (fun t => t.cur.resKind == some .transportReadError)
    ∧ next (exec .exchange (cached [])) (fun t => t.cur.resKind == some .transportReadError)
    ∧ (loaded [] []).retry = 0
    ∧ ∀ i ∈ [Instr.transact, .callNone 0x42, .callF32 0x42, .callU32 0x42, .callU8 0x42, .callVer 0x42,
      .callId 0x42, .callChunk 0x42, .callPct 0x42],
      next (exec i (cached [])) (fun t => t.cur.resKind == some .transportReadError && t.cur.resResends == some 2) := by
  decide +kernel

theorem witness_ResendWithoutCache :
    (({ loaded ((headerA1.take 5).map RxItem.byte ++ [.timeout]) [] with retry := 1 } : State).hears
      (headerA1.take 5) [.timeout])
    ∧ (1 : Byte) ≠ 0 ∧ (loaded [] []).rcValid = false ∧ (headerA1.take 5).length < 6
    ∧ (cached []).rcValid = true
    ∧ ({ loaded ((headerA1.take 5).map RxItem.byte ++ []) [] with retry := 1 } : State).hears (headerA1.take 5) []
    ∧ (∃ x, receiveCore 0x42 8 (loaded (headerA1.map RxItem.byte) []) = .ok x ∧ x.2.kind = .transportReadError)
    ∧ (∃ x, receiveCore 0x42 8 (loaded (wire [0x42, 0x21, 0x00, 0x00, 0xA4, 0x4D]) []) = .ok x
      ∧ x.2.kind = .checksumMismatch)
    ∧ (∃ x, receiveCore 0x42 8 (judged 0x43 0x00 []) = .ok x ∧ x.2.kind = .commandMismatch) :=
  ⟨rfl, by decide, rfl, by decide, rfl, rfl, ⟨_, rfl, by decide +kernel⟩, ⟨_, rfl, by decide +kernel⟩,
    ⟨_, rfl, by decide +kernel⟩⟩

theorem witness_TransactSendFails :
    (∀ k ∈ [0, 7], (loaded [] [k]).cur.cmd = some 0x0042 ∧ (loaded [] [k]).cur.len = some 3
      ∧ Memory.read (loaded [] [k]).cur.txbuf 0 3 = some [0xAA, 0xBB, 0xCC]
      ∧ (loaded [] [k]).writeScript = k :: [] ∧ k < 8)
    ∧ ∀ j ∈ [0, 2], (loaded [] [8, j]).writeScript = 8 :: j :: [] ∧ 8 ≤ 8
      ∧ j < ([0xAA, 0xBB, 0xCC] : List Byte).length := by decide +kernel

theorem witness_TransactGood :
    (replied pay8).cur.cmd = some ((0x42 : Byte).setWidth 16) ∧ (replied pay8).cur.len = some 3
    ∧ Memory.read (replied pay8).cur.txbuf 0 (3 : Half).toNat = some [0xAA, 0xBB, 0xCC]
    ∧ (replied pay8).cur.max = some 8 ∧ (replied pay8).writesWhole
    ∧ (replied pay8).hears (replyFrame (replied pay8).cfg 0x42 0x00 pay8) []
    ∧ pay8.length ≤ (8 : Half).toNat ∧ pay8.length ≤ (replied pay8).cfg.stageMax :=
  ⟨rfl, rfl, by decide, rfl, rfl, rfl, by decide, by decide⟩

/-- The hypotheses the statements about the arms share, for every payload the device may send. -/
theorem witness_ArmsComplete (payload : List Byte) :
    (replied payload).lockOwner = noPort ∧ (replied payload).writesWhole
    ∧ (replied payload).hears (replyFrame (replied payload).cfg 0x42 0x00 payload) []
    ∧ 65535 ≤ (replied payload).cfg.stageMax ∧ (replied payload).cur.arg = some 5000 :=
  ⟨rfl, rfl, rfl, Nat.le_refl _, rfl⟩

theorem witness_CallNoneResult :
    (replied []).hears (replyFrame (replied []).cfg 0x42 0x00 []) []
    ∧ (replied [0x09]).hears (replyFrame (replied [0x09]).cfg 0x42 0x00 [0x09]) []
    ∧ ([0x09] : List Byte) ≠ [] ∧ ([0x09] : List Byte).length ≤ (replied []).cfg.stageMax :=
  ⟨rfl, rfl, by decide, by decide⟩

theorem witness_ScalarReads :
    (replied [0, 0, 0x48, 0x42]).hears (replyFrame (replied []).cfg 0x42 0x00 [0, 0, 0x48, 0x42]) []
    ∧ (replied [0xFF]).hears (replyFrame (replied []).cfg 0x42 0x00 [0xFF]) []
    ∧ 4 ≤ (replied []).cfg.stageMax := ⟨rfl, rfl, by decide⟩

theorem witness_BlockReads :
    (replied pay8).hears (replyFrame (replied []).cfg 0x42 0x00 pay8) [] ∧ pay8.length = 8
    ∧ (replied id68).hears (replyFrame (replied []).cfg 0x42 0x00 id68) []
    ∧ id68 = id68.take 32 ++ [0x01, 0x00, 0x00, 0x00] ++ (id68.drop 36).take 16 ++ id68.drop 52
    ∧ (id68.take 32).length = 32 ∧ ((id68.drop 36).take 16).length = 16 ∧ (id68.drop 52).length = 16
    ∧ 68 ≤ (replied []).cfg.stageMax :=
  ⟨rfl, rfl, rfl, by decide +kernel, by decide +kernel, by decide +kernel, by decide +kernel, by decide⟩

theorem witness_PercentWrite :
    (replied []).cur.arg = some 5000 ∧ (replied []).writesWhole
    ∧ (∀ reply, (replied reply).hears (replyFrame (replied reply).cfg 0x42 0x00 reply) [])
    ∧ ([0x09] : List Byte) ≠ [] ∧ ([0x09] : List Byte).length ≤ (replied []).cfg.stageMax
    ∧ next (exec (.callPct 0x42) (replied [])) fun _ => true :=
  ⟨rfl, rfl, fun _ => rfl, by decide, by decide, by decide +kernel⟩

/-- A reply one byte short of each shape, a first chunk of six bytes for an `ACC` of five, and a chunk of four
bytes behind one of two; a reply of one byte more than each bound; an arm's own send cut; and a result that is not
`OK` of each arm. -/
theorem witness_ArmFailures :
    (∀ payload ∈ [pay8.take 3, [], pay8.take 7, id68.take 67],
      (replied payload).rxs = (replyFrame (replied payload).cfg 0x42 0x00 payload).map RxItem.byte ++ [])
    ∧ (pay8.take 3).length < 4 ∧ (pay8.take 7).length < 8 ∧ (id68.take 67).length < 68
    ∧ ([1, 2, 3, 4, 5, 6] : List Byte).length ≤ cfgAll.chunkSize.toNat
    ∧ ({ cfgAll with accMax := 5 } : Params).accMax < ([1, 2, 3, 4, 5, 6] : List Byte).length
    ∧ (ready { cfgAll with accMax := 5 } id
        ((replyFrame { cfgAll with accMax := 5 } 0x30 0x00 [1, 2, 3, 4, 5, 6]).map RxItem.byte ++ []) []).hears
        (replyFrame { cfgAll with accMax := 5 } 0x30 0x00 [1, 2, 3, 4, 5, 6]) []
    ∧ ({ cfgAll with accMax := 5 } : Params).wf = true ∧ chunkFinal cfgAll [0x00, 0x00] = false
    ∧ ([[0x00, 0x00]] : List (List Byte)).flatten.length ≤ ({ cfgAll with accMax := 5 } : Params).accMax
    ∧ ({ cfgAll with accMax := 5 } : Params).accMax < ([[0x00, 0x00], [1, 2, 3, 4]] : List (List Byte)).flatten.length
    ∧ (∀ chunks : List (List Byte),
      (ready { cfgAll with accMax := 5 } id
        ((chunks.flatMap (replyFrame { cfgAll with accMax := 5 } 0x30 0x00)).map RxItem.byte ++ []) []).hears
        (chunks.flatMap (replyFrame { cfgAll with accMax := 5 } 0x30 0x00)) [])
    ∧ (∀ bound ∈ [1, 4, 8, 68, cfgAll.chunkSize.toNat], bound < (List.replicate (bound + 1) (0x21 : Byte)).length
      ∧ (List.replicate (bound + 1) (0x21 : Byte)).length ≤ 65535)
    ∧ (∀ reply, (replied reply).hears (replyFrame (replied reply).cfg 0x42 0x00 reply) [])
    ∧ cutWrite (requestHeader cfgAll 0x42 []) [] ((requestHeader cfgAll 0x42 []).take 7) [7] []
    ∧ ∀ i ∈ [Instr.call, .callNone 0x42, .callF32 0x42, .callU32 0x42, .callU8 0x42, .callVer 0x42,
      .callId 0x42, .callChunk 0x42, .callPct 0x42],
      next (exec i (loaded [] [])) (fun t => t.cur.resKind != some .ok) :=
  ⟨fun _ _ => rfl, by decide, by decide, by decide +kernel, by decide, by decide, rfl, by decide, by decide,
    by decide, by decide, fun _ => rfl, by decide +kernel, fun _ => rfl, .inl ⟨7, by decide, rfl, rfl⟩,
    by decide +kernel⟩

/-- A round with one timeout and a chunk of two bytes, and what it leaves; `beyond` does not fit an `ACC` of five
behind it. -/
theorem witness_ArmFailures_chunks (rest : List RxItem) :
    (cached []).cfg.wf = true ∧ roundOk (cached []) ⟨[timedOut], [0x00, 0x00]⟩
    ∧ chunkFinal (cached []).cfg [0x00, 0x00] = false
    ∧ (chunksOf [⟨[timedOut], [0x00, 0x00]⟩]).length ≤ ({ cfgAll with accMax := 5 } : Params).accMax
    ∧ chunksHeard cfgAll 0x42 (.timeout :: ((replyFrame cfgAll 0x42 0x00 [0x00, 0x00]).map RxItem.byte ++ rest))
      [⟨[timedOut], [0x00, 0x00]⟩] rest
    ∧ roundOk (cached []) ⟨[], pay8⟩
    ∧ ({ cfgAll with accMax := 5 } : Params).accMax
      < (chunksOf [⟨[timedOut], [0x00, 0x00]⟩]).length + pay8.length
    ∧ chunksHeard cfgAll 0x42 ((replyFrame cfgAll 0x42 0x00 pay8).map RxItem.byte ++ rest) [⟨[], pay8⟩] rest
    ∧ wholeCounts (requestsOf [⟨[timedOut], [0x00, 0x00]⟩] + 1) (List.replicate 3 65535) :=
  ⟨by decide +kernel, ⟨by decide +kernel, by decide, by decide⟩, by decide, by decide,
    ⟨_, _, retried_timeouts cfgAll 0x42 1 _, rfl, rfl⟩, ⟨by decide +kernel, by decide, by decide⟩, by decide,
    ⟨_, _, rfl, rfl, rfl⟩, by decide +kernel⟩

/-- One chunk alone, and a chunk of one byte before it; and both after a timeout each. -/
theorem witness_ChunkedRead :
    cfgAll.wf = true ∧ chunkFinal cfgAll [0x80] = false ∧ chunkFinal cfgAll [0x00, 0x80] = true
    ∧ (∀ c ∈ ([[0x80], [0x00, 0x80]] : List (List Byte)),
      c.length ≤ cfgAll.chunkSize.toNat ∧ c.length ≤ cfgAll.stageMax)
    ∧ ([[0x80], [0x00, 0x80]] : List (List Byte)).flatten.length ≤ cfgAll.accMax
    ∧ (∀ chunks : List (List Byte),
      (loaded ((chunks.flatMap (replyFrame cfgAll 0x30 0x00)).map RxItem.byte ++ []) []).hears
        (chunks.flatMap (replyFrame cfgAll 0x30 0x00)) [])
    ∧ roundOk (cached []) ⟨[timedOut], [0x80]⟩ ∧ roundOk (cached []) ⟨[timedOut], [0x00, 0x80]⟩
    ∧ (chunksOf [⟨[timedOut], [0x80]⟩, ⟨[timedOut], [0x00, 0x80]⟩]).length ≤ cfgAll.accMax
    ∧ chunksHeard cfgAll 0x30
      (.timeout :: ((replyFrame cfgAll 0x30 0x00 [0x80]).map RxItem.byte
        ++ .timeout :: ((replyFrame cfgAll 0x30 0x00 [0x00, 0x80]).map RxItem.byte ++ [])))
      [⟨[timedOut], [0x80]⟩, ⟨[timedOut], [0x00, 0x80]⟩] [] :=
  ⟨by decide, by decide, by decide, by decide, by decide, fun _ => rfl, ⟨by decide +kernel, by decide, by decide⟩,
    ⟨by decide +kernel, by decide, by decide⟩, by decide,
    ⟨_, _, retried_timeouts cfgAll 0x30 1 _, rfl, _, _, retried_timeouts cfgAll 0x30 1 _, rfl, rfl⟩⟩

/-- The quotients 4194304.25 and 4194304.75 lie halfway between two floats of the last place 0.5; and 16777215.4
lies below a power of two, and nearest to 16777215. -/
theorem witness_PercentReference :
    (1 : Word) ≠ 0 ∧ (0x80000000 : Word) ≠ 0 ∧ (419430425 : Word) ≠ 0
    ∧ pctReference 419430425 = 0x4A800000 ∧ pctReference 419430475 = 0x4A800002
    ∧ pctReference 1677721540 = 0x4B7FFFFF ∧ 2 ^ 23 + (pctReference 100).toNat % 2 ^ 23 = 2 ^ 23 := by decide +kernel

theorem witness_CallRunsArm :
    (loaded [] []).cur.cmd = some 0x0042 ∧ (loaded [] []).cfg.wf = true
    ∧ ∀ k ∈ [0x62, 0x10, 0x11, 0x12, 0x42, 0x20, 0x30, 0x50],
      (lookup (loaded [] []).cfg.registry (BitVec.ofNat 16 k)).isSome = true := by decide +kernel

theorem witness_NoSuchCommand :
    (calling 0x0099 []).cur.cmd = some 0x0099 ∧ lookup (calling 0x0099 []).cfg.registry 0x0099 = none := by
  decide +kernel

theorem witness_LookupRule :
    0x100 ≤ (0x0100 : Half).toNat ∧ (0x00FF : Half).toNat < 0x100
    ∧ lookup cfgAll.registry 0x0050 = some ⟨0x50, 4, 0, 7⟩ ∧ lookup cfgAll.registry 0x00FF = none
    ∧ uniqueIds cfgAll.registry = true ∧ cfgAll.registry.Perm cfgAll.registry.reverse
    ∧ next (step (State.resetWith cfgAll)) (fun _ => true) :=
  ⟨by decide, by decide, by decide, by decide, by decide, (List.reverse_perm _).symm, by decide +kernel⟩

theorem witness_NamedCommands :
    (replied pay8).cfg.wf = true ∧ (replied pay8).writesWhole ∧ 8 ≤ (replied pay8).cfg.stageMax
    ∧ pay8.length = 8 ∧ (replied pay8).hears (replyFrame (replied pay8).cfg 0x42 0x00 pay8) []
    ∧ (loaded ((replyFrame cfgAll 0x62 0x00 []).map RxItem.byte ++ []) []).hears (replyFrame cfgAll 0x62 0x00 []) [] :=
  ⟨by decide +kernel, rfl, by decide, rfl, rfl, rfl⟩

theorem witness_FrameRows : (loaded [] []).writesWhole := rfl

/-- Port 0's `OPC` holds this code, and this event is next. -/
def coming (c : Byte) (e : Event) : State :=
  { ready cfgAll (fun p => { p with opc := c }) [] [] with inputs := [e] }

theorem witness_StepRunsDecoded :
    (0 : Fin 16).val < (coming 0x23 (.turn 0)).cfg.nports ∧ ((coming 0x23 (.turn 0)).port 0).busy = true
    ∧ (coming 0x23 (.turn 0)).engineOn 0 = false
    ∧ decode .le .opc [((coming 0x23 (.turn 0)).port 0).opc] = .ok (.transact, [])
    ∧ (coming 0x23 (.turn 0)).inputs = .turn 0 :: []
    ∧ decode .le .opc [((coming 0x10 (.begin 0)).port 0).opc] = .ok (.lock, [])
    ∧ (coming 0x10 (.begin 0)).inputs = .begin 0 :: [] :=
  ⟨by decide +kernel, by decide +kernel, by decide +kernel, rfl, rfl, rfl, rfl⟩

/-- Port 0's `CALL` of the percentage write is to take its turn. -/
def loadedCall : State := (loaded [] []).modPort 0 fun p => { p with opc := 0x30, cmd := some 0x0050 }

theorem witness_TurnFrame :
    next (takeTurn 0 (coming 0x10 (.turn 0))) (fun t => t.lockOwner == 0)
    ∧ (coming 0x10 (.turn 0)).hasTurn 0 = true ∧ (coming 0x10 (.turn 0)).engineOn 0 = false
    ∧ next (beginTurn 0 loadedCall) (fun t => t.engineOn 0 && (t.port 0).busy)
    ∧ loadedCall.hasTurn 0 = true ∧ loadedCall.engineOn 0 = false
    ∧ (loadedCall.port 0).opc ≠ 0x02 ∧ (loadedCall.port 0).opc ≠ 0x03 ∧ (loadedCall.port 0).opc ≠ 0x04
    ∧ (loadedCall.port 0).opc ≠ 0x05 := by decide +kernel

theorem witness_LockExclusion :
    ({ coming 0x23 (.turn 0) with lockOwner := 1 } : State).lockOwner ≠ noPort
    ∧ ({ coming 0x23 (.turn 0) with lockOwner := 1 } : State).lockOwner ≠ portByte 0
    ∧ ({ coming 0x23 (.turn 0) with lockOwner := 1 } : State).engineOn 0 = false
    ∧ next (takeTurn 0 { coming 0x23 (.turn 0) with lockOwner := 1 }) (fun t => (t.port 0).busy)
    ∧ next (beginTurn 0 { coming 0x12 (.begin 0) with lockOwner := 1 }) (fun t => (t.port 0).busy)
    ∧ next (takeTurn 0 { coming 0x11 (.turn 0) with lockOwner := 1 }) (fun t => !(t.port 0).busy) := by
  decide +kernel

/-- A two-byte register, one byte of it, the last byte of `TXBUF`, and a word of `HBUF`. -/
theorem witness_HostWriteThenRead :
    (findRow cfg.accMax (addrOffset 0x100002) 2 = some ⟨0x00002, 2, .cmd, true⟩
      ∧ next (hostAccess ⟨0x100002, 2, some 0x0142⟩ (State.resetWith cfg)) fun _ => true)
    ∧ (findRow cfg.accMax (addrOffset 0x000003) 1 = some ⟨0x00002, 2, .cmd, true⟩
      ∧ next (hostAccess ⟨0x000003, 1, some 0xFFFFFF01⟩ (State.resetWith cfg)) fun _ => true)
    ∧ (findRow cfg.accMax (addrOffset 0x01FFFE) 1 = some ⟨0x10000, 65535, .txbuf, true⟩
      ∧ next (hostAccess ⟨0x01FFFE, 1, some 0xFF⟩ (State.resetWith cfg)) fun _ => true)
    ∧ (findRow cfg.accMax (addrOffset 0x00001C) 4 = some ⟨0x00018, 8, .hbuf, true⟩
      ∧ next (hostAccess ⟨0x00001C, 4, some 0x8BA10000⟩ (State.resetWith cfg))
        (fun t => hostByte t 0 .hbuf 3 == none && hostByte t 0 .hbuf 4 == some 0x00)
      ∧ addrPort 0x00001C = 0 ∧ hostByte (State.resetWith cfg) 0 .hbuf 3 = none) := by decide +kernel

theorem witness_HostChecks :
    cfg.nports ≤ (addrPort 0x200000).val ∧ findRow cfg.accMax (addrOffset 0x000004) 4 = none
    ∧ (findRow cfg.accMax (addrOffset 0x010001) 2 = some ⟨0x10000, 65535, .txbuf, true⟩
      ∧ aligned 0x010001 2 = false)
    ∧ (findRow cfg.accMax (addrOffset 0x000002) 2 = some ⟨0x00002, 2, .cmd, true⟩ ∧ aligned 0x000002 2 = true
      ∧ ((ready cfg id [] []).port (addrPort 0x000002)).busy = true ∧ readableWhileBusy .cmd = false)
    ∧ (findRow cfg.accMax (addrOffset 0x000029) 0 = none
      ∧ findRow cfg.accMax (addrOffset 0x000028) 0 = some ⟨0x00028, 1, .resResends, false⟩ ∧ aligned 0x000028 0 = false)
    ∧ (findRow cfg.accMax (addrOffset 0x00000C) 4 = some ⟨0x0000C, 4, .arg, true⟩ ∧ aligned 0x00000C 4 = true
      ∧ findRow cfg.accMax (addrOffset 0x01FFFE) 1 = some ⟨0x10000, 65535, .txbuf, true⟩ ∧ aligned 0x01FFFE 1 = true
      ∧ ((State.resetWith cfg).port (addrPort 0x00000C)).busy = false)
    ∧ (findRow cfg.accMax (addrOffset 0x000020) 1 = some ⟨0x00020, 1, .resKind, false⟩
      ∧ ((State.resetWith cfg).port (addrPort 0x000020)).busy = false
      ∧ hostValue (State.resetWith cfg) 0 .resKind 0 1 = none)
    ∧ (findRow cfg.accMax (addrOffset 0x0000C0) 1 = some ⟨0x000C0, 1, .lockOwner, false⟩
      ∧ readableWhileBusy .lockOwner = true ∧ hostValue (ready cfg id [] []) 0 .lockOwner 0 1 = some 0xFF) := by
  decide +kernel

theorem witness_OpcWriteStarts :
    (0 : Fin 16).val < (State.resetWith cfg).cfg.nports ∧ (1 : Fin 16).val < (State.resetWith cfg).cfg.nports
    ∧ ((State.resetWith cfg).port 0).busy = false ∧ ((State.resetWith cfg).port 1).busy = false := by
  decide +kernel

/-- Reset in the middle of a wait for the lock. -/
theorem witness_ResetEvent : ({ waiting with inputs := [.reset] } : State).inputs = .reset :: [] := rfl

/-- Port 0's `CMD` is the version query's, its turn has begun, and nothing has been sent. -/
def idlePort : State := (State.resetWith cfgAll).modPort 0 fun p => { p with opc := 0x30, busy := true }

theorem idlePort_startable : Startable idlePort := by
  refine ⟨(State.Inv.resetWith (by decide)).modPort 0 (by decide) _ ?_ nofun, by decide, by decide +kernel⟩
  exact PortSound.headers ((State.Inv.resetWith (by decide)).sound.ports 0) (fun _ => rfl) rfl rfl rfl rfl

theorem witness_StepKeepsInvariant : idlePort.Inv ∧ next (step idlePort) fun _ => true :=
  ⟨idlePort_startable.inv, by decide +kernel⟩

/-- An engine that has begun a version read. -/
theorem witness_FsmTransitions : ∃ s t, s.Inv ∧ s.fsm = .sending ∧ engineStep s = .next t ∧ t.fsm = .awaitingReply :=
  ⟨_, _, idlePort_startable.beginJob (by decide +kernel) (.arm .rdVer 0x42) rfl, by decide +kernel, rfl,
    by decide +kernel⟩

theorem witness_SteppedIsAtomic :
    (loaded [] []).engine = none ∧ jobOf .transact (loaded [] []) = some .transact
    ∧ jobOf .call (loaded [] []) = some (.arm .rdVer 0x42) := by decide +kernel

/-- A `SEND` of port 0 whose writes have both gone whole, with retries enabled: its next step completes it. -/
def sentWhole : State :=
  { loaded [] [] with
    lockOwner := portByte 0, active := portByte 0, fsm := .awaitingReply, retry := 1
    engine := some ⟨.send, true, 0x0042, 0, 0, 0, .sendEnds (requestHeader cfgAll 0x0042 [0xAA]) [0xAA]⟩ }

/-- The step before it shows `AwaitingReply` and no cached request; the cache appears with the completion. -/
theorem witness_ResultsTogether :
    next (engineStep { sentWhole with
      fsm := .sending
      engine := some ⟨.send, true, 0x0042, 0, 0, 0, .sendPayload (requestHeader cfgAll 0x0042 [0xAA]) [0xAA]⟩ })
      (fun t => t.engine == sentWhole.engine && t.fsm == .awaitingReply && !t.rcValid && (t.port 0).busy)
    ∧ next (engineStep sentWhole) (fun t => t.engine == none && t.rcValid && result t .ok 0x00 0) := by
  decide +kernel

/-- No retriable receive, as many as `G.RETRY`; a reply of each shape; a final chunk; and a cut at both ends of a
header and of a payload. How the receives fail is in `witness_exchangeFails`. -/
theorem witness_OwnRequestResent :
    (cached []).lockOwner = noPort ∧ (cached []).writesWhole ∧ (∀ items, (cached items).rxs = items)
    ∧ (∀ (n : Nat) (reply : List Byte), retried (cached []).cfg 0x42
      (List.replicate n .timeout ++ ((replyFrame (cached []).cfg 0x42 0x00 reply).map RxItem.byte ++ []))
      (List.replicate n timedOut) ((replyFrame (cached []).cfg 0x42 0x00 reply).map RxItem.byte ++ []))
    ∧ (∀ n ∈ [0, 2], (List.replicate n timedOut).length ≤ (cached []).retry.toNat)
    ∧ (cached []).cur.cmd = some ((0x42 : Byte).setWidth 16) ∧ (cached []).cur.len = some 3
    ∧ Memory.read (cached []).cur.txbuf 0 (3 : Half).toNat = some [0xAA, 0xBB, 0xCC]
    ∧ (cached []).cur.max = some 8 ∧ pay8.length ≤ (8 : Half).toNat ∧ (cached []).cur.arg = some 5000
    ∧ id68.length ≤ (cached []).cfg.stageMax
    ∧ id68 = id68.take 32 ++ [0x01, 0x00, 0x00, 0x00] ++ (id68.drop 36).take 16 ++ id68.drop 52
    ∧ chunkFinal (cached []).cfg [0x00, 0x80] = true
    ∧ ([0x00, 0x80] : List Byte).length ≤ (cached []).cfg.chunkSize.toNat
    ∧ ([0x00, 0x80] : List Byte).length ≤ (cached []).cfg.accMax
    ∧ (∀ n ∈ [1, 2], List.replicate n timedOut ≠ [] ∧ n ≤ (cached []).retry.toNat
      ∧ wholeCounts (n * frameWrites []) (List.replicate n 65535)
      ∧ wholeCounts (n * frameWrites [0xAA, 0xBB, 0xCC]) (List.replicate (2 * n) 65535))
    ∧ (∀ k ∈ [0, 7], cutWrite (requestHeader cfgAll 0x42 []) [] ((requestHeader cfgAll 0x42 []).take k) [k] [])
    ∧ ∀ k ∈ [0, 2], cutWrite (requestHeader cfgAll 0x42 [0xAA, 0xBB, 0xCC]) [0xAA, 0xBB, 0xCC]
      (requestHeader cfgAll 0x42 [0xAA, 0xBB, 0xCC] ++ ([0xAA, 0xBB, 0xCC] : List Byte).take k) [8, k] [] := by
  refine ⟨rfl, rfl, fun _ => rfl, fun _ _ => retried_timeouts _ _ _ _, by decide +kernel, rfl, rfl, by decide, rfl,
    by decide, rfl, by decide +kernel, by decide +kernel, by decide +kernel, by decide, by decide, by decide +kernel,
    ?_, ?_⟩
  · intro k hk
    rcases List.mem_pair.mp hk with rfl | rfl <;> exact .inl ⟨_, by decide, rfl, rfl⟩
  · intro k hk
    rcases List.mem_pair.mp hk with rfl | rfl <;> exact .inr ⟨_, _, by decide, by decide, rfl, rfl⟩

end Sys2Proof.Tests
end

section
/-! What the body of a channel operation does to the registers of its port: its request leaves them all, and
only the percentage write changes `TXBUF` (10_state.md R42; 43_command_dispatch.md R258). -/

namespace Sys2Proof.Machine

/-! ## A request leaves its port's registers -/

theorem transmit_cur (h pay : List Byte) (s : State) : (transmit h pay s).2.cur = s.cur := by
  obtain ⟨w, n, e, _, _⟩ := transmit_cases h pay s
  rw [e]
  rfl

@[simp] theorem requestSent_cur (h pay : List Byte) (s : State) : (requestSent h pay s).cur = s.cur := by
  unfold requestSent
  split <;> rfl

theorem sendCore_cur (cmd : Half) (pay : List Byte) (s : State) : (sendCore cmd pay s).2.cur = s.cur := by
  unfold sendCore
  dsimp only
  split
  · rw [requestSent_cur, transmit_cur, State.setFsm_cur]
  · rw [State.setFsm_cur, transmit_cur, State.setFsm_cur]

/-! ## Runs that leave `TXBUF` as it was -/

/-- A run inside the body of a channel operation that writes no byte of `TXBUF`. -/
structure TxRuns (s t : State) : Prop extends Runs s t where
  txbuf : t.cur.txbuf = s.cur.txbuf

theorem TxRuns.trans {s t u : State} (h : TxRuns s t) (k : TxRuns t u) : TxRuns s u :=
  ⟨h.toRuns.trans k.toRuns, k.txbuf.trans h.txbuf⟩

theorem Runs.withCur {s t : State} (h : Runs s t) (hc : t.cur = s.cur) : TxRuns s t :=
  ⟨h, congrArg Port.txbuf hc⟩

theorem TxRuns.refl (s : State) : TxRuns s s := (Runs.refl s).withCur rfl

theorem TxRuns.setFsm {s t : State} (h : TxRuns s t) (f : Fsm) : TxRuns s (t.setFsm f) :=
  h.trans ((Runs.setFsm t f).withCur rfl)

theorem TxRuns.chanWrite (s : State) (bs : List Byte) : TxRuns s (chanWrite bs s).2 :=
  (Runs.chanWrite s bs).withCur rfl

theorem TxRuns.chanRead (s : State) (n : Nat) : TxRuns s (chanRead n s).2 := (Runs.chanRead s n).withCur rfl

theorem TxRuns.stageHeader {s t : State} (h : TxRuns s t) (hd : List Byte) : TxRuns s (stageHeader hd t) :=
  h.trans ((Runs.stageHeader t hd).withCur rfl)

theorem TxRuns.stagePayload {s t : State} (h : TxRuns s t) (pay : List Byte) :
    TxRuns s (stagePayload pay t) := h.trans ((Runs.stagePayload t pay).withCur rfl)

theorem TxRuns.requestSent {s t : State} (h : TxRuns s t) (hd pay : List Byte) :
    TxRuns s (requestSent hd pay t) := h.trans ((Runs.requestSent hd pay t).withCur (requestSent_cur hd pay t))

theorem TxRuns.sendCore (cmd : Half) (pay : List Byte) (s : State) : TxRuns s (sendCore cmd pay s).2 :=
  (Runs.sendCore cmd pay s).withCur (sendCore_cur cmd pay s)

/-- An update of the issuing port that keeps its fixed registers and its `TXBUF`. -/
theorem TxRuns.modCur (s : State) (f : Port → Port) (hf : ∀ p, (f p).fixed = p.fixed)
    (ht : ∀ p, (f p).txbuf = p.txbuf) : TxRuns s (s.modCur f) :=
  ⟨Runs.modCur s f hf, by rw [State.cur_modCur, ht]⟩

/-- Of the port's registers, a judged reply changes `RXBUF` at most (42_protocol_engine.md R195). -/
theorem TxRuns.judgeReply {s t : State} (h : TxRuns s t) (cmd max : Half) (r : RepHeader) (hd pay : List Byte) :
    TxRuns s (judgeReply cmd max r hd pay t).1 := by
  refine h.trans ⟨Runs.judgeReply cmd max r hd pay t, ?_⟩
  unfold Sys2Proof.Machine.judgeReply deviceReply localReply
  dsimp only
  split
  · rfl
  split
  · split <;> rfl
  split
  · rfl
  split
  · rfl
  split
  · rfl
  · rw [State.setFsm_cur, State.cur_modCur]

theorem TxRuns.receiveCore {cmd max : Half} {s : State} {x : State × Reply}
    (h : receiveCore cmd max s = .ok x) : TxRuns s x.1 := by
  refine ⟨Runs.receiveCore h, ?_⟩
  rcases receiveCore_cases h with ⟨_, _, _, _, rfl⟩ | ⟨_, _, _, _, _, _, _, ⟨_, _, _, _, rfl⟩ | ⟨_, _, _, _, rfl⟩⟩
  · rfl
  · rfl
  · exact ((TxRuns.refl _).judgeReply _ _ _ _ _).txbuf

theorem TxRuns.resendCore {s : State} {w : Bool × State} (h : resendCore s = .ok w) : TxRuns s w.2 := by
  refine (Runs.resendCore h).withCur ?_
  unfold Sys2Proof.Machine.resendCore at h
  obtain ⟨hd, _, h⟩ := bind_eq_ok.mp h
  obtain ⟨pay, _, h⟩ := bind_eq_ok.mp h
  cases h
  exact transmit_cur hd pay s

theorem TxRuns.retryLoop {cmd max : Half} (left n : Nat) {x : State × Reply} {y : State × Result}
    (h : retryLoop cmd max left n x = .ok y) : TxRuns x.1 y.1 := by
  induction left generalizing n x with
  | zero => cases h; exact TxRuns.refl _
  | succ left ih =>
    rw [Sys2Proof.Machine.retryLoop] at h
    split at h
    · obtain ⟨w, hw, h⟩ := bind_eq_ok.mp h
      have hresent : TxRuns x.1 w.2 := ((TxRuns.refl x.1).setFsm .resending).trans (TxRuns.resendCore hw)
      split at h
      · obtain ⟨z, hz, h⟩ := bind_eq_ok.mp h
        exact (hresent.trans (TxRuns.receiveCore hz)).trans (ih (n + 1) h)
      · cases h; exact hresent.setFsm _
    · cases h; exact TxRuns.refl _

theorem TxRuns.exchangeCore {cmd max : Half} {s : State} {y : State × Result}
    (h : exchangeCore cmd max s = .ok y) : TxRuns s y.1 := by
  obtain ⟨x, hx, h⟩ := bind_eq_ok.mp h
  exact (TxRuns.receiveCore hx).trans (TxRuns.retryLoop _ _ h)

/-! ## The codec arms -/

theorem TxRuns.armExchange {id : Byte} {pay : List Byte} {bound : Half} {s : State} {y : State × Result}
    (h : armExchange id pay bound s = .ok y) : TxRuns s y.1 := by
  simp only [Sys2Proof.Machine.armExchange] at h
  split at h
  · exact (TxRuns.sendCore _ _ _).trans (TxRuns.exchangeCore h)
  · cases h; exact TxRuns.sendCore _ _ _

theorem TxRuns.fixedRead {size : Nat} {store : List Byte → Port → Port} {x y : State × Result}
    (hs : ∀ bs p, (store bs p).fixed = p.fixed) (ht : ∀ bs p, (store bs p).txbuf = p.txbuf)
    (h : fixedRead size store x = .ok y) : TxRuns x.1 y.1 := by
  unfold Sys2Proof.Machine.fixedRead at h
  split at h
  · cases h; exact TxRuns.refl _
  split at h
  · cases h; exact TxRuns.refl _
  · obtain ⟨bs, _, h⟩ := bind_eq_ok.mp h
    cases h
    exact TxRuns.modCur _ _ (hs bs) (ht bs)

theorem TxRuns.acceptChunk {x : State × Result} {y : State × Option Result}
    (h : acceptChunk x = .ok y) : TxRuns x.1 y.1 := by
  unfold Sys2Proof.Machine.acceptChunk at h
  split at h
  · cases h; exact TxRuns.refl _
  · obtain ⟨bs, _, h⟩ := bind_eq_ok.mp h
    obtain ⟨n, _, h⟩ := bind_eq_ok.mp h
    split at h
    · cases h; exact TxRuns.refl _
    · dsimp only at h
      split at h <;> cases h <;>
        exact TxRuns.modCur _ (fun p => { p with acc := _, accN := _ }) (fun _ => rfl) fun _ => rfl

/-- What an arm does after its exchange leaves `TXBUF` as it was, whichever arm it is. -/
theorem TxRuns.armEnd {codec : Codec} {x : State × Result} {y : State × Option Result}
    (h : armEnd codec x = .ok y) : TxRuns x.1 y.1 := by
  have fixed : ∀ {size : Nat} {store : List Byte → Port → Port}, (∀ bs p, (store bs p).fixed = p.fixed) →
      (∀ bs p, (store bs p).txbuf = p.txbuf) →
      (Machine.fixedRead size store x).map (fun z => (z.1, some z.2)) = .ok y → TxRuns x.1 y.1 := by
    intro size store hs ht h
    cases hz : Machine.fixedRead size store x with
    | error f => rw [hz] at h; cases h
    | ok z => rw [hz] at h; cases h; exact TxRuns.fixedRead hs ht hz
  cases codec
  case none => cases h; exact TxRuns.refl _
  case rdF32 => exact fixed (storeWord_fixed _) (fun _ _ => rfl) h
  case rdU32 => exact fixed (storeWord_fixed _) (fun _ _ => rfl) h
  case rdU8 => exact fixed storeByte_fixed (fun _ _ => rfl) h
  case rdVer => exact fixed storeVersion_fixed (fun _ _ => rfl) h
  case rdId => exact fixed (storeIdentity_fixed _) (fun _ _ => rfl) h
  case rdChunk => exact TxRuns.acceptChunk h
  case wrPct => cases h; exact TxRuns.refl _

theorem TxRuns.clearAcc (s : State) : TxRuns s (clearAcc s) :=
  TxRuns.modCur s _ (fun _ => rfl) fun _ => rfl

theorem TxRuns.chunkLoop (id : Byte) (fuel : Nat) {s : State} {y : State × Result}
    (h : chunkLoop id fuel s = .ok y) : TxRuns s y.1 := by
  induction fuel generalizing s with
  | zero => cases h; exact TxRuns.refl _
  | succ fuel ih =>
    rw [Sys2Proof.Machine.chunkLoop] at h
    obtain ⟨x, hx, h⟩ := bind_eq_ok.mp h
    obtain ⟨z, hz, h⟩ := bind_eq_ok.mp h
    have hchunk := (TxRuns.armExchange hx).trans (TxRuns.acceptChunk hz)
    split at h
    · cases h; exact hchunk
    · exact hchunk.trans (ih h)

/-- `TXBUF` of `q` is that of `p` with the converted `ARG` at its front (43_command_dispatch.md R258). -/
def pctStaged (c : Params) (p q : Port) : Prop :=
  ∃ arg, p.arg = some arg ∧ q.txbuf = Memory.write p.txbuf 0 (pctPayload c arg)

theorem stagePct_staged {s : State} {arg : Word} (h : s.needArg = .ok arg) :
    pctStaged s.cfg s.cur (stagePct (pctPayload s.cfg arg) s).cur := by
  refine ⟨arg, ?_, by rw [stagePct, State.cur_modCur]⟩
  unfold State.needArg need at h
  split at h
  · next ha => cases h; exact ha
  · cases h

/-- Of the codec arms only the percentage write changes `TXBUF`. -/
theorem armBody_txbuf {codec : Codec} {id : Byte} {s : State} {y : State × Result}
    (h : armBody codec id s = .ok y) :
    y.1.cur.txbuf = s.cur.txbuf ∨ codec = .wrPct ∧ pctStaged s.cfg s.cur y.1.cur := by
  have read : ∀ {size : Nat} {store : List Byte → Port → Port} {bound : Half},
      (∀ bs p, (store bs p).fixed = p.fixed) → (∀ bs p, (store bs p).txbuf = p.txbuf) →
      (armExchange id [] bound s >>= fixedRead size store) = .ok y → y.1.cur.txbuf = s.cur.txbuf := by
    intro size store bound hs ht h
    obtain ⟨x, hx, h⟩ := bind_eq_ok.mp h
    exact ((TxRuns.armExchange hx).trans (TxRuns.fixedRead hs ht h)).txbuf
  cases codec
  case none => exact .inl (TxRuns.armExchange h).txbuf
  case rdF32 => exact .inl (read (storeWord_fixed _) (fun _ _ => rfl) h)
  case rdU32 => exact .inl (read (storeWord_fixed _) (fun _ _ => rfl) h)
  case rdU8 => exact .inl (read storeByte_fixed (fun _ _ => rfl) h)
  case rdVer => exact .inl (read storeVersion_fixed (fun _ _ => rfl) h)
  case rdId => exact .inl (read (storeIdentity_fixed _) (fun _ _ => rfl) h)
  case rdChunk => exact .inl ((TxRuns.clearAcc s).trans (TxRuns.chunkLoop _ _ h)).txbuf
  case wrPct =>
    obtain ⟨arg, ha, h⟩ := bind_eq_ok.mp h
    obtain ⟨arg', hp, hw⟩ := stagePct_staged ha
    exact .inr ⟨rfl, arg', hp, (TxRuns.armExchange h).txbuf.trans hw⟩

/-- A job's start: the engine stands at its first phase, and only the percentage write has changed `TXBUF`. -/
theorem startJob_next {job : Job} {took : Bool} {s t : State} (h : startJob job took s = .ok t) :
    ∃ u e, t = u.setEngine (some e) ∧ Runs s u
      ∧ (u.cur.txbuf = s.cur.txbuf ∨ (∃ id, job = .arm .wrPct id) ∧ pctStaged s.cfg s.cur u.cur) := by
  unfold startJob at h
  split at h
  · obtain ⟨cmd, _, h⟩ := bind_eq_ok.mp h
    obtain ⟨pay, _, h⟩ := bind_eq_ok.mp h
    cases h
    exact ⟨_, _, rfl, Runs.setFsm _ _, .inl rfl⟩
  · obtain ⟨cmd, _, h⟩ := bind_eq_ok.mp h
    obtain ⟨pay, _, h⟩ := bind_eq_ok.mp h
    cases h
    exact ⟨_, _, rfl, Runs.setFsm _ _, .inl rfl⟩
  · obtain ⟨cmd, _, h⟩ := bind_eq_ok.mp h
    obtain ⟨max, _, h⟩ := bind_eq_ok.mp h
    cases h
    exact ⟨_, _, rfl, Runs.setFsm _ _, .inl rfl⟩
  · obtain ⟨cmd, _, h⟩ := bind_eq_ok.mp h
    obtain ⟨max, _, h⟩ := bind_eq_ok.mp h
    cases h
    exact ⟨_, _, rfl, Runs.setFsm _ _, .inl rfl⟩
  · cases h
    have hclear := (TxRuns.clearAcc s).setFsm .sending
    exact ⟨_, _, rfl, hclear.toRuns, .inl hclear.txbuf⟩
  · obtain ⟨arg, ha, h⟩ := bind_eq_ok.mp h
    cases h
    exact ⟨_, _, rfl, (Runs.stagePct _ _).trans (Runs.setFsm _ _), .inr ⟨⟨_, rfl⟩, stagePct_staged ha⟩⟩
  · cases h
    exact ⟨_, _, rfl, Runs.setFsm _ _, .inl rfl⟩

end Sys2Proof.Machine
end

section
/-! An operation whose operand holds no value stops with `MF_UNWRITTEN` (10_state.md R62). -/

namespace Sys2Proof.Machine

/-! ## Reads that meet no value -/

theorem need_unwritten {α : Type} {o : Option α} (h : o = none) : need o = .error .unwritten := by
  rw [h]; rfl

/-- A computation that meets a fault has no more to do. -/
theorem bind_error {α β : Type} {x : Except Fault α} {f : Fault} (h : x = .error f)
    (g : α → Except Fault β) : (x >>= g) = .error f := by rw [h]; rfl

/-- Whether an operand read first holds a value or not, the fault of one read after it is the same. -/
theorem need_bind_unwritten {α β : Type} (o : Option α) {g : α → Except Fault β}
    (h : ∀ v, g v = .error .unwritten) : (need o >>= g) = .error .unwritten := by
  cases o with
  | none => rfl
  | some v => exact h v

/-- A value that is there is passed on. -/
theorem bind_error_of_ok {α β : Type} {x : Except Fault α} {a : α} {f : Fault} {g : α → Except Fault β}
    (hx : x = .ok a) (h : g a = .error f) : (x >>= g) = .error f := by rw [hx]; exact h

theorem needPayload_unwritten_of_len {s : State} (h : s.cur.len = none) :
    s.needPayload = .error .unwritten := bind_error (need_unwritten h) _

theorem needPayload_unwritten_of_txbuf {s : State} {len : Half} (hl : s.cur.len = some len)
    (hr : Memory.read s.cur.txbuf 0 len.toNat = none) : s.needPayload = .error .unwritten := by
  unfold State.needPayload State.needLen
  rw [hl]
  exact need_unwritten hr

/-! ## Operations that may run -/

section
variable {s : State} (hopen : s.lockOwner = noPort ∨ s.lockOwner = portByte s.turn)
include hopen

/-- A channel operation that does not hold stops with the fault its body meets. -/
theorem underLock_fault {body : Bool → State → Except Fault State} {f : Fault}
    (h : ∀ took, body took s.held = .error f) : underLock body s = .fault f := by
  rw [underLock_open hopen, h]
  rfl

theorem channel_unwritten_of_cmd (h : s.cur.cmd = none) :
    exec .send s = .fault .unwritten ∧ exec .receive s = .fault .unwritten
      ∧ exec .exchange s = .fault .unwritten ∧ exec .transact s = .fault .unwritten :=
  have hcmd : s.held.needCmd = .error .unwritten := need_unwritten h
  ⟨underLock_fault hopen fun _ => bind_error hcmd _, underLock_fault hopen fun _ => bind_error hcmd _,
    underLock_fault hopen fun _ => bind_error hcmd _, underLock_fault hopen fun _ => bind_error hcmd _⟩

/-- `SEND` and `TRANSACT` read their payload after `CMD` and before anything else (42_protocol_engine.md
R187, R206). -/
theorem sends_unwritten_of_payload (h : s.held.needPayload = .error .unwritten) :
    exec .send s = .fault .unwritten ∧ exec .transact s = .fault .unwritten :=
  ⟨underLock_fault hopen fun _ => need_bind_unwritten _ fun _ => bind_error h _,
    underLock_fault hopen fun _ => need_bind_unwritten _ fun _ => bind_error h _⟩

/-- `RECEIVE` and `EXCHANGE` read `MAX` after `CMD` (42_protocol_engine.md R191, R200). -/
theorem receives_unwritten_of_max (h : s.cur.max = none) :
    exec .receive s = .fault .unwritten ∧ exec .exchange s = .fault .unwritten :=
  have hmax : s.held.needMax = .error .unwritten := need_unwritten h
  ⟨underLock_fault hopen fun _ => need_bind_unwritten _ fun _ => bind_error hmax _,
    underLock_fault hopen fun _ => need_bind_unwritten _ fun _ => bind_error hmax _⟩

/-- `TRANSACT` reads `MAX` once its request has gone whole (42_protocol_engine.md R206). -/
theorem transact_unwritten_of_max {cmd len : Half} {payload : List Byte} (hc : s.cur.cmd = some cmd)
    (hl : s.cur.len = some len) (hp : Memory.read s.cur.txbuf 0 len.toNat = some payload)
    (hm : s.cur.max = none) (hw : s.writesWhole) : exec .transact s = .fault .unwritten := by
  refine underLock_fault hopen fun took => ?_
  have hsent : (sendCore cmd payload s.held).1 = true := by rw [sendCore_whole cmd payload s.held hw]
  have hmax : (sendCore cmd payload s.held).2.needMax = .error .unwritten :=
    need_unwritten (by rw [sendCore_cur]; exact hm)
  refine bind_error_of_ok (held_cmd hc) (bind_error_of_ok (held_pay hl hp) ?_)
  dsimp only
  rw [if_pos hsent]
  exact bind_error hmax _

/-- `WR_PCT` reads `ARG` first (43_command_dispatch.md R258). -/
theorem callPct_unwritten_of_arg (id : Byte) (h : s.cur.arg = none) :
    exec (.callPct id) s = .fault .unwritten :=
  have harg : s.held.needArg = .error .unwritten := need_unwritten h
  underLock_fault hopen fun _ => bind_error (bind_error harg _) _

end

/-- `CALL` reads `CMD` before its lookup (43_command_dispatch.md R245). -/
theorem call_unwritten_of_cmd {s : State} (h : s.cur.cmd = none) : exec .call s = .fault .unwritten := by
  have hcmd : s.needCmd = .error .unwritten := need_unwritten h
  show execCall s = _
  unfold execCall
  rw [hcmd]

/-- Settles O20: each operation reads its operands before it can do anything else, so the first one without
a value stops it. -/
theorem operandsUnwritten : Obligations.OperandsUnwritten := by
  intro s id hopen
  refine ⟨fun hcmd => ?_, fun hlen => ?_, receives_unwritten_of_max hopen, fun len hlen hread => ?_,
    fun cmd len payload => transact_unwritten_of_max hopen, callPct_unwritten_of_arg hopen id⟩
  · obtain ⟨hsend, hreceive, hexchange, htransact⟩ := channel_unwritten_of_cmd hopen hcmd
    exact ⟨hsend, hreceive, hexchange, htransact, call_unwritten_of_cmd hcmd⟩
  · exact sends_unwritten_of_payload hopen (needPayload_unwritten_of_len hlen)
  · exact sends_unwritten_of_payload hopen (needPayload_unwritten_of_txbuf hlen hread)

end Sys2Proof.Machine
end

section
/-! What a port's turn leaves as it was, whatever it runs (10_state.md R31 to R33, R39, R40, R42, R59). -/

namespace Sys2Proof.Machine

/-! ## The codes behind an operation -/

/-- The operations `OPC` can start, with their codes (30_encoding.md R101). -/
theorem decodeOpc_ok {c : Byte} {i : Instr} (h : decodeOpc c = .ok i) :
    (c = 0x01 ∧ i = .crc) ∨ (c = 0x02 ∧ i = .encreq) ∨ (c = 0x03 ∧ i = .decreq) ∨ (c = 0x04 ∧ i = .encrep)
      ∨ (c = 0x05 ∧ i = .decrep) ∨ (c = 0x10 ∧ i = .lock) ∨ (c = 0x11 ∧ i = .unlock)
      ∨ (c = 0x12 ∧ i = .setretry) ∨ (c = 0x20 ∧ i = .send) ∨ (c = 0x21 ∧ i = .receive)
      ∨ (c = 0x22 ∧ i = .exchange) ∨ (c = 0x23 ∧ i = .transact) ∨ (c = 0x30 ∧ i = .call) := by
  unfold decodeOpc at h
  split at h <;> cases h <;> simp [← BitVec.toNat_inj, *]

theorem codecOf_wrPct {k : Byte} (h : codecOf k = some .wrPct) : k = 7 := by
  unfold codecOf at h
  split at h <;> cases h
  next hk => exact BitVec.eq_of_toNat_eq hk

/-- What a `CALL` that answers a next state did: its command has no entry and it ended at once, or it ran the
arm of its entry's kind (43_command_dispatch.md R245, R246). -/
theorem execCall_next {s t : State} (h : execCall s = .next t) :
    t = finish .noSuchCommand localStatus none s
      ∨ ∃ cmd e codec, s.cur.cmd = some cmd ∧ lookup s.cfg.registry cmd = some e
        ∧ codecOf e.kind = some codec ∧ execArm codec e.id s = .next t := by
  unfold execCall State.needCmd need at h
  split at h
  · cases h
  · next cmd hcmd =>
    split at hcmd <;> cases hcmd
    next hcur =>
    split at h
    · cases h; exact .inl rfl
    · next e he =>
      split at h
      · cases h
      · next codec hk => exact .inr ⟨cmd, e, codec, hcur, he, hk, h⟩

/-! ## The registers of the issuing port -/

/-- The port has called a command whose kind is the percentage write (43_command_dispatch.md R245, R247). -/
def callsPct (c : Params) (p : Port) : Prop :=
  ∃ cmd e, p.opc = 0x30 ∧ p.cmd = some cmd ∧ lookup c.registry cmd = some e ∧ e.kind = 7

/-- A call's job is the percentage write only where the command's kind is. -/
theorem jobOf_wrPct {i : Instr} {s : State} {id : Byte} (hd : decodeOpc s.cur.opc = .ok i)
    (h : jobOf i s = some (.arm .wrPct id)) : callsPct s.cfg s.cur := by
  rcases decodeOpc_ok hd with ⟨_, rfl⟩ | ⟨_, rfl⟩ | ⟨_, rfl⟩ | ⟨_, rfl⟩ | ⟨_, rfl⟩ | ⟨_, rfl⟩ | ⟨_, rfl⟩
    | ⟨_, rfl⟩ | ⟨_, rfl⟩ | ⟨_, rfl⟩ | ⟨_, rfl⟩ | ⟨_, rfl⟩ | ⟨hopc, rfl⟩
  any_goals cases h
  simp only [jobOf] at h
  split at h
  · cases h
  next cmd hcmd =>
  split at h
  · cases h
  next e he =>
  obtain ⟨codec, hk, hj⟩ := Option.map_eq_some_iff.mp h
  cases hj
  exact ⟨cmd, e, hopc, hcmd, he, codecOf_wrPct hk⟩

/-- What a turn leaves of its port's registers `p`, of which it makes `q`. -/
structure PortFramed (c : Params) (p q : Port) : Prop where
  operands : operandsKept p q
  headers : p.opc ≠ 0x03 → p.opc ≠ 0x05 → headerFieldsKept p q
  hbuf : p.opc ≠ 0x02 → p.opc ≠ 0x04 → q.hbuf = p.hbuf ∧ q.hbn = p.hbn
  txbuf : q.txbuf = p.txbuf ∨ callsPct c p ∧ pctStaged c p q

theorem Port.eq_of_fixed {α : Type} {p q : Port} (h : q.fixed = p.fixed) (f : Port → α)
    (hf : ∀ r : Port, f r.fixed = f r) : f q = f p := by rw [← hf q, h, hf p]

/-- The registers no body of a channel operation writes are those of the frame, but for `TXBUF`. -/
theorem PortFramed.of_fixed {c : Params} {p q : Port} (h : q.fixed = p.fixed)
    (ht : q.txbuf = p.txbuf ∨ callsPct c p ∧ pctStaged c p q) : PortFramed c p q := by
  have kept {α : Type} := Port.eq_of_fixed (α := α) h
  refine ⟨⟨?_, ?_, ?_, ?_, ?_, ?_⟩, fun _ _ => ⟨?_, ?_, ?_, ?_, ?_⟩, fun _ _ => ⟨?_, ?_⟩, ht⟩
  all_goals exact kept _ fun _ => rfl

/-- The two encoders write `HBUF` and `HBN` only (41_frame_codec.md R162, R166). -/
theorem PortFramed.encoded {c : Params} {p : Port} (h : p.opc = 0x02 ∨ p.opc = 0x04) (m : Memory)
    (n : Option Byte) : PortFramed c p { p with hbuf := m, hbn := n } where
  operands := ⟨rfl, rfl, rfl, rfl, rfl, rfl⟩
  headers _ _ := ⟨rfl, rfl, rfl, rfl, rfl⟩
  hbuf h2 h4 := absurd h (not_or.mpr ⟨h2, h4⟩)
  txbuf := .inl rfl

/-- The two decoders write header fields only (41_frame_codec.md R164, R168). -/
theorem PortFramed.decoded {c : Params} {p : Port} (h : p.opc = 0x03 ∨ p.opc = 0x05) (cmd len rsv cks : Option Half)
    (st : Option Byte) :
    PortFramed c p { p with hCmd := cmd, hSt := st, hLen := len, hRsv := rsv, hCks := cks } where
  operands := ⟨rfl, rfl, rfl, rfl, rfl, rfl⟩
  headers h3 h5 := absurd h (not_or.mpr ⟨h3, h5⟩)
  hbuf _ _ := ⟨rfl, rfl⟩
  txbuf := .inl rfl

/-! ## The frame of a turn -/

/-- What port `p`'s turn leaves of the state `s`, of which it makes `t`. -/
structure TurnKept (p : Fin 16) (s t : State) : Prop where
  port : PortFramed s.cfg (s.port p) (t.port p)
  others : ∀ q : Fin 16, q ≠ p → t.port q = s.port q
  cfg : t.cfg = s.cfg
  inputs : t.inputs = s.inputs
  reads : t.reads = s.reads
  free : t.free = s.free
  sent : s.txs <+: t.txs
  taken : t.rxs <:+ s.rxs
  logged : s.log <+: t.log

theorem TurnKept.refl (p : Fin 16) (s : State) : TurnKept p s s :=
  ⟨.of_fixed rfl (.inl rfl), fun _ _ => rfl, rfl, rfl, rfl, rfl, List.prefix_rfl, List.suffix_rfl,
    List.prefix_rfl⟩

/-- The frame while port `p` is the issuing one. -/
structure TurnFramed (p : Fin 16) (s t : State) : Prop extends TurnKept p s t where
  turn : t.turn = p

/-- The frame does not see which port `s` names as the issuing one. -/
theorem TurnFramed.of_setTurn {p : Fin 16} {s t : State} (h : TurnFramed p { s with turn := p } t) :
    TurnFramed p s t :=
  ⟨⟨h.port, h.others, h.cfg, h.inputs, h.reads, h.free, h.sent, h.taken, h.logged⟩, h.turn⟩

theorem Runs.turnFramed {s t : State} (h : Runs s t)
    (ht : t.cur.txbuf = s.cur.txbuf ∨ callsPct s.cfg s.cur ∧ pctStaged s.cfg s.cur t.cur) :
    TurnFramed s.turn s t := by
  refine ⟨⟨?_, h.others, h.cfg, h.inputs, h.reads, h.free, h.sent, h.taken, h.logged⟩, h.turn⟩
  have hcur : t.port s.turn = t.cur := by rw [State.cur, h.turn]
  rw [hcur]
  exact PortFramed.of_fixed h.cur ht

theorem TxRuns.turnFramed {s t : State} (h : TxRuns s t) : TurnFramed s.turn s t :=
  h.toRuns.turnFramed (.inl h.txbuf)

theorem TurnFramed.modCur {s : State} {f : Port → Port} (hf : PortFramed s.cfg s.cur (f s.cur)) :
    TurnFramed s.turn s (s.modCur f) where
  turn := rfl
  port := by rw [State.port_modCur_turn]; exact hf
  others q hq := s.port_modCur_of_ne q f hq
  cfg := rfl
  inputs := rfl
  reads := rfl
  free := rfl
  sent := List.prefix_rfl
  taken := List.suffix_rfl
  logged := List.prefix_rfl

/-- The frame does not see the lock, the retry count, the exchange state machine and the engine. -/
theorem TurnFramed.setControl {p : Fin 16} {s t : State} (h : TurnFramed p s t) (owner active retry : Byte)
    (fsm : Fsm) (e : Option Engine) :
    TurnFramed p s
      { t with lockOwner := owner, active := active, retry := retry, fsm := fsm, engine := e } :=
  ⟨⟨h.port, h.others, h.cfg, h.inputs, h.reads, h.free, h.sent, h.taken, h.logged⟩, h.turn⟩

/-- An update of the issuing port that keeps the frame of its registers keeps the frame of the turn. -/
theorem TurnFramed.setResult {p : Fin 16} {s t : State} (h : TurnFramed p s t) {f : Port → Port}
    (hf : ∀ q r : Port, PortFramed s.cfg q r → PortFramed s.cfg q (f r)) : TurnFramed p s (t.modCur f) where
  turn := h.turn
  port := by
    have hp := hf _ _ h.port
    rw [← h.turn] at hp ⊢
    rwa [State.port_modCur_turn]
  others q hq := by
    rw [State.port_modCur_of_ne t q f (by rw [h.turn]; exact hq)]
    exact h.others q hq
  cfg := h.cfg
  inputs := h.inputs
  reads := h.reads
  free := h.free
  sent := h.sent
  taken := h.taken
  logged := h.logged

theorem TurnFramed.finish {p : Fin 16} {s t : State} (h : TurnFramed p s t) (k : Kind) (st : Byte)
    (l : Option Half) : TurnFramed p s (finish k st l t) :=
  h.setResult fun _ _ hp => ⟨hp.operands, hp.headers, hp.hbuf, hp.txbuf⟩

theorem TurnFramed.setResends {p : Fin 16} {s t : State} (h : TurnFramed p s t) (n : Byte) :
    TurnFramed p s (setResends n t) :=
  h.setResult fun _ _ hp => ⟨hp.operands, hp.headers, hp.hbuf, hp.txbuf⟩

theorem TurnFramed.setEngine {p : Fin 16} {s t : State} (h : TurnFramed p s t) (e : Option Engine) :
    TurnFramed p s (t.setEngine e) := h.setControl _ _ _ _ e

theorem TurnFramed.endChannelOp {p : Fin 16} {s t : State} (h : TurnFramed p s t) (took : Bool) (k : Kind)
    (st : Byte) (l : Half) : TurnFramed p s (endChannelOp took k st l t) := by
  refine TurnFramed.finish ?_ k st (some l)
  rw [releaseChannel_eq]
  exact h.setControl _ _ _ _ _

theorem TurnFramed.endExchange {p : Fin 16} {s : State} {x : State × Result} (h : TurnFramed p s x.1)
    (took : Bool) : TurnFramed p s (endExchange took x) :=
  (h.setResends x.2.resends).endChannelOp took x.2.kind x.2.status x.2.len

/-! ## A turn that ends its operation -/

/-- The port's operation has ended with a result (60_exceptions.md R290, R293). -/
def Port.ended (p : Port) : Prop := p.busy = false ∧ p.resKind.isSome = true ∧ p.resStatus.isSome = true

theorem finish_ended (k : Kind) (st : Byte) (l : Option Half) (s : State) : (finish k st l s).cur.ended := by
  rw [finish_cur]
  exact ⟨rfl, rfl, rfl⟩

/-- A turn that ended its port's operation, framed. -/
structure TurnEnded (s t : State) : Prop where
  framed : TurnFramed s.turn s t
  ended : t.cur.ended

theorem TurnFramed.finishes {s t : State} (h : TurnFramed s.turn s t) (k : Kind) (st : Byte) (l : Option Half) :
    TurnEnded s (Machine.finish k st l t) := ⟨h.finish k st l, finish_ended k st l t⟩

theorem TurnFramed.endsChannelOp {s t : State} (h : TurnFramed s.turn s t) (took : Bool) (k : Kind) (st : Byte)
    (l : Half) : TurnEnded s (Machine.endChannelOp took k st l t) :=
  ⟨h.endChannelOp took k st l, finish_ended _ _ _ _⟩

theorem TurnFramed.endsExchange {s : State} {x : State × Result} (h : TurnFramed s.turn s x.1) (took : Bool) :
    TurnEnded s (Machine.endExchange took x) := ⟨h.endExchange took, finish_ended _ _ _ _⟩

theorem TurnFramed.refl (s : State) : TurnFramed s.turn s s := (TxRuns.refl s).turnFramed

/-- The end of an unassigned code is a turn's end too (30_encoding.md R103). -/
theorem illegalOperation_ended (s : State) : TurnEnded s (illegalOperation s) :=
  (TurnFramed.refl s).finishes _ _ _

/-! ## Operations without the channel -/

theorem execCrc_ended {s t : State} (h : execCrc s = .next t) : TurnEnded s t := by
  obtain ⟨bytes, _, h⟩ := bind_eq_ok.mp (outcome_next.mp h)
  obtain ⟨seed, _, h⟩ := bind_eq_ok.mp h
  cases h
  have hval := TxRuns.modCur s
    (fun p => { p with resVal := some ((checksum s.cfg.crc bytes seed).setWidth 32) }) (fun _ => rfl) fun _ => rfl
  exact hval.turnFramed.finishes _ _ _

theorem execEncreq_ended {s t : State} (hopc : s.cur.opc = 0x02) (h : execEncreq s = .next t) :
    TurnEnded s t := by
  obtain ⟨hd, _, h⟩ := bind_eq_ok.mp (outcome_next.mp h)
  cases h
  exact (TurnFramed.modCur (.encoded (.inl hopc) _ _)).finishes _ _ _

theorem execEncrep_ended {s t : State} (hopc : s.cur.opc = 0x04) (h : execEncrep s = .next t) :
    TurnEnded s t := by
  obtain ⟨hd, _, h⟩ := bind_eq_ok.mp (outcome_next.mp h)
  cases h
  exact (TurnFramed.modCur (.encoded (.inr hopc) _ _)).finishes _ _ _

theorem execDecreq_ended {s t : State} (hopc : s.cur.opc = 0x03) (h : execDecreq s = .next t) :
    TurnEnded s t := by
  obtain ⟨n, _, h⟩ := bind_eq_ok.mp (outcome_next.mp h)
  obtain ⟨bytes, _, h⟩ := bind_eq_ok.mp h
  split at h
  · cases h; exact (TurnFramed.refl s).finishes _ _ _
  · cases h; exact (TurnFramed.modCur (.decoded (.inl hopc) _ _ _ _ _)).finishes _ _ _

theorem execDecrep_ended {s t : State} (hopc : s.cur.opc = 0x05) (h : execDecrep s = .next t) :
    TurnEnded s t := by
  obtain ⟨n, _, h⟩ := bind_eq_ok.mp (outcome_next.mp h)
  obtain ⟨bytes, _, h⟩ := bind_eq_ok.mp h
  split at h
  · cases h; exact (TurnFramed.refl s).finishes _ _ _
  · cases h; exact (TurnFramed.modCur (.decoded (.inr hopc) _ _ _ _ _)).finishes _ _ _

theorem execLock_next {s t : State} (h : execLock s = .next t) : t = s ∨ TurnEnded s t := by
  unfold execLock at h
  split at h <;> cases h
  · exact .inr (((TurnFramed.refl s).setControl _ _ _ _ _).finishes _ _ _)
  · exact .inl rfl

theorem execUnlock_ended {s t : State} (h : execUnlock s = .next t) : TurnEnded s t := by
  unfold execUnlock at h
  split at h <;> cases h
  · exact ((TurnFramed.refl s).setControl _ _ _ _ _).finishes _ _ _
  · exact (TurnFramed.refl s).finishes _ _ _

theorem execSetretry_next {s t : State} (h : execSetretry s = .next t) : t = s ∨ TurnEnded s t := by
  unfold execSetretry at h
  split at h
  · obtain ⟨arg, _, h⟩ := bind_eq_ok.mp (outcome_next.mp h)
    cases h
    exact .inr (((TurnFramed.refl s).setControl _ _ _ _ _).finishes _ _ _)
  · cases h; exact .inl rfl

/-! ## Channel operations -/

/-- A channel operation holds, or its body ran from the state in which its port holds the lock. -/
theorem underLock_held {body : Bool → State → Except Fault State} {s t : State} {P : Prop}
    (h : underLock body s = .next t) (hb : ∀ took, body took s.held = .ok t → P) : t = s ∨ P := by
  rcases underLock_next h with ⟨_, rfl⟩ | ⟨took, s1, hbegin, hx⟩
  · exact .inl rfl
  · obtain ⟨rfl, _⟩ := beginChannelOp_some hbegin
    exact .inr (hb took hx)

/-- Taking the lock is no part of the frame. -/
theorem TurnFramed.of_held {p : Fin 16} {s t : State} (h : TurnFramed p s.held t) : TurnFramed p s t :=
  ⟨⟨h.port, h.others, h.cfg, h.inputs, h.reads, h.free, h.sent, h.taken, h.logged⟩, h.turn⟩

theorem TxRuns.held_turnFramed {s t : State} (h : TxRuns s.held t) : TurnFramed s.turn s t :=
  TurnFramed.of_held h.turnFramed

theorem execSend_next {s t : State} (h : execSend s = .next t) : t = s ∨ TurnEnded s t :=
  underLock_held h fun took hx => by
    obtain ⟨cmd, _, hx⟩ := bind_eq_ok.mp hx
    obtain ⟨pay, _, hx⟩ := bind_eq_ok.mp hx
    have hsent := (TxRuns.sendCore cmd pay s.held).held_turnFramed
    dsimp only at hx
    split at hx <;> cases hx <;> exact hsent.endsChannelOp _ _ _ _

theorem execReceive_next {s t : State} (h : execReceive s = .next t) : t = s ∨ TurnEnded s t :=
  underLock_held h fun took hx => by
    obtain ⟨cmd, _, hx⟩ := bind_eq_ok.mp hx
    obtain ⟨max, _, hx⟩ := bind_eq_ok.mp hx
    obtain ⟨x, hr, hx⟩ := bind_eq_ok.mp hx
    cases hx
    exact (TxRuns.receiveCore hr).held_turnFramed.endsChannelOp _ _ _ _

theorem execExchange_next {s t : State} (h : execExchange s = .next t) : t = s ∨ TurnEnded s t :=
  underLock_held h fun took hx => by
    obtain ⟨cmd, _, hx⟩ := bind_eq_ok.mp hx
    obtain ⟨max, _, hx⟩ := bind_eq_ok.mp hx
    obtain ⟨x, hr, hx⟩ := bind_eq_ok.mp hx
    cases hx
    exact (TxRuns.exchangeCore hr).held_turnFramed.endsExchange took

theorem execTransact_next {s t : State} (h : execTransact s = .next t) : t = s ∨ TurnEnded s t :=
  underLock_held h fun took hx => by
    obtain ⟨cmd, _, hx⟩ := bind_eq_ok.mp hx
    obtain ⟨pay, _, hx⟩ := bind_eq_ok.mp hx
    have hsent := TxRuns.sendCore cmd pay s.held
    dsimp only at hx
    split at hx
    · obtain ⟨max, _, hx⟩ := bind_eq_ok.mp hx
      obtain ⟨x, hr, hx⟩ := bind_eq_ok.mp hx
      cases hx
      exact (hsent.trans (TxRuns.exchangeCore hr)).held_turnFramed.endsExchange took
    · cases hx
      exact hsent.held_turnFramed.endsExchange (x := (_, writeFailed 0)) took

theorem execCall_turn {s t : State} (hopc : s.cur.opc = 0x30) (h : execCall s = .next t) :
    t = s ∨ TurnEnded s t := by
  rcases execCall_next h with rfl | ⟨cmd, e, codec, hcmd, he, hk, h⟩
  · exact .inr ((TurnFramed.refl s).finishes _ _ _)
  · rw [execArm_eq] at h
    refine underLock_held h fun took hx => ?_
    obtain ⟨x, hr, hx⟩ := bind_eq_ok.mp hx
    cases hx
    have hframed : TurnFramed s.turn s x.1 := TurnFramed.of_held ((Runs.armBody hr).turnFramed ?_)
    · exact hframed.endsExchange took
    refine (armBody_txbuf hr).imp_right fun ⟨hpct, hstaged⟩ => ⟨?_, hstaged⟩
    exact ⟨cmd, e, hopc, hcmd, he, codecOf_wrPct (hpct ▸ hk)⟩

/-- Whatever operation a code starts, its turn holds or ends it, and keeps the frame. -/
theorem exec_turn {i : Instr} {s t : State} (hd : decodeOpc s.cur.opc = .ok i) (h : exec i s = .next t) :
    t = s ∨ TurnEnded s t := by
  rcases decodeOpc_ok hd with ⟨_, rfl⟩ | ⟨hopc, rfl⟩ | ⟨hopc, rfl⟩ | ⟨hopc, rfl⟩ | ⟨hopc, rfl⟩ | ⟨_, rfl⟩
    | ⟨_, rfl⟩ | ⟨_, rfl⟩ | ⟨_, rfl⟩ | ⟨_, rfl⟩ | ⟨_, rfl⟩ | ⟨_, rfl⟩ | ⟨hopc, rfl⟩
  · exact .inr (execCrc_ended h)
  · exact .inr (execEncreq_ended hopc h)
  · exact .inr (execDecreq_ended hopc h)
  · exact .inr (execEncrep_ended hopc h)
  · exact .inr (execDecrep_ended hopc h)
  · exact execLock_next h
  · exact .inr (execUnlock_ended h)
  · exact execSetretry_next h
  · exact execSend_next h
  · exact execReceive_next h
  · exact execExchange_next h
  · exact execTransact_next h
  · exact execCall_turn hopc h

/-! ## The engine -/

/-- The end of a job, or its next chunk, keeps the frame. -/
theorem TxRuns.endJob {s t : State} {e : Engine} {x : State × Result} (h : TxRuns s x.1)
    (ht : endJob e x = .ok t) : TurnFramed s.turn s t := by
  unfold Sys2Proof.Machine.endJob at ht
  split at ht
  · cases ht; exact (h.turnFramed.endChannelOp _ _ _ _).setEngine none
  · cases ht; exact (h.turnFramed.endChannelOp _ _ _ _).setEngine none
  · cases ht; exact (h.turnFramed.endExchange _).setEngine none
  · cases ht; exact (h.turnFramed.endExchange _).setEngine none
  · obtain ⟨y, hy, ht⟩ := bind_eq_ok.mp ht
    have harm := h.trans (TxRuns.armEnd hy)
    split at ht <;> cases ht
    · next r _ => exact (TurnFramed.endExchange (x := (y.1, r)) harm.turnFramed e.took).setEngine none
    · exact (harm.setFsm _).turnFramed.setEngine _

/-- What follows a send keeps the frame. -/
theorem afterSend_framed {s t : State} {e : Engine} {ok : Bool} (h : afterSend e ok s = .ok t) :
    TurnFramed s.turn s t := by
  unfold afterSend at h
  split at h
  · split at h
    · exact TxRuns.endJob (TxRuns.refl s) h
    · obtain ⟨max, _, h⟩ := bind_eq_ok.mp h
      cases h
      exact ((TxRuns.refl s).setFsm _).turnFramed.setEngine _
  · exact TxRuns.endJob (TxRuns.refl s) h

/-- What follows a receive keeps the frame. -/
theorem afterReceive_framed {s t : State} {e : Engine} {r : Reply} (h : afterReceive e r s = .ok t) :
    TurnFramed s.turn s t := by
  unfold afterReceive at h
  split at h
  · cases h; exact ((TxRuns.refl s).setFsm _).turnFramed.setEngine _
  · exact TxRuns.endJob (x := (s, _)) (TxRuns.refl s) h

theorem TxRuns.sendDone {s t : State} (h : TxRuns s t) (e : Engine) (ok : Bool) :
    TurnFramed s.turn s (sendDone e ok t) := by
  cases ok
  · exact (h.setFsm _).turnFramed.setEngine _
  · exact h.turnFramed.setEngine _

theorem TxRuns.requestWritten {s t : State} (h : TxRuns s t) (e : Engine) (hd pay : List Byte) :
    TurnFramed s.turn s (requestWritten e hd pay t) := by
  unfold Sys2Proof.Machine.requestWritten
  split
  · exact (h.setFsm _).turnFramed.setEngine _
  · exact (h.requestSent hd pay).sendDone e true

theorem TxRuns.resendDone {s t : State} (h : TxRuns s t) (e : Engine) (ok : Bool) :
    TurnFramed s.turn s (resendDone e ok t) := by
  cases ok <;> exact (h.setFsm _).turnFramed.setEngine _

theorem TxRuns.receiveDone {s : State} {x : State × Reply} (h : TxRuns s x.1) (e : Engine) :
    TurnFramed s.turn s (receiveDone e x) := h.turnFramed.setEngine _

/-- One engine step keeps the frame of its port's turn. -/
theorem engineMove_framed {s t : State} {e : Engine} (h : engineMove e s = .ok t) :
    TurnFramed s.turn s t := by
  unfold engineMove at h
  split at h
  case h_1 payload _ =>
    have hw := TxRuns.chanWrite s (buildReq s.cfg e.cmd payload)
    dsimp only at h
    split at h
    · cases h; exact hw.sendDone e false
    split at h
    · cases h; exact hw.requestWritten e _ payload
    · cases h; exact hw.turnFramed.setEngine _
  case h_2 header payload _ =>
    have hw := TxRuns.chanWrite s payload
    dsimp only at h
    split at h
    · cases h; exact hw.sendDone e false
    · cases h; exact hw.requestWritten e header payload
  case h_3 ok _ => exact afterSend_framed h
  case h_4 header payload _ => exact TxRuns.endJob ((TxRuns.refl s).requestSent header payload) h
  case h_5 =>
    have hr := TxRuns.chanRead s 6
    dsimp only at h
    split at h
    · cases h; exact (hr.setFsm _).receiveDone (x := localReply _ _ _) e
    split at h
    · cases h
    split at h
    · cases h; exact ((hr.stageHeader _).judgeReply _ _ _ _ _).receiveDone e
    · cases h; exact (hr.stageHeader _).turnFramed.setEngine _
  case h_6 header _ =>
    split at h
    · cases h; exact ((TxRuns.refl s).setFsm _).receiveDone (x := localReply _ _ _) e
    next r _ =>
    have hr := TxRuns.chanRead s r.len.toNat
    dsimp only at h
    split at h
    · cases h; exact (hr.setFsm _).receiveDone (x := localReply _ _ _) e
    · cases h; exact ((hr.stagePayload _).judgeReply _ _ _ _ _).receiveDone e
  case h_7 r _ => exact afterReceive_framed h
  case h_8 =>
    obtain ⟨header, _, h⟩ := bind_eq_ok.mp h
    obtain ⟨payload, _, h⟩ := bind_eq_ok.mp h
    have hw := TxRuns.chanWrite s header
    dsimp only at h
    split at h
    · cases h; exact hw.resendDone e false
    split at h
    · cases h; exact hw.resendDone e true
    · cases h; exact hw.turnFramed.setEngine _
  case h_9 =>
    obtain ⟨payload, _, h⟩ := bind_eq_ok.mp h
    cases h
    exact (TxRuns.chanWrite s payload).resendDone e _
  case h_10 => exact TxRuns.endJob (TxRuns.refl s) h

theorem engineStep_framed {s t : State} (h : engineStep s = .next t) : TurnFramed s.turn s t := by
  unfold engineStep at h
  split at h
  · cases h; exact TurnFramed.refl s
  · exact engineMove_framed (outcome_next.mp h)

/-- The first step of a channel operation holds, or leaves its port busy and the engine in the middle of the
port's operation, and keeps the frame. -/
theorem beginJob_next {i : Instr} {job : Job} {s t : State} (hd : decodeOpc s.cur.opc = .ok i)
    (hj : jobOf i s = some job) (h : beginJob job s = .next t) :
    t = s ∨ TurnFramed s.turn s t ∧ t.engineOn s.turn = true ∧ (t.port s.turn).busy = (s.port s.turn).busy :=
  underLock_held h fun took hx => by
    obtain ⟨u, e, rfl, hr, hu⟩ := startJob_next hx
    refine ⟨TurnFramed.setEngine (TurnFramed.of_held (hr.turnFramed ?_)) _, ?_, hr.busy s.turn⟩
    · refine hu.imp_right fun ⟨⟨id, hpct⟩, hstaged⟩ => ⟨?_, hstaged⟩
      exact jobOf_wrPct hd (hpct ▸ hj)
    · simp [State.engineOn, hr.active, State.held]

/-! ## Turns -/

/-- What a turn, whole or only its first step, can do: it keeps the frame, and where it was not the engine's
it ended the port's operation, or held, or, where it made a first step only, did what `begun` says. -/
structure TurnDone (p : Fin 16) (s t : State) (begun : Prop) : Prop where
  kept : TurnKept p s t
  done : s.hasTurn p = true → s.engineOn p = false → (t.port p).ended ∨ t = { s with turn := p } ∨ begun

theorem TurnDone.of_exec {p : Fin 16} {s t : State} {begun : Prop}
    (h : t = { s with turn := p } ∨ TurnEnded { s with turn := p } t) : TurnDone p s t begun := by
  rcases h with rfl | h
  · exact ⟨(TurnFramed.refl { s with turn := p }).of_setTurn.toTurnKept, fun _ _ => .inr (.inl rfl)⟩
  · refine ⟨h.framed.of_setTurn.toTurnKept, fun _ _ => .inl ?_⟩
    have hcur : t.port p = t.cur := by rw [State.cur, h.framed.turn]
    rw [hcur]
    exact h.ended

theorem TurnDone.of_engineStep {p : Fin 16} {s t : State} {begun : Prop} (hon : s.engineOn p = true)
    (h : engineStep { s with turn := p } = .next t) : TurnDone p s t begun :=
  ⟨(engineStep_framed h).of_setTurn.toTurnKept, fun _ hoff => by rw [hon] at hoff; cases hoff⟩

theorem TurnDone.of_noTurn {p : Fin 16} {s : State} {begun : Prop} (h : s.hasTurn p = false) :
    TurnDone p s s begun := ⟨.refl p s, fun hturn => by rw [h] at hturn; cases hturn⟩

theorem takeTurn_done {p : Fin 16} {s t : State} (h : takeTurn p s = .next t) : TurnDone p s t False := by
  unfold takeTurn at h
  split at h
  · next hno => cases h; exact .of_noTurn hno
  split at h
  · next hon => exact .of_engineStep hon h
  split at h
  · next i hd => exact .of_exec (exec_turn (s := { s with turn := p }) hd h)
  · cases h; exact .of_exec (.inr (illegalOperation_ended _))

theorem beginTurn_done {p : Fin 16} {s t : State} (h : beginTurn p s = .next t) :
    TurnDone p s t (t.engineOn p = true ∧ (t.port p).busy = true) := by
  unfold beginTurn at h
  split at h
  · next hno => cases h; exact .of_noTurn hno
  split at h
  · next hon => exact .of_engineStep hon h
  split at h
  · next i hd =>
    split at h
    · next job hj =>
      rcases beginJob_next (s := { s with turn := p }) hd hj h with rfl | ⟨hframed, hon, hbusy⟩
      · exact .of_exec (.inl rfl)
      · refine ⟨hframed.of_setTurn.toTurnKept, fun hturn _ => .inr (.inr ⟨hon, hbusy.trans ?_⟩)⟩
        simp only [State.hasTurn, Bool.and_eq_true] at hturn
        exact hturn.2
    · exact .of_exec (exec_turn (s := { s with turn := p }) hd h)
  · cases h; exact .of_exec (.inr (illegalOperation_ended _))

/-- `TXBUF` as a turn leaves it, with the conversion written out (43_command_dispatch.md R258). -/
theorem TurnKept.txbuf {p : Fin 16} {s t : State} (h : TurnKept p s t) :
    (t.port p).txbuf = (s.port p).txbuf
      ∨ ∃ cmd e arg, (s.port p).opc = 0x30 ∧ (s.port p).cmd = some cmd ∧ lookup s.cfg.registry cmd = some e
        ∧ e.kind = 7 ∧ (s.port p).arg = some arg
        ∧ (t.port p).txbuf = Memory.write (s.port p).txbuf 0 (pack32 s.cfg.endian (pctToF32 s.cfg.pct arg)) :=
  h.port.txbuf.imp_right fun ⟨⟨cmd, e, hopc, hcmd, he, hk⟩, arg, harg, hw⟩ =>
    ⟨cmd, e, arg, hopc, hcmd, he, hk, harg, hw⟩

/-- Settles O48: every operation and every engine step keeps the frame, and the one ending primitive and the
first step of a job leave what the last clause asks for. -/
theorem turnFrame : Obligations.TurnFrame := by
  intro s t p hrun
  have hkept : TurnKept p s t := hrun.elim (fun h => (takeTurn_done h).kept) fun h => (beginTurn_done h).kept
  refine ⟨hkept.port.operands, hkept.port.headers, hkept.port.hbuf, hkept.txbuf, hkept.others, hkept.cfg,
    hkept.inputs, hkept.reads, hkept.free, hkept.sent, hkept.taken, hkept.logged, fun hturn hoff => ⟨?_, ?_⟩⟩
  · intro h
    exact ((takeTurn_done h).done hturn hoff).imp_right fun hheld => hheld.resolve_right not_false
  · intro h
    exact (beginTurn_done h).done hturn hoff

end Sys2Proof.Machine
end

section
/-! A channel operation run one engine step at a time ends as the same operation run in one step
(10_state.md R60; 20_memory.md R87, R88). -/

namespace Sys2Proof.Machine

/-! ## Runs of the engine -/

/-- The engine, started from the answer `x` of a step, ends its operation with the answer `r`. -/
inductive EndsIn : Except Fault State → Except Fault State → Prop where
  | stopped (f : Fault) : EndsIn (.error f) (.error f)
  | ended {t : State} (h : t.engine = none) : EndsIn (.ok t) (.ok t)
  | move {s : State} {e : Engine} {r : Except Fault State} (he : s.engine = some e)
      (h : EndsIn (engineMove e s) r) : EndsIn (.ok s) r

/-- At most `m` engine steps from what a step answered. -/
def runFrom (m : Nat) (o : Host.Outcome State Fault Refusal) : Host.Outcome State Fault Refusal :=
  match o with
  | .next s => runEngine m s
  | .fault f => .fault f
  | .refused r => .refused r

theorem runEngine_ended (m : Nat) {s : State} (h : s.engine = none) : runEngine m s = .next s := by
  cases m with
  | zero => rfl
  | succ m => simp [runEngine, h]

theorem runEngine_move (m : Nat) {s : State} {e : Engine} (h : s.engine = some e) :
    runEngine (m + 1) s = runFrom m (outcome (engineMove e s)) := by
  simp only [runEngine, engineStep, h]
  rfl

/-- With steps enough the engine gives the answer its operation ends in. -/
theorem EndsIn.runFrom {x r : Except Fault State} (h : EndsIn x r) :
    ∃ n, ∀ m, n ≤ m → runFrom m (outcome x) = outcome r := by
  induction h with
  | stopped f => exact ⟨0, fun _ _ => rfl⟩
  | ended h => exact ⟨0, fun m _ => runEngine_ended m h⟩
  | move he _ ih =>
    obtain ⟨n, hn⟩ := ih
    refine ⟨n + 1, fun m hm => ?_⟩
    obtain ⟨k, rfl⟩ := Nat.exists_eq_add_of_le' hm
    exact (runEngine_move (k + n) he).trans (hn (k + n) (Nat.le_add_left n k))

/-- Two computations that begin alike end alike where what follows does. -/
theorem EndsIn.bind {α : Type} {x : Except Fault α} {f g : α → Except Fault State}
    (h : ∀ a, x = .ok a → EndsIn (f a) (g a)) : EndsIn (x >>= f) (x >>= g) := by
  cases x with
  | error e => exact .stopped e
  | ok a => exact h a rfl

/-! ## The engine's position is no part of what its pieces do -/

section
variable (s : State) (o : Option Engine)

theorem requestSent_setEngine (h pay : List Byte) :
    requestSent h pay (s.setEngine o) = (requestSent h pay s).setEngine o := by
  unfold requestSent
  rw [State.setEngine_retry]
  split <;> rfl

theorem deviceReply_setEngine (cmd : Half) (st : Byte) (l : Half) :
    deviceReply cmd st l (s.setEngine o)
      = ((deviceReply cmd st l s).1.setEngine o, (deviceReply cmd st l s).2) := by
  unfold deviceReply
  rw [State.setEngine_cfg]
  dsimp only
  split <;> rfl

theorem judgeReply_setEngine (cmd max : Half) (r : RepHeader) (h pay : List Byte) :
    judgeReply cmd max r h pay (s.setEngine o)
      = ((judgeReply cmd max r h pay s).1.setEngine o, (judgeReply cmd max r h pay s).2) := by
  unfold judgeReply
  rw [deviceReply_setEngine, State.setEngine_cfg]
  repeat' split
  all_goals rfl

theorem fixedRead_setEngine (size : Nat) (store : List Byte → Port → Port) (r : Result) :
    fixedRead size store (s.setEngine o, r)
      = (fixedRead size store (s, r)).map fun y => (y.1.setEngine o, y.2) := by
  unfold fixedRead
  dsimp only
  split
  · rfl
  split
  · rfl
  rw [show (s.setEngine o).needRx size = s.needRx size from rfl]
  cases s.needRx size <;> rfl

theorem acceptChunk_setEngine (r : Result) :
    acceptChunk (s.setEngine o, r) = (acceptChunk (s, r)).map fun y => (y.1.setEngine o, y.2) := by
  unfold acceptChunk
  dsimp only
  split
  · rfl
  rw [show (s.setEngine o).needRx r.len.toNat = s.needRx r.len.toNat from rfl, State.setEngine_cfg,
    show (s.setEngine o).cur = s.cur from rfl]
  cases s.needRx r.len.toNat with
  | error f => rfl
  | ok bytes =>
    cases need s.cur.accN with
    | error f => rfl
    | ok n =>
      dsimp only [bind, Except.bind]
      split
      · rfl
      show (if chunkFinal s.cfg bytes = true then _ else _)
        = Except.map _ (if chunkFinal s.cfg bytes = true then _ else _)
      split <;> rfl

theorem armEnd_setEngine (codec : Codec) (r : Result) :
    armEnd codec (s.setEngine o, r) = (armEnd codec (s, r)).map fun y => (y.1.setEngine o, y.2) := by
  have fixed : ∀ (size : Nat) (store : List Byte → Port → Port),
      (fixedRead size store (s.setEngine o, r)).map (fun y => (y.1, some y.2))
        = ((fixedRead size store (s, r)).map fun y => (y.1, some y.2)).map
            fun y => (y.1.setEngine o, y.2) := by
    intro size store
    rw [fixedRead_setEngine]
    cases fixedRead size store (s, r) <;> rfl
  cases codec
  case none => rfl
  case rdF32 => exact fixed 4 _
  case rdU32 => exact fixed 4 _
  case rdU8 => exact fixed 1 _
  case rdVer => exact fixed 8 _
  case rdId => exact fixed 68 _
  case rdChunk => exact acceptChunk_setEngine s o r
  case wrPct => rfl

/-! ## Nor is the phase it leaves -/

variable (e : Engine) (p : Phase)

theorem endJob_entered (r : Result) :
    endJob { e with phase := p } (s.setEngine o, r) = endJob e (s, r) := by
  obtain ⟨job, took, cmd, max, limit, resends, phase⟩ := e
  cases job
  case send => cases took <;> rfl
  case receive => cases took <;> rfl
  case exchange => cases took <;> rfl
  case transact => cases took <;> rfl
  case arm codec id =>
    simp only [endJob, armEnd_setEngine]
    cases armEnd codec (s, r) with
    | error f => rfl
    | ok y =>
      obtain ⟨u, res⟩ := y
      cases res with
      | none => rfl
      | some res => cases took <;> rfl

theorem enterExchange_entered :
    enterExchange { e with phase := p } (s.setEngine o) = enterExchange e s := by
  have hmax : jobMax e.job (s.setEngine o) = jobMax e.job s := by cases e.job <;> rfl
  simp only [enterExchange, hmax]
  rfl

theorem afterSend_entered (ok : Bool) :
    afterSend { e with phase := p } ok (s.setEngine o) = afterSend e ok s := by
  unfold afterSend
  rw [endJob_entered, endJob_entered, enterExchange_entered]

theorem afterReceive_entered (r : Reply) :
    afterReceive { e with phase := p } r (s.setEngine o) = afterReceive e r s := by
  unfold afterReceive
  rw [endJob_entered]
  rfl

end

/-! ## The two writes of a frame (42_protocol_engine.md R189) -/

theorem transmit_short {header payload : List Byte} {s : State}
    (h : (chanWrite header s).1 < header.length) :
    transmit header payload s = (false, (chanWrite header s).2) := by
  unfold transmit
  exact if_pos h

theorem transmit_header_only {header payload : List Byte} {s : State}
    (h : ¬ (chanWrite header s).1 < header.length) (hp : payload.length = 0) :
    transmit header payload s = (true, (chanWrite header s).2) := by
  unfold transmit
  exact (if_neg h).trans (if_pos hp)

theorem transmit_both {header payload : List Byte} {s : State}
    (h : ¬ (chanWrite header s).1 < header.length) (hp : ¬ payload.length = 0) :
    transmit header payload s
      = (decide (payload.length ≤ (chanWrite payload (chanWrite header s).2).1),
        (chanWrite payload (chanWrite header s).2).2) := by
  unfold transmit
  exact (if_neg h).trans (if_neg hp)

section
variable {e : Engine} {s : State} {r : Except Fault State} {p : Phase} {o : Option Engine}

/-! ## The send -/

theorem EndsIn.sendDone {ok : Bool} (h : EndsIn (afterSend e ok (if ok then s else s.setFsm .localError)) r) :
    EndsIn (.ok (sendDone { e with phase := p } ok (s.setEngine o))) r := by
  refine .move rfl ?_
  rw [← afterSend_entered _ (some { e with phase := .sent ok }) e (.sent ok)] at h
  cases ok <;> exact h

/-- Once the request has gone whole, a `SEND` ends, and any other job goes on. -/
theorem EndsIn.requestWritten {header payload : List Byte}
    (h : EndsIn (afterSend e true (requestSent header payload s)) r) :
    EndsIn (.ok (requestWritten { e with phase := p } header payload (s.setEngine o))) r := by
  unfold Machine.requestWritten
  split
  case h_1 hj =>
    refine .move rfl ?_
    have hends : afterSend e true (requestSent header payload s)
        = endJob e (requestSent header payload s, ⟨.ok, 0x00#8, 0#16, 0#8⟩) := by
      simp only [afterSend, show e.job = .send from hj, if_true]
    have hsent : requestSent header payload (s.setFsm .awaitingReply) = requestSent header payload s := by
      unfold requestSent
      rw [State.setFsm_retry]
      split <;> rfl
    rw [hends, ← hsent,
      ← endJob_entered _ (some { e with phase := .sendEnds header payload }) e (.sendEnds header payload),
      ← requestSent_setEngine] at h
    exact h
  case h_2 =>
    rw [requestSent_setEngine]
    exact .sendDone h

/-- The steps of a send do what `sendCore` does (42_protocol_engine.md R188). -/
theorem EndsIn.enterSend {payload : List Byte}
    (h : EndsIn (afterSend e (sendCore e.cmd payload s).1 (sendCore e.cmd payload s).2) r) :
    EndsIn (.ok (enterSend e payload s)) r := by
  refine .move rfl ?_
  unfold sendCore at h
  dsimp only at h
  show EndsIn (if (chanWrite (buildReq s.cfg e.cmd payload) (s.setFsm .sending)).1 < _ then _ else _) r
  split
  case isTrue hshort =>
    rw [transmit_short hshort] at h
    exact .sendDone h
  case isFalse hwhole =>
    split
    case isTrue hempty =>
      rw [transmit_header_only hwhole hempty] at h
      exact .requestWritten h
    case isFalse hpay =>
      rw [transmit_both hwhole hpay] at h
      refine .move rfl ?_
      show EndsIn (if (chanWrite payload
        (chanWrite (buildReq s.cfg e.cmd payload) (s.setFsm .sending)).2).1 < payload.length then _ else _) r
      split
      case isTrue hshort =>
        rw [decide_eq_false (Nat.not_le.mpr hshort)] at h
        exact .sendDone h
      case isFalse hboth =>
        rw [decide_eq_true (Nat.not_lt.mp hboth)] at h
        exact .requestWritten h

/-! ## The receive -/

theorem EndsIn.receiveDone {x : State × Reply} (h : EndsIn (afterReceive e x.2 x.1) r) :
    EndsIn (.ok (receiveDone { e with phase := p } (x.1.setEngine o, x.2))) r := by
  refine .move rfl ?_
  rw [← afterReceive_entered _ (some { e with phase := .received x.2 }) e (.received x.2)] at h
  exact h

theorem EndsIn.judged {cmd max : Half} {rep : RepHeader} {header payload : List Byte}
    (h : EndsIn (afterReceive e (judgeReply cmd max rep header payload s).2
      (judgeReply cmd max rep header payload s).1) r) :
    EndsIn (.ok (Machine.receiveDone { e with phase := p }
      (judgeReply cmd max rep header payload (s.setEngine o)))) r := by
  rw [judgeReply_setEngine]
  exact .receiveDone h

/-- The payload's half of a receive (42_protocol_engine.md R194, R195). -/
theorem EndsIn.recvPayload {rep : RepHeader} {header : List Byte}
    (hrep : decRep s.cfg.endian header = some rep)
    (h : EndsIn ((if (chanRead rep.len.toNat s).1.length < rep.len.toNat
        then .ok (localReply .transportReadError rep.len (chanRead rep.len.toNat s).2)
        else .ok (judgeReply e.cmd e.max rep header (chanRead rep.len.toNat s).1
          (stagePayload (chanRead rep.len.toNat s).1 (chanRead rep.len.toNat s).2)))
      >>= fun x => afterReceive e x.2 x.1) r) :
    EndsIn (.ok (s.setEngine (some { e with phase := .recvPayload header }))) r := by
  refine .move rfl ?_
  show EndsIn (match decRep s.cfg.endian header with | none => _ | some _ => _) r
  rw [hrep]
  show EndsIn (if (chanRead rep.len.toNat s).1.length < rep.len.toNat then _ else _) r
  by_cases hshort : (chanRead rep.len.toNat s).1.length < rep.len.toNat
  case pos =>
    rw [if_pos hshort] at h ⊢
    exact .receiveDone (x := localReply .transportReadError rep.len _) h
  case neg =>
    rw [if_neg hshort] at h ⊢
    exact .judged (p := .recvPayload header) (o := some { e with phase := .recvPayload header }) h

/-- The steps of a receive do what `receiveCore` does (42_protocol_engine.md R192). -/
theorem EndsIn.enterReceive
    (h : EndsIn (receiveCore e.cmd e.max s >>= fun x => afterReceive e x.2 x.1) r) :
    EndsIn (.ok (enterReceive e s)) r := by
  refine .move rfl ?_
  unfold receiveCore at h
  dsimp only at h
  show EndsIn (match decRep s.cfg.endian (chanRead 6 (s.setFsm .awaitingReply)).1 with
    | none => _ | some _ => _) r
  cases hrep : decRep s.cfg.endian (chanRead 6 (s.setFsm .awaitingReply)).1 with
  | none =>
    simp only [hrep] at h
    exact .receiveDone (x := localReply .transportReadError 0#16 _) h
  | some rep =>
    simp only [hrep] at h
    show EndsIn (if s.cfg.stageMax < rep.len.toNat then _ else _) r
    by_cases hover : s.cfg.stageMax < rep.len.toNat
    case pos =>
      rw [if_pos hover] at h ⊢
      exact h
    case neg =>
      rw [if_neg hover] at h ⊢
      by_cases hempty : rep.len = 0#16
      case pos =>
        rw [if_pos hempty] at h ⊢
        exact .judged (p := .recvHeader) (o := some { e with phase := .recvHeader }) h
      case neg =>
        rw [if_neg hempty] at h ⊢
        exact .recvPayload (s := stageHeader _ (chanRead 6 (s.setFsm .awaitingReply)).2) hrep h

/-! ## The resend -/

/-- The engine stands before the header write of a resend (42_protocol_engine.md R202). -/
def enterResend (e : Engine) (s : State) : State := s.setEngine (some { e with phase := .resendHeader })

/-- What follows a resend: the next receive, or the failure's end of the job (42_protocol_engine.md R201). -/
def afterResend (e : Engine) (ok : Bool) (s : State) : Except Fault State :=
  if ok then .ok (enterReceive e s) else endJob e (s.setFsm .localError, writeFailed e.resends)

theorem EndsIn.resendDone {ok : Bool} (h : EndsIn (afterResend e ok s) r) :
    EndsIn (.ok (resendDone { e with phase := p } ok (s.setEngine o))) r := by
  cases ok
  case true => exact h
  case false =>
    refine .move rfl ?_
    have h' : EndsIn (endJob e (s.setFsm .localError, writeFailed e.resends)) r := h
    rw [← endJob_entered _ (some { e with phase := .resendFailed }) e .resendFailed] at h'
    exact h'

/-- The steps of a resend do what `resendCore` does (42_protocol_engine.md R202). -/
theorem EndsIn.enterResend
    (h : EndsIn (resendCore s >>= fun w => afterResend e w.1 w.2) r) : EndsIn (.ok (enterResend e s)) r := by
  refine .move rfl ?_
  unfold resendCore at h
  show EndsIn (s.needCachedHeader >>= fun header => s.needCachedPayload >>= fun payload => _) r
  cases hh : s.needCachedHeader with
  | error f => rw [hh] at h; exact h
  | ok header =>
  cases hp : s.needCachedPayload with
  | error f => rw [hh, hp] at h; exact h
  | ok payload =>
  rw [hh, hp] at h
  replace h : EndsIn (afterResend e (transmit header payload s).1 (transmit header payload s).2) r := h
  show EndsIn (if (chanWrite header s).1 < header.length then _ else _) r
  split
  case isTrue hshort =>
    rw [transmit_short hshort] at h
    exact .resendDone h
  case isFalse hwhole =>
    split
    case isTrue hempty =>
      rw [transmit_header_only hwhole hempty] at h
      exact .resendDone h
    case isFalse hpay =>
      rw [transmit_both hwhole hpay] at h
      refine .move rfl ?_
      show EndsIn (s.needCachedPayload >>= fun payload => _) r
      rw [hp]
      exact .resendDone h

/-! ## The exchange -/

/-- Two positions inside one operation of a port. -/
def Engine.sameJob (e d : Engine) : Prop := d.job = e.job ∧ d.took = e.took ∧ d.cmd = e.cmd

/-- The steps behind a receive do what the retry loop does (42_protocol_engine.md R201, R203). -/
theorem EndsIn.afterReceive {k : State × Result → Except Fault State} (left : Nat) {x : State × Reply}
    (hjob : e.job ≠ .receive) (hleft : e.resends + left = e.limit)
    (hk : ∀ d y, e.sameJob d → retryLoop e.cmd e.max left e.resends x = .ok y → EndsIn (endJob d y) (k y)) :
    EndsIn (afterReceive e x.2 x.1) (retryLoop e.cmd e.max left e.resends x >>= k) := by
  induction left generalizing e x with
  | zero =>
    unfold Machine.afterReceive
    rw [if_neg fun hmore => by omega]
    exact hk e _ ⟨rfl, rfl, rfl⟩ rfl
  | succ left ih =>
    unfold Machine.afterReceive
    rw [retryLoop] at hk ⊢
    by_cases hretry : retriable x.2.kind = true
    case neg =>
      rw [if_neg hretry] at hk ⊢
      rw [if_neg fun hmore => hretry hmore.2.1]
      exact hk e _ ⟨rfl, rfl, rfl⟩ rfl
    case pos =>
      rw [if_pos hretry] at hk ⊢
      rw [if_pos ⟨hjob, hretry, by omega⟩]
      refine EndsIn.enterResend (e := { e with resends := e.resends + 1 }) ?_
      rw [bind_assoc]
      refine .bind fun w hw => ?_
      cases hsent : w.1
      case false =>
        refine hk _ _ ⟨rfl, rfl, rfl⟩ (bind_eq_ok.mpr ⟨w, hw, ?_⟩)
        exact if_neg (by rw [hsent]; exact Bool.false_ne_true)
      case true =>
        refine EndsIn.enterReceive ?_
        dsimp only
        rw [if_pos rfl, bind_assoc]
        refine .bind fun y hy => ih hjob (by dsimp only; omega) fun d z hd hz => hk d z hd ?_
        exact bind_eq_ok.mpr ⟨w, hw, (if_pos hsent).trans (bind_eq_ok.mpr ⟨y, hy, hz⟩)⟩

/-- The steps of an exchange do what `exchangeCore` does (42_protocol_engine.md R201). -/
theorem EndsIn.enterExchange {k : State × Result → Except Fault State} (hjob : e.job ≠ .receive)
    (hk : ∀ max d y, jobMax e.job s = .ok max → e.sameJob d → exchangeCore e.cmd max s = .ok y →
      EndsIn (endJob d y) (k y)) :
    EndsIn (enterExchange e s) (jobMax e.job s >>= fun max => exchangeCore e.cmd max s >>= k) := by
  refine .bind fun max hmax => EndsIn.enterReceive ?_
  unfold exchangeCore
  rw [bind_assoc]
  refine .bind fun x hx => EndsIn.afterReceive s.retry.toNat hjob (Nat.zero_add _) fun d y hd hy => ?_
  exact hk max d y hmax hd (bind_eq_ok.mpr ⟨x, hx, hy⟩)
end

/-! ## The end of an operation -/

theorem endExchange_engine (took : Bool) (x : State × Result) : (endExchange took x).engine = x.1.engine := by
  simp [endExchange, endChannelOp]

/-- An operation that ran with no engine leaves none to clear. -/
theorem EndsIn.done {t : State} (h : t.engine = none) : EndsIn (.ok (t.setEngine none)) (.ok t) := by
  have hset : t.setEngine none = t := by rw [State.setEngine, ← h]
  rw [hset]
  exact .ended h

theorem EndsIn.endExchange {d : Engine} {y : State × Result} (hjob : d.job = .exchange ∨ d.job = .transact)
    (h : y.1.engine = none) : EndsIn (endJob d y) (.ok (endExchange d.took y)) := by
  have hend : endJob d y = .ok ((Machine.endExchange d.took y).setEngine none) := by
    rcases hjob with hjob | hjob <;> simp only [endJob, hjob]
  rw [hend]
  exact .done ((endExchange_engine _ _).trans h)

/-! ## A request and its exchange -/

/-- The request of a job that is no `SEND`, and then its exchange (42_protocol_engine.md R206;
43_command_dispatch.md R248, R258). -/
def sendExchange (e : Engine) (payload : List Byte) (s : State) : Except Fault (State × Result) :=
  let w := sendCore e.cmd payload s
  if w.1 then jobMax e.job w.2 >>= fun max => exchangeCore e.cmd max w.2 else .ok (w.2, writeFailed 0)

theorem sendExchange_arm {e : Engine} {codec : Codec} {id : Byte} (hjob : e.job = .arm codec id)
    (hcmd : e.cmd = id.setWidth 16) (payload : List Byte) (s : State) :
    sendExchange e payload s = armExchange id payload (codecRepSize s.cfg.chunkSize codec) s := by
  unfold sendExchange armExchange
  rw [hjob, hcmd]
  dsimp only [jobMax]
  rw [(Runs.sendCore (id.setWidth 16) payload s).cfg]
  rfl

/-- The steps of a request and its exchange, up to the end of the job. -/
theorem EndsIn.sendExchange {e : Engine} {payload : List Byte} {s : State}
    {k : State × Result → Except Fault State} (hs : e.job ≠ .send) (hr : e.job ≠ .receive)
    (hk : ∀ d y, e.sameJob d → Machine.sendExchange e payload s = .ok y → EndsIn (endJob d y) (k y)) :
    EndsIn (.ok (Machine.enterSend e payload s)) (Machine.sendExchange e payload s >>= k) := by
  have hafter : ∀ ok t,
      afterSend e ok t = if ok then Machine.enterExchange e t else endJob e (t, writeFailed 0) := by
    intro ok t
    unfold afterSend
    split
    · split
      · next hj => exact absurd hj hs
      · rfl
    · rfl
  refine .enterSend ?_
  unfold Machine.sendExchange at hk ⊢
  rw [hafter]
  dsimp only at hk ⊢
  split
  case isTrue hsent =>
    rw [if_pos hsent] at hk
    rw [bind_assoc]
    exact EndsIn.enterExchange hr fun max d y hmax hd hy => hk d y hd (bind_eq_ok.mpr ⟨max, hmax, hy⟩)
  case isFalse hshort =>
    rw [if_neg hshort] at hk
    exact hk e _ ⟨rfl, rfl, rfl⟩ rfl

/-! ## The four operations of a port's own command -/

section
variable {s : State} (hs : s.engine = none) (took : Bool)
include hs

/-- `SEND` (42_protocol_engine.md R187). -/
theorem EndsIn.send :
    EndsIn (startJob .send took s) (do
      let cmd ← s.needCmd
      let payload ← s.needPayload
      let w := sendCore cmd payload s
      if w.1 then pure (endChannelOp took .ok 0x00#8 0#16 w.2)
      else pure (endChannelOp took .transportWriteError localStatus 0#16 w.2)) := by
  refine .bind fun cmd _ => .bind fun payload _ => .enterSend ?_
  have hw : (sendCore cmd payload s).2.engine = none := (Runs.sendCore cmd payload s).engine.trans hs
  dsimp only [afterSend]
  split <;> exact .done (by simp [endChannelOp, hw])

/-- `RECEIVE` (42_protocol_engine.md R191). -/
theorem EndsIn.receive :
    EndsIn (startJob .receive took s) (do
      let cmd ← s.needCmd
      let max ← s.needMax
      let x ← receiveCore cmd max s
      pure (endChannelOp took x.2.kind x.2.status x.2.len x.1)) := by
  refine .bind fun cmd _ => .bind fun max _ => .enterReceive (.bind fun x hx => ?_)
  have hx1 : x.1.engine = none := (Runs.receiveCore hx).engine.trans hs
  unfold Machine.afterReceive
  rw [if_neg fun hmore => hmore.1 rfl]
  exact .done (by simp [endChannelOp, Reply.result, hx1])

/-- `EXCHANGE` (42_protocol_engine.md R200). -/
theorem EndsIn.exchange :
    EndsIn (startJob .exchange took s) (do
      let cmd ← s.needCmd
      let max ← s.needMax
      let x ← exchangeCore cmd max s
      pure (Machine.endExchange took x)) := by
  refine .bind fun cmd _ => .enterExchange nofun fun max d y _ ⟨hjob, htook, _⟩ hy => ?_
  rw [← show d.took = took from htook]
  exact .endExchange (.inl hjob) ((Runs.exchangeCore hy).engine.trans hs)

theorem sendExchange_engine {e : Engine} {payload : List Byte} {y : State × Result}
    (h : sendExchange e payload s = .ok y) : y.1.engine = none := by
  have hw := (Runs.sendCore e.cmd payload s).engine.trans hs
  unfold sendExchange at h
  dsimp only at h
  split at h
  · obtain ⟨max, _, h⟩ := bind_eq_ok.mp h
    exact (Runs.exchangeCore h).engine.trans hw
  · cases h; exact hw

/-- `TRANSACT` (42_protocol_engine.md R206): `MAX` is read once the request has gone whole, in both forms. -/
theorem EndsIn.transact :
    EndsIn (startJob .transact took s) (do
      let cmd ← s.needCmd
      let payload ← s.needPayload
      let w := sendCore cmd payload s
      if w.1 then do
        let max ← w.2.needMax
        let x ← exchangeCore cmd max w.2
        pure (Machine.endExchange took x)
      else pure (Machine.endExchange took (w.2, writeFailed 0))) := by
  refine .bind fun cmd _ => .bind fun payload _ => ?_
  have hbody : ∀ w : Bool × State, (if w.1 then do
        let max ← w.2.needMax
        let x ← exchangeCore cmd max w.2
        pure (Machine.endExchange took x)
      else pure (Machine.endExchange took (w.2, writeFailed 0)))
      = (if w.1 then jobMax .transact w.2 >>= fun max => exchangeCore cmd max w.2
        else .ok (w.2, writeFailed 0)) >>= fun x => .ok (Machine.endExchange took x) := by
    intro w
    split
    · rw [bind_assoc]; rfl
    · rfl
  dsimp only
  rw [hbody]
  refine EndsIn.sendExchange (e := ⟨.transact, took, cmd, 0#16, 0, 0, .recvHeader⟩) nofun nofun
    fun d y ⟨hjob, htook, _⟩ hy => ?_
  rw [← show d.took = took from htook]
  exact .endExchange (.inr hjob) (sendExchange_engine hs hy)
end

/-! ## The codec arms -/

/-- What the arm of a codec does after its exchange; the chunked read's loop is not here (43_command_dispatch.md
R249 to R258). -/
def armDone (codec : Codec) (en : Endian) (x : State × Result) : Except Fault (State × Result) :=
  match codec with
  | .rdF32 => fixedRead 4 (storeWord en) x
  | .rdU32 => fixedRead 4 (storeWord en) x
  | .rdU8 => fixedRead 1 storeByte x
  | .rdVer => fixedRead 8 storeVersion x
  | .rdId => fixedRead 68 (storeIdentity en) x
  | _ => .ok x

theorem armEnd_eq {codec : Codec} (h : codec ≠ .rdChunk) (x : State × Result) :
    armEnd codec x = armDone codec x.1.cfg.endian x >>= fun y => .ok (y.1, some y.2) := by
  cases codec
  case rdChunk => exact absurd rfl h
  all_goals rfl

theorem armBody_eq {codec : Codec} (h1 : codec ≠ .rdChunk) (h2 : codec ≠ .wrPct) (id : Byte) (s : State) :
    armBody codec id s
      = armExchange id [] (codecRepSize s.cfg.chunkSize codec) s >>= armDone codec s.cfg.endian := by
  cases codec
  case rdChunk => exact absurd rfl h1
  case wrPct => exact absurd rfl h2
  case none => exact (bind_pure _).symm
  all_goals rfl

/-- The answer of a `CALL` from that of its arm, as the engine leaves it (43_command_dispatch.md R245). -/
def callEnds (took : Bool) (x : State × Result) : Except Fault State :=
  .ok ((endExchange took x).setEngine none)

theorem endJob_arm {d : Engine} {codec : Codec} {id : Byte} (hjob : d.job = .arm codec id)
    (h : codec ≠ .rdChunk) (y : State × Result) :
    endJob d y = armDone codec y.1.cfg.endian y >>= callEnds d.took := by
  simp only [endJob, hjob, armEnd_eq h, bind_assoc]
  rfl

/-- An arm with one exchange, behind the send of its request. -/
theorem EndsIn.armOnce {e : Engine} {codec : Codec} {id : Byte} (hjob : e.job = .arm codec id)
    (hcmd : e.cmd = id.setWidth 16) (h : codec ≠ .rdChunk) (payload : List Byte) (s : State) :
    EndsIn (.ok (Machine.enterSend e payload s))
      (armExchange id payload (codecRepSize s.cfg.chunkSize codec) s >>= fun x =>
        armDone codec s.cfg.endian x >>= callEnds e.took) := by
  rw [← sendExchange_arm hjob hcmd]
  refine .sendExchange (by rw [hjob]; nofun) (by rw [hjob]; nofun) fun d y ⟨hd, htook, _⟩ hy => ?_
  rw [sendExchange_arm hjob hcmd] at hy
  rw [endJob_arm (hd.trans hjob) h, (Runs.armExchange hy).cfg, htook]
  exact .bind fun x _ => .ended rfl

/-- The chunked read, from the send of a chunk's request: the loop's fuel is above the bytes that wait, and
every chunk takes some (43_command_dispatch.md R256; log entry 22). -/
theorem EndsIn.chunks {id : Byte} (fuel : Nat) {e : Engine} {s : State} (hjob : e.job = .arm .rdChunk id)
    (hcmd : e.cmd = id.setWidth 16) (hfuel : s.rxs.length < fuel) :
    EndsIn (.ok (Machine.enterSend e [] s)) (chunkLoop id fuel s >>= callEnds e.took) := by
  induction fuel generalizing e s with
  | zero => omega
  | succ fuel ih =>
    rw [chunkLoop, bind_assoc, readCore, ← sendExchange_arm hjob hcmd]
    refine .sendExchange (by rw [hjob]; nofun) (by rw [hjob]; nofun) fun d y ⟨hd, htook, hdcmd⟩ hy => ?_
    rw [sendExchange_arm hjob hcmd] at hy
    simp only [endJob, hd.trans hjob, armEnd, bind_assoc]
    refine .bind fun z hz => ?_
    obtain ⟨u, res⟩ := z
    cases res with
    | some res => rw [← htook]; exact .ended rfl
    | none =>
      have htakes : u.rxs.length + 6 ≤ s.rxs.length := chunk_takes hy hz
      rw [← htook]
      exact ih (hd.trans hjob) (hdcmd.trans hcmd) (by dsimp only; omega)

/-- The engine of a codec arm as it starts. -/
def armEngine (codec : Codec) (id : Byte) (took : Bool) : Engine :=
  ⟨.arm codec id, took, id.setWidth 16, 0#16, 0, 0, .recvHeader⟩

/-- The steps of a codec arm do what its body does (43_command_dispatch.md R248 to R258). -/
theorem EndsIn.arm (codec : Codec) (id : Byte) (took : Bool) (s : State) :
    EndsIn (startJob (.arm codec id) took s) (armBody codec id s >>= callEnds took) := by
  have once (h1 : codec ≠ .rdChunk) (h2 : codec ≠ .wrPct) :
      EndsIn (.ok (Machine.enterSend (armEngine codec id took) [] s)) (armBody codec id s >>= callEnds took) := by
    rw [armBody_eq h1 h2, bind_assoc]
    exact .armOnce (e := armEngine codec id took) rfl rfl h1 [] s
  cases codec
  case rdChunk =>
    exact .chunks (e := armEngine .rdChunk id took) (s := clearAcc s) _ rfl rfl (Nat.lt_succ_self s.rxs.length)
  case wrPct =>
    show EndsIn _ ((s.needArg >>= fun arg => armExchange id (pctPayload s.cfg arg) 0#16
      (stagePct (pctPayload s.cfg arg) s)) >>= callEnds took)
    rw [bind_assoc]
    exact .bind fun arg _ => .armOnce (e := armEngine .wrPct id took) rfl rfl nofun _ _
  all_goals exact once nofun nofun

/-- `CALL` of an arm (43_command_dispatch.md R245). -/
theorem EndsIn.call (codec : Codec) (id : Byte) (took : Bool) {s : State} (hs : s.engine = none) :
    EndsIn (startJob (.arm codec id) took s)
      (armBody codec id s >>= fun x => .ok (Machine.endExchange took x)) := by
  have hcall : (armBody codec id s >>= fun x => .ok (Machine.endExchange took x))
      = armBody codec id s >>= callEnds took := by
    cases hx : armBody codec id s with
    | error f => rfl
    | ok x =>
      have hend : (Machine.endExchange took x).engine = none :=
        (endExchange_engine took x).trans ((Runs.armBody hx).engine.trans hs)
      show Except.ok _ = Except.ok _
      rw [State.setEngine, ← hend]
  rw [hcall]
  exact .arm codec id took s

/-! ## Both forms of an operation -/

/-- Under the lock, the engine's run from a job's first step gives what the job's body gives at once; a job that
holds does nothing in either form. -/
theorem beginJob_runs {job : Job} {body : Bool → State → Except Fault State} {s : State} (hs : s.engine = none)
    (h : ∀ took (s1 : State), s1.engine = none → EndsIn (startJob job took s1) (body took s1)) :
    ∃ n, ∀ m, n ≤ m → runFrom m (beginJob job s) = underLock body s := by
  unfold beginJob underLock
  cases hb : beginChannelOp s with
  | none => exact ⟨0, fun m _ => runEngine_ended m hs⟩
  | some b =>
    obtain ⟨took, s1⟩ := b
    obtain ⟨rfl, _⟩ := beginChannelOp_some hb
    exact (h took s.held hs).runFrom

/-- The arm that a `CALL` runs is the job its lookup selects (43_command_dispatch.md R245, R247). -/
theorem execCall_of_job {s : State} {job : Job} (h : jobOf .call s = some job) :
    ∃ codec id, job = .arm codec id ∧ exec .call s = execArm codec id s := by
  simp only [jobOf] at h
  split at h
  · cases h
  next cmd hcmd =>
  split at h
  · cases h
  next e he =>
  obtain ⟨codec, hcodec, rfl⟩ := Option.map_eq_some_iff.mp h
  refine ⟨codec, e.id, rfl, ?_⟩
  show execCall s = _
  simp only [execCall, State.needCmd, need_some hcmd, he, hcodec]

theorem execArm_runs (codec : Codec) (id : Byte) {s : State} (hs : s.engine = none) :
    ∃ n, ∀ m, n ≤ m → runFrom m (beginJob (.arm codec id) s) = execArm codec id s := by
  rw [execArm_eq]
  exact beginJob_runs hs fun took _ hs1 => .call codec id took hs1

/-- Settles O58: each channel operation's steps do what its cores do, in the order in which its pseudocode runs
them. -/
theorem steppedIsAtomic : Obligations.SteppedIsAtomic := by
  intro s i job hs hjob
  show ∃ n, ∀ m, n ≤ m → runFrom m (beginJob job s) = exec i s
  cases i
  case send => cases hjob; exact beginJob_runs hs fun took _ hs1 => .send hs1 took
  case receive => cases hjob; exact beginJob_runs hs fun took _ hs1 => .receive hs1 took
  case exchange => cases hjob; exact beginJob_runs hs fun took _ hs1 => .exchange hs1 took
  case transact => cases hjob; exact beginJob_runs hs fun took _ hs1 => .transact hs1 took
  case call =>
    obtain ⟨codec, id, rfl, hexec⟩ := execCall_of_job hjob
    rw [hexec]
    exact execArm_runs codec id hs
  case callNone id => cases hjob; exact execArm_runs .none id hs
  case callF32 id => cases hjob; exact execArm_runs .rdF32 id hs
  case callU32 id => cases hjob; exact execArm_runs .rdU32 id hs
  case callU8 id => cases hjob; exact execArm_runs .rdU8 id hs
  case callVer id => cases hjob; exact execArm_runs .rdVer id hs
  case callId id => cases hjob; exact execArm_runs .rdId id hs
  case callChunk id => cases hjob; exact execArm_runs .rdChunk id hs
  case callPct id => cases hjob; exact execArm_runs .wrPct id hs
  all_goals cases hjob

end Sys2Proof.Machine
end

section
/-! Host accesses (20_memory.md R71 to R76): the checks in their order, what a write stores and leaves, and that a
read returns it. -/

namespace Sys2Proof.Machine

/-! ## The checks, one at a time (60_exceptions.md R295) -/

section
variable {s : State} {a : Access} {r : Row}

theorem hostAccess_unmapped
    (h : s.cfg.nports ≤ (addrPort a.addr).val ∨ findRow s.cfg.accMax (addrOffset a.addr) a.size = none) :
    hostAccess a s = .fault .hostUnmapped := by
  unfold hostAccess
  dsimp only
  split
  · rfl
  · next hp => rw [h.resolve_left hp]

variable (hp : (addrPort a.addr).val < s.cfg.nports)
  (hr : findRow s.cfg.accMax (addrOffset a.addr) a.size = some r)
include hp hr

theorem hostAccess_misaligned (ha : aligned a.addr a.size = false) :
    hostAccess a s = .fault .hostMisaligned := by
  simp [hostAccess, Nat.not_le.mpr hp, hr, ha]

variable (ha : aligned a.addr a.size = true)
include ha

theorem hostAccess_busy (hb : (s.port (addrPort a.addr)).busy = true)
    (hd : a.data.isSome = true ∨ readableWhileBusy r.reg = false) : hostAccess a s = .fault .hostBusy := by
  have hrefused : (a.data.isNone && readableWhileBusy r.reg) = false := by
    rcases hd with hd | hd
    · rw [Option.isNone_eq_false_iff.mpr hd, Bool.false_and]
    · rw [hd, Bool.and_false]
  simp [hostAccess, Nat.not_le.mpr hp, hr, ha, hb, hrefused]

theorem hostAccess_readOnly (hb : (s.port (addrPort a.addr)).busy = false) (hd : a.data.isSome = true)
    (hw : r.writable = false) : hostAccess a s = .fault .hostRo := by
  obtain ⟨v, hv⟩ := Option.isSome_iff_exists.mp hd
  simp [hostAccess, Nat.not_le.mpr hp, hr, ha, hb, hv, hw]

theorem hostAccess_write (hb : (s.port (addrPort a.addr)).busy = false) {v : Word} (hv : a.data = some v)
    (hw : r.writable = true) :
    hostAccess a s
      = .next (hostWrite (addrPort a.addr) r.reg (addrOffset a.addr - r.off) a.size v s) := by
  simp [hostAccess, Nat.not_le.mpr hp, hr, ha, hb, hv, hw]

variable (hb : (s.port (addrPort a.addr)).busy = false ∨ readableWhileBusy r.reg = true) (hd : a.data = none)
include hb hd

theorem hostAccess_unwritten
    (hv : hostValue s (addrPort a.addr) r.reg (addrOffset a.addr - r.off) a.size = none) :
    hostAccess a s = .fault .unwritten := by
  rcases hb with hb | hb <;> simp [hostAccess, Nat.not_le.mpr hp, hr, ha, hb, hd, hv]

theorem hostAccess_read {v : Word}
    (hv : hostValue s (addrPort a.addr) r.reg (addrOffset a.addr - r.off) a.size = some v) :
    hostAccess a s = .next { s with reads := s.reads ++ [v] } := by
  rcases hb with hb | hb <;> simp [hostAccess, Nat.not_le.mpr hp, hr, ha, hb, hd, hv]

end

/-- Settles O51: one equation per check, in the order of the checks. -/
theorem hostChecks : Obligations.HostChecks := fun _ _ =>
  ⟨hostAccess_unmapped, fun _ hp hr =>
    ⟨hostAccess_misaligned hp hr, hostAccess_busy hp hr, hostAccess_readOnly hp hr,
      fun _ ha hb hd => hostAccess_write hp hr ha hb hd,
      fun ha hb hd => ⟨hostAccess_unwritten hp hr ha hb hd, fun _ => hostAccess_read hp hr ha hb hd⟩⟩⟩

/-! ## The bytes of a word -/

theorem getLsbD_byteAt {w : Nat} (v : BitVec w) (k i : Nat) :
    (byteAt v k).getLsbD i = (decide (i < 8) && v.getLsbD (8 * k + i)) := by
  simp [byteAt]

theorem byteAt_zero (v : Byte) : byteAt v 0 = v := by
  simp [byteAt]

/-- A patched register has the value's bits where the access reaches, and its own elsewhere. -/
theorem getLsbD_patch {w : Nat} (old : Option (BitVec w)) (k size : Nat) (v free : Word) (i : Nat)
    (hw : 8 * (k + size) ≤ w) :
    (patch old k size v free).getLsbD i
      = if 8 * k ≤ i ∧ i < 8 * (k + size) then v.getLsbD (i - 8 * k)
        else (old.getD (free.setWidth w)).getLsbD i := by
  by_cases hi : i < w
  case neg =>
    rw [if_neg (by omega), BitVec.getLsbD_of_ge _ _ (Nat.le_of_not_lt hi),
      BitVec.getLsbD_of_ge _ _ (Nat.le_of_not_lt hi)]
  by_cases hlow : i < 8 * k
  · rw [if_neg (by omega)]
    simp [patch, hi, hlow]
  by_cases hin : i < 8 * (k + size)
  · have hmask : w - 8 * size + (i - 8 * k) < w := by omega
    rw [if_pos ⟨Nat.le_of_not_lt hlow, hin⟩]
    simp [patch, hi, hlow, hmask]
  · have hmask : ¬ w - 8 * size + (i - 8 * k) < w := by omega
    rw [if_neg (by omega)]
    simp [patch, hi, hlow, hmask]

theorem byteAt_patch_inside {w : Nat} (old : Option (BitVec w)) {k size j : Nat} (v free : Word)
    (hw : 8 * (k + size) ≤ w) (hj : j < size) : byteAt (patch old k size v free) (k + j) = byteAt v j := by
  refine BitVec.eq_of_getLsbD_eq fun i hi => ?_
  rw [getLsbD_byteAt, getLsbD_byteAt, getLsbD_patch old k size v free _ hw, if_pos (by omega),
    show 8 * (k + j) + i - 8 * k = 8 * j + i by omega]

theorem byteAt_patch_outside {w : Nat} (old : BitVec w) {k size j : Nat} (v free : Word)
    (hw : 8 * (k + size) ≤ w) (hj : j < k ∨ k + size ≤ j) :
    byteAt (patch (some old) k size v free) j = byteAt old j := by
  refine BitVec.eq_of_getLsbD_eq fun i hi => ?_
  rw [getLsbD_byteAt, getLsbD_byteAt, getLsbD_patch _ k size v free _ hw, if_neg (by omega)]
  rfl

/-- A byte and the value above it, put together as a host read does (20_memory.md R73), are a word's low bytes. -/
theorem shift_or_byte (v : Word) (n : Nat) (hn : n < 4) :
    (((v >>> 8) &&& (BitVec.allOnes 32 >>> (32 - 8 * n))) <<< 8) ||| (byteAt v 0).setWidth 32
      = v &&& (BitVec.allOnes 32 >>> (32 - 8 * (n + 1))) := by
  refine BitVec.eq_of_getLsbD_eq fun i hi => ?_
  simp only [BitVec.getLsbD_or, BitVec.getLsbD_shiftLeft, BitVec.getLsbD_and, BitVec.getLsbD_ushiftRight,
    BitVec.getLsbD_allOnes, BitVec.getLsbD_setWidth, getLsbD_byteAt]
  by_cases hlow : i < 8
  · have hmask : 32 - 8 * (n + 1) + i < 32 := by omega
    simp [hi, hlow, hmask]
  · have hmask : (32 - 8 * n + (i - 8) < 32) = (32 - 8 * (n + 1) + i < 32) := by
      rw [eq_iff_iff]; omega
    simp [hi, hlow, hmask, show 8 + (i - 8) = i by omega]

/-- A host read of bytes that are those of `v` returns the low bytes of `v`. -/
theorem hostValue_of_bytes {s : State} {p : Fin 16} {reg : HostReg} (n k : Nat) (v : Word) (hn : n ≤ 4)
    (h : ∀ j, j < n → hostByte s p reg (k + j) = some (byteAt v j)) :
    hostValue s p reg k n = some (v &&& (BitVec.allOnes 32 >>> (32 - 8 * n))) := by
  induction n generalizing k v with
  | zero => simp [hostValue]
  | succ n ih =>
    have hfirst : hostByte s p reg k = some (byteAt v 0) := h 0 (Nat.succ_pos n)
    have hrest : hostValue s p reg (k + 1) n = some ((v >>> 8) &&& (BitVec.allOnes 32 >>> (32 - 8 * n))) := by
      refine ih (k + 1) (v >>> 8) (by omega) fun j hj => ?_
      rw [show k + 1 + j = k + (j + 1) by omega, h (j + 1) (by omega)]
      refine congrArg some (BitVec.eq_of_getLsbD_eq fun i hi => ?_)
      rw [getLsbD_byteAt, getLsbD_byteAt, BitVec.getLsbD_ushiftRight,
        show 8 * (j + 1) + i = 8 + (8 * j + i) by omega]
    rw [hostValue, hfirst, hrest]
    exact congrArg some (shift_or_byte v n (by omega))

/-! ## What a byte of the host map depends on -/

/-- A port's rows show its registers and the four shared ones (20_memory.md R71). -/
theorem hostByte_congr {s t : State} {p : Fin 16} (hp : t.port p = s.port p) (hl : t.lockOwner = s.lockOwner)
    (hr : t.retry = s.retry) (hf : t.fsm = s.fsm) (hv : t.rcValid = s.rcValid) (reg : HostReg) (k : Nat) :
    hostByte t p reg k = hostByte s p reg k := by
  cases reg <;> simp only [hostByte, hp, hl, hr, hf, hv]

/-- A register of a host port that holds one value of `w` bits: how the host map reads and writes it, and that
no other register is part of it (20_memory.md R71). -/
structure ScalarReg (reg : HostReg) (w : Nat) (get : Port → Option (BitVec w))
    (put : Option (BitVec w) → Port → Port) : Prop where
  noBuffer : ¬ (reg = .txbuf ∨ reg = .hbuf)
  byte : ∀ s p k, 8 * k < w → hostByte s p reg k = (get (s.port p)).map (byteAt · k)
  write : ∀ s p k size v, hostWrite p reg k size v s = writeScalar s p (get (s.port p)) put k size v
  get_put : ∀ x q, get (put x q) = x
  busy : ∀ x q, (put x q).busy = q.busy
  others : ∀ reg' s p x k, reg' ≠ reg → hostByte (s.modPort p (put x)) p reg' k = hostByte s p reg' k

/-- A byte buffer of a host port that the host may write. -/
structure BufferReg (reg : HostReg) (get : Port → Memory) (put : (Memory → Memory) → Port → Port) : Prop where
  byte : ∀ s p k, hostByte s p reg k = Memory.get (get (s.port p)) k
  write : ∀ s p k size v,
    hostWrite p reg k size v s = s.modPort p (put fun m => Memory.write m k (lowBytes size v))
  get_put : ∀ f q, get (put f q) = f (get q)
  busy : ∀ f q, (put f q).busy = q.busy
  others : ∀ reg' s p f k, reg' ≠ reg → hostByte (s.modPort p (put f)) p reg' k = hostByte s p reg' k

/-- The scalar registers of more than one byte that the host may write. -/
theorem wideRegs :
    ScalarReg .cmd 16 Port.cmd (fun x q => { q with cmd := x })
    ∧ ScalarReg .len 16 Port.len (fun x q => { q with len := x })
    ∧ ScalarReg .max 16 Port.max (fun x q => { q with max := x })
    ∧ ScalarReg .seed 16 Port.seed (fun x q => { q with seed := x })
    ∧ ScalarReg .arg 32 Port.arg (fun x q => { q with arg := x })
    ∧ ScalarReg .hCmd 16 Port.hCmd (fun x q => { q with hCmd := x })
    ∧ ScalarReg .hLen 16 Port.hLen (fun x q => { q with hLen := x })
    ∧ ScalarReg .hRsv 16 Port.hRsv (fun x q => { q with hRsv := x })
    ∧ ScalarReg .hCks 16 Port.hCks (fun x q => { q with hCks := x }) := by
  refine ⟨?_, ?_, ?_, ?_, ?_, ?_, ?_, ?_, ?_⟩
  all_goals
    refine ⟨by decide, fun _ _ _ _ => rfl, fun _ _ _ _ _ => rfl, fun _ _ => rfl, fun _ _ => rfl,
      fun reg' s p x k h => ?_⟩
    simp only [hostByte, State.port_modPort_self]
    cases reg' <;> first | rfl | exact absurd rfl h

/-- The scalar registers of one byte that the host may write, but for `OPC`. -/
theorem byteRegs :
    ScalarReg .hbn 8 Port.hbn (fun x q => { q with hbn := x })
    ∧ ScalarReg .hSt 8 Port.hSt (fun x q => { q with hSt := x }) := by
  constructor
  all_goals
    refine ⟨by decide, fun s p k hk => ?_, fun _ _ _ _ _ => rfl, fun _ _ => rfl, fun _ _ => rfl,
      fun reg' s p x k h => ?_⟩
    · obtain rfl : k = 0 := by omega
      simp [hostByte, byteAt_zero]
    · simp only [hostByte, State.port_modPort_self]
      cases reg' <;> first | rfl | exact absurd rfl h

/-- The buffers that the host may write. -/
theorem bufferRegs :
    BufferReg .hbuf Port.hbuf (fun f q => { q with hbuf := f q.hbuf })
    ∧ BufferReg .txbuf Port.txbuf (fun f q => { q with txbuf := f q.txbuf }) := by
  constructor
  all_goals
    refine ⟨fun _ _ _ => rfl, fun _ _ _ _ _ => rfl, fun _ _ => rfl, fun _ _ => rfl, fun reg' s p f k h => ?_⟩
    simp only [hostByte, State.port_modPort_self]
    cases reg' <;> first | rfl | exact absurd rfl h

/-- A row the host may write is `OPC`'s, a scalar register's of the row's size, or a buffer's. -/
theorem hostMap_writable {accMax : Nat} {r : Row} (hm : r ∈ hostMap accMax) (hw : r.writable = true)
    (hopc : r.reg ≠ .opc) :
    (∃ get put, ScalarReg r.reg (8 * r.size) get put) ∨ ∃ get put, BufferReg r.reg get put := by
  obtain ⟨cmd, len, max, seed, arg, hCmd, hLen, hRsv, hCks⟩ := wideRegs
  obtain ⟨hbn, hSt⟩ := byteRegs
  obtain ⟨hbuf, txbuf⟩ := bufferRegs
  have hmem : r ∈ (hostMap accMax).filter Row.writable := List.mem_filter.mpr ⟨hm, hw⟩
  simp only [hostMap, List.filter_cons, List.filter_nil, if_true, Bool.false_eq_true, if_false, List.mem_cons,
    List.not_mem_nil, or_false] at hmem
  rcases hmem with rfl | rfl | rfl | rfl | rfl | rfl | rfl | rfl | rfl | rfl | rfl | rfl | rfl | rfl
  · exact absurd rfl hopc
  · exact .inl ⟨_, _, cmd⟩
  · exact .inl ⟨_, _, len⟩
  · exact .inl ⟨_, _, max⟩
  · exact .inl ⟨_, _, seed⟩
  · exact .inl ⟨_, _, hbn⟩
  · exact .inl ⟨_, _, hSt⟩
  · exact .inl ⟨_, _, arg⟩
  · exact .inl ⟨_, _, hCmd⟩
  · exact .inl ⟨_, _, hLen⟩
  · exact .inl ⟨_, _, hRsv⟩
  · exact .inl ⟨_, _, hCks⟩
  · exact .inr ⟨_, _, hbuf⟩
  · exact .inr ⟨_, _, txbuf⟩

/-! ## A host write -/

/-- What a host write of `size` bytes from byte `k` of a register does to the bytes of the host map: those it
names hold the value's, every other one stays; but where a scalar register held no value, its other bytes are
free (20_memory.md R73, R76; log entry 9). -/
structure HostWrote (s t : State) (p : Fin 16) (r : Row) (k size : Nat) (v : Word) : Prop where
  inside : ∀ j, j < size → hostByte t p r.reg (k + j) = some (byteAt v j)
  kept : ∀ j b, j < r.size → (j < k ∨ k + size ≤ j) → hostByte s p r.reg j = some b →
    hostByte t p r.reg j = some b
  buffer : r.reg = .txbuf ∨ r.reg = .hbuf → ∀ j, (j < k ∨ k + size ≤ j) →
    hostByte t p r.reg j = hostByte s p r.reg j
  others : ∀ q reg j, q ≠ p ∨ reg ≠ r.reg → hostByte t q reg j = hostByte s q reg j
  busy : (t.port p).busy = (s.port p).busy

theorem hostByte_modPort_of_ne {s : State} {p q : Fin 16} (h : q ≠ p) (f : Port → Port) (reg : HostReg) (k : Nat) :
    hostByte (s.modPort p f) q reg k = hostByte s q reg k :=
  hostByte_congr (s.port_modPort_of_ne p q f h) rfl rfl rfl rfl reg k

/-- A host write to a scalar register updates its port with the patched value, whatever becomes of the counter of
the free values. -/
theorem hostByte_writeScalar {w : Nat} (s : State) (p : Fin 16) (old : Option (BitVec w))
    (put : Option (BitVec w) → Port → Port) (k size : Nat) (v : Word) (q : Fin 16) (reg : HostReg) (j : Nat) :
    hostByte (writeScalar s p old put k size v) q reg j
      = hostByte (s.modPort p (put (some (patch old k size v (Config.freeWord s.free))))) q reg j := by
  unfold writeScalar
  dsimp only
  split
  · exact hostByte_congr rfl rfl rfl rfl rfl reg j
  · rfl

theorem writeScalar_port {w : Nat} (s : State) (p : Fin 16) (old : Option (BitVec w))
    (put : Option (BitVec w) → Port → Port) (k size : Nat) (v : Word) :
    (writeScalar s p old put k size v).port p
      = put (some (patch old k size v (Config.freeWord s.free))) (s.port p) := by
  unfold writeScalar
  dsimp only
  split
  · exact s.port_modPort_self p _
  · exact s.port_modPort_self p _

/-- A write to a scalar register (20_memory.md R73, R76). -/
theorem ScalarReg.wrote {r : Row} {get : Port → Option (BitVec (8 * r.size))}
    {put : Option (BitVec (8 * r.size)) → Port → Port} (h : ScalarReg r.reg (8 * r.size) get put) (s : State)
    (p : Fin 16) {k size : Nat} (v : Word) (hk : k + size ≤ r.size) :
    HostWrote s (hostWrite p r.reg k size v s) p r k size v := by
  rw [h.write]
  have hin : 8 * (k + size) ≤ 8 * r.size := by omega
  refine ⟨fun j hj => ?_, fun j b hj hout hb => ?_, fun hreg => ?_, fun q reg j hne => ?_, ?_⟩
  · rw [h.byte _ _ _ (by omega), writeScalar_port, h.get_put]
    exact congrArg some (byteAt_patch_inside _ _ _ hin hj)
  · rw [h.byte _ _ _ (by omega)] at hb ⊢
    obtain ⟨old, hold, rfl⟩ := Option.map_eq_some_iff.mp hb
    rw [writeScalar_port, h.get_put, hold]
    exact congrArg some (byteAt_patch_outside _ _ _ hin hout)
  · exact absurd hreg h.noBuffer
  · rw [hostByte_writeScalar]
    by_cases hq : q = p
    · subst hq
      exact h.others _ _ _ _ _ (hne.resolve_left (not_not_intro rfl))
    · exact hostByte_modPort_of_ne hq _ _ _
  · rw [writeScalar_port, h.busy]

theorem lowBytes_getElem? (n j : Nat) (v : Word) (h : j < n) : (lowBytes n v)[j]? = some (byteAt v j) := by
  simp [lowBytes, h]

/-- A write to a buffer, byte by byte (10_state.md R62). -/
theorem BufferReg.wrote {r : Row} {get : Port → Memory} {put : (Memory → Memory) → Port → Port}
    (h : BufferReg r.reg get put) (s : State) (p : Fin 16) (k size : Nat) (v : Word) :
    HostWrote s (hostWrite p r.reg k size v s) p r k size v := by
  rw [h.write]
  have outside : ∀ j, (j < k ∨ k + size ≤ j) →
      hostByte (s.modPort p (put fun m => Memory.write m k (lowBytes size v))) p r.reg j = hostByte s p r.reg j := by
    intro j hout
    rw [h.byte, h.byte, State.port_modPort_self, h.get_put, Memory.get_write_out _ _ _ _ (by simpa using hout)]
  refine ⟨fun j hj => ?_, fun j b _ hout hb => ?_, fun _ => outside, fun q reg j hne => ?_, ?_⟩
  · rw [h.byte, State.port_modPort_self, h.get_put, Memory.get_write, if_pos (by simpa using hj),
      Nat.add_sub_cancel_left, lowBytes_getElem? _ _ _ hj]
  · rw [outside j hout, hb]
  · by_cases hq : q = p
    · subst hq
      exact h.others _ _ _ _ _ (hne.resolve_left (not_not_intro rfl))
    · exact hostByte_modPort_of_ne hq _ _ _
  · rw [State.port_modPort_self, h.busy]

/-- A host write inside a writable row but `OPC`'s (20_memory.md R73, R74). -/
theorem hostWrite_wrote {accMax : Nat} {r : Row} (hm : r ∈ hostMap accMax) (hw : r.writable = true)
    (hopc : r.reg ≠ .opc) (s : State) (p : Fin 16) {k size : Nat} (v : Word) (hk : k + size ≤ r.size) :
    HostWrote s (hostWrite p r.reg k size v s) p r k size v := by
  rcases hostMap_writable hm hw hopc with ⟨get, put, hreg⟩ | ⟨get, put, hreg⟩
  · exact hreg.wrote s p v hk
  · exact hreg.wrote s p k size v

/-- A host write that is answered passed every check (60_exceptions.md R295). -/
theorem hostAccess_write_next {s t : State} {a : Access} {v : Word} {r : Row} (hv : a.data = some v)
    (hr : findRow s.cfg.accMax (addrOffset a.addr) a.size = some r) (h : hostAccess a s = .next t) :
    (addrPort a.addr).val < s.cfg.nports ∧ aligned a.addr a.size = true
      ∧ (s.port (addrPort a.addr)).busy = false ∧ r.writable = true
      ∧ t = hostWrite (addrPort a.addr) r.reg (addrOffset a.addr - r.off) a.size v s := by
  have hdata : a.data.isSome = true := by rw [hv]; rfl
  by_cases hp : (addrPort a.addr).val < s.cfg.nports
  case neg => rw [hostAccess_unmapped (.inl (Nat.not_lt.mp hp))] at h; cases h
  cases ha : aligned a.addr a.size with
  | false => rw [hostAccess_misaligned hp hr ha] at h; cases h
  | true =>
  cases hb : (s.port (addrPort a.addr)).busy with
  | true => rw [hostAccess_busy hp hr ha hb (.inl hdata)] at h; cases h
  | false =>
  cases hw : r.writable with
  | false => rw [hostAccess_readOnly hp hr ha hb hdata hw] at h; cases h
  | true =>
    rw [hostAccess_write hp hr ha hb hv hw] at h
    cases h
    exact ⟨hp, rfl, rfl, rfl, rfl⟩

theorem aligned_size_le {addr : BitVec 24} {size : Nat} (h : aligned addr size = true) : size ≤ 4 := by
  simp only [aligned, Bool.and_eq_true, Bool.or_eq_true, beq_iff_eq] at h
  omega

/-- Settles O50: the bytes that a write names are the value's, so that a read puts the value together again, and
the write reaches nothing but its register and the counter of the free values. -/
theorem hostWriteThenRead : Obligations.HostWriteThenRead := by
  intro s t addr size v r hr hopc hwrite
  obtain ⟨hp, ha, hb, hw, rfl⟩ := hostAccess_write_next (a := ⟨addr, size, some v⟩) rfl hr hwrite
  obtain ⟨hm, hoff, hend⟩ := findRow_some hr
  have hwrote := hostWrite_wrote hm hw hopc s (addrPort addr) (k := addrOffset addr - r.off) (size := size) v
    (by omega)
  have hkept := hostWrite_kept (addrPort addr) r.reg (addrOffset addr - r.off) size v s
  dsimp only at hkept ⊢
  generalize hostWrite (addrPort addr) r.reg (addrOffset addr - r.off) size v s = t at hwrote hkept ⊢
  have hcfg : t.cfg = s.cfg := by rw [hkept]
  refine ⟨?_, ?_, ?_, ?_, hcfg, ?_, ?_, ?_, fun p reg k => ⟨?_, fun hne => hwrote.others p reg k hne⟩⟩
  · exact hostAccess_read (a := ⟨addr, size, none⟩) (by rw [hcfg]; exact hp) (by rw [hcfg]; exact hr) ha
      (.inl (hwrote.busy.trans hb)) rfl (hostValue_of_bytes size _ v (aligned_size_le ha) hwrote.inside)
  · rw [hkept]; exact ⟨rfl, rfl, rfl, rfl, rfl, rfl⟩
  · rw [hkept]; exact ⟨rfl, rfl, rfl, rfl, rfl, rfl⟩
  · rw [hkept]; exact ⟨rfl, rfl, rfl⟩
  · rw [hkept]
  · rw [hkept]
  · rw [hkept]
  · rintro rfl rfl hk hout
    exact ⟨fun b => hwrote.kept k b hk hout, fun hreg => hwrote.buffer hreg k hout⟩

end Sys2Proof.Machine
end

section
/-! An operation's results, and the retry cache of a `SEND`, change with its completion only (20_memory.md R87;
60_exceptions.md R297; 42_protocol_engine.md R190). -/

namespace Sys2Proof.Machine

/-! ## Updates that no result shows -/

/-- The issuing port stays the same, and every port keeps its results and its `BUSY`. -/
structure ResultsHeld (s t : State) : Prop where
  turn : t.turn = s.turn
  ports : ∀ p : Fin 16, resultsKept (s.port p) (t.port p) ∧ (t.port p).busy = (s.port p).busy

theorem resultsKept_refl (p : Port) : resultsKept p p := ⟨rfl, rfl, rfl, rfl, rfl, rfl, rfl, rfl, rfl, rfl⟩

theorem ResultsHeld.of_ports {s t : State} (ht : t.turn = s.turn) (hp : t.ports = s.ports) : ResultsHeld s t where
  turn := ht
  ports p := by
    have hport : t.port p = s.port p := by rw [State.port, hp]; rfl
    rw [hport]
    exact ⟨resultsKept_refl _, rfl⟩

theorem ResultsHeld.trans {s t u : State} (h : ResultsHeld s t) (k : ResultsHeld t u) : ResultsHeld s u where
  turn := k.turn.trans h.turn
  ports p := by
    obtain ⟨⟨h1, h2, h3, h4, h5, h6, h7, h8, h9, h10⟩, hbusy⟩ := h.ports p
    obtain ⟨⟨k1, k2, k3, k4, k5, k6, k7, k8, k9, k10⟩, kbusy⟩ := k.ports p
    exact ⟨⟨k1.trans h1, k2.trans h2, k3.trans h3, k4.trans h4, k5.trans h5, k6.trans h6, k7.trans h7,
      k8.trans h8, k9.trans h9, k10.trans h10⟩, kbusy.trans hbusy⟩

theorem ResultsHeld.modCur (s : State) {f : Port → Port} (hf : ∀ p, resultsKept p (f p) ∧ (f p).busy = p.busy) :
    ResultsHeld s (s.modCur f) where
  turn := rfl
  ports p := by
    by_cases hp : p = s.turn
    · subst hp
      rw [State.port_modCur_turn]
      exact hf _
    · rw [State.port_modCur_of_ne s p f hp]
      exact ⟨resultsKept_refl _, rfl⟩

/-- Neither a result nor the retry cache shows the update. -/
structure Quiet (s t : State) : Prop where
  results : ResultsHeld s t
  cache : CacheKept s t

theorem Quiet.trans {s t u : State} (h : Quiet s t) (k : Quiet t u) : Quiet s u :=
  ⟨h.results.trans k.results, h.cache.trans k.cache⟩

theorem Quiet.refl (s : State) : Quiet s s := ⟨.of_ports rfl rfl, .refl s⟩

theorem Quiet.setFsm {s t : State} (h : Quiet s t) (f : Fsm) : Quiet s (t.setFsm f) :=
  h.trans ⟨.of_ports rfl rfl, rfl, rfl, rfl, rfl⟩

theorem Quiet.setEngine {s t : State} (h : Quiet s t) (e : Option Engine) : Quiet s (t.setEngine e) :=
  h.trans ⟨.of_ports rfl rfl, rfl, rfl, rfl, rfl⟩

theorem Quiet.chanWrite (s : State) (bs : List Byte) : Quiet s (chanWrite bs s).2 :=
  ⟨.of_ports rfl rfl, rfl, rfl, rfl, rfl⟩

theorem Quiet.chanRead (s : State) (n : Nat) : Quiet s (chanRead n s).2 := ⟨.of_ports rfl rfl, rfl, rfl, rfl, rfl⟩

theorem Quiet.stageHeader {s t : State} (h : Quiet s t) (hd : List Byte) : Quiet s (stageHeader hd t) :=
  h.trans ⟨.of_ports rfl rfl, rfl, rfl, rfl, rfl⟩

theorem Quiet.stagePayload {s t : State} (h : Quiet s t) (pay : List Byte) : Quiet s (stagePayload pay t) :=
  h.trans ⟨.of_ports rfl rfl, rfl, rfl, rfl, rfl⟩

/-- The checks on a reply change `RXBUF` at most (42_protocol_engine.md R195). -/
theorem Quiet.judgeReply {s t : State} (h : Quiet s t) (cmd max : Half) (r : RepHeader) (hd pay : List Byte) :
    Quiet s (judgeReply cmd max r hd pay t).1 := by
  refine h.trans ⟨?_, CacheKept.judgeReply cmd max r hd pay t⟩
  unfold Sys2Proof.Machine.judgeReply deviceReply localReply
  dsimp only
  split
  · exact .of_ports rfl rfl
  split
  · split <;> exact .of_ports rfl rfl
  split
  · exact .of_ports rfl rfl
  split
  · exact .of_ports rfl rfl
  split
  · exact .of_ports rfl rfl
  · have hcopied := ResultsHeld.modCur t (f := fun p => { p with rxbuf := Memory.write p.rxbuf 0 pay })
      fun p => ⟨resultsKept_refl p, rfl⟩
    exact hcopied.trans (.of_ports rfl rfl)

theorem requestSent_results (s : State) (hd pay : List Byte) : ResultsHeld s (requestSent hd pay s) := by
  unfold requestSent
  split <;> exact .of_ports rfl rfl

/-- An arm that asks for another chunk has written the accumulator only (43_command_dispatch.md R256). -/
theorem armEnd_none {codec : Codec} {x : State × Result} {u : State} (h : armEnd codec x = .ok (u, none)) :
    ResultsHeld x.1 u := by
  have once : ∀ y : Except Fault (State × Result), y.map (fun z => (z.1, some z.2)) ≠ .ok (u, none) := by
    intro y
    cases y <;> nofun
  cases codec
  case none => cases h
  case rdF32 => exact absurd h (once _)
  case rdU32 => exact absurd h (once _)
  case rdU8 => exact absurd h (once _)
  case rdVer => exact absurd h (once _)
  case rdId => exact absurd h (once _)
  case wrPct => cases h
  case rdChunk =>
    simp only [armEnd, acceptChunk] at h
    split at h
    · cases h
    · obtain ⟨bytes, _, h⟩ := bind_eq_ok.mp h
      obtain ⟨n, _, h⟩ := bind_eq_ok.mp h
      split at h
      · cases h
      · split at h
        · cases h
        · cases h
          exact ResultsHeld.modCur _ (f := fun p => { p with acc := _, accN := _ })
            fun p => ⟨resultsKept_refl p, rfl⟩

/-! ## The two kinds of engine step -/

/-- A step after which the operation of `e` is still under way. -/
structure GoesOn (e : Engine) (s t : State) : Prop where
  results : ResultsHeld s t
  engine : t.engine.isSome = true
  cache : e.job = .send → CacheKept s t

/-- A step that ended the issuing port's operation. -/
structure JobEnded (s t : State) : Prop where
  engine : t.engine = none
  active : t.active = noPort
  busy : (t.port s.turn).busy = false
  kind : (t.port s.turn).resKind.isSome = true
  status : (t.port s.turn).resStatus.isSome = true
  len : (t.port s.turn).resLen.isSome = true

theorem Quiet.goesOn {s t : State} (h : Quiet s t) (e d : Engine) : GoesOn e s (t.setEngine (some d)) :=
  ⟨(h.setEngine _).results, rfl, fun _ => (h.setEngine _).cache⟩

theorem endChannelOp_jobEnded {s u : State} (ht : u.turn = s.turn) (took : Bool) (k : Kind) (st : Byte) (l : Half) :
    JobEnded s ((endChannelOp took k st l u).setEngine none) := by
  have hport : ((endChannelOp took k st l u).setEngine none).port s.turn
      = (finish k st (some l) (releaseChannel took u)).cur := by
    rw [← ht, State.setEngine_port, State.cur, endChannelOp, finish_turn, releaseChannel_turn]
  obtain ⟨hbusy, hkind, hstatus⟩ := finish_ended k st (some l) (releaseChannel took u)
  have hlen : (finish k st (some l) (releaseChannel took u)).cur.resLen = some l := by rw [finish_cur]
  rw [← hport] at hbusy hkind hstatus hlen
  exact ⟨rfl, by rw [endChannelOp_eq]; rfl, hbusy, hkind, hstatus, by rw [hlen]; rfl⟩

theorem endExchange_jobEnded {s : State} {x : State × Result} (ht : x.1.turn = s.turn) (took : Bool) :
    JobEnded s ((endExchange took x).setEngine none) :=
  endChannelOp_jobEnded (u := setResends x.2.resends x.1) ht took x.2.kind x.2.status x.2.len

/-- The end of a job writes the result, or the job asks for another chunk and shows nothing. -/
theorem endJob_cases {e : Engine} {s t : State} {x : State × Result} (hx : ResultsHeld s x.1)
    (h : endJob e x = .ok t) : GoesOn e s t ∨ JobEnded s t := by
  unfold endJob at h
  split at h
  · cases h; exact .inr (endChannelOp_jobEnded hx.turn _ _ _ _)
  · cases h; exact .inr (endChannelOp_jobEnded hx.turn _ _ _ _)
  · cases h; exact .inr (endExchange_jobEnded hx.turn _)
  · cases h; exact .inr (endExchange_jobEnded hx.turn _)
  · next codec id hjob =>
    obtain ⟨⟨u, res⟩, hy, h⟩ := bind_eq_ok.mp h
    cases res with
    | some r =>
      cases h
      exact .inr (endExchange_jobEnded ((TxRuns.armEnd hy).turn.trans hx.turn) _)
    | none =>
      cases h
      refine .inl ⟨(hx.trans (armEnd_none hy)).trans (.of_ports rfl rfl), rfl, fun hsend => ?_⟩
      rw [hjob] at hsend
      cases hsend

/-! ## One engine step -/

theorem Quiet.sendDone {s t : State} (h : Quiet s t) (e : Engine) (ok : Bool) : GoesOn e s (sendDone e ok t) := by
  cases ok
  · exact (h.setFsm _).goesOn e _
  · exact h.goesOn e _

/-- A `SEND` whose request has gone whole does not cache it yet (42_protocol_engine.md R190). -/
theorem Quiet.requestWritten {s t : State} (h : Quiet s t) (e : Engine) (hd pay : List Byte) :
    GoesOn e s (requestWritten e hd pay t) := by
  unfold Sys2Proof.Machine.requestWritten
  split
  · exact (h.setFsm _).goesOn e _
  · next hjob =>
    exact ⟨(h.results.trans (requestSent_results t hd pay)).trans (.of_ports rfl rfl), rfl,
      fun hsend => absurd hsend hjob⟩

theorem Quiet.receiveDone {s : State} {x : State × Reply} (h : Quiet s x.1) (e : Engine) :
    GoesOn e s (receiveDone e x) := h.goesOn e _

theorem Quiet.resendDone {s t : State} (h : Quiet s t) (e : Engine) (ok : Bool) :
    GoesOn e s (resendDone e ok t) := by
  cases ok <;> exact (h.setFsm _).goesOn e _

theorem afterSend_cases {e : Engine} {ok : Bool} {s t : State} (h : afterSend e ok s = .ok t) :
    GoesOn e s t ∨ JobEnded s t := by
  unfold afterSend at h
  split at h
  · split at h
    · exact endJob_cases (x := (s, _)) (Quiet.refl s).results h
    · obtain ⟨max, _, h⟩ := bind_eq_ok.mp h
      cases h
      exact .inl (((Quiet.refl s).setFsm _).goesOn e _)
  · exact endJob_cases (x := (s, _)) (Quiet.refl s).results h

theorem afterReceive_cases {e : Engine} {r : Reply} {s t : State} (h : afterReceive e r s = .ok t) :
    GoesOn e s t ∨ JobEnded s t := by
  unfold afterReceive at h
  split at h
  · cases h; exact .inl (((Quiet.refl s).setFsm _).goesOn e _)
  · exact endJob_cases (x := (s, _)) (Quiet.refl s).results h

/-- An engine step goes on with its operation and shows no result, or ends it. -/
theorem engineMove_cases {e : Engine} {s t : State} (h : engineMove e s = .ok t) :
    GoesOn e s t ∨ JobEnded s t := by
  unfold engineMove at h
  split at h
  case h_1 payload _ =>
    have hw := Quiet.chanWrite s (buildReq s.cfg e.cmd payload)
    dsimp only at h
    split at h
    · cases h; exact .inl (hw.sendDone e false)
    split at h
    · cases h; exact .inl (hw.requestWritten e _ payload)
    · cases h; exact .inl (hw.goesOn e _)
  case h_2 header payload _ =>
    have hw := Quiet.chanWrite s payload
    dsimp only at h
    split at h
    · cases h; exact .inl (hw.sendDone e false)
    · cases h; exact .inl (hw.requestWritten e header payload)
  case h_3 ok _ => exact afterSend_cases h
  case h_4 header payload _ => exact endJob_cases (x := (_, _)) (requestSent_results s header payload) h
  case h_5 =>
    have hr := Quiet.chanRead s 6
    dsimp only at h
    split at h
    · cases h; exact .inl ((hr.setFsm _).receiveDone (x := localReply _ _ _) e)
    split at h
    · cases h
    split at h
    · cases h; exact .inl (((hr.stageHeader _).judgeReply _ _ _ _ _).receiveDone e)
    · cases h; exact .inl ((hr.stageHeader _).goesOn e _)
  case h_6 header _ =>
    split at h
    · cases h; exact .inl (((Quiet.refl s).setFsm _).receiveDone (x := localReply _ _ _) e)
    next r _ =>
    have hr := Quiet.chanRead s r.len.toNat
    dsimp only at h
    split at h
    · cases h; exact .inl ((hr.setFsm _).receiveDone (x := localReply _ _ _) e)
    · cases h; exact .inl (((hr.stagePayload _).judgeReply _ _ _ _ _).receiveDone e)
  case h_7 r _ => exact afterReceive_cases h
  case h_8 =>
    obtain ⟨header, _, h⟩ := bind_eq_ok.mp h
    obtain ⟨payload, _, h⟩ := bind_eq_ok.mp h
    have hw := Quiet.chanWrite s header
    dsimp only at h
    split at h
    · cases h; exact .inl (hw.resendDone e false)
    split at h
    · cases h; exact .inl (hw.resendDone e true)
    · cases h; exact .inl (hw.goesOn e _)
  case h_9 =>
    obtain ⟨payload, _, h⟩ := bind_eq_ok.mp h
    cases h
    exact .inl ((Quiet.chanWrite s payload).resendDone e _)
  case h_10 => exact endJob_cases (x := (s, _)) (Quiet.refl s).results h

/-- Settles O59: only the end of a job writes results, and only it caches the request of a `SEND`. -/
theorem resultsTogether : Obligations.ResultsTogether := by
  intro s t e he h
  have hmove : engineMove e s = .ok t := by
    simp only [engineStep, he] at h
    exact outcome_next.mp h
  rcases engineMove_cases hmove with hon | hend
  · refine .inl ⟨hon.results.ports, hon.engine, fun hsend => ?_⟩
    obtain ⟨hvalid, hhdr, hlen, hpay⟩ := hon.cache hsend
    exact ⟨hvalid, hhdr, hlen, hpay⟩
  · exact .inr ⟨hend.engine, hend.active, hend.busy, hend.kind, hend.status, hend.len,
      (engineMove_framed hmove).others⟩

end Sys2Proof.Machine
end

section
/-! The decoder and the encoder of the five spaces are inverse to each other (30_encoding.md). -/

namespace Sys2Proof.Machine

/-! ## Words decode to their instruction -/

/-- A request frame whose `length` counts its payload decodes to itself (30_encoding.md R104, R106). -/
theorem decodeRequest_encReq (en : Endian) {cmd len cks : Half} {payload : List Byte}
    (hlen : len.toNat = payload.length) (rest : List Byte) :
    decodeRequest en (encReq en ⟨cmd, len, 0#16, cks⟩ ++ (payload ++ rest))
      = .ok (.frameRequest cmd len cks payload, rest) := by
  simp [decodeRequest, decReq_encReq_append, hlen]

/-- A reply frame whose `length` counts its payload decodes to itself (30_encoding.md R104, R108). -/
theorem decodeReply_encRep (en : Endian) {cmd status : Byte} {len cks : Half} {payload : List Byte}
    (hlen : len.toNat = payload.length) (rest : List Byte) :
    decodeReply en (encRep en ⟨cmd, status, len, cks⟩ ++ (payload ++ rest))
      = .ok (.frameReply cmd status len cks payload, rest) := by
  simp [decodeReply, decRep_encRep_append, hlen]

/-- A command identifier is read in the byte order it was written in (30_encoding.md R113). -/
theorem decode_command_pack16 (en : Endian) (c : Half) (rest : List Byte) :
    decode en .command (pack16 en c ++ rest) = (decodeCommand c).map fun i => (i, rest) := by
  obtain ⟨b0, b1, hbytes, hvalue⟩ := pack16_cases en c
  simp [hbytes, decode, hvalue]

/-- Settles O1: a frame by its header's round trip and its payload's count, a command by its byte order, and an
operation code or a mux selection by the tables. -/
theorem decodeOfEncode : Obligations.DecodeOfEncode := by
  intro en i rest hwf
  cases i with
  | frameRequest cmd len cks payload =>
    have hlen : len.toNat = payload.length := beq_iff_eq.mp hwf
    rw [encode, List.append_assoc]
    exact decodeRequest_encReq en hlen rest
  | frameReply cmd status len cks payload =>
    have hlen : len.toNat = payload.length := beq_iff_eq.mp hwf
    rw [encode, List.append_assoc]
    exact decodeReply_encRep en hlen rest
  | cmdVersionQuery => exact decode_command_pack16 en 0x0042#16 rest
  | cmdShutdown => exact decode_command_pack16 en 0x0062#16 rest
  | crc | encreq | decreq | encrep | decrep => rfl
  | lock | unlock | setretry => rfl
  | send | receive | exchange | transact => rfl
  | call => rfl
  | callNone id | callF32 id | callU32 id | callU8 id => rfl
  | callVer id | callId id | callChunk id | callPct id => rfl

/-- Settles O3: each line is a word of its instruction, which decodes to it by `decodeOfEncode`. -/
theorem decodeWords : Obligations.DecodeWords :=
  ⟨decodeOfEncode .le .crc [] rfl, decodeOfEncode .le .decrep [] rfl, decodeOfEncode .le .setretry [] rfl,
    decodeOfEncode .le .transact [] rfl, decodeOfEncode .le .call [] rfl,
    decodeOfEncode .le (.callVer 0x42) [] rfl, decodeOfEncode .le (.callPct 0x10) [] rfl,
    decodeOfEncode .le .cmdVersionQuery [] rfl, decodeOfEncode .be .cmdShutdown [] rfl,
    decodeOfEncode .le (.frameRequest 0x0042 0 0x1234 []) [] rfl,
    decodeOfEncode .le (.frameReply 0x42 0x21 1 0xBEEF [0x07]) [0x99] rfl⟩

/-! ## What decodes is the instruction's words -/

/-- An operation code is the only word of its operation (30_encoding.md R101). -/
theorem encode_of_decodeOpc {c : Byte} {i : Instr} (h : decodeOpc c = .ok i) (en : Endian) :
    i.wf = true ∧ encode en i = (.opc, [c]) := by
  rcases decodeOpc_ok h with ⟨rfl, rfl⟩ | ⟨rfl, rfl⟩ | ⟨rfl, rfl⟩ | ⟨rfl, rfl⟩ | ⟨rfl, rfl⟩ | ⟨rfl, rfl⟩
    | ⟨rfl, rfl⟩ | ⟨rfl, rfl⟩ | ⟨rfl, rfl⟩ | ⟨rfl, rfl⟩ | ⟨rfl, rfl⟩ | ⟨rfl, rfl⟩ | ⟨rfl, rfl⟩
  all_goals exact ⟨rfl, rfl⟩

/-- No two kind codes select one codec (30_encoding.md R117). -/
theorem codecOf_some {kind : Byte} {codec : Codec} (h : codecOf kind = some codec) : kind = codecCode codec := by
  unfold codecOf at h
  split at h <;> cases h
  all_goals exact BitVec.eq_of_toNat_eq ‹_›

theorem encode_armOf (en : Endian) (codec : Codec) (id : Byte) :
    (armOf codec id).wf = true ∧ encode en (armOf codec id) = (.mux, [codecCode codec, id]) := by
  cases codec <;> exact ⟨rfl, rfl⟩

/-- A kind and an identifier are the only words of their arm (43_command_dispatch.md R247). -/
theorem encode_of_decodeKind {kind id : Byte} {i : Instr} (h : decodeKind kind id = .ok i) (en : Endian) :
    i.wf = true ∧ encode en i = (.mux, [kind, id]) := by
  unfold decodeKind at h
  split at h
  · next codec hcodec =>
    cases h
    rw [codecOf_some hcodec]
    exact encode_armOf en codec id
  · cases h

/-- A command identifier is the only word of its command (43_command_dispatch.md R243). -/
theorem encode_of_decodeCommand {c : Half} {i : Instr} (h : decodeCommand c = .ok i) (en : Endian) :
    i.wf = true ∧ encode en i = (.command, pack16 en c) := by
  unfold decodeCommand at h
  split at h
  · next hc => cases h; rw [show c = 0x0042#16 from BitVec.eq_of_toNat_eq hc]; exact ⟨rfl, rfl⟩
  · next hc => cases h; rw [show c = 0x0062#16 from BitVec.eq_of_toNat_eq hc]; exact ⟨rfl, rfl⟩
  · cases h

/-- The header that decodes from a list is the list's front, bit for bit (30_encoding.md R106). -/
theorem decReq_some {en : Endian} {bs : List Byte} {h : ReqHeader} (hd : decReq en bs = some h) :
    bs = encReq en h ++ bs.drop 8 := by
  unfold decReq at hd
  split at hd
  · cases hd; simp [encReq, pack16_unpack16]
  · cases hd

/-- The header that decodes from a list is the list's front, bit for bit (30_encoding.md R108). -/
theorem decRep_some {en : Endian} {bs : List Byte} {h : RepHeader} (hd : decRep en bs = some h) :
    bs = encRep en h ++ bs.drop 6 := by
  unfold decRep at hd
  split at hd
  · cases hd; simp [encRep, pack16_unpack16]
  · cases hd

/-- What decodes as a request frame is that frame (30_encoding.md R104 to R107). -/
theorem encode_of_decodeRequest {en : Endian} {bs rest : List Byte} {i : Instr}
    (h : decodeRequest en bs = .ok (i, rest)) :
    i.wf = true ∧ (encode en i).1 = .request ∧ bs = (encode en i).2 ++ rest := by
  unfold decodeRequest at h
  split at h
  · cases h
  next hdr hd =>
  split at h
  case isFalse => cases h
  next hrsv =>
  split at h
  · cases h
  next hlong =>
  cases h
  refine ⟨?_, rfl, ?_⟩
  · simp only [Instr.wf, beq_iff_eq, List.length_take]
    omega
  · rw [encode, ← hrsv, List.append_assoc, List.take_append_drop]
    exact decReq_some hd

/-- What decodes as a reply frame is that frame (30_encoding.md R104, R108). -/
theorem encode_of_decodeReply {en : Endian} {bs rest : List Byte} {i : Instr}
    (h : decodeReply en bs = .ok (i, rest)) :
    i.wf = true ∧ (encode en i).1 = .reply ∧ bs = (encode en i).2 ++ rest := by
  unfold decodeReply at h
  split at h
  · cases h
  next hdr hd =>
  split at h
  · cases h
  next hlong =>
  cases h
  refine ⟨?_, rfl, ?_⟩
  · simp only [Instr.wf, beq_iff_eq, List.length_take]
    omega
  · rw [encode, List.append_assoc, List.take_append_drop]
    exact decRep_some hd

/-- A decoder of a fixed front answers what it reads there, and leaves the bytes after it. -/
theorem map_rest_ok {r : Except DecodeError Instr} {tail rest : List Byte} {i : Instr}
    (h : (r.map fun j => (j, tail)) = .ok (i, rest)) : r = .ok i ∧ tail = rest := by
  cases r with
  | error e => cases h
  | ok j => cases h; exact ⟨rfl, rfl⟩

/-- Where the words read at the front are the instruction's, the bytes are its words and the rest. -/
theorem words_of_front {en : Endian} {sp : Space} {r : Except DecodeError Instr} {front tail rest : List Byte}
    {i : Instr} (hwords : ∀ j, r = .ok j → j.wf = true ∧ encode en j = (sp, front))
    (h : (r.map fun j => (j, tail)) = .ok (i, rest)) :
    i.wf = true ∧ (encode en i).1 = sp ∧ front ++ tail = (encode en i).2 ++ rest := by
  obtain ⟨hr, rfl⟩ := map_rest_ok h
  obtain ⟨hwf, henc⟩ := hwords i hr
  rw [henc]
  exact ⟨hwf, rfl, rfl⟩

/-- Settles O2: in each space the decoder's answer names the bytes it read. -/
theorem encodeOfDecode : Obligations.EncodeOfDecode := by
  intro en sp bs rest i h
  cases sp with
  | opc =>
    simp only [decode] at h
    split at h
    · next c tail => exact words_of_front (front := [c]) (fun j hd => encode_of_decodeOpc hd en) h
    · cases h
  | mux =>
    simp only [decode] at h
    split at h
    · next kind id tail => exact words_of_front (front := [kind, id]) (fun j hd => encode_of_decodeKind hd en) h
    · cases h
  | command =>
    simp only [decode] at h
    split at h
    · next b0 b1 tail =>
      rw [show b0 :: b1 :: tail = pack16 en (unpack16 en b0 b1) ++ tail by rw [pack16_unpack16]; rfl]
      exact words_of_front (fun j hd => encode_of_decodeCommand hd en) h
    · cases h
  | request => exact encode_of_decodeRequest h
  | reply => exact encode_of_decodeReply h

/-! ## The frames as instructions -/

/-- Settles O46: a request is one whole transmission of its words, a reply's words arrive behind the others. -/
theorem frameRows : Obligations.FrameRows := by
  refine ⟨fun s cmd len cks payload hwhole => ?_, fun s cmd st len cks payload => rfl⟩
  have hexec : exec (.frameRequest cmd len cks payload) s
      = .next (transmit (encReq s.cfg.endian ⟨cmd, len, 0#16, cks⟩) payload s).2 := rfl
  rw [hexec, transmit_whole _ _ s hwhole]
  rfl

end Sys2Proof.Machine
end

section
/-! How a host starts an operation, and what the port's next turn runs (30_encoding.md R101, R103). -/

namespace Sys2Proof.Machine

/-! ## The write to `OPC` -/

theorem addrPort_val (addr : BitVec 24) : (addrPort addr).val = addr.toNat / 0x100000 % 16 := by
  show (addr.extractLsb' 20 4).toNat = _
  rw [BitVec.extractLsb'_toNat, Nat.shiftRight_eq_div_pow]

theorem addrOffset_eq (addr : BitVec 24) : addrOffset addr = addr.toNat % 0x100000 := by
  rw [addrOffset, BitVec.extractLsb'_toNat, Nat.shiftRight_zero]

/-- A port's block begins at its number in bits 23:20 of the address (20_memory.md R71). -/
theorem blockStart_toNat (p : Fin 16) : (BitVec.ofNat 24 (p.val * 0x100000)).toNat = p.val * 0x100000 := by
  rw [BitVec.toNat_ofNat]
  omega

theorem addrPort_blockStart (p : Fin 16) : addrPort (BitVec.ofNat 24 (p.val * 0x100000)) = p := by
  apply Fin.ext
  rw [addrPort_val, blockStart_toNat]
  omega

theorem addrOffset_blockStart (p : Fin 16) : addrOffset (BitVec.ofNat 24 (p.val * 0x100000)) = 0 := by
  rw [addrOffset_eq, blockStart_toNat]
  omega

theorem aligned_byte (addr : BitVec 24) : aligned addr 1 = true := by simp [aligned, Nat.mod_one]

/-- The low byte of a value is its truncation. -/
theorem byteAt_zero_eq_setWidth {w : Nat} (v : BitVec w) : byteAt v 0 = v.setWidth 8 :=
  BitVec.eq_of_toNat_eq (by rw [byteAt_toNat]; simp)

/-- Settles O52: the block's first row is `OPC`'s, and a write that passes the checks takes effect. -/
theorem opcWriteStarts : Obligations.OpcWriteStarts := by
  intro s p v hp hbusy
  have hrow : findRow s.cfg.accMax 0 1 = some ⟨0x00000, 1, .opc, true⟩ := rfl
  have hwrite := hostAccess_write (s := s) (a := ⟨BitVec.ofNat 24 (p.val * 0x100000), 1, some v⟩)
    (r := ⟨0x00000, 1, .opc, true⟩) (by rwa [addrPort_blockStart]) (by rw [addrOffset_blockStart]; exact hrow)
    (aligned_byte _) (by rwa [addrPort_blockStart]) rfl rfl
  rw [hwrite, addrPort_blockStart, ← byteAt_zero_eq_setWidth]
  rfl

/-! ## The turn of an idle engine's port -/

theorem hasTurn_of_busy {s : State} {p : Fin 16} (hp : p.val < s.cfg.nports) (hbusy : (s.port p).busy = true) :
    s.hasTurn p = true := by simp [State.hasTurn, hp, hbusy]

section
variable {s : State} {p : Fin 16} (hturn : s.hasTurn p = true) (hoff : s.engineOn p = false)
include hturn hoff

/-- A turn runs the operation that `OPC` holds (30_encoding.md R101). -/
theorem takeTurn_decoded {i : Instr} (hd : decodeOpc (s.port p).opc = .ok i) :
    takeTurn p s = exec i { s with turn := p } := by
  simp [takeTurn, hturn, hoff, hd]

/-- A turn ends an operation whose code is no instruction's (30_encoding.md R103). -/
theorem takeTurn_undecoded {e : DecodeError} (hd : decodeOpc (s.port p).opc = .error e) :
    takeTurn p s = .next (illegalOperation { s with turn := p }) := by
  simp [takeTurn, hturn, hoff, hd]

/-- The first step of an operation that does not use the channel is the whole operation. -/
theorem beginTurn_decoded {i : Instr} (hd : decodeOpc (s.port p).opc = .ok i)
    (hj : jobOf i { s with turn := p } = none) : beginTurn p s = exec i { s with turn := p } := by
  simp [beginTurn, hturn, hoff, hd, hj]

end

/-- The operations that do not use the channel start no job (30_encoding.md R102). -/
theorem jobOf_none {i : Instr} (h : i = .crc ∨ i = .encreq ∨ i = .decreq ∨ i = .encrep ∨ i = .decrep ∨ i = .lock
    ∨ i = .unlock ∨ i = .setretry) (s : State) : jobOf i s = none := by
  rcases h with rfl | rfl | rfl | rfl | rfl | rfl | rfl | rfl
  all_goals rfl

/-- Settles O47: a step whose next event is the port's turn is that turn in the state without the event. -/
theorem stepRunsDecoded : Obligations.StepRunsDecoded := by
  intro s p rest i hp hbusy hoff hdec
  obtain ⟨hd, -⟩ := map_rest_ok (tail := []) hdec
  have hturn : ({ s with inputs := rest } : State).hasTurn p = true := hasTurn_of_busy hp hbusy
  refine ⟨(encode_of_decodeOpc hd .le).1, fun hin => ?_, fun hin hlocal => ?_⟩
  · have hstep : step s = takeTurn p { s with inputs := rest } := by simp [step, hin, happen]
    exact hstep.trans (takeTurn_decoded hturn hoff hd)
  · have hstep : step s = beginTurn p { s with inputs := rest } := by simp [step, hin, happen]
    exact hstep.trans (beginTurn_decoded hturn hoff hd (jobOf_none hlocal _))

/-! ## Unassigned codes -/

/-- No code outside the table selects an operation (30_encoding.md R101, R103). -/
theorem decodeOpc_unassigned {c : Byte} (h : c = 0x00 ∨ (0x06 ≤ c ∧ c ≤ 0x0F) ∨ (0x13 ≤ c ∧ c ≤ 0x1F)
    ∨ (0x24 ≤ c ∧ c ≤ 0x2F) ∨ 0x31 ≤ c) : ∃ e, decodeOpc c = .error e := by
  cases hd : decodeOpc c with
  | error e => exact ⟨e, rfl⟩
  | ok i =>
    rcases decodeOpc_ok hd with ⟨rfl, _⟩ | ⟨rfl, _⟩ | ⟨rfl, _⟩ | ⟨rfl, _⟩ | ⟨rfl, _⟩ | ⟨rfl, _⟩ | ⟨rfl, _⟩
      | ⟨rfl, _⟩ | ⟨rfl, _⟩ | ⟨rfl, _⟩ | ⟨rfl, _⟩ | ⟨rfl, _⟩ | ⟨rfl, _⟩
    all_goals exact absurd h (by decide)

theorem illegalOperation_eq (s : State) : illegalOperation s = s.modPort s.turn fun q =>
    { q with resKind := some .illegalOperation, resStatus := some localStatus, busy := false } := rfl

/-- The end of an unassigned code after an update of its port is one update of that port. -/
theorem illegalOperation_modPort (s : State) (p : Fin 16) (f : Port → Port) :
    illegalOperation { s.modPort p f with turn := p } = ({ s with turn := p } : State).modPort p fun q =>
      { f q with resKind := some .illegalOperation, resStatus := some localStatus, busy := false } := by
  have hturn : ({ s.modPort p f with turn := p } : State) = ({ s with turn := p } : State).modPort p f := rfl
  rw [hturn, illegalOperation_eq]
  exact State.modPort_modPort _ p f _

/-- Settles O4: the write starts the operation, and the turn finds no instruction for its code and ends it. -/
theorem unassignedCodes : Obligations.UnassignedCodes := by
  refine ⟨rfl, fun s p c hp hbusy hoff hc => ⟨_, opcWriteStarts s p (c.setWidth 32) hp hbusy, ?_⟩⟩
  obtain ⟨e, he⟩ := decodeOpc_unassigned hc
  have hcode : (c.setWidth 32).setWidth 8 = c := by simp
  rw [hcode]
  have hend := takeTurn_undecoded (s := s.modPort p fun q => { q with opc := c, busy := true })
    (hasTurn_of_busy hp (by simp)) hoff (by simpa using he)
  rw [hend]
  exact congrArg Host.Outcome.next (illegalOperation_modPort s p _)

end Sys2Proof.Machine
end

section
/-! The checksum engine (40_checksum.md): the laws of the fold, the detection of one changed byte, and `CRC`. -/

namespace Sys2Proof.Machine

/-! ## The laws of the fold -/

/-- The checksum is the left fold of the update over the bytes (40_checksum.md R141). -/
theorem checksum_eq_foldl (alg : CrcAlg) (bs : List Byte) (s : Half) :
    checksum alg bs s = bs.foldl (crcStep alg) s := by
  induction bs generalizing s with
  | nil => rfl
  | cons b bs ih => exact ih (crcStep alg s b)

/-- The running form: the checksum of the first part seeds the second (40_checksum.md R146). -/
theorem checksum_append (alg : CrcAlg) (a b : List Byte) (s : Half) :
    checksum alg (a ++ b) s = checksum alg b (checksum alg a s) := by
  simp only [checksum_eq_foldl, List.foldl_append]

/-- Settles O6: the checksum is a function of its bytes and its seed, and a fold over a list. -/
theorem checksumLaws : Obligations.ChecksumLaws := by
  refine fun alg => ⟨?deterministic, fun _ => rfl, checksum_append alg, fun a s => (checksum alg a s).isLt⟩
  rintro a _ s _ rfl rfl
  rfl

/-! ## One changed byte (40_checksum.md R148) -/

/-- Under a byte-injective update, the bytes after a difference do not undo it. -/
theorem checksum_seed_injective {alg : CrcAlg} (h : ByteInjective (crcStep alg)) (bs : List Byte) :
    Function.Injective (checksum alg bs) := by
  obtain ⟨-, hseed⟩ := h
  induction bs with
  | nil => exact fun _ _ heq => heq
  | cons b bs ih => exact fun s t heq => hseed b s t (ih heq)

/-- The update at the changed byte is where two checksums part. -/
theorem checksum_ne_of_byte_ne {alg : CrcAlg} (h : ByteInjective (crcStep alg)) (front back : List Byte)
    {x y : Byte} (hne : x ≠ y) (seed : Half) :
    checksum alg (front ++ x :: back) seed ≠ checksum alg (front ++ y :: back) seed := by
  intro heq
  rw [checksum_append, checksum_append] at heq
  have hstep := checksum_seed_injective h back heq
  obtain ⟨hbyte, -⟩ := h
  exact hne (hbyte _ x y hstep)

/-! ## The reference update

Eight one-bit shifts of the checksum with the byte in its high half: each shift can be undone, since the low bit of
its result tells whether the polynomial went in. -/

theorem refShift_eq (c : Half) : refShift c = (c <<< 1) ^^^ bif c.getMsbD 0 then 0x1021#16 else 0#16 := by
  unfold refShift
  cases c.getMsbD 0 <;> simp

/-- The shift is linear over exclusive or. -/
theorem refShift_xor (c d : Half) : refShift (c ^^^ d) = refShift c ^^^ refShift d := by
  have hmask (a b : Bool) (v : Half) :
      (bif a ^^ b then v else 0#16) = (bif a then v else 0#16) ^^^ bif b then v else 0#16 := by
    cases a <;> cases b <;> simp
  simp only [refShift_eq, BitVec.shiftLeft_xor_distrib, BitVec.getMsbD_xor, hmask]
  ac_rfl

/-- The polynomial is odd, so the low bit shows whether it went in. -/
theorem getLsbD_zero_refShift (c : Half) : (refShift c).getLsbD 0 = c.getMsbD 0 := by
  rw [refShift_eq]
  cases c.getMsbD 0 <;> simp

/-- A shift can be undone: its low bit gives the bit shifted out, and the polynomial is then taken back out. -/
theorem refShift_injective : Function.Injective refShift := by
  intro c d h
  have htop : c.getMsbD 0 = d.getMsbD 0 := by rw [← getLsbD_zero_refShift, h, getLsbD_zero_refShift]
  have hshift : c <<< 1 = d <<< 1 := by
    rw [refShift_eq, refShift_eq, htop] at h
    exact (BitVec.xor_left_inj _).mp h
  refine BitVec.eq_of_getMsbD_eq fun i hi => ?_
  cases i with
  | zero => exact htop
  | succ i => simpa using congrArg (fun v => v.getMsbD i) hshift

/-- While the bits shifted out are 0, the polynomial does not go in. -/
theorem refShift_iterate_of_msbs {c : Half} {n : Nat} (h : ∀ k < n, c.getMsbD k = false) :
    refShift^[n] c = c <<< n := by
  induction n with
  | zero => simp
  | succ n ih =>
    rw [Function.iterate_succ_apply', ih fun k hk => h k (by omega), refShift_eq, BitVec.getMsbD_shiftLeft,
      Nat.zero_add, h n (by omega), BitVec.shiftLeft_add]
    exact BitVec.xor_zero

theorem getElem_byteAt {w : Nat} (v : BitVec w) (k i : Nat) (hi : i < 8) :
    (byteAt v k)[i] = v.getLsbD (8 * k + i) := by simp [byteAt]

/-- A half word is its high byte over its low byte. -/
theorem half_eq_xor_bytes (s : Half) :
    s = (byteAt s 1).setWidth 16 <<< 8 ^^^ (byteAt s 0).setWidth 16 := by
  refine BitVec.eq_of_getLsbD_eq fun i hi => ?_
  by_cases h8 : i < 8
  · simp [getElem_byteAt, hi, h8]
  · simp [getElem_byteAt, getLsbD_byteAt, hi, h8, show 8 + (i - 8) = i by omega, show i - 8 < 8 by omega]

/-- Shifting by a byte keeps the low byte only. -/
theorem half_shiftLeft_byte (s : Half) : s <<< 8 = (byteAt s 0).setWidth 16 <<< 8 := by
  refine BitVec.eq_of_getLsbD_eq fun i hi => ?_
  by_cases h8 : i < 8
  · simp [h8]
  · simp [getElem_byteAt, hi, h8, show i - 8 < 8 by omega, show i - 8 < 16 by omega]

theorem byteAt_one_shiftLeft (b : Byte) : byteAt (b.setWidth 16 <<< 8 : Half) 1 = b := by
  refine BitVec.eq_of_getLsbD_eq fun i hi => ?_
  simp [getElem_byteAt, hi, show 8 + i < 16 by omega]

/-- The reference update is eight shifts of the checksum with the byte in its high half (40_checksum.md R143):
by linearity the high half gives the table's entry, and the low half only moves up. -/
theorem refStep_eq_iterate (s : Half) (b : Byte) :
    crcStep .reference s b = refShift^[8] (s ^^^ b.setWidth 16 <<< 8) := by
  have hlow : refShift^[8] ((byteAt s 0).setWidth 16) = s <<< 8 := by
    rw [half_shiftLeft_byte]
    refine refShift_iterate_of_msbs fun k hk => ?_
    have hbit : (byteAt s 0).getLsbD (16 - 1 - k) = false := BitVec.getLsbD_of_ge _ _ (by omega)
    simp [BitVec.getMsbD_eq_getLsbD, hbit]
  have hlinear : Function.Semiconj₂ refShift^[8] (· ^^^ ·) (· ^^^ ·) :=
    Function.Semiconj₂.iterate refShift_xor 8
  have hbytes : s ^^^ b.setWidth 16 <<< 8
      = (byteAt s 0).setWidth 16 ^^^ (byteAt s 1 ^^^ b).setWidth 16 <<< 8 := by
    conv_lhs => rw [half_eq_xor_bytes s]
    rw [BitVec.setWidth_xor, BitVec.shiftLeft_xor_distrib]
    ac_rfl
  calc crcStep .reference s b
      = s <<< 8 ^^^ refShift^[8] ((byteAt s 1 ^^^ b).setWidth 16 <<< 8) := rfl
    _ = refShift^[8] (s ^^^ b.setWidth 16 <<< 8) := by rw [hbytes, hlinear.eq, hlow]

theorem refStep_byteInjective : ByteInjective (crcStep .reference) := by
  have hinj : Function.Injective refShift^[8] := refShift_injective.iterate 8
  constructor
  · intro s b b' h
    rw [refStep_eq_iterate, refStep_eq_iterate] at h
    have hhigh := (BitVec.xor_right_inj s).mp (hinj h)
    rw [← byteAt_one_shiftLeft b, hhigh, byteAt_one_shiftLeft]
  · intro b s s' h
    rw [refStep_eq_iterate, refStep_eq_iterate] at h
    exact (BitVec.xor_left_inj _).mp (hinj h)

/-- Settles O7: the bytes before the change give both lists one seed, and the bytes after it keep them apart. -/
theorem detection : Obligations.Detection :=
  ⟨fun _ front back _ _ seed hinj hne => checksum_ne_of_byte_ne hinj front back hne seed, refStep_byteInjective⟩

/-! ## `CRC` -/

theorem needPayload_some {s : State} {len : Half} {bytes : List Byte} (hlen : s.cur.len = some len)
    (hread : Memory.read s.cur.txbuf 0 len.toNat = some bytes) : s.needPayload = .ok bytes := by
  rw [State.needPayload, State.needLen, need_some hlen]
  exact need_some hread

/-- The payload is there, or reading it meets the model fault (10_state.md R62). -/
theorem needPayload_cases (s : State) :
    s.needPayload = .error .unwritten ∨ ∃ bytes, s.needPayload = .ok bytes := by
  cases hlen : s.cur.len with
  | none => exact .inl (needPayload_unwritten_of_len hlen)
  | some len =>
    cases hread : Memory.read s.cur.txbuf 0 len.toNat with
    | none => exact .inl (needPayload_unwritten_of_txbuf hlen hread)
    | some bytes => exact .inr ⟨bytes, needPayload_some hlen hread⟩

/-- `CRC` with both operands is one update of the port and its end. -/
theorem exec_crc_next {s : State} {bytes : List Byte} {seed : Half} (hpay : s.needPayload = .ok bytes)
    (hseed : s.cur.seed = some seed) :
    exec .crc s = .next ((s.modCur fun p =>
      { p with resVal := some ((checksum s.cfg.crc bytes seed).setWidth 32) }).finishes .ok 0x00) := by
  have hneed : s.needSeed = .ok seed := need_some hseed
  show execCrc s = _
  rw [execCrc, hpay, hneed]
  rfl

theorem exec_crc_unwritten_of_payload {s : State} (h : s.needPayload = .error .unwritten) :
    exec .crc s = .fault .unwritten :=
  congrArg outcome (bind_error h _)

/-- `CRC` reads `SEED` after its payload, and a payload without a value is the same fault. -/
theorem exec_crc_unwritten_of_seed {s : State} (h : s.cur.seed = none) : exec .crc s = .fault .unwritten := by
  rcases needPayload_cases s with hpay | ⟨bytes, hpay⟩
  · exact exec_crc_unwritten_of_payload hpay
  · have hneed : s.needSeed = .error .unwritten := need_unwritten h
    exact congrArg outcome (bind_error_of_ok hpay (bind_error hneed _))

/-- Settles O5: both operands are read, in their order, before the one update; an empty payload leaves the seed. -/
theorem crcResult : Obligations.CrcResult := by
  refine ⟨fun s len seed bytes hlen hseed hread => exec_crc_next (needPayload_some hlen hread) hseed,
    fun s seed hlen hseed => exec_crc_next (bytes := []) (needPayload_some hlen rfl) hseed, ?_, by decide, rfl⟩
  rintro s (hlen | hseed | ⟨len, hlen, hread⟩)
  · exact exec_crc_unwritten_of_payload (needPayload_unwritten_of_len hlen)
  · exact exec_crc_unwritten_of_seed hseed
  · exact exec_crc_unwritten_of_payload (needPayload_unwritten_of_txbuf hlen hread)

end Sys2Proof.Machine
end

section
/-! The header operations (41_frame_codec.md R162 to R168): which operands each reads, and the one update of the
issuing port it leaves. -/

namespace Sys2Proof.Machine

/-! ## The operands -/

theorem needReqHeader_some {s : State} {cmd len rsv cks : Half} (hcmd : s.cur.hCmd = some cmd)
    (hlen : s.cur.hLen = some len) (hrsv : s.cur.hRsv = some rsv) (hcks : s.cur.hCks = some cks) :
    s.needReqHeader = .ok ⟨cmd, len, rsv, cks⟩ := by
  rw [State.needReqHeader, hcmd, hlen, hrsv, hcks]
  rfl

theorem needRepHeader_some {s : State} {cmd len cks : Half} {st : Byte} (hcmd : s.cur.hCmd = some cmd)
    (hst : s.cur.hSt = some st) (hlen : s.cur.hLen = some len) (hcks : s.cur.hCks = some cks) :
    s.needRepHeader = .ok ⟨byteAt cmd 0, st, len, cks⟩ := by
  rw [State.needRepHeader, hcmd, hst, hlen, hcks]
  rfl

/-- Whichever register is the one without a value, those read before it do not change the fault. -/
theorem needReqHeader_unwritten {s : State}
    (h : s.cur.hCmd = none ∨ s.cur.hLen = none ∨ s.cur.hRsv = none ∨ s.cur.hCks = none) :
    s.needReqHeader = .error .unwritten := by
  rcases h with hcmd | hlen | hrsv | hcks
  · exact bind_error (need_unwritten hcmd) _
  · exact need_bind_unwritten _ fun _ => bind_error (need_unwritten hlen) _
  · exact need_bind_unwritten _ fun _ => need_bind_unwritten _ fun _ => bind_error (need_unwritten hrsv) _
  · exact need_bind_unwritten _ fun _ => need_bind_unwritten _ fun _ => need_bind_unwritten _ fun _ =>
      bind_error (need_unwritten hcks) _

theorem needRepHeader_unwritten {s : State}
    (h : s.cur.hCmd = none ∨ s.cur.hSt = none ∨ s.cur.hLen = none ∨ s.cur.hCks = none) :
    s.needRepHeader = .error .unwritten := by
  rcases h with hcmd | hst | hlen | hcks
  · exact bind_error (need_unwritten hcmd) _
  · exact need_bind_unwritten _ fun _ => bind_error (need_unwritten hst) _
  · exact need_bind_unwritten _ fun _ => need_bind_unwritten _ fun _ => bind_error (need_unwritten hlen) _
  · exact need_bind_unwritten _ fun _ => need_bind_unwritten _ fun _ => need_bind_unwritten _ fun _ =>
      bind_error (need_unwritten hcks) _

/-- A reply header keeps the low byte of the command register. -/
theorem needRepHeader_cmd {s : State} {cmd : Half} {h : RepHeader} (hcmd : s.cur.hCmd = some cmd)
    (hh : s.needRepHeader = .ok h) : h.cmd = byteAt cmd 0 := by
  rw [State.needRepHeader, hcmd] at hh
  obtain ⟨_, hneed, hh⟩ := bind_eq_ok.mp hh
  cases hneed
  obtain ⟨st, -, hh⟩ := bind_eq_ok.mp hh
  obtain ⟨len, -, hh⟩ := bind_eq_ok.mp hh
  obtain ⟨cks, -, hh⟩ := bind_eq_ok.mp hh
  cases hh
  rfl

section
variable {β : Type} {s : State} {size : Nat} {k : List Byte → Except Fault β}

/-- The header bytes `HBUF[0:min(HBN, size)]`, where each holds a value. -/
theorem needHeaderBytes_some {n : Byte} {bytes : List Byte} (hn : s.cur.hbn = some n)
    (hread : Memory.read s.cur.hbuf 0 (min n.toNat size) = some bytes) :
    (s.needHbn >>= fun n => s.needHbuf (min n.toNat size) >>= k) = k bytes := by
  rw [State.needHbn, need_some hn]
  show (s.needHbuf _ >>= k) = _
  rw [State.needHbuf, need_some hread]
  rfl

theorem needHeaderBytes_unwritten
    (h : s.cur.hbn = none ∨ ∃ n, s.cur.hbn = some n ∧ Memory.read s.cur.hbuf 0 (min n.toNat size) = none) :
    (s.needHbn >>= fun n => s.needHbuf (min n.toNat size) >>= k) = .error .unwritten := by
  rcases h with hn | ⟨n, hn, hread⟩
  · exact bind_error (need_unwritten hn) _
  · exact bind_error_of_ok (need_some hn) (bind_error (need_unwritten hread) _)

end

/-! ## `ENCREQ` -/

theorem exec_encreq_next {s : State} {h : ReqHeader} (hh : s.needReqHeader = .ok h) :
    exec .encreq s = .next ((s.modCur fun p =>
      { p with hbuf := Memory.write p.hbuf 0 (encReq s.cfg.endian h), hbn := some 8 }).finishes .ok 0x00) := by
  show execEncreq s = _
  rw [execEncreq, hh]
  rfl

/-- Settles O8: the four operands make one header, and its bytes go to the front of `HBUF`. -/
theorem encreqResult : Obligations.EncreqResult :=
  ⟨fun _ cmd len rsv cks hcmd hlen hrsv hcks =>
      exec_encreq_next (h := ⟨cmd, len, rsv, cks⟩) (needReqHeader_some hcmd hlen hrsv hcks),
    fun _ h => congrArg outcome (bind_error (needReqHeader_unwritten h) _), by decide, rfl⟩

/-! ## `ENCREP` -/

theorem exec_encrep_next {s : State} {h : RepHeader} (hh : s.needRepHeader = .ok h) :
    exec .encrep s = .next ((s.modCur fun p =>
      { p with hbuf := Memory.write p.hbuf 0 (encRep s.cfg.endian h), hbn := some 6 }).finishes .ok 0x00) := by
  show execEncrep s = _
  rw [execEncrep, hh]
  rfl

/-- What `ENCREP` leaves of its port, if it does not fault. -/
theorem exec_encrep_cur {s t : State} (ht : exec .encrep s = .next t) :
    ∃ h, s.needRepHeader = .ok h ∧ t.cfg = s.cfg ∧ t.cur.hbn = some 6
      ∧ t.cur.hbuf = Memory.write s.cur.hbuf 0 (encRep s.cfg.endian h) := by
  obtain ⟨h, hh, -⟩ := bind_eq_ok.mp (outcome_next.mp (show outcome _ = _ from ht))
  cases (exec_encrep_next hh).symm.trans ht
  exact ⟨h, hh, rfl, by simp [State.finishes], by simp [State.finishes]⟩

/-- Settles O10: the reply header is six bytes long, and its command field is a byte. -/
theorem encrepResult : Obligations.EncrepResult := by
  refine ⟨fun s cmd len cks st hcmd hst hlen hcks => ?_, fun s t a ha ht => ?_,
    fun _ h => congrArg outcome (bind_error (needRepHeader_unwritten h) _), by decide, rfl⟩
  · rw [← byteAt_zero_eq_setWidth]
    exact exec_encrep_next (needRepHeader_some hcmd hst hlen hcks)
  · obtain ⟨h, -, -, -, hbuf⟩ := exec_encrep_cur ht
    rw [hbuf]
    exact Memory.get_write_out _ _ _ _ (.inr (by simpa using ha))

/-! ## `DECREQ` and `DECREP` -/

theorem decReq_eq_none (en : Endian) (bs : List Byte) : decReq en bs = none ↔ bs.length < 8 := by
  rw [← Option.not_isSome_iff_eq_none, decReq_isSome, decide_eq_true_iff, Nat.not_le]

section
variable {s : State} {n : Byte} {bytes : List Byte} (hn : s.cur.hbn = some n)
include hn

theorem exec_decreq_decoded {h : ReqHeader} (hread : Memory.read s.cur.hbuf 0 (min n.toNat 8) = some bytes)
    (hd : decReq s.cfg.endian bytes = some h) :
    exec .decreq s = .next ((s.modCur fun p =>
      { p with hCmd := some h.cmd, hLen := some h.len, hRsv := some h.rsv, hCks := some h.cks }).finishes
        .ok 0x00) := by
  refine (congrArg outcome (needHeaderBytes_some hn hread)).trans ?_
  rw [hd]
  rfl

theorem exec_decreq_malformed (hlt : n.toNat < 8) (hread : (Memory.read s.cur.hbuf 0 n.toNat).isSome = true) :
    exec .decreq s = .next (s.finishes .malformedHeader 0xFF) := by
  obtain ⟨bytes, hread⟩ := Option.isSome_iff_exists.mp hread
  have hd : decReq s.cfg.endian bytes = none :=
    (decReq_eq_none _ _).mpr (by rwa [Memory.read_length _ _ _ _ hread])
  rw [← Nat.min_eq_left hlt.le] at hread
  refine (congrArg outcome (needHeaderBytes_some hn hread)).trans ?_
  rw [hd]
  rfl

theorem exec_decrep_decoded {h : RepHeader} (hread : Memory.read s.cur.hbuf 0 (min n.toNat 6) = some bytes)
    (hd : decRep s.cfg.endian bytes = some h) :
    exec .decrep s = .next ((s.modCur fun p =>
      { p with
        hCmd := some (h.cmd.setWidth 16), hSt := some h.status, hLen := some h.len
        hCks := some h.cks }).finishes .ok 0x00) := by
  refine (congrArg outcome (needHeaderBytes_some hn hread)).trans ?_
  rw [hd]
  rfl

theorem exec_decrep_malformed (hlt : n.toNat < 6) (hread : (Memory.read s.cur.hbuf 0 n.toNat).isSome = true) :
    exec .decrep s = .next (s.finishes .malformedHeader 0xFF) := by
  obtain ⟨bytes, hread⟩ := Option.isSome_iff_exists.mp hread
  have hd : decRep s.cfg.endian bytes = none :=
    (decRep_eq_none _ _).mpr (by rwa [Memory.read_length _ _ _ _ hread])
  rw [← Nat.min_eq_left hlt.le] at hread
  refine (congrArg outcome (needHeaderBytes_some hn hread)).trans ?_
  rw [hd]
  rfl

end

/-- Settles O9: a count of 8 or more reads a whole header, a smaller one reads too few bytes to decode. -/
theorem decreqResult : Obligations.DecreqResult := by
  refine ⟨fun s n _ _ _ _ _ _ _ _ hn h8 hread => ?_, fun _ _ hn hlt hread => exec_decreq_malformed hn hlt hread,
    fun _ hn => exec_decreq_malformed hn (by decide) rfl,
    fun _ h => congrArg outcome (needHeaderBytes_unwritten h), by decide, rfl⟩
  rw [← Nat.min_eq_right h8] at hread
  exact exec_decreq_decoded hn hread rfl

/-- Settles O11: a count of 6 or more reads a whole header, a smaller one reads too few bytes to decode. -/
theorem decrepResult : Obligations.DecrepResult := by
  refine ⟨fun s n _ _ _ _ _ _ hn h6 hread => ?_, fun _ _ hn hlt hread => exec_decrep_malformed hn hlt hread,
    fun _ hn => exec_decrep_malformed hn (by decide) rfl,
    fun _ h => congrArg outcome (needHeaderBytes_unwritten h), by decide, rfl⟩
  rw [← Nat.min_eq_right h6] at hread
  exact exec_decrep_decoded hn hread rfl

/-! ## The round trips (41_frame_codec.md R169) -/

theorem decReq_encReq (en : Endian) (h : ReqHeader) : decReq en (encReq en h) = some h := by
  simpa using decReq_encReq_append en h []

theorem decRep_encRep (en : Endian) (h : RepHeader) : decRep en (encRep en h) = some h := by
  simpa using decRep_encRep_append en h []

/-- What decodes and has no byte past its header is the encoding of its fields. -/
theorem encReq_of_decReq {en : Endian} {bs : List Byte} {h : ReqHeader} (hd : decReq en bs = some h)
    (hlen : bs.length = 8) : encReq en h = bs := by
  have hfront := decReq_some hd
  rw [List.drop_eq_nil_of_le hlen.le, List.append_nil] at hfront
  exact hfront.symm

theorem encRep_of_decRep {en : Endian} {bs : List Byte} {h : RepHeader} (hd : decRep en bs = some h)
    (hlen : bs.length = 6) : encRep en h = bs := by
  have hfront := decRep_some hd
  rw [List.drop_eq_nil_of_le hlen.le, List.append_nil] at hfront
  exact hfront.symm

/-- A half word is its own low byte, zero-extended, exactly when it is below 0x100. -/
theorem setWidth_byteAt_zero_eq_iff (v : Half) : (byteAt v 0).setWidth 16 = v ↔ v.toNat < 0x100 := by
  rw [← BitVec.toNat_inj, BitVec.toNat_setWidth, byteAt_toNat]
  omega

/-- `ENCREP` then `DECREP` leaves the command's low byte, zero-extended. -/
theorem exec_encrep_decrep_hCmd {s t u : State} {cmd : Half} (hcmd : s.cur.hCmd = some cmd)
    (ht : exec .encrep s = .next t) (hu : exec .decrep t = .next u) :
    u.cur.hCmd = some ((byteAt cmd 0).setWidth 16) := by
  obtain ⟨h, hh, hcfg, hbn, hbuf⟩ := exec_encrep_cur ht
  have hread : Memory.read t.cur.hbuf 0 (min (6 : Byte).toNat 6) = some (encRep t.cfg.endian h) := by
    rw [hbuf, hcfg]
    simpa using Memory.read_write_same s.cur.hbuf 0 (encRep s.cfg.endian h)
  cases (exec_decrep_decoded hbn hread (decRep_encRep _ h)).symm.trans hu
  simp [State.finishes, needRepHeader_cmd hcmd hh]

/-- Settles O12: the decoder of each layout is the inverse of its encoder, and a reply's command field is the low
byte of `H_CMD`. -/
theorem headerRoundTrips : Obligations.HeaderRoundTrips := by
  refine ⟨decReq_encReq, fun en bs hlen => ?_, decRep_encRep, fun en bs hlen => ?_,
    fun s t u cmd hcmd ht hu => ?_⟩
  · obtain ⟨h, hd⟩ := Option.isSome_iff_exists.mp ((decReq_isSome en bs).trans (decide_eq_true hlen.ge))
    exact ⟨h, hd, encReq_of_decReq hd hlen⟩
  · obtain ⟨h, hd⟩ := Option.isSome_iff_exists.mp ((decRep_isSome en bs).trans (decide_eq_true hlen.ge))
    exact ⟨h, hd, encRep_of_decRep hd hlen⟩
  · rw [exec_encrep_decrep_hCmd hcmd ht hu, Option.some_inj]
    exact setWidth_byteAt_zero_eq_iff cmd

end Sys2Proof.Machine
end

section
/-! Built frames and their checks (41_frame_codec.md R170 to R172). A reply passes its check when the checksum of
the frame with its checksum field blanked is what that field holds: a change of one byte changes one of the two and
leaves the other. -/

namespace Sys2Proof.Machine

/-! ## Request frames -/

/-- The bytes of a request header before its checksum. -/
theorem encReq_take_six (en : Endian) (h : ReqHeader) :
    (encReq en h).take 6 = pack16 en h.cmd ++ pack16 en h.len ++ pack16 en h.rsv := by
  rw [encReq]
  exact List.take_left' (by simp)

/-- A request header carries the checksum of its first six bytes, two zeros and the payload (40_checksum.md R144). -/
theorem reqCks_eq_checksum_buildReq (c : Params) (cmd : Half) (pay : List Byte) :
    reqCks c cmd (BitVec.ofNat 16 pay.length) pay
      = checksum c.crc ((buildReq c cmd pay).take 6 ++ [0x00, 0x00] ++ pay) 0xFFFF := by
  rw [buildReq, encReq_take_six]
  rfl

/-! ## Reply frames, as byte lists -/

/-- A reply frame with its checksum field, at offsets 4 and 5, blanked. -/
def blankCks (frame : List Byte) : List Byte := frame.take 4 ++ [0x00, 0x00] ++ frame.drop 6

/-- The checksum field of a reply frame, as it is sent. -/
def cksField (frame : List Byte) : List Byte := (frame.drop 4).take 2

theorem repCks_eq_checksum_blankCks (c : Params) {header : List Byte} (hlen : header.length = 6) (pay : List Byte) :
    repCks c header pay = checksum c.crc (blankCks (header ++ pay)) frameSeed := by
  rw [repCks, blankCks, List.take_append_of_le_length (by omega), List.drop_left' hlen]
  rfl

theorem cksField_encRep_append (en : Endian) (h : RepHeader) (pay : List Byte) :
    cksField (encRep en h ++ pay) = pack16 en h.cks := by
  obtain ⟨a, b, hpack, -⟩ := pack16_cases en h.len
  rw [cksField, encRep, hpack]
  exact List.take_left' (pack16_length en h.cks)

theorem pack16_injective (en : Endian) : Function.Injective (pack16 en) := by
  intro v w heq
  obtain ⟨a, b, hv, rfl⟩ := pack16_cases en v
  obtain ⟨a', b', hw, rfl⟩ := pack16_cases en w
  rw [hv, hw] at heq
  cases heq
  rfl

/-- The check of a reply, as a statement of its bytes (41_frame_codec.md R171). -/
theorem replyCksOk_iff (c : Params) {header : List Byte} {h : RepHeader} (hlen : header.length = 6)
    (hd : decRep c.endian header = some h) (pay : List Byte) :
    replyCksOk c header pay h.cks = true
      ↔ pack16 c.endian (checksum c.crc (blankCks (header ++ pay)) frameSeed) = cksField (header ++ pay) := by
  have hfield : cksField (header ++ pay) = pack16 c.endian h.cks := by
    rw [← encRep_of_decRep hd hlen, cksField_encRep_append]
  rw [replyCksOk, beq_iff_eq, repCks_eq_checksum_blankCks c hlen, hfield, (pack16_injective _).eq_iff]

/-- The decoded checksum of a built reply header is the one its receiver recomputes. -/
theorem replyCksOk_replyHeader (c : Params) (cmd st : Byte) (pay : List Byte) :
    replyCksOk c (replyHeader c cmd st pay) pay (repCks c (replyHeader c cmd st pay) pay) = true :=
  beq_self_eq_true _

/-! ## One changed byte of a reply -/

theorem set_ne_self {l : List Byte} {k : Nat} {x : Byte} (hk : k < l.length) (hne : l[k]? ≠ some x) :
    l.set k x ≠ l := by
  intro heq
  apply hne
  rw [← heq, List.getElem?_set_self hk]

/-- Under a byte-injective update a list with one byte changed has another checksum (40_checksum.md R148). -/
theorem checksum_set_ne {alg : CrcAlg} (hinj : ByteInjective (crcStep alg)) {l : List Byte} {k : Nat} {x : Byte}
    (hk : k < l.length) (hne : l[k]? ≠ some x) (seed : Half) :
    checksum alg (l.set k x) seed ≠ checksum alg l seed := by
  rw [List.getElem?_eq_getElem hk] at hne
  have hsplit : l = l.take k ++ l[k] :: l.drop (k + 1) := by simp
  rw [List.set_eq_take_append_cons_drop, if_pos hk]
  conv_rhs => rw [hsplit]
  exact checksum_ne_of_byte_ne hinj _ _ (fun heq => hne (congrArg some heq.symm)) seed

section
variable {frame : List Byte} {k : Nat} (x : Byte)

theorem blankCks_length (h6 : 6 ≤ frame.length) : (blankCks frame).length = frame.length := by
  simp only [blankCks, List.length_append, List.length_take, List.length_drop, List.length_cons, List.length_nil]
  omega

theorem blankCks_getElem? (h6 : 6 ≤ frame.length) (hk : k < 4 ∨ 6 ≤ k) : (blankCks frame)[k]? = frame[k]? := by
  have h4 : (frame.take 4).length = 4 := List.length_take_of_le (by omega)
  rcases hk with hk | hk
  · rw [blankCks, List.append_assoc, List.getElem?_append_left (by omega), List.getElem?_take_of_lt hk]
  · rw [blankCks, List.getElem?_append_right (by simpa [h4]), List.getElem?_drop]
    simp [h4, hk]

/-- Blanking hides a change of the checksum field. -/
theorem blankCks_set_inside (hk : 4 ≤ k) (hk' : k < 6) : blankCks (frame.set k x) = blankCks frame := by
  rw [blankCks, blankCks, List.take_set_of_le hk, List.drop_set_of_lt hk']

theorem blankCks_set_outside (h6 : 6 ≤ frame.length) (hk : k < 4 ∨ 6 ≤ k) :
    blankCks (frame.set k x) = (blankCks frame).set k x := by
  have h4 : (frame.take 4).length = 4 := List.length_take_of_le (by omega)
  rcases hk with hk | hk
  · rw [blankCks, blankCks, List.take_set, List.drop_set_of_lt (by omega), List.append_assoc, List.append_assoc,
      List.set_append_left _ _ (by omega)]
  · rw [blankCks, blankCks, List.take_set_of_le (by omega), List.drop_set, if_neg (by omega),
      List.set_append_right _ _ (by simpa [h4])]
    simp [h4]

theorem cksField_set_inside (hk : 4 ≤ k) : cksField (frame.set k x) = (cksField frame).set (k - 4) x := by
  rw [cksField, cksField, List.drop_set, if_neg (by omega), List.take_set]

theorem cksField_set_outside (hk : k < 4 ∨ 6 ≤ k) : cksField (frame.set k x) = cksField frame := by
  rcases hk with hk | hk
  · rw [cksField, cksField, List.drop_set_of_lt hk]
  · rw [cksField, cksField, List.drop_set, if_neg (by omega), List.take_set_of_le (by omega)]

theorem cksField_set_inside_ne (h6 : 6 ≤ frame.length) (hk : 4 ≤ k) (hk' : k < 6) (hne : frame[k]? ≠ some x) :
    cksField (frame.set k x) ≠ cksField frame := by
  rw [cksField_set_inside x hk]
  refine set_ne_self ?_ ?_
  · simp only [cksField, List.length_take, List.length_drop]
    omega
  · rwa [cksField, List.getElem?_take_of_lt (by omega), List.getElem?_drop, show 4 + (k - 4) = k by omega]

/-- A change of the checksum field leaves the checksum, a change elsewhere leaves the field, so a frame whose field
is its checksum does not stay one. -/
theorem cksField_set_ne {c : Params} (hinj : ByteInjective (crcStep c.crc)) (h6 : 6 ≤ frame.length)
    (hk : k < frame.length) (hne : frame[k]? ≠ some x)
    (hok : pack16 c.endian (checksum c.crc (blankCks frame) frameSeed) = cksField frame) :
    pack16 c.endian (checksum c.crc (blankCks (frame.set k x)) frameSeed) ≠ cksField (frame.set k x) := by
  by_cases hfield : 4 ≤ k ∧ k < 6
  · obtain ⟨h4, hlt⟩ := hfield
    rw [blankCks_set_inside x h4 hlt, hok]
    exact (cksField_set_inside_ne x h6 h4 hlt hne).symm
  · have hout : k < 4 ∨ 6 ≤ k := by omega
    rw [blankCks_set_outside x h6 hout, cksField_set_outside x hout, ← hok, (pack16_injective _).ne_iff]
    exact checksum_set_ne hinj (by rwa [blankCks_length h6]) (by rwa [blankCks_getElem? h6 hout]) _

end

/-- Settles O13: a built frame carries its checksum, and one changed byte parts the checksum from its field. The
offsets 2 and 3 that R172 leaves out make no difference here, where the check is given its payload. -/
theorem frameLaws : Obligations.FrameLaws := by
  refine ⟨fun c cmd pay hpay => ?_, fun c cmd st pay => ?_,
    fun c cmd st x pay header pay' k h hinj _ _ hk hlen hframe hne hd => ?_⟩
  · refine ⟨_, decReq_encReq _ _, rfl, ?_, rfl, reqCks_eq_checksum_buildReq c cmd pay⟩
    exact Nat.mod_eq_of_lt (by omega)
  · exact ⟨_, decRep_replyHeader c cmd st pay, replyCksOk_replyHeader c cmd st pay⟩
  · have hok := (replyCksOk_iff c (replyHeader_length c cmd st pay) (decRep_replyHeader c cmd st pay) pay).mp
      (replyCksOk_replyHeader c cmd st pay)
    have hbroken := cksField_set_ne (frame := replyFrame c cmd st pay) (k := k) x hinj (by simp [replyFrame])
      (by simpa [replyFrame] using hk) hne hok
    rw [← hframe] at hbroken
    exact Bool.eq_false_iff.mpr fun hcheck => hbroken ((replyCksOk_iff c hlen hd pay').mp hcheck)

end Sys2Proof.Machine
end

section
/-! Every step keeps the invariant (42_protocol_engine.md R185, R211), from the lemmas about its pieces. -/

namespace Sys2Proof.Machine

theorem State.Inv.engineStep {s t : State} (h : s.Inv) (ht : engineStep s = .next t) : t.Inv := by
  unfold Sys2Proof.Machine.engineStep at ht
  split at ht
  · cases ht; exact h
  · next e he => exact h.engineMove he (outcome_next.mp ht)

/-- A port that may take its turn is there, and its operation starts from a state in which the invariant holds. -/
theorem State.Inv.startable {s : State} (h : s.Inv) {p : Fin 16} (hturn : s.hasTurn p = true)
    (hoff : s.engineOn p = false) :
    Startable { s with turn := p } ∧ ({ s with turn := p } : State).cur.busy = true := by
  simp only [State.hasTurn, Bool.and_eq_true, decide_eq_true_eq] at hturn
  obtain ⟨hthere, hbusy⟩ := hturn
  exact ⟨⟨h.setTurn p, hthere, hoff⟩, hbusy⟩

/-- What a code starts is `CALL`, an operation on the channel, or one without it (30_encoding.md R101, R102). -/
theorem decodeOpc_group {c : Byte} {i : Instr} (h : decodeOpc c = .ok i) :
    i = .call ∨ (i = .send ∨ i = .receive ∨ i = .exchange ∨ i = .transact)
      ∨ (i = .crc ∨ i = .encreq ∨ i = .decreq ∨ i = .encrep ∨ i = .decrep ∨ i = .lock ∨ i = .unlock
        ∨ i = .setretry) := by
  rcases decodeOpc_ok h with ⟨_, rfl⟩ | ⟨_, rfl⟩ | ⟨_, rfl⟩ | ⟨_, rfl⟩ | ⟨_, rfl⟩ | ⟨_, rfl⟩ | ⟨_, rfl⟩
    | ⟨_, rfl⟩ | ⟨_, rfl⟩ | ⟨_, rfl⟩ | ⟨_, rfl⟩ | ⟨_, rfl⟩ | ⟨_, rfl⟩
  all_goals simp

/-- Whatever operation a code starts keeps the invariant. -/
theorem Startable.execDecoded {s t : State} {i : Instr} (h : Startable s) (hd : decodeOpc s.cur.opc = .ok i)
    (ht : exec i s = .next t) : t.Inv := by
  rcases decodeOpc_group hd with rfl | hchannel | hplain
  · exact h.execCall ht
  · exact h.execChannel i hchannel ht
  · exact h.execPlain i hplain ht

theorem Startable.illegalOperation {s : State} (h : Startable s) : (illegalOperation s).Inv :=
  h.finish _ _ _ (statusFits_local _ .illegalOperation (by decide))

theorem State.Inv.takeTurn {s t : State} (h : s.Inv) {p : Fin 16} (ht : takeTurn p s = .next t) : t.Inv := by
  unfold Sys2Proof.Machine.takeTurn at ht
  split at ht
  · cases ht; exact h
  next hturn =>
  split at ht
  · exact (h.setTurn p).engineStep ht
  next hoff =>
  obtain ⟨hstart, _⟩ := h.startable (Bool.eq_true_of_not_eq_false hturn) (Bool.eq_false_of_not_eq_true hoff)
  split at ht
  · next i hd => exact hstart.execDecoded hd ht
  · cases ht; exact hstart.illegalOperation

theorem State.Inv.beginTurn {s t : State} (h : s.Inv) {p : Fin 16} (ht : beginTurn p s = .next t) : t.Inv := by
  unfold Sys2Proof.Machine.beginTurn at ht
  split at ht
  · cases ht; exact h
  next hturn =>
  split at ht
  · exact (h.setTurn p).engineStep ht
  next hoff =>
  obtain ⟨hstart, hbusy⟩ := h.startable (Bool.eq_true_of_not_eq_false hturn) (Bool.eq_false_of_not_eq_true hoff)
  split at ht
  · next i hd =>
    split at ht
    · next job _ => exact hstart.beginJob hbusy job ht
    · exact hstart.execDecoded hd ht
  · cases ht; exact hstart.illegalOperation

theorem State.Inv.restart {s : State} (h : s.Inv) : s.restart.Inv :=
  (State.Inv.resetWith h.params).congr rfl rfl rfl rfl rfl rfl rfl rfl rfl rfl rfl rfl

theorem State.Inv.linkInput {s : State} (h : s.Inv) (rx : List RxItem) (tx : List Nat) :
    (linkInput rx tx s).Inv := h.congr rfl rfl rfl rfl rfl rfl rfl rfl rfl rfl rfl rfl

theorem State.Inv.happen {s t : State} (h : s.Inv) {e : Event} (ht : happen e s = .next t) : t.Inv := by
  cases e with
  | access a => exact h.hostAccess a ht
  | turn p => exact h.takeTurn ht
  | begin p => exact h.beginTurn ht
  | link rx tx => cases ht; exact h.linkInput rx tx
  | reset => cases ht; exact h.restart

/-- Settles O55: each event, an access, a turn, channel input or reset, keeps the invariant. -/
theorem stepKeepsInvariant : Obligations.StepKeepsInvariant := by
  intro s t h ht
  unfold step at ht
  split at ht
  · cases ht; exact h
  · next e rest _ => exact (h.setInputs rest).happen ht

end Sys2Proof.Machine
end

section
/-! The exchange state machine, one engine step at a time (42_protocol_engine.md R209 to R211). -/

namespace Sys2Proof.Machine

/-- The transitions of R210 that an engine step may take: none, the end of an operation that took the lock, the
start of a chunk's request, and the rows of the table. -/
def fsmMoves (a b : Fsm) : Prop :=
  b = a ∨ b = .idle ∨ b = .sending
    ∨ (a = .sending ∧ (b = .localError ∨ b = .awaitingReply))
    ∨ (a = .awaitingReply ∧ (b = .success ∨ b = .localError ∨ b = .deviceError))
    ∨ (a = .localError ∧ b = .resending)
    ∨ (a = .resending ∧ (b = .localError ∨ b = .awaitingReply))

theorem fsmMoves.stay (a : Fsm) : fsmMoves a a := .inl rfl

/-- What an arm does after its exchange is an update of its port's registers (43_command_dispatch.md R249 to
R258). -/
theorem armEnd_modCur {codec : Codec} {x : State × Result} {y : State × Option Result}
    (h : armEnd codec x = .ok y) : ∃ f, y.1 = x.1.modCur f := by
  have same : ∃ f, x.1 = x.1.modCur f := ⟨id, (State.modPort_id _ _).symm⟩
  have fixed : ∀ {size : Nat} {store : List Byte → Port → Port},
      (fixedRead size store x).map (fun z => (z.1, some z.2)) = .ok y → ∃ f, y.1 = x.1.modCur f := by
    intro size store h
    unfold fixedRead at h
    split at h
    · cases h; exact same
    split at h
    · cases h; exact same
    · cases hb : x.1.needRx size with
      | error f => rw [hb] at h; cases h
      | ok bytes => rw [hb] at h; cases h; exact ⟨_, rfl⟩
  cases codec
  case none => cases h; exact same
  case rdF32 => exact fixed h
  case rdU32 => exact fixed h
  case rdU8 => exact fixed h
  case rdVer => exact fixed h
  case rdId => exact fixed h
  case wrPct => cases h; exact same
  case rdChunk =>
    simp only [armEnd, acceptChunk] at h
    split at h
    · cases h; exact same
    · obtain ⟨bytes, _, h⟩ := bind_eq_ok.mp h
      obtain ⟨n, _, h⟩ := bind_eq_ok.mp h
      split at h
      · cases h; exact same
      · split at h <;> cases h <;> exact ⟨fun p => { p with acc := _, accN := _ }, rfl⟩

/-- The end of an operation leaves the state machine, or idles it with the lock it releases. -/
theorem endChannelOp_fsm (took : Bool) (k : Kind) (st : Byte) (l : Half) (u : State) :
    fsmMoves u.fsm ((endChannelOp took k st l u).setEngine none).fsm := by
  cases took
  · exact .inl rfl
  · exact .inr (.inl rfl)

/-- The end of a job leaves the state machine, idles it, or starts the next chunk's request. -/
theorem endJob_fsm {e : Engine} {x : State × Result} {t : State} (h : endJob e x = .ok t) :
    fsmMoves x.1.fsm t.fsm := by
  unfold endJob at h
  split at h
  · cases h; exact endChannelOp_fsm _ _ _ _ _
  · cases h; exact endChannelOp_fsm _ _ _ _ _
  · cases h; exact endChannelOp_fsm _ _ _ _ (setResends _ x.1)
  · cases h; exact endChannelOp_fsm _ _ _ _ (setResends _ x.1)
  · obtain ⟨⟨u, res⟩, hy, h⟩ := bind_eq_ok.mp h
    obtain ⟨f, rfl⟩ := armEnd_modCur hy
    cases res with
    | some r => cases h; exact endChannelOp_fsm _ _ _ _ (setResends r.resends (x.1.modCur f))
    | none => cases h; exact .inr (.inr (.inl rfl))

/-- What a receive's outcome shows is one of the three ends of `AwaitingReply`. -/
theorem fsmMoves.received (r : Reply) : fsmMoves .awaitingReply (phaseFsm (.received r)) := by
  obtain ⟨kind, st, len⟩ := r
  cases kind <;> simp [fsmMoves, phaseFsm]

/-- A retriable result is a local error (42_protocol_engine.md R198, R203). -/
theorem phaseFsm_received_retriable {r : Reply} (h : retriable r.kind = true) :
    phaseFsm (.received r) = .localError := by
  obtain ⟨kind, st, len⟩ := r
  revert h
  cases kind <;> simp [retriable, phaseFsm]

theorem afterSend_fsm {e : Engine} {ok : Bool} {s t : State} (hfsm : s.fsm = phaseFsm (.sent ok))
    (h : afterSend e ok s = .ok t) : fsmMoves s.fsm t.fsm := by
  unfold afterSend at h
  split at h
  · next hok =>
    split at h
    · exact endJob_fsm h
    · obtain ⟨max, _, h⟩ := bind_eq_ok.mp h
      cases h
      rw [hok] at hfsm
      exact .inl hfsm.symm
  · exact endJob_fsm h

theorem afterReceive_fsm {e : Engine} {r : Reply} {s t : State} (hfsm : s.fsm = phaseFsm (.received r))
    (h : afterReceive e r s = .ok t) : fsmMoves s.fsm t.fsm := by
  unfold afterReceive at h
  split at h
  · next hmore =>
    cases h
    rw [hfsm, phaseFsm_received_retriable hmore.2.1]
    exact .inr (.inr (.inr (.inr (.inr (.inl ⟨rfl, rfl⟩)))))
  · exact endJob_fsm (x := (s, _)) h

/-- The request is out: the reply is awaited (42_protocol_engine.md R188). -/
theorem requestWritten_fsm (e : Engine) (header payload : List Byte) (s : State) :
    (requestWritten e header payload s).fsm = .awaitingReply := by
  unfold requestWritten requestSent sendDone
  split <;> rfl

theorem fsmMoves.resendDone (e : Engine) (ok : Bool) (s : State) :
    fsmMoves .resending (resendDone e ok s).fsm := by
  cases ok
  · exact .inr (.inr (.inr (.inr (.inr (.inr ⟨rfl, .inl rfl⟩)))))
  · exact .inr (.inr (.inr (.inr (.inr (.inr ⟨rfl, .inr rfl⟩)))))

/-- From the phase it stands at, the engine makes at most one transition. -/
theorem engineMove_fsm {e : Engine} {s t : State} (hfsm : s.fsm = phaseFsm e.phase)
    (h : engineMove e s = .ok t) : fsmMoves s.fsm t.fsm := by
  unfold engineMove at h
  split at h
  case h_1 payload hp =>
    rw [hp] at hfsm
    dsimp only at h
    split at h
    · cases h; exact .inr (.inr (.inr (.inl ⟨hfsm, .inl rfl⟩)))
    split at h
    · cases h; exact .inr (.inr (.inr (.inl ⟨hfsm, .inr (requestWritten_fsm _ _ _ _)⟩)))
    · cases h; exact .stay _
  case h_2 header payload hp =>
    rw [hp] at hfsm
    dsimp only at h
    split at h
    · cases h; exact .inr (.inr (.inr (.inl ⟨hfsm, .inl rfl⟩)))
    · cases h; exact .inr (.inr (.inr (.inl ⟨hfsm, .inr (requestWritten_fsm _ _ _ _)⟩)))
  case h_3 ok hp =>
    rw [hp] at hfsm
    exact afterSend_fsm hfsm h
  case h_4 header payload hp =>
    rw [hp] at hfsm
    have hmoves := endJob_fsm h
    rwa [show (requestSent header payload s).fsm = s.fsm from hfsm.symm] at hmoves
  case h_5 hp =>
    rw [hp] at hfsm
    dsimp only at h
    split at h
    · cases h; rw [hfsm]; exact .received ⟨.transportReadError, localStatus, 0#16⟩
    split at h
    · cases h
    split at h
    · cases h
      rw [hfsm, receiveDone, State.setEngine_fsm, judgeReply_fsm]
      exact .received _
    · cases h; exact .stay _
  case h_6 header hp =>
    rw [hp] at hfsm
    rw [hfsm]
    split at h
    · cases h; exact .received ⟨.transportReadError, localStatus, 0#16⟩
    next r _ =>
    dsimp only at h
    split at h
    · cases h; exact .received ⟨.transportReadError, localStatus, r.len⟩
    · cases h
      rw [receiveDone, State.setEngine_fsm, judgeReply_fsm]
      exact .received _
  case h_7 r hp =>
    rw [hp] at hfsm
    exact afterReceive_fsm hfsm h
  case h_8 hp =>
    rw [hp] at hfsm
    obtain ⟨header, _, h⟩ := bind_eq_ok.mp h
    obtain ⟨payload, _, h⟩ := bind_eq_ok.mp h
    dsimp only at h
    split at h
    · cases h; rw [hfsm]; exact .resendDone _ _ _
    split at h
    · cases h; rw [hfsm]; exact .resendDone _ _ _
    · cases h; exact .stay _
  case h_9 hp =>
    rw [hp] at hfsm
    obtain ⟨payload, _, h⟩ := bind_eq_ok.mp h
    cases h
    rw [hfsm]
    exact .resendDone _ _ _
  case h_10 => exact endJob_fsm (x := (s, _)) h

/-- Settles O57: the invariant says where the state machine stands, and each phase makes one transition. -/
theorem fsmTransitions : Obligations.FsmTransitions := by
  intro s t hinv h
  show fsmMoves s.fsm t.fsm
  unfold engineStep at h
  split at h
  · cases h; exact .stay _
  · next e he =>
    obtain ⟨_, hfsm, _⟩ := hinv.running e he
    exact engineMove_fsm hfsm (outcome_next.mp h)

end Sys2Proof.Machine
end

section
/-! The lock (42_protocol_engine.md R180 to R184): who takes it, who waits for it, and that a port which waits
changes nothing. -/

namespace Sys2Proof.Machine

/-! ## `LOCK` and `UNLOCK` -/

theorem lockOpen_iff (s : State) :
    s.lockOpen = true ↔ s.lockOwner = noPort ∨ s.lockOwner = portByte s.turn := by simp [State.lockOpen]

theorem exec_lock_open {s : State} (h : s.lockOwner = noPort ∨ s.lockOwner = portByte s.turn) :
    exec .lock s = .next ({ s with lockOwner := portByte s.turn }.finishes .ok 0x00) :=
  if_pos ((lockOpen_iff s).mpr h)

theorem exec_lock_holds {s : State} (hfree : s.lockOwner ≠ noPort) (hown : s.lockOwner ≠ portByte s.turn) :
    exec .lock s = .next s :=
  if_neg fun h => ((lockOpen_iff s).mp h).elim hfree hown

theorem exec_unlock_owner {s : State} (h : s.lockOwner = portByte s.turn) :
    exec .unlock s = .next ({ s with lockOwner := noPort, fsm := .idle }.finishes .ok 0x00) := if_pos h

theorem exec_unlock_other {s : State} (h : s.lockOwner ≠ portByte s.turn) :
    exec .unlock s = .next (s.finishes .notOwner 0xFF) := if_neg h

/-- Settles O14: `LOCK` runs exactly while the lock is open to its port. -/
theorem lockResult : Obligations.LockResult := by
  refine ⟨fun s => exec_lock_open, fun s hown => ?_, fun s => exec_lock_holds, fun s t u hlock hne hunlock => ?_,
    rfl⟩
  · rw [exec_lock_open (.inr hown), ← hown]
  · by_cases hopen : s.lockOwner = noPort ∨ s.lockOwner = portByte s.turn
    · rw [exec_lock_open hopen] at hlock
      cases hlock
      rw [exec_unlock_owner rfl] at hunlock
      cases hunlock
      rfl
    · obtain ⟨hfree, hown⟩ := not_or.mp hopen
      rw [exec_lock_holds hfree hown] at hlock
      cases hlock
      exact absurd rfl hne

/-- Settles O15: `UNLOCK` asks only whether its port owns the lock. -/
theorem unlockResult : Obligations.UnlockResult :=
  ⟨fun _ => exec_unlock_owner, fun _ h => ⟨exec_unlock_other h, rfl⟩,
    fun s h => exec_unlock_other (by rw [h]; exact (portByte_ne_noPort s.turn).symm), rfl⟩

/-! ## Operations that wait -/

section
variable {s : State} (hfree : s.lockOwner ≠ noPort) (hown : s.lockOwner ≠ portByte s.turn)
include hfree hown

theorem underLock_holds (body : Bool → State → Except Fault State) : underLock body s = .next s := by
  unfold underLock
  rw [beginChannelOp_none.mpr ⟨hown, hfree⟩]
  rfl

theorem execArm_holds (codec : Codec) (id : Byte) : execArm codec id s = .next s := by
  rw [execArm_eq]
  exact underLock_holds hfree hown _

theorem exec_setretry_holds : exec .setretry s = .next s :=
  if_neg fun h => ((lockOpen_iff s).mp h).elim hfree hown

end

/-- An entry of a configured block has a codec (43_command_dispatch.md R242). -/
theorem codecOf_lookup {c : Params} (hwf : c.wf = true) {cmd : Half} {e : Entry}
    (h : lookup c.registry cmd = some e) : ∃ codec, codecOf e.kind = some codec := by
  have hmem : e ∈ c.registry := by
    unfold lookup at h
    split at h
    · cases h
    · exact List.mem_of_find?_eq_some h
  simp only [Params.wf, registryWf, Bool.and_eq_true] at hwf
  have hok := List.all_eq_true.mp hwf.2.1.1.2 e hmem
  unfold entryOk at hok
  split at hok
  · next codec hk => exact ⟨codec, hk⟩
  · cases hok

/-- `CALL` of an entry runs the arm of its kind (43_command_dispatch.md R245, R247). -/
theorem execCall_arm {s : State} {cmd : Half} {e : Entry} {codec : Codec} (hcmd : s.cur.cmd = some cmd)
    (he : lookup s.cfg.registry cmd = some e) (hk : codecOf e.kind = some codec) :
    execCall s = execArm codec e.id s := by
  simp only [execCall, State.needCmd, need_some hcmd, he, hk]

/-- Settles O17: each operation runs its body under the lock, and `CALL` once it has found its arm. -/
theorem holdChangesNothing : Obligations.HoldChangesNothing := by
  intro s id hfree hown
  have held := underLock_holds hfree hown
  refine ⟨fun cmd e hwf hcmd he => ?_, held _, held _, held _, held _, held _, held _, held _, held _, held _,
    held _, held _, held _⟩
  obtain ⟨codec, hk⟩ := codecOf_lookup hwf he
  exact (execCall_arm hcmd he hk).trans (execArm_holds hfree hown codec e.id)

/-! ## Shared state -/

/-- Nothing that the ports share is changed (10_state.md R52 to R59). -/
def sharedKept (s t : State) : Prop := controlKept s t ∧ buffersKept s t ∧ channelKept s t

theorem sharedKept.modCur (s : State) (f : Port → Port) : sharedKept s (s.modCur f) :=
  ⟨⟨rfl, rfl, rfl, rfl, rfl, rfl⟩, ⟨rfl, rfl, rfl, rfl, rfl, rfl⟩, rfl, rfl, rfl⟩

theorem sharedKept.refl (s : State) : sharedKept s s :=
  ⟨⟨rfl, rfl, rfl, rfl, rfl, rfl⟩, ⟨rfl, rfl, rfl, rfl, rfl, rfl⟩, rfl, rfl, rfl⟩

theorem sharedKept.finish_modCur (k : Kind) (st : Byte) (l : Option Half) (s : State) (f : Port → Port) :
    sharedKept s (finish k st l (s.modCur f)) :=
  ⟨⟨rfl, rfl, rfl, rfl, rfl, rfl⟩, ⟨rfl, rfl, rfl, rfl, rfl, rfl⟩, rfl, rfl, rfl⟩

theorem sharedKept.finish (k : Kind) (st : Byte) (l : Option Half) (s : State) :
    sharedKept s (finish k st l s) := .modCur s _

/-- The issuing port is no shared state. -/
theorem sharedKept.of_setTurn {p : Fin 16} {s t : State} (h : sharedKept { s with turn := p } t) :
    sharedKept s t := h

/-- The checksum operation and the header operations use no shared state (30_encoding.md R102). -/
theorem exec_local_shared {i : Instr} {s t : State}
    (hi : i = .crc ∨ i = .encreq ∨ i = .decreq ∨ i = .encrep ∨ i = .decrep) (h : exec i s = .next t) :
    sharedKept s t := by
  rcases hi with rfl | rfl | rfl | rfl | rfl
  case inl =>
    obtain ⟨bytes, _, h⟩ := bind_eq_ok.mp (outcome_next.mp (show outcome _ = _ from h))
    obtain ⟨seed, _, h⟩ := bind_eq_ok.mp h
    cases h; exact .finish_modCur _ _ _ s _
  case inr.inl =>
    obtain ⟨hd, _, h⟩ := bind_eq_ok.mp (outcome_next.mp (show outcome _ = _ from h))
    cases h; exact .finish_modCur _ _ _ s _
  case inr.inr.inr.inl =>
    obtain ⟨hd, _, h⟩ := bind_eq_ok.mp (outcome_next.mp (show outcome _ = _ from h))
    cases h; exact .finish_modCur _ _ _ s _
  all_goals
    obtain ⟨n, _, h⟩ := bind_eq_ok.mp (outcome_next.mp (show outcome _ = _ from h))
    obtain ⟨bytes, _, h⟩ := bind_eq_ok.mp h
    split at h <;> cases h
    · exact .finish _ _ _ s
    · exact .finish_modCur _ _ _ s _

section
variable {s t : State} (hfree : s.lockOwner ≠ noPort) (hown : s.lockOwner ≠ portByte s.turn)
include hfree hown

/-- `CALL` waits for the lock once it has found its entry, and ends at once where it finds none. -/
theorem execCall_shared (h : execCall s = .next t) : sharedKept s t := by
  rcases execCall_next h with rfl | ⟨_, e, codec, _, _, _, h⟩
  · exact .finish _ _ _ s
  · rw [execArm_holds hfree hown] at h
    cases h; exact .refl s

/-- Whatever operation a code starts, while another port owns the lock it changes nothing shared. -/
theorem exec_shared {i : Instr} (hd : decodeOpc s.cur.opc = .ok i) (h : exec i s = .next t) :
    sharedKept s t := by
  have waits : exec i s = .next s → sharedKept s t := fun hholds => by
    rw [hholds] at h
    cases h; exact .refl s
  rcases decodeOpc_group hd with rfl | (rfl | rfl | rfl | rfl) | hplain
  · exact execCall_shared hfree hown h
  · exact waits (underLock_holds hfree hown _)
  · exact waits (underLock_holds hfree hown _)
  · exact waits (underLock_holds hfree hown _)
  · exact waits (underLock_holds hfree hown _)
  rcases hplain with rfl | rfl | rfl | rfl | rfl | rfl | rfl | rfl
  · exact exec_local_shared (.inl rfl) h
  · exact exec_local_shared (.inr (.inl rfl)) h
  · exact exec_local_shared (.inr (.inr (.inl rfl))) h
  · exact exec_local_shared (.inr (.inr (.inr (.inl rfl)))) h
  · exact exec_local_shared (.inr (.inr (.inr (.inr rfl)))) h
  · exact waits (exec_lock_holds hfree hown)
  · rw [exec_unlock_other hown] at h
    cases h; exact .modCur s _
  · exact waits (exec_setretry_holds hfree hown)

theorem beginJob_shared {job : Job} (h : beginJob job s = .next t) : sharedKept s t := by
  rw [beginJob, underLock_holds hfree hown] at h
  cases h; exact .refl s

end

section
variable {s t : State} {p : Fin 16} (hfree : s.lockOwner ≠ noPort) (hown : s.lockOwner ≠ portByte p)
  (hoff : s.engineOn p = false)
include hfree hown hoff

theorem takeTurn_shared (h : takeTurn p s = .next t) : sharedKept s t := by
  unfold takeTurn at h
  split at h
  · cases h; exact .refl s
  rw [if_neg (by simp [hoff])] at h
  split at h
  · next i hd => exact (exec_shared (s := { s with turn := p }) hfree hown hd h).of_setTurn
  · cases h; exact (sharedKept.finish _ _ _ { s with turn := p }).of_setTurn

theorem beginTurn_shared (h : beginTurn p s = .next t) : sharedKept s t := by
  unfold beginTurn at h
  split at h
  · cases h; exact .refl s
  rw [if_neg (by simp [hoff])] at h
  split at h
  · next i hd =>
    split at h
    · exact (beginJob_shared (s := { s with turn := p }) hfree hown h).of_setTurn
    · exact (exec_shared (s := { s with turn := p }) hfree hown hd h).of_setTurn
  · cases h; exact (sharedKept.finish _ _ _ { s with turn := p }).of_setTurn

end

/-- Settles O49: a port that waits for the lock holds, or ends without the lock, or works on its own registers. -/
theorem lockExclusion : Obligations.LockExclusion := fun _ _ _ hfree hown hoff hrun =>
  hrun.elim (takeTurn_shared hfree hown hoff) (beginTurn_shared hfree hown hoff)

end Sys2Proof.Machine
end

section
/-! Channel operations as one effect after another: the state while an operation runs, the end of an operation,
and `SEND` (42_protocol_engine.md R183, R187 to R190). -/

namespace Sys2Proof.Machine

/-! ## The cached request (42_protocol_engine.md R190) -/

theorem State.caches_off {s : State} (h : s.retry = 0#8) (header payload : List Byte) :
    s.caches header payload = s := if_pos h

theorem State.caches_on {s : State} (h : ¬ s.retry = 0#8) (header payload : List Byte) :
    s.caches header payload = cacheRequest header payload s := if_neg h

/-! ## While an operation runs -/

/-- The state `t` while its port's operation runs: the port holds the lock, and `G.FSM` shows `f`
(42_protocol_engine.md R183). What an operation has done so far is in `t`. -/
def State.during (t : State) (f : Fsm) : State :=
  { t with lockOwner := portByte t.turn, active := portByte t.turn, fsm := f }

section
variable (t : State) (f : Fsm)

theorem State.held_eq_during : t.held = t.during t.fsm := rfl

@[simp] theorem State.during_setFsm (g : Fsm) : (t.during f).setFsm g = t.during g := rfl
@[simp] theorem State.during_cfg : (t.during f).cfg = t.cfg := rfl
@[simp] theorem State.during_turn : (t.during f).turn = t.turn := rfl
@[simp] theorem State.during_retry : (t.during f).retry = t.retry := rfl
@[simp] theorem State.during_cur : (t.during f).cur = t.cur := rfl
@[simp] theorem State.during_rxs : (t.during f).rxs = t.rxs := rfl

@[simp] theorem State.during_sends (bytes : List Byte) :
    (t.during f).sends bytes = (t.sends bytes).during f := rfl

@[simp] theorem State.during_left (rest : List RxItem) : (t.during f).left rest = (t.left rest).during f := rfl

@[simp] theorem State.during_stages (header payload : List Byte) :
    (t.during f).stages header payload = (t.stages header payload).during f := rfl

@[simp] theorem State.during_modCur (g : Port → Port) : (t.during f).modCur g = (t.modCur g).during f := rfl

@[simp] theorem State.during_receives (payload : List Byte) :
    (t.during f).receives payload = (t.receives payload).during f := rfl

@[simp] theorem State.during_failed (x : Failure) : (t.during f).failed x = (t.failed x).during f := rfl

@[simp] theorem State.during_caches (header payload : List Byte) :
    (t.during f).caches header payload = (t.caches header payload).during f := by
  by_cases h : t.retry = 0#8
  · rw [State.caches_off h, State.caches_off (s := t.during f) h]
  · rw [State.caches_on h, State.caches_on (s := t.during f) h]
    rfl

end

/-! ## What effects leave -/

/-- The effects of an operation leave the parameters, the issuing port, the lock and the retry count. -/
structure Steady (s t : State) : Prop where
  cfg : t.cfg = s.cfg
  turn : t.turn = s.turn
  lockOwner : t.lockOwner = s.lockOwner
  retry : t.retry = s.retry

section
variable {s t : State}

theorem Steady.refl (s : State) : Steady s s := ⟨rfl, rfl, rfl, rfl⟩

theorem Steady.sends (h : Steady s t) (bytes : List Byte) : Steady s (t.sends bytes) :=
  ⟨h.cfg, h.turn, h.lockOwner, h.retry⟩

theorem Steady.left (h : Steady s t) (rest : List RxItem) : Steady s (t.left rest) :=
  ⟨h.cfg, h.turn, h.lockOwner, h.retry⟩

theorem Steady.stages (h : Steady s t) (header payload : List Byte) : Steady s (t.stages header payload) :=
  ⟨h.cfg, h.turn, h.lockOwner, h.retry⟩

theorem Steady.modCur (h : Steady s t) (g : Port → Port) : Steady s (t.modCur g) :=
  ⟨h.cfg, h.turn, h.lockOwner, h.retry⟩

theorem Steady.receives (h : Steady s t) (payload : List Byte) : Steady s (t.receives payload) := h.modCur _

theorem Steady.failed (h : Steady s t) (x : Failure) : Steady s (t.failed x) :=
  ⟨h.cfg, h.turn, h.lockOwner, h.retry⟩

theorem Steady.caches (h : Steady s t) (header payload : List Byte) : Steady s (t.caches header payload) := by
  unfold State.caches
  split
  · exact h
  · exact ⟨h.cfg, h.turn, h.lockOwner, h.retry⟩

/-- The coming write counts are no part of it. -/
theorem Steady.setScript (h : Steady s t) (script : List Nat) : Steady s { t with writeScript := script } :=
  ⟨h.cfg, h.turn, h.lockOwner, h.retry⟩

end

/-! ## The end of an operation -/

section
variable {s t : State} (hopen : s.lockOwner = noPort ∨ s.lockOwner = portByte s.turn) (ht : Steady s t)
include hopen ht

theorem endChannelOp_during (k : Kind) (st : Byte) (len : Half) (f : Fsm) :
    endChannelOp (decide (s.lockOwner = noPort)) k st len (t.during f) = t.ends k st len f :=
  endChannelOp_same (u := t.during f) hopen (congrArg portByte ht.turn) ht.turn ht.lockOwner
    ⟨rfl, rfl, rfl, rfl, rfl, rfl, rfl, rfl, rfl, rfl, rfl, rfl, rfl, rfl, rfl, rfl, rfl, rfl⟩ k st len

theorem endExchange_during (r : Result) (f : Fsm) :
    endExchange (decide (s.lockOwner = noPort)) (t.during f, r)
      = t.endsExchange r.kind r.status r.len r.resends f :=
  endChannelOp_during hopen (ht.modCur fun p => { p with resResends := some r.resends }) r.kind r.status r.len f

end

@[simp] theorem State.ends_cur (s : State) (k : Kind) (st : Byte) (l : Half) (f : Fsm) :
    (s.ends k st l f).cur
      = { s.cur with resKind := some k, resStatus := some st, resLen := some l, busy := false } :=
  s.cur_modCur fun p => { p with resKind := some k, resStatus := some st, resLen := some l, busy := false }

/-! ## The channel operations, from what their cores answer -/

section
variable {s t : State} {f : Fsm} (hopen : s.lockOwner = noPort ∨ s.lockOwner = portByte s.turn)
  (ht : Steady s t)
include hopen ht

theorem exec_send_of {cmd len : Half} {payload : List Byte} {ok : Bool} (hcmd : s.cur.cmd = some cmd)
    (hlen : s.cur.len = some len) (hpay : Memory.read s.cur.txbuf 0 len.toNat = some payload)
    (hsend : sendCore cmd payload s.held = (ok, t.during f)) :
    exec .send s = .next (if ok then t.ends .ok 0x00 0 f else t.ends .transportWriteError 0xFF 0 f) := by
  refine (underLock_open hopen).trans (congrArg outcome (bind_eq_ok.mpr ⟨cmd, held_cmd hcmd,
    bind_eq_ok.mpr ⟨payload, held_pay hlen hpay, ?_⟩⟩))
  dsimp only
  rw [hsend]
  cases ok
  · exact congrArg Except.ok (endChannelOp_during hopen ht _ _ _ _)
  · exact congrArg Except.ok (endChannelOp_during hopen ht _ _ _ _)

theorem exec_receive_of {cmd max : Half} {r : Reply} (hcmd : s.cur.cmd = some cmd)
    (hmax : s.cur.max = some max) (hrecv : receiveCore cmd max s.held = .ok (t.during f, r)) :
    exec .receive s = .next (t.ends r.kind r.status r.len f) := by
  refine (underLock_open hopen).trans (congrArg outcome (bind_eq_ok.mpr ⟨cmd, held_cmd hcmd,
    bind_eq_ok.mpr ⟨max, held_max hmax, bind_eq_ok.mpr ⟨_, hrecv, ?_⟩⟩⟩))
  exact congrArg Except.ok (endChannelOp_during hopen ht _ _ _ _)

theorem exec_exchange_of {cmd max : Half} {r : Result} (hcmd : s.cur.cmd = some cmd)
    (hmax : s.cur.max = some max) (hexch : exchangeCore cmd max s.held = .ok (t.during f, r)) :
    exec .exchange s = .next (t.endsExchange r.kind r.status r.len r.resends f) := by
  refine (underLock_open hopen).trans (congrArg outcome (bind_eq_ok.mpr ⟨cmd, held_cmd hcmd,
    bind_eq_ok.mpr ⟨max, held_max hmax, bind_eq_ok.mpr ⟨_, hexch, ?_⟩⟩⟩))
  exact congrArg Except.ok (endExchange_during hopen ht _ _)

theorem runArm_of {arm : State → Except Fault (State × Result)} {r : Result}
    (harm : arm s.held = .ok (t.during f, r)) :
    runArm arm s = .next (t.endsExchange r.kind r.status r.len r.resends f) :=
  (underLock_open hopen).trans (congrArg outcome (bind_eq_ok.mpr ⟨(t.during f, r), harm,
    congrArg Except.ok (endExchange_during hopen ht _ _)⟩))

end

/-- The request of a `TRANSACT` and its exchange (42_protocol_engine.md R206). -/
def requestExchange (cmd max : Half) (payload : List Byte) (s : State) : Except Fault (State × Result) :=
  let w := sendCore cmd payload s
  if w.1 then exchangeCore cmd max w.2 else .ok (w.2, writeFailed 0)

theorem exec_transact_of {s t : State} {f : Fsm} {cmd len max : Half} {payload : List Byte} {r : Result}
    (hopen : s.lockOwner = noPort ∨ s.lockOwner = portByte s.turn) (ht : Steady s t)
    (hcmd : s.cur.cmd = some cmd) (hlen : s.cur.len = some len)
    (hpay : Memory.read s.cur.txbuf 0 len.toNat = some payload)
    (hmax : (sendCore cmd payload s.held).1 = true → s.cur.max = some max)
    (hexch : requestExchange cmd max payload s.held = .ok (t.during f, r)) :
    exec .transact s = .next (t.endsExchange r.kind r.status r.len r.resends f) := by
  refine (underLock_open hopen).trans (congrArg outcome (bind_eq_ok.mpr ⟨cmd, held_cmd hcmd,
    bind_eq_ok.mpr ⟨payload, held_pay hlen hpay, ?_⟩⟩))
  have hend := endExchange_during hopen ht r f
  unfold requestExchange at hexch
  dsimp only at hexch ⊢
  split
  · next hsent =>
    rw [if_pos hsent] at hexch
    have hneed : (sendCore cmd payload s.held).2.needMax = .ok max :=
      need_some (by rw [sendCore_cur]; exact hmax hsent)
    exact bind_eq_ok.mpr ⟨max, hneed, bind_eq_ok.mpr ⟨(t.during f, r), hexch, congrArg Except.ok hend⟩⟩
  · next hshort =>
    rw [if_neg hshort] at hexch
    obtain ⟨hsent, hfailed⟩ := Prod.mk.inj (Except.ok.inj hexch)
    rw [hsent, hfailed]
    exact congrArg Except.ok hend

/-! ## `SEND`, and a `TRANSACT` whose send fails -/

/-- Settles O18: the two writes go whole, and the operation ends with `OK`. -/
theorem sendWhole : Obligations.SendWhole := by
  intro s cmd len payload hopen hcmd hlen hpay hwhole
  refine exec_send_of (ok := true) hopen (((Steady.refl s).sends _).caches _ _) hcmd hlen hpay ?_
  rw [sendCore_whole cmd payload s.held hwhole, s.held_eq_during]
  simp

/-- Settles O19: the first short write ends the send. -/
theorem sendShort : Obligations.SendShort := by
  refine ⟨fun s cmd len payload k script hopen hcmd hlen hpay hscript hk => ?_,
    fun s cmd len payload k j script hopen hcmd hlen hpay hscript hk hj => ?_⟩
  · exact exec_send_of (ok := false) hopen (((Steady.refl s).setScript script).sends _) hcmd hlen hpay
      (sendCore_short_header (s := s.held) hscript hk)
  · exact exec_send_of (ok := false) hopen (((Steady.refl s).setScript script).sends _) hcmd hlen hpay
      (sendCore_short_payload (s := s.held) hscript hk hj)

/-- Settles O33: a send that is cut short leaves no exchange to make. -/
theorem transactSendFails : Obligations.TransactSendFails := by
  intro s cmd len payload k j script hopen hcmd hlen hpay
  refine ⟨fun hscript hk => ?_, fun hscript hk hj => ?_⟩
  · have hsend := sendCore_short_header (s := s.held) (cmd := cmd) (payload := payload) hscript hk
    exact exec_transact_of (max := 0) (r := writeFailed 0) hopen (((Steady.refl s).setScript script).sends _)
      hcmd hlen hpay (by simp [hsend]) (by simp only [requestExchange, hsend]; rfl)
  · have hsend := sendCore_short_payload (s := s.held) (cmd := cmd) (payload := payload) hscript hk hj
    exact exec_transact_of (max := 0) (r := writeFailed 0) hopen (((Steady.refl s).setScript script).sends _)
      hcmd hlen hpay (by simp [hsend]) (by simp only [requestExchange, hsend]; rfl)

end Sys2Proof.Machine
end

section
/-! `RECEIVE` (42_protocol_engine.md R191 to R199): the checks on a reply, one at a time, and a receive that is not
`OK` as one failure of the channel's items. -/

namespace Sys2Proof.Machine

/-! ## The checks, in the order of R195 -/

section
variable {s : State} {cmd max : Half} {r : RepHeader} {header payload : List Byte}

theorem judgeReply_badChecksum (h : repCks s.cfg header payload ≠ r.cks) :
    judgeReply cmd max r header payload s
      = (s.setFsm .localError, ⟨.checksumMismatch, localStatus, r.len⟩) := by
  have hbad : replyCksOk s.cfg header payload r.cks = false := beq_eq_false_iff_ne.mpr h
  unfold judgeReply
  rw [if_pos hbad]
  rfl

variable (hcks : repCks s.cfg header payload = r.cks)
include hcks

theorem judgeReply_status (hst : r.status ≠ 0x00#8) :
    judgeReply cmd max r header payload s = deviceReply cmd r.status r.len s := by
  have hgood : replyCksOk s.cfg header payload r.cks = true := beq_iff_eq.mpr hcks
  unfold judgeReply
  rw [if_neg (by simp [hgood]), if_pos hst]

theorem judgeReply_hwFault (hst : r.status ≠ 0x00#8) (hhw : s.cfg.hwThresh ≤ r.status) :
    judgeReply cmd max r header payload s
      = ((s.logFault cmd r.status).setFsm .deviceError, ⟨.deviceReportedError, r.status, r.len⟩) := by
  rw [judgeReply_status hcks hst, deviceReply, statusKind, if_pos hhw, if_pos hhw]

theorem judgeReply_protocolStatus (hst : r.status ≠ 0x00#8) (hhw : r.status < s.cfg.hwThresh) :
    judgeReply cmd max r header payload s
      = (s.setFsm .deviceError, ⟨.protocolStatusError, r.status, r.len⟩) := by
  have hlow : ¬ s.cfg.hwThresh ≤ r.status := BitVec.not_le.mpr hhw
  rw [judgeReply_status hcks hst, deviceReply, statusKind, if_neg hlow, if_neg hlow]

variable (hst : r.status = 0x00#8)
include hst

theorem judgeReply_otherCommand (hcmd : r.cmd.setWidth 16 ≠ cmd) :
    judgeReply cmd max r header payload s
      = (s.setFsm .localError, ⟨.commandMismatch, localStatus, r.len⟩) := by
  have hgood : replyCksOk s.cfg header payload r.cks = true := beq_iff_eq.mpr hcks
  unfold judgeReply
  rw [if_neg (by simp [hgood]), if_neg (not_not.mpr hst), if_pos hcmd]
  rfl

theorem judgeReply_tooLong (hcmd : r.cmd.setWidth 16 = cmd) (hlen : max < r.len) :
    judgeReply cmd max r header payload s
      = (s.setFsm .localError, ⟨.bufferTooSmall, localStatus, r.len⟩) := by
  have hgood : replyCksOk s.cfg header payload r.cks = true := beq_iff_eq.mpr hcks
  have hne : r.len ≠ 0#16 := fun h0 => by simp [h0] at hlen
  unfold judgeReply
  rw [if_neg (by simp [hgood]), if_neg (not_not.mpr hst), if_neg (not_not.mpr hcmd), if_neg hne, if_pos hlen]
  rfl

end

/-! ## A receive that is not `OK`, as one failure -/

/-- What `receiveCore` answers of a failed receive. -/
def Failure.reply (x : Failure) : Reply := ⟨x.kind, x.status, x.len⟩

theorem State.stages_nil (s : State) (header : List Byte) :
    s.stages header [] = { s with stageHdr := Memory.write s.stageHdr 0 header } := by
  rw [State.stages, Memory.write_nil]

/-- A failure that is not logged went through the staging only. -/
theorem State.failed_unlogged (s : State) {x : Failure} (h : x.log = []) :
    s.failed x = s.stages x.header x.payload := by
  rw [State.failed, h, List.append_nil]
  rfl

theorem State.failed_nothing (s : State) {x : Failure} (hlog : x.log = []) (hhead : x.header = [])
    (hpay : x.payload = []) : s.failed x = s := by
  rw [s.failed_unlogged hlog, hhead, hpay, s.stages_nil, Memory.write_nil]

section
variable {s : State} {cmd max : Half} {rest : List RxItem}

/-- A reply that arrives whole is judged (42_protocol_engine.md R195). -/
theorem receiveCore_arrived {header payload : List Byte} {r : RepHeader}
    (h : replyArrives s.cfg s.rxs rest header payload r) :
    receiveCore cmd max s = .ok (judgeReply cmd max r header payload
      (((s.setFsm .awaitingReply).left rest).stages header payload)) := by
  obtain ⟨h6, hdec, hlen, hfits, hitems⟩ := h
  exact receiveCore_whole h6 hdec hlen.symm hfits hitems

/-- A receive whose result is retriable stages what came and answers its failure. -/
theorem receiveCore_retriable {x : Failure} (h : receiveRetriable s.cfg cmd s.rxs rest x) :
    receiveCore cmd max s = .ok (((s.failed x).left rest).setFsm x.fsm, x.reply) := by
  rcases h with ⟨bytes, after, hlen, hitems, hstops, rfl⟩
    | ⟨header, bytes, r, after, h6, hdec, hlen, hfits, hitems, hstops, rfl⟩
    | ⟨header, payload, r, harrives, ⟨hcks, rfl⟩ | ⟨hcks, hst, hcmd, rfl⟩⟩
  · rw [receiveCore_short_header hlen hitems hstops, s.failed_nothing rfl rfl rfl]
    rfl
  · rw [receiveCore_short_payload h6 hdec hlen hfits hitems hstops, s.failed_unlogged rfl, s.stages_nil]
    rfl
  · rw [receiveCore_arrived harrives, s.failed_unlogged rfl]
    exact congrArg Except.ok (judgeReply_badChecksum hcks)
  · rw [receiveCore_arrived harrives, s.failed_unlogged rfl]
    exact congrArg Except.ok (judgeReply_otherCommand hcks hst hcmd)

/-- A receive that is refused for good stages the reply, logs a hardware fault, and answers its failure. -/
theorem receiveCore_terminal {x : Failure} (h : receiveTerminal s.cfg s.turn cmd max s.rxs rest x) :
    receiveCore cmd max s = .ok (((s.failed x).left rest).setFsm x.fsm, x.reply) := by
  obtain ⟨header, payload, r, harrives, hcks,
    ⟨hst, hhw, rfl⟩ | ⟨hst, hhw, rfl⟩ | ⟨hst, hcmd, hlen, rfl⟩⟩ := h
  · exact (receiveCore_arrived harrives).trans (congrArg Except.ok (judgeReply_hwFault hcks hst hhw))
  · rw [receiveCore_arrived harrives, s.failed_unlogged rfl]
    exact congrArg Except.ok (judgeReply_protocolStatus hcks hst hhw)
  · rw [receiveCore_arrived harrives, s.failed_unlogged rfl]
    exact congrArg Except.ok (judgeReply_tooLong hcks hst hcmd hlen)

theorem receiveRetriable_kind {c : Params} {items : List RxItem} {x : Failure}
    (h : receiveRetriable c cmd items rest x) : retriable x.kind = true := by
  rcases h with ⟨_, _, _, _, _, rfl⟩ | ⟨_, _, _, _, _, _, _, _, _, _, rfl⟩
    | ⟨_, _, _, _, ⟨_, rfl⟩ | ⟨_, _, _, rfl⟩⟩
  all_goals rfl

theorem receiveTerminal_kind {c : Params} {port : Fin 16} {items : List RxItem} {x : Failure}
    (h : receiveTerminal c port cmd max items rest x) : retriable x.kind = false := by
  obtain ⟨_, _, _, _, _, ⟨_, _, rfl⟩ | ⟨_, _, rfl⟩ | ⟨_, _, _, rfl⟩⟩ := h
  all_goals rfl

end

/-! ## `RECEIVE` -/

section
variable {s : State} {cmd max : Half} {rest : List RxItem}
  (hopen : s.lockOwner = noPort ∨ s.lockOwner = portByte s.turn) (hcmd : s.cur.cmd = some cmd)
  (hmax : s.cur.max = some max)
include hopen hcmd hmax

theorem exec_receive_failed {x : Failure}
    (h : receiveCore cmd max s.held = .ok (((s.held.failed x).left rest).setFsm x.fsm, x.reply)) :
    exec .receive s = .next (((s.failed x).left rest).ends x.kind x.status x.len x.fsm) :=
  exec_receive_of hopen (((Steady.refl s).failed x).left rest) hcmd hmax h

theorem exec_receive_retriable {x : Failure} (h : receiveRetriable s.cfg cmd s.rxs rest x) :
    exec .receive s = .next (((s.failed x).left rest).ends x.kind x.status x.len x.fsm) :=
  exec_receive_failed hopen hcmd hmax (receiveCore_retriable (s := s.held) h)

theorem exec_receive_terminal {x : Failure} (h : receiveTerminal s.cfg s.turn cmd max s.rxs rest x) :
    exec .receive s = .next (((s.failed x).left rest).ends x.kind x.status x.len x.fsm) :=
  exec_receive_failed hopen hcmd hmax (receiveCore_terminal (s := s.held) h)

end

/-- Settles O21: the checks accept the reply. -/
theorem receiveGood : Obligations.ReceiveGood := by
  intro s id max payload rest hopen hcmd hmax hhears hfits hstage
  exact exec_receive_of hopen ((((Steady.refl s).left rest).stages _ payload).receives payload) hcmd hmax
    (receiveCore_good (s := s.held) hfits hstage hhears)

/-- Settles O22: a reply that stops short is a retriable failure, of which nothing or its header is staged. -/
theorem receiveShort : Obligations.ReceiveShort := by
  refine ⟨fun s cmd max bytes after rest hopen hcmd hmax hlen hhears hstops => ?_,
    fun s cmd max header bytes r after rest hopen hcmd hmax h6 hdec hlen hstage hhears hstops => ?_⟩
  · have hexec := exec_receive_retriable hopen hcmd hmax (.inl ⟨bytes, after, hlen, hhears, hstops, rfl⟩)
    rwa [s.failed_nothing rfl rfl rfl] at hexec
  · have hexec := exec_receive_retriable hopen hcmd hmax
      (.inr (.inl ⟨header, bytes, r, after, h6, hdec, hlen, hstage, hhears, hstops, rfl⟩))
    rwa [s.failed_unlogged rfl, s.stages_nil] at hexec

/-- Settles O23: each check that fails is a failure of a reply that arrived whole. -/
theorem receiveChecks : Obligations.ReceiveChecks := by
  intro s cmd max header payload r rest hopen hcmd hmax h6 hdec hlen hstage hhears u
  have harrives : replyArrives s.cfg s.rxs rest header payload r := ⟨h6, hdec, hlen.symm, hstage, hhears⟩
  have retries {x : Failure} (hlog : x.log = []) (h : receiveRetriable s.cfg cmd s.rxs rest x) :
      exec .receive s = .next (((s.stages x.header x.payload).left rest).ends x.kind x.status x.len x.fsm) := by
    have hexec := exec_receive_retriable hopen hcmd hmax h
    rwa [s.failed_unlogged hlog] at hexec
  have refused {x : Failure} (hlog : x.log = []) (h : receiveTerminal s.cfg s.turn cmd max s.rxs rest x) :
      exec .receive s = .next (((s.stages x.header x.payload).left rest).ends x.kind x.status x.len x.fsm) := by
    have hexec := exec_receive_terminal hopen hcmd hmax h
    rwa [s.failed_unlogged hlog] at hexec
  refine ⟨fun hcks => ?_, fun hcks hst hhw => ?_, fun hcks hst hhw => ?_, fun hcks hst hother => ?_,
    fun hcks hst hsame hlong => ?_⟩
  · exact retries (x := ⟨.checksumMismatch, 0xFF#8, r.len, .localError, header, payload, []⟩) rfl
      (.inr (.inr ⟨header, payload, r, harrives, .inl ⟨hcks, rfl⟩⟩))
  · exact exec_receive_terminal hopen hcmd hmax
      (x := ⟨.deviceReportedError, r.status, r.len, .deviceError, header, payload, [⟨s.turn, cmd, r.status⟩]⟩)
      ⟨header, payload, r, harrives, hcks, .inl ⟨hst, hhw, rfl⟩⟩
  · exact refused (x := ⟨.protocolStatusError, r.status, r.len, .deviceError, header, payload, []⟩) rfl
      ⟨header, payload, r, harrives, hcks, .inr (.inl ⟨hst, hhw, rfl⟩)⟩
  · exact retries (x := ⟨.commandMismatch, 0xFF#8, r.len, .localError, header, payload, []⟩) rfl
      (.inr (.inr ⟨header, payload, r, harrives, .inr ⟨hcks, hst, hother, rfl⟩⟩))
  · exact refused (x := ⟨.bufferTooSmall, 0xFF#8, r.len, .localError, header, payload, []⟩) rfl
      ⟨header, payload, r, harrives, hcks, .inr (.inr ⟨hst, hsame, hlong, rfl⟩)⟩

/-- Settles O24: the length is checked before the payload is read, and no u16 exceeds the default staging. -/
theorem stageOverflow : Obligations.StageOverflow := by
  refine ⟨fun s cmd max header r rest hhears h6 hdec hover => ?_, fun s cmd max => receiveCore_completes cmd max s⟩
  have hread : takeRx 6 s.rxs = (header, rest) := by rw [hhears, ← h6, takeRx_bytes]
  unfold receiveCore
  simp only [chanRead_of (s := s.setFsm .awaitingReply) hread, hdec, if_pos hover]

/-! ## A reply with one byte changed (42_protocol_engine.md R217) -/

/-- The length of a reply is in the bytes at offsets 2 and 3. -/
theorem decRep_len_congr {en : Endian} {h h' : List Byte} {r r' : RepHeader} (hd : decRep en h = some r)
    (hd' : decRep en h' = some r') (h6 : h.length = 6) (h6' : h'.length = 6) (h2 : h[2]? = h'[2]?)
    (h3 : h[3]? = h'[3]?) : r.len = r'.len := by
  rw [← encRep_of_decRep hd h6, ← encRep_of_decRep hd' h6'] at h2 h3
  obtain ⟨a, b, hpack, hlen⟩ := pack16_cases en r.len
  obtain ⟨a', b', hpack', hlen'⟩ := pack16_cases en r'.len
  simp only [encRep, hpack, hpack', List.cons_append, List.nil_append, List.getElem?_cons_succ,
    List.getElem?_cons_zero, Option.some.injEq] at h2 h3
  rw [← hlen, ← hlen', h2, h3]

/-- A change outside the length field leaves a header that names the same length. -/
theorem decRep_changed (c : Params) (id st x : Byte) {payload : List Byte} {k : Nat} (hpay : payload.length ≤ 65535)
    (hk2 : k ≠ 2) (hk3 : k ≠ 3) :
    ∃ r, decRep c.endian (((replyFrame c id st payload).set k x).take 6) = some r
      ∧ r.len.toNat = payload.length := by
  have h6 : (((replyFrame c id st payload).set k x).take 6).length = 6 := by simp [replyFrame]
  obtain ⟨r, hr⟩ := Option.isSome_iff_exists.mp ((decRep_isSome c.endian _).trans (decide_eq_true h6.ge))
  have hkept : ∀ i, i < 6 → k ≠ i →
      (((replyFrame c id st payload).set k x).take 6)[i]? = (replyHeader c id st payload)[i]? := by
    intro i hi hne
    rw [List.getElem?_take_of_lt hi, List.getElem?_set_ne hne, replyFrame,
      List.getElem?_append_left (by simpa using hi)]
  have hlen := decRep_len_congr hr (decRep_replyHeader c id st payload) h6 (by simp)
    (hkept 2 (by omega) hk2) (hkept 3 (by omega) hk3)
  refine ⟨r, hr, ?_⟩
  rw [hlen]
  exact Nat.mod_eq_of_lt (by omega)

/-- Settles O25: the changed frame still says how long it is, and its checksum no longer fits it. -/
theorem corruptReply : Obligations.CorruptReply := by
  intro s cmd max id st x payload k n after rest hopen hcmd hmax hinj hstage hpay hk hk2 hk3 hne
  obtain ⟨r, hdec, hlen⟩ := decRep_changed s.cfg id st x hpay hk2 hk3
  generalize hchanged : (replyFrame s.cfg id st payload).set k x = changed at hdec ⊢
  have hsize : changed.length = 6 + payload.length := by rw [← hchanged]; simp [replyFrame]
  have h6 : (changed.take 6).length = 6 := by rw [List.length_take]; omega
  have ends {y : Failure} (h : receiveRetriable s.cfg cmd s.rxs rest y) :
      ∃ t, exec .receive s = .next t ∧ t.cur.resKind = some y.kind :=
    ⟨_, exec_receive_retriable hopen hcmd hmax h, congrArg Port.resKind (State.ends_cur _ _ _ _ _)⟩
  refine ⟨fun hhears => ?whole, fun hn hhears hstops => ?short⟩
  case whole =>
    obtain ⟨_, _, hdetect⟩ := frameLaws
    have hbad := hdetect s.cfg id st x payload (changed.take 6) (changed.drop 6) k r hinj hk2 hk3 hk h6
      (by rw [List.take_append_drop, hchanged]) hne hdec
    have hdrop : (changed.drop 6).length = r.len.toNat := by rw [List.length_drop]; omega
    refine ends (y := ⟨.checksumMismatch, 0xFF#8, r.len, .localError, changed.take 6, changed.drop 6, []⟩)
      (.inr (.inr ⟨_, _, r, ⟨h6, hdec, hdrop, by omega, ?_⟩, .inl ⟨beq_eq_false_iff_ne.mp hbad, rfl⟩⟩))
    rwa [List.take_append_drop]
  case short =>
    by_cases hhead : n < 6
    · exact ends (y := ⟨.transportReadError, 0xFF#8, 0#16, .localError, [], [], []⟩)
        (.inl ⟨changed.take n, after, by rw [List.length_take]; omega, hhears, hstops, rfl⟩)
    · have hsplit : changed.take n = changed.take 6 ++ (changed.drop 6).take (n - 6) := by
        rw [← List.take_add, Nat.add_sub_cancel' (by omega)]
      rw [hsplit] at hhears
      exact ends (y := ⟨.transportReadError, 0xFF#8, r.len, .localError, changed.take 6, [], []⟩)
        (.inr (.inl ⟨_, _, r, after, h6, hdec, by rw [List.length_take, List.length_drop]; omega, by omega,
          hhears, hstops, rfl⟩))

end Sys2Proof.Machine
end

section
/-! What a receive, a request and an exchange leave: the bytes sent, the retry cache and `RXBUF`
(42_protocol_engine.md R190, R192, R202, R215). -/

namespace Sys2Proof.Machine

/-! ## A receive sends and caches nothing -/

/-- The bytes sent, the coming writes' answers and the retry cache are as before. -/
structure SendSideKept (s t : State) : Prop extends CacheKept s t where
  txs : t.txs = s.txs
  writeScript : t.writeScript = s.writeScript

theorem judgeReply_sendSide (cmd max : Half) (r : RepHeader) (header payload : List Byte) (s : State) :
    SendSideKept s (judgeReply cmd max r header payload s).1 := by
  refine ⟨CacheKept.judgeReply cmd max r header payload s, ?_, ?_⟩
  all_goals
    unfold judgeReply deviceReply localReply
    dsimp only
    repeat' split
    all_goals rfl

theorem receiveCore_sendSide {cmd max : Half} {s : State} {x : State × Reply}
    (h : receiveCore cmd max s = .ok x) : SendSideKept s x.1 := by
  refine ⟨CacheKept.receiveCore h, ?_, ?_⟩
  all_goals
    rcases receiveCore_cases h with
      ⟨_, _, _, _, rfl⟩ | ⟨_, _, _, _, _, _, _, ⟨_, _, _, _, rfl⟩ | ⟨_, rest, _, _, rfl⟩⟩
    · rfl
    · rfl
  · exact (judgeReply_sendSide _ _ _ _ _ _).txs
  · exact (judgeReply_sendSide _ _ _ _ _ _).writeScript

/-! ## The retry cache -/

/-- The retry cache holds this request (42_protocol_engine.md R190, R202). -/
def State.cached (s : State) (header payload : List Byte) : Prop :=
  s.rcValid = true ∧ Memory.read s.rcHdr 0 8 = some header
    ∧ ∃ len : Half, s.rcLen = some len ∧ Memory.read s.rcPay 0 len.toNat = some payload

theorem State.cached.kept {s t : State} {header payload : List Byte} (h : s.cached header payload)
    (hk : CacheKept s t) : t.cached header payload := by
  obtain ⟨hvalid, hhdr, len, hlen, hpay⟩ := h
  exact ⟨hk.valid.trans hvalid, by rw [hk.hdr]; exact hhdr, len, hk.len.trans hlen, by rw [hk.pay]; exact hpay⟩

/-- A resend transmits the cached request verbatim. -/
theorem State.cached.resendCore {s : State} {header payload : List Byte} (h : s.cached header payload) :
    resendCore s = .ok (transmit header payload s) := by
  obtain ⟨hvalid, hhdr, len, hlen, hpay⟩ := h
  exact resendCore_of hvalid hhdr hlen hpay

/-- A cached request fits a frame (20_memory.md R92). -/
theorem State.cached.lengths {s : State} {header payload : List Byte} (h : s.cached header payload) :
    header.length = 8 ∧ payload.length ≤ 65535 := by
  obtain ⟨_, hhdr, len, _, hpay⟩ := h
  have hbound := len.isLt
  rw [Memory.read_length _ _ _ _ hhdr, Memory.read_length _ _ _ _ hpay]
  exact ⟨rfl, by omega⟩

/-- With retries enabled, a request that was sent can be sent again. -/
theorem State.caches_cached {s : State} (hretry : ¬ s.retry = 0#8) {header payload : List Byte}
    (h8 : header.length = 8) (hpay : payload.length ≤ 65535) :
    (s.caches header payload).cached header payload := by
  rw [State.caches_on hretry]
  have hlen : (BitVec.ofNat 16 payload.length).toNat = payload.length := Nat.mod_eq_of_lt (by omega)
  refine ⟨rfl, ?_, _, rfl, ?_⟩
  · rw [← h8]; exact Memory.read_write_same _ 0 header
  · rw [hlen]; exact Memory.read_write_same _ 0 payload

@[simp] theorem State.caches_txs (s : State) (header payload : List Byte) :
    (s.caches header payload).txs = s.txs := by
  unfold State.caches
  split <;> rfl

@[simp] theorem State.caches_writeScript (s : State) (header payload : List Byte) :
    (s.caches header payload).writeScript = s.writeScript := by
  unfold State.caches
  split <;> rfl

/-- Without retries a send caches nothing (42_protocol_engine.md R186, R190). -/
theorem sendCore_uncached {cmd : Half} {payload : List Byte} {s : State} (h : s.retry = 0#8) :
    CacheKept s (sendCore cmd payload s).2 := by
  have hsent := CacheKept.transmit (buildReq s.cfg cmd payload) payload (s.setFsm .sending)
  have hretry : (transmit (buildReq s.cfg cmd payload) payload (s.setFsm .sending)).2.retry = 0#8 :=
    (Runs.transmit _ _ _).retry.trans h
  unfold sendCore
  dsimp only
  split
  · rw [requestSent, if_pos hretry]
    exact ⟨hsent.valid, hsent.hdr, hsent.len, hsent.pay⟩
  · exact ⟨hsent.valid, hsent.hdr, hsent.len, hsent.pay⟩

/-! ## What an exchange sends -/

/-- Over a channel that takes every byte, the loop sends the cached request once for each resend. -/
theorem retryLoop_sent {cmd max : Half} {header payload : List Byte} (left n : Nat) {x : State × Reply}
    {y : State × Result} (hwhole : x.1.writesWhole) (hcache : left = 0 ∨ x.1.cached header payload)
    (h : retryLoop cmd max left n x = .ok y) :
    ∃ m, m ≤ left ∧ y.2.resends = BitVec.ofNat 8 (n + m)
      ∧ y.1.txs = x.1.txs ++ (List.replicate m (header ++ payload)).flatten := by
  induction left generalizing n x with
  | zero => cases h; exact ⟨0, Nat.le_refl _, rfl, by simp⟩
  | succ left ih =>
    rw [retryLoop] at h
    split at h
    · have hcached : (x.1.setFsm .resending).cached header payload := hcache.resolve_left (Nat.succ_ne_zero _)
      rw [hcached.resendCore, transmit_whole header payload (x.1.setFsm .resending) hwhole] at h
      obtain ⟨_, ⟨⟩, h⟩ := bind_eq_ok.mp h
      obtain ⟨z, hz, h⟩ := bind_eq_ok.mp h
      have hkept := receiveCore_sendSide hz
      obtain ⟨m, hm, hresends, htxs⟩ := ih (n + 1) (hkept.writeScript.trans hwhole)
        (.inr (hcached.kept ⟨hkept.valid, hkept.hdr, hkept.len, hkept.pay⟩)) h
      refine ⟨m + 1, by omega, by rw [hresends]; congr 1; omega, ?_⟩
      rw [htxs, hkept.txs, List.replicate_succ, List.flatten_cons]
      exact List.append_assoc _ _ _
    · cases h; exact ⟨0, Nat.zero_le _, rfl, by simp⟩

/-- An exchange sends the cached request once for each resend. -/
theorem exchangeCore_sent {cmd max : Half} {header payload : List Byte} {s : State} {y : State × Result}
    (hwhole : s.writesWhole) (hcache : s.retry = 0#8 ∨ s.cached header payload)
    (h : exchangeCore cmd max s = .ok y) :
    y.1.txs = s.txs ++ (List.replicate y.2.resends.toNat (header ++ payload)).flatten := by
  obtain ⟨x, hx, h⟩ := bind_eq_ok.mp h
  have hkept := receiveCore_sendSide hx
  obtain ⟨m, hm, hresends, htxs⟩ := retryLoop_sent _ 0 (hkept.writeScript.trans hwhole)
    (hcache.imp (fun h0 => by rw [h0]; rfl) fun hc => hc.kept hkept.toCacheKept) h
  have hbound := s.retry.isLt
  have hm8 : y.2.resends.toNat = m := by
    rw [hresends, BitVec.toNat_ofNat]
    omega
  rw [hm8, htxs, hkept.txs]

/-- With `G.RETRY` 0 an exchange sends nothing and counts nothing (42_protocol_engine.md R186, R201). -/
theorem exchangeCore_noRetry {cmd max : Half} {s : State} {y : State × Result} (hretry : s.retry = 0#8)
    (h : exchangeCore cmd max s = .ok y) : y.1.txs = s.txs ∧ y.2.resends = 0 := by
  unfold exchangeCore at h
  rw [hretry] at h
  obtain ⟨x, hx, h⟩ := bind_eq_ok.mp h
  cases h
  exact ⟨(receiveCore_sendSide hx).txs, rfl⟩

/-- A request and its exchange send the request once, and once more for each resend. -/
theorem requestExchange_sent {cmd max : Half} {payload : List Byte} {s : State} {y : State × Result}
    (hwhole : s.writesWhole) (hpay : payload.length ≤ 65535) (h : requestExchange cmd max payload s = .ok y) :
    y.1.txs
      = s.txs ++ (List.replicate (y.2.resends.toNat + 1) (requestFrame s.cfg cmd payload)).flatten := by
  unfold requestExchange at h
  rw [sendCore_whole cmd payload s hwhole] at h
  dsimp only at h
  rw [if_pos rfl] at h
  obtain ⟨u, hu⟩ : ∃ u, (s.sends (requestFrame s.cfg cmd payload)).caches (requestHeader s.cfg cmd payload) payload
    = u := ⟨_, rfl⟩
  have hretry : u.retry = s.retry := hu ▸ (((Steady.refl s).sends _).caches _ _).retry
  have htxs : u.txs = s.txs ++ requestFrame s.cfg cmd payload := hu ▸ State.caches_txs _ _ _
  have hscript : u.writesWhole := hu ▸ (State.caches_writeScript _ _ _).trans hwhole
  have hcached (h0 : ¬ s.retry = 0#8) : u.cached (requestHeader s.cfg cmd payload) payload :=
    hu ▸ State.caches_cached (s := s.sends _) h0 (requestHeader_length _ _ _) hpay
  rw [hu] at h
  have hcache : u.retry = 0#8 ∨ u.cached (requestHeader s.cfg cmd payload) payload :=
    (em (s.retry = 0#8)).imp hretry.trans hcached
  rw [exchangeCore_sent (s := u.setFsm .awaitingReply) hscript hcache h, State.setFsm_txs, htxs,
    List.replicate_succ, List.flatten_cons]
  exact List.append_assoc _ _ _

theorem armExchange_eq_requestExchange (id : Byte) (payload : List Byte) (bound : Half) (s : State) :
    armExchange id payload bound s = requestExchange (id.setWidth 16) bound payload s := rfl

/-- Settles O16: `SETRETRY` asks for an open lock, and the cache and the resends ask for a count. -/
theorem setretryResult : Obligations.SetretryResult := by
  refine ⟨fun s arg hopen harg => ?_, fun s hopen harg => ?_, fun s => exec_setretry_holds,
    fun s cmd max payload hretry => ?_, rfl⟩
  · have hneed : s.needArg = .ok arg := need_some harg
    show execSetretry s = _
    rw [execSetretry, if_pos ((lockOpen_iff s).mpr hopen), hneed, ← byteAt_zero_eq_setWidth]
    rfl
  · have hneed : s.needArg = .error .unwritten := need_unwritten harg
    show execSetretry s = _
    rw [execSetretry, if_pos ((lockOpen_iff s).mpr hopen), hneed]
    rfl
  · obtain ⟨hvalid, hhdr, hlen, hpay⟩ := sendCore_uncached (cmd := cmd) (payload := payload) hretry
    exact ⟨hvalid, hhdr, hlen, hpay, fun y => exchangeCore_noRetry hretry⟩

end Sys2Proof.Machine
end

section
/-! What a channel operation that exchanges can answer: the results of an exchange and of an arm, their resends,
`RXBUF`, and the fault of a resend without a request (42_protocol_engine.md R202 to R204, R215; 43_command_dispatch.md
R249, R256, R263). -/

namespace Sys2Proof.Machine

/-! ## The operations with an exchange, as one wrapper around a body -/

/-- The body of `EXCHANGE` (42_protocol_engine.md R200). -/
def exchangeBody (s : State) : Except Fault (State × Result) := do
  let cmd ← s.needCmd
  let max ← s.needMax
  exchangeCore cmd max s

/-- The body of `TRANSACT` (42_protocol_engine.md R206). -/
def transactBody (s : State) : Except Fault (State × Result) := do
  let cmd ← s.needCmd
  let payload ← s.needPayload
  let w := sendCore cmd payload s
  if w.1 then do
    let max ← w.2.needMax
    exchangeCore cmd max w.2
  else pure (w.2, writeFailed 0)

theorem exec_exchange_eq (s : State) : exec .exchange s = runArm exchangeBody s := by
  show execExchange s = _
  simp only [execExchange, runArm, exchangeBody, bind_assoc]

theorem exec_transact_eq (s : State) : exec .transact s = runArm transactBody s := by
  show execTransact s = _
  unfold execTransact runArm transactBody
  congr 1
  funext took s1
  simp only [bind_assoc]
  refine congrArg _ (funext fun cmd => congrArg _ (funext fun payload => ?_))
  split
  · simp only [bind_assoc]
  · rfl

theorem transactBody_ok {s : State} {x : State × Result} (h : transactBody s = .ok x) :
    ∃ cmd payload max, s.needCmd = .ok cmd ∧ s.needPayload = .ok payload
      ∧ requestExchange cmd max payload s = .ok x := by
  obtain ⟨cmd, hcmd, h⟩ := bind_eq_ok.mp h
  obtain ⟨payload, hpay, h⟩ := bind_eq_ok.mp h
  dsimp only at h
  split at h
  · next hsent =>
    obtain ⟨max, _, h⟩ := bind_eq_ok.mp h
    exact ⟨cmd, payload, max, hcmd, hpay, (if_pos hsent).trans h⟩
  · next hshort => exact ⟨cmd, payload, 0, hcmd, hpay, (if_neg hshort).trans h⟩

/-- An operation whose body holds, or ran from the state in which its port has the lock. -/
theorem runArm_next {body : State → Except Fault (State × Result)} {s t : State} (h : runArm body s = .next t) :
    t = s ∨ ∃ took x, body s.held = .ok x ∧ t = endExchange took x :=
  underLock_held h fun took hx => by
    obtain ⟨x, hbody, hx⟩ := bind_eq_ok.mp hx
    cases hx
    exact ⟨took, x, hbody, rfl⟩

/-- An operation that does not hold ran its body. -/
theorem runArm_next_open {body : State → Except Fault (State × Result)} {s t : State}
    (hopen : s.lockOwner = noPort ∨ s.lockOwner = portByte s.turn) (h : runArm body s = .next t) :
    ∃ took x, body s.held = .ok x ∧ t = endExchange took x := by
  obtain ⟨x, hbody, hx⟩ := bind_eq_ok.mp (outcome_next.mp ((underLock_open hopen).symm.trans h))
  cases hx
  exact ⟨_, x, hbody, rfl⟩

theorem endExchange_cur (took : Bool) (x : State × Result) :
    (endExchange took x).cur
      = { x.1.cur with
          resKind := some x.2.kind, resStatus := some x.2.status, resLen := some x.2.len
          resResends := some x.2.resends, busy := false } := by
  rw [endExchange, endChannelOp, finish_cur, releaseChannel_cur, setResends_cur]

theorem endExchange_txs (took : Bool) (x : State × Result) : (endExchange took x).txs = x.1.txs := by
  cases took <;> rfl

/-! ## What an arm does after its exchange -/

/-- Everything the check and the copy of a fixed-size read can do (43_command_dispatch.md R249). -/
theorem fixedRead_cases {size : Nat} {store : List Byte → Port → Port} {x y : State × Result}
    (h : fixedRead size store x = .ok y) :
    y = x ∨ x.2.kind = .ok ∧ ((∃ f, y.1 = x.1.modCur f) ∧ y.2.resends = x.2.resends
      ∧ (y.2.kind = .ok ∨ y.2.kind = .payloadShort)) := by
  unfold fixedRead at h
  split at h
  · cases h; exact .inl rfl
  next hk =>
  refine .inr ⟨not_not.mp hk, ?_⟩
  split at h
  · cases h; exact ⟨⟨id, (State.modPort_id _ _).symm⟩, rfl, .inr rfl⟩
  · obtain ⟨bytes, _, h⟩ := bind_eq_ok.mp h
    cases h; exact ⟨⟨store bytes, rfl⟩, rfl, .inl rfl⟩

theorem armDone_cases {codec : Codec} {en : Endian} {x y : State × Result} (h : armDone codec en x = .ok y) :
    y = x ∨ x.2.kind = .ok ∧ ((∃ f, y.1 = x.1.modCur f) ∧ y.2.resends = x.2.resends
      ∧ (y.2.kind = .ok ∨ y.2.kind = .payloadShort)) := by
  cases codec
  case rdF32 => exact fixedRead_cases h
  case rdU32 => exact fixedRead_cases h
  case rdU8 => exact fixedRead_cases h
  case rdVer => exact fixedRead_cases h
  case rdId => exact fixedRead_cases h
  all_goals cases h; exact .inl rfl

theorem armDone_sent {codec : Codec} {en : Endian} {x y : State × Result} (h : armDone codec en x = .ok y) :
    y.1.txs = x.1.txs ∧ y.2.resends = x.2.resends := by
  rcases armDone_cases h with rfl | ⟨_, ⟨f, hf⟩, hresends, _⟩
  · exact ⟨rfl, rfl⟩
  · exact ⟨by rw [hf]; rfl, hresends⟩

/-! ## Resends -/

/-- A result of an exchange with this budget: it counts at most as many resends, and all of them where it is
retriable (42_protocol_engine.md R203, R204). -/
def withinBudget (retry : Byte) (r : Result) : Prop :=
  ∃ m, m ≤ retry.toNat ∧ r.resends = BitVec.ofNat 8 m ∧ (retriable r.kind = true → m = retry.toNat)

theorem withinBudget.same_resends {retry : Byte} {r r' : Result} (h : withinBudget retry r)
    (hresends : r'.resends = r.resends) (hkind : retriable r'.kind = false) : withinBudget retry r' := by
  obtain ⟨m, hm, hr, _⟩ := h
  exact ⟨m, hm, hresends.trans hr, fun hretry => by rw [hkind] at hretry; cases hretry⟩

theorem withinBudget_writeFailed (retry : Byte) : withinBudget retry (writeFailed 0) :=
  ⟨0, Nat.zero_le _, rfl, nofun⟩

theorem exchangeCore_budget {cmd max : Half} {s : State} {y : State × Result} (h : exchangeCore cmd max s = .ok y) :
    withinBudget s.retry y.2 := by
  obtain ⟨_, hbudget⟩ := exchangeCore_result h
  exact hbudget

theorem requestExchange_budget {cmd max : Half} {payload : List Byte} {s : State} {y : State × Result}
    (h : requestExchange cmd max payload s = .ok y) : withinBudget s.retry y.2 := by
  unfold requestExchange at h
  dsimp only at h
  split at h
  · rw [← (Runs.sendCore cmd payload s).retry]
    exact exchangeCore_budget h
  · cases h; exact withinBudget_writeFailed _

theorem armDone_budget {codec : Codec} {en : Endian} {retry : Byte} {x y : State × Result}
    (hx : withinBudget retry x.2) (h : armDone codec en x = .ok y) : withinBudget retry y.2 := by
  rcases armDone_cases h with rfl | ⟨_, _, hresends, hk | hk⟩
  · exact hx
  · exact hx.same_resends hresends (by rw [hk]; rfl)
  · exact hx.same_resends hresends (by rw [hk]; rfl)

theorem acceptChunk_budget {retry : Byte} {x : State × Result} {u : State} {r : Result}
    (hx : withinBudget retry x.2) (h : acceptChunk x = .ok (u, some r)) : withinBudget retry r := by
  unfold acceptChunk at h
  split at h
  · cases h; exact hx
  · obtain ⟨bytes, _, h⟩ := bind_eq_ok.mp h
    obtain ⟨n, _, h⟩ := bind_eq_ok.mp h
    split at h
    · cases h; exact hx.same_resends rfl rfl
    · dsimp only at h
      split at h <;> cases h
      exact hx.same_resends rfl rfl

/-- The loop's last chunk gives its result: with fuel above the bytes that wait, the branch without fuel is not
reached (log entry 22). -/
theorem chunkLoop_budget {id : Byte} (fuel : Nat) {s : State} {y : State × Result} (hfuel : s.rxs.length < fuel)
    (h : chunkLoop id fuel s = .ok y) : withinBudget s.retry y.2 := by
  induction fuel generalizing s with
  | zero => omega
  | succ fuel ih =>
    rw [chunkLoop] at h
    obtain ⟨x, hx, h⟩ := bind_eq_ok.mp h
    obtain ⟨⟨u, res⟩, hz, h⟩ := bind_eq_ok.mp h
    cases res with
    | some r => cases h; exact acceptChunk_budget (requestExchange_budget hx) hz
    | none =>
      have htakes := chunk_takes hx hz
      have hretry : u.retry = s.retry := ((Runs.armExchange hx).trans (Runs.acceptChunk hz)).retry
      rw [← hretry]
      exact ih (by omega) h

theorem armBody_budget {codec : Codec} {id : Byte} {s : State} {y : State × Result}
    (h : armBody codec id s = .ok y) : withinBudget s.retry y.2 := by
  by_cases hchunk : codec = .rdChunk
  · subst hchunk
    exact chunkLoop_budget (s := clearAcc s) _ (Nat.lt_succ_self s.rxs.length) h
  by_cases hpct : codec = .wrPct
  · subst hpct
    obtain ⟨arg, _, h⟩ := bind_eq_ok.mp h
    exact requestExchange_budget (s := stagePct _ s) h
  · rw [armBody_eq hchunk hpct] at h
    obtain ⟨x, hx, h⟩ := bind_eq_ok.mp h
    exact armDone_budget (requestExchange_budget hx) h

theorem exchangeBody_budget {s : State} {y : State × Result} (h : exchangeBody s = .ok y) :
    withinBudget s.retry y.2 := by
  obtain ⟨cmd, _, h⟩ := bind_eq_ok.mp h
  obtain ⟨max, _, h⟩ := bind_eq_ok.mp h
  exact exchangeCore_budget h

theorem transactBody_budget {s : State} {y : State × Result} (h : transactBody s = .ok y) :
    withinBudget s.retry y.2 := by
  obtain ⟨cmd, payload, max, _, _, h⟩ := transactBody_ok h
  exact requestExchange_budget h

/-- The registers show a result within the budget (10_state.md R43, R47). -/
theorem withinBudget.shown {retry : Byte} {took : Bool} {x : State × Result} (h : withinBudget retry x.2) :
    ∃ (k : Kind) (n : Byte), (endExchange took x).cur.resKind = some k
      ∧ (endExchange took x).cur.resResends = some n ∧ n ≤ retry
      ∧ (k = .transportReadError ∨ k = .checksumMismatch ∨ k = .commandMismatch → n = retry) := by
  obtain ⟨m, hm, hresends, hall⟩ := h
  have hbound := retry.isLt
  have hn : x.2.resends.toNat = m := by
    rw [hresends, BitVec.toNat_ofNat]
    omega
  refine ⟨x.2.kind, x.2.resends, by rw [endExchange_cur], by rw [endExchange_cur], ?_, fun hk => ?_⟩
  · rw [BitVec.le_def, hn]
    exact hm
  · have hretry : retriable x.2.kind = true := by rcases hk with hk | hk | hk <;> rw [hk] <;> rfl
    exact BitVec.eq_of_toNat_eq (hn.trans (hall hretry))

/-- Each operation with an exchange is a body under the lock whose results are within the budget. -/
theorem exec_budget {s : State} {id : Byte} {i : Instr}
    (hi : i ∈ [Instr.exchange, .transact, .callNone id, .callF32 id, .callU32 id, .callU8 id, .callVer id,
      .callId id, .callChunk id, .callPct id]) :
    ∃ body, exec i s = runArm body s ∧ ∀ y, body s.held = .ok y → withinBudget s.retry y.2 := by
  simp only [List.mem_cons, List.not_mem_nil, or_false] at hi
  rcases hi with rfl | rfl | rfl | rfl | rfl | rfl | rfl | rfl | rfl | rfl
  · exact ⟨_, exec_exchange_eq s, fun _ => exchangeBody_budget⟩
  · exact ⟨_, exec_transact_eq s, fun _ => transactBody_budget⟩
  · exact ⟨armBody .none id, rfl, fun _ => armBody_budget⟩
  · exact ⟨armBody .rdF32 id, rfl, fun _ => armBody_budget⟩
  · exact ⟨armBody .rdU32 id, rfl, fun _ => armBody_budget⟩
  · exact ⟨armBody .rdU8 id, rfl, fun _ => armBody_budget⟩
  · exact ⟨armBody .rdVer id, rfl, fun _ => armBody_budget⟩
  · exact ⟨armBody .rdId id, rfl, fun _ => armBody_budget⟩
  · exact ⟨armBody .rdChunk id, rfl, fun _ => armBody_budget⟩
  · exact ⟨armBody .wrPct id, rfl, fun _ => armBody_budget⟩

/-! ## Bytes sent -/

/-- What an operation sent, counted from the result it shows. -/
theorem endExchange_sent {took : Bool} {x : State × Result} {txs frame : List Byte}
    (h : x.1.txs = txs ++ (List.replicate (x.2.resends.toNat + 1) frame).flatten) :
    ∃ n : Byte, (endExchange took x).cur.resResends = some n
      ∧ (endExchange took x).txs = txs ++ (List.replicate (n.toNat + 1) frame).flatten :=
  ⟨x.2.resends, by rw [endExchange_cur], by rw [endExchange_txs, h]⟩

theorem need_ok {α : Type} {o : Option α} {v : α} (h : need o = .ok v) : o = some v := by
  cases o with
  | none => cases h
  | some w => cases h; rfl

section
variable {s t : State} (hopen : s.lockOwner = noPort ∨ s.lockOwner = portByte s.turn)
include hopen

/-- A `TRANSACT` that ended made its request and its exchange. -/
theorem exec_transact_next {cmd len : Half} {payload : List Byte} (hcmd : s.cur.cmd = some cmd)
    (hlen : s.cur.len = some len) (hpay : Memory.read s.cur.txbuf 0 len.toNat = some payload)
    (h : exec .transact s = .next t) :
    ∃ took x max, requestExchange cmd max payload s.held = .ok x ∧ t = endExchange took x := by
  rw [exec_transact_eq] at h
  obtain ⟨took, x, hx, rfl⟩ := runArm_next_open hopen h
  obtain ⟨cmd', payload', max, hcmd', hpay', hx⟩ := transactBody_ok hx
  rw [held_cmd hcmd] at hcmd'
  rw [held_pay hlen hpay] at hpay'
  cases hcmd'
  cases hpay'
  exact ⟨took, x, max, hx, rfl⟩

/-- The request and the resends of an arm with an empty request (43_command_dispatch.md R248). -/
theorem armRead_sent {codec : Codec} (h1 : codec ≠ .rdChunk) (h2 : codec ≠ .wrPct) {id : Byte}
    (hwhole : s.writesWhole) (h : runArm (armBody codec id) s = .next t) :
    ∃ n : Byte, t.cur.resResends = some n ∧ t.txs
      = s.txs ++ (List.replicate (n.toNat + 1) (requestFrame s.cfg (id.setWidth 16) [])).flatten := by
  obtain ⟨took, y, hy, rfl⟩ := runArm_next_open hopen h
  rw [armBody_eq h1 h2] at hy
  obtain ⟨x, hx, hy⟩ := bind_eq_ok.mp hy
  obtain ⟨htxs, hresends⟩ := armDone_sent hy
  refine endExchange_sent ?_
  rw [htxs, hresends]
  exact requestExchange_sent (s := s.held) hwhole (Nat.zero_le _) hx

end

/-- Settles O30: the retry loop counts its resends, and each is one frame of the cached request. -/
theorem exchangeBounds : Obligations.ExchangeBounds := by
  refine ⟨fun s t id hopen i hi h => ?budget, fun s t hopen h hretry => ?silent,
    fun s t id cmd len arg payload hopen hwhole => ⟨fun hcmd hlen hpay h => ?transact, fun i hi h => ?read,
      fun harg h => ?write⟩⟩
  case budget =>
    obtain ⟨body, hexec, hbudget⟩ := exec_budget (s := s) hi
    rw [hexec] at h
    obtain ⟨took, x, hx, rfl⟩ := runArm_next_open hopen h
    exact (hbudget x hx).shown
  case silent =>
    rw [exec_exchange_eq] at h
    obtain ⟨took, x, hx, rfl⟩ := runArm_next_open hopen h
    obtain ⟨cmd, _, hx⟩ := bind_eq_ok.mp hx
    obtain ⟨max, _, hx⟩ := bind_eq_ok.mp hx
    obtain ⟨htxs, _⟩ := exchangeCore_noRetry (s := s.held) hretry hx
    exact (endExchange_txs took x).trans htxs
  case transact =>
    obtain ⟨took, x, max, hx, rfl⟩ := exec_transact_next hopen hcmd hlen hpay h
    have hbound := len.isLt
    have hsize := Memory.read_length _ _ _ _ hpay
    exact endExchange_sent (requestExchange_sent (s := s.held) hwhole (by omega) hx)
  case read =>
    simp only [List.mem_cons, List.not_mem_nil, or_false] at hi
    rcases hi with rfl | rfl | rfl | rfl | rfl | rfl
    · exact armRead_sent (codec := .none) hopen nofun nofun hwhole h
    · exact armRead_sent (codec := .rdF32) hopen nofun nofun hwhole h
    · exact armRead_sent (codec := .rdU32) hopen nofun nofun hwhole h
    · exact armRead_sent (codec := .rdU8) hopen nofun nofun hwhole h
    · exact armRead_sent (codec := .rdVer) hopen nofun nofun hwhole h
    · exact armRead_sent (codec := .rdId) hopen nofun nofun hwhole h
  case write =>
    obtain ⟨took, x, hx, rfl⟩ := runArm_next_open hopen h
    obtain ⟨arg', harg', hx⟩ := bind_eq_ok.mp hx
    have hsame : some arg = some arg' := harg.symm.trans (need_ok harg')
    cases hsame
    exact endExchange_sent (requestExchange_sent (s := stagePct _ s.held) hwhole (by simp) hx)

end Sys2Proof.Machine
end

section
/-! `RXBUF` and wide identifiers, the completion of an exchange, and the fault of a resend without a request
(42_protocol_engine.md R202, R205, R214, R215; 43_command_dispatch.md R263). -/

namespace Sys2Proof.Machine

/-! ## `RXBUF` -/

/-- `RXBUF` of every port is as before. -/
def rxKept (s t : State) : Prop := ∀ p : Fin 16, (t.port p).rxbuf = (s.port p).rxbuf

theorem rxKept.trans {s t u : State} (h : rxKept s t) (k : rxKept t u) : rxKept s u :=
  fun p => (k p).trans (h p)

theorem rxKept.of_ports {s t : State} (h : t.ports = s.ports) : rxKept s t := fun p => by
  rw [State.port, State.port, h]

theorem rxKept.modCur (s : State) {f : Port → Port} (hf : ∀ p, (f p).rxbuf = p.rxbuf) : rxKept s (s.modCur f) :=
  fun p => by
    by_cases hp : p = s.turn
    · subst hp
      rw [State.port_modCur_turn, hf]
    · rw [State.port_modCur_of_ne s p f hp]

theorem rxKept.endChannelOp (took : Bool) (k : Kind) (st : Byte) (l : Half) (u : State) :
    rxKept u (endChannelOp took k st l u) :=
  (rxKept.of_ports (by cases took <;> rfl)).trans (.modCur (releaseChannel took u) fun _ => rfl)

theorem rxKept.endExchange (took : Bool) (x : State × Result) : rxKept x.1 (endExchange took x) :=
  (rxKept.modCur x.1 (f := fun p => { p with resResends := some x.2.resends }) fun _ => rfl).trans
    (.endChannelOp took _ _ _ (setResends x.2.resends x.1))

theorem rxKept.stagePct (payload : List Byte) (s : State) : rxKept s (stagePct payload s) :=
  .modCur s (f := fun p => { p with txbuf := Memory.write p.txbuf 0 payload }) fun _ => rfl

theorem transmit_ports (header payload : List Byte) (s : State) : (transmit header payload s).2.ports = s.ports := by
  obtain ⟨w, n, e, _, _⟩ := transmit_cases header payload s
  rw [e]

theorem requestSent_ports (header payload : List Byte) (s : State) :
    (requestSent header payload s).ports = s.ports := by
  unfold requestSent
  split <;> rfl

theorem sendCore_ports (cmd : Half) (payload : List Byte) (s : State) :
    (sendCore cmd payload s).2.ports = s.ports := by
  unfold sendCore
  dsimp only
  split
  · rw [requestSent_ports, transmit_ports, State.setFsm_ports]
  · rw [State.setFsm_ports, transmit_ports, State.setFsm_ports]

/-- An exchange that is not `OK` copied nothing (42_protocol_engine.md R215). -/
theorem exchangeCore_rxKept {cmd max : Half} {s : State} {y : State × Result} (h : exchangeCore cmd max s = .ok y)
    (hk : y.2.kind ≠ .ok) : rxKept s y.1 := by
  obtain ⟨x, hx, h⟩ := bind_eq_ok.mp h
  obtain ⟨_, hrecv⟩ := receiveCore_rxbuf hx
  obtain ⟨_, hloop⟩ := retryLoop_rxbuf _ _ h
  refine .of_ports ((hloop hk).trans (hrecv fun hok => hk ?_))
  rw [retryLoop_done _ _ _ (by rw [hok]; rfl)] at h
  cases h
  exact hok

theorem requestExchange_rxKept {cmd max : Half} {payload : List Byte} {s : State} {y : State × Result}
    (h : requestExchange cmd max payload s = .ok y) (hk : y.2.kind ≠ .ok) : rxKept s y.1 := by
  have hsent : rxKept s (sendCore cmd payload s).2 := .of_ports (sendCore_ports cmd payload s)
  unfold requestExchange at h
  dsimp only at h
  split at h
  · exact hsent.trans (exchangeCore_rxKept h hk)
  · cases h; exact hsent

/-- An arm with one exchange copied nothing where it ends neither `OK` nor `PayloadShort` (43_command_dispatch.md
R249, R263). -/
theorem armBody_rxKept {codec : Codec} (hchunk : codec ≠ .rdChunk) {id : Byte} {s : State} {y : State × Result}
    (h : armBody codec id s = .ok y) (hk : y.2.kind ≠ .ok) (hshort : y.2.kind ≠ .payloadShort) :
    rxKept s y.1 := by
  by_cases hpct : codec = .wrPct
  · subst hpct
    obtain ⟨arg, _, h⟩ := bind_eq_ok.mp h
    exact (rxKept.stagePct _ s).trans (requestExchange_rxKept (s := stagePct _ s) h hk)
  · rw [armBody_eq hchunk hpct] at h
    obtain ⟨x, hx, h⟩ := bind_eq_ok.mp h
    rcases armDone_cases h with rfl | ⟨_, _, _, hok | hpay⟩
    · exact requestExchange_rxKept hx hk
    · exact absurd hok hk
    · exact absurd hpay hshort

/-- An operation copied nothing where its body did not. -/
theorem runArm_rxKept {body : State → Except Fault (State × Result)} {s t : State} {P : Kind → Prop}
    (hbody : ∀ x, body s.held = .ok x → P x.2.kind → rxKept s x.1) (h : runArm body s = .next t)
    (hk : ∀ k, t.cur.resKind = some k → P k) : rxKept s t := by
  rcases runArm_next h with rfl | ⟨took, x, hx, rfl⟩
  · exact fun _ => rfl
  · exact (hbody x hx (hk _ (by rw [endExchange_cur]))).trans (.endExchange took x)

theorem exec_receive_rxKept {s t : State} (h : exec .receive s = .next t) (hk : t.cur.resKind ≠ some .ok) :
    rxKept s t := by
  rcases underLock_next h with ⟨_, rfl⟩ | ⟨took, s1, hbegin, hx⟩
  · exact fun _ => rfl
  obtain ⟨rfl, _⟩ := beginChannelOp_some hbegin
  obtain ⟨cmd, _, hx⟩ := bind_eq_ok.mp hx
  obtain ⟨max, _, hx⟩ := bind_eq_ok.mp hx
  obtain ⟨x, hrecv, hx⟩ := bind_eq_ok.mp hx
  cases hx
  obtain ⟨_, hports⟩ := receiveCore_rxbuf hrecv
  have hkind : x.2.kind ≠ .ok := fun hok => hk (by rw [endChannelOp, finish_cur, hok])
  have hkept : rxKept s.held x.1 := .of_ports (hports hkind)
  exact hkept.trans (.endChannelOp took _ _ _ x.1)

/-- Settles O26: only an accepted reply is copied, and only the fixed-size reads go on after one. -/
theorem noPartialCopy : Obligations.NoPartialCopy := by
  refine ⟨fun s cmd max x hx hk => ?_, fun s t i hi h hk => ?_, fun s t id i hi h hk hshort => ?_⟩
  · obtain ⟨_, hports⟩ := receiveCore_rxbuf hx
    exact rxKept.of_ports (hports hk)
  · have notOk : ∀ k, t.cur.resKind = some k → k ≠ .ok := fun k hkind hok => hk (by rw [hkind, hok])
    rcases hi with rfl | rfl | rfl
    · exact exec_receive_rxKept h hk
    · rw [exec_exchange_eq] at h
      refine runArm_rxKept (P := (· ≠ .ok)) (fun x hx => ?_) h notOk
      obtain ⟨cmd, _, hx⟩ := bind_eq_ok.mp hx
      obtain ⟨max, _, hx⟩ := bind_eq_ok.mp hx
      exact exchangeCore_rxKept (s := s.held) hx
    · rw [exec_transact_eq] at h
      refine runArm_rxKept (P := (· ≠ .ok)) (fun x hx => ?_) h notOk
      obtain ⟨cmd, payload, max, _, _, hx⟩ := transactBody_ok hx
      exact requestExchange_rxKept (s := s.held) hx
  · have notCopied : ∀ k, t.cur.resKind = some k → k ≠ .ok ∧ k ≠ .payloadShort := fun k hkind =>
      ⟨fun hok => hk (by rw [hkind, hok]), fun hpay => hshort (by rw [hkind, hpay])⟩
    have arm {codec : Codec} (hchunk : codec ≠ .rdChunk) (h : runArm (armBody codec id) s = .next t) : rxKept s t :=
      runArm_rxKept (P := fun k => k ≠ .ok ∧ k ≠ .payloadShort)
        (fun x hx hkind => armBody_rxKept (s := s.held) hchunk hx hkind.1 hkind.2) h notCopied
    simp only [List.mem_cons, List.not_mem_nil, or_false] at hi
    rcases hi with rfl | rfl | rfl | rfl | rfl | rfl | rfl
    · exact arm (codec := .none) nofun h
    · exact arm (codec := .rdF32) nofun h
    · exact arm (codec := .rdU32) nofun h
    · exact arm (codec := .rdU8) nofun h
    · exact arm (codec := .rdVer) nofun h
    · exact arm (codec := .rdId) nofun h
    · exact arm (codec := .wrPct) nofun h

/-! ## Wide identifiers (42_protocol_engine.md R214) -/

/-- A request frame begins with its command. -/
theorem requestFrame_cmd (c : Params) (cmd : Half) (payload : List Byte) :
    ∃ b0 b1 more, requestFrame c cmd payload = b0 :: b1 :: more ∧ unpack16 c.endian b0 b1 = cmd := by
  obtain ⟨b0, b1, hpack, hcmd⟩ := pack16_cases c.endian cmd
  have hframe : requestFrame c cmd payload = pack16 c.endian cmd ++ (requestFrame c cmd payload).drop 2 := by
    simp [requestFrame, requestHeader, hpack]
  exact ⟨b0, b1, _, hframe.trans (by rw [hpack]; rfl), hcmd⟩

theorem exec_send_txs {s t : State} {cmd len : Half} {payload : List Byte}
    (hopen : s.lockOwner = noPort ∨ s.lockOwner = portByte s.turn) (hcmd : s.cur.cmd = some cmd)
    (hlen : s.cur.len = some len) (hpay : Memory.read s.cur.txbuf 0 len.toNat = some payload)
    (hwhole : s.writesWhole) (h : exec .send s = .next t) :
    t.txs = s.txs ++ requestFrame s.cfg cmd payload := by
  rw [sendWhole s cmd len payload hopen hcmd hlen hpay hwhole] at h
  cases h
  exact State.caches_txs (s.sends (requestFrame s.cfg cmd payload)) _ _

/-- Settles O27: a request carries all 16 bits of `CMD`, and a reply only 8. -/
theorem wideIdentifiers : Obligations.WideIdentifiers := by
  refine ⟨fun s t i cmd len hi hopen hcmd hlen hread hwhole h => ?_,
    fun s cmd max header payload r rest hwide h6 hdec hlen hstage hhears hcks hst => ?_⟩
  · obtain ⟨payload, hpay⟩ := Option.isSome_iff_exists.mp hread
    obtain ⟨b0, b1, more, hframe, hunpack⟩ := requestFrame_cmd s.cfg cmd payload
    rcases hi with rfl | rfl
    · exact ⟨b0, b1, more, by rw [exec_send_txs hopen hcmd hlen hpay hwhole h, hframe], hunpack⟩
    · obtain ⟨_, _, hsent⟩ := exchangeBounds
      obtain ⟨htransact, _⟩ := hsent s t 0 cmd len 0 payload hopen hwhole
      obtain ⟨n, _, htxs⟩ := htransact hcmd hlen hpay h
      rw [List.replicate_succ, List.flatten_cons, hframe] at htxs
      exact ⟨b0, b1, _, htxs, hunpack⟩
  · have hother : r.cmd.setWidth 16 ≠ cmd := by
      intro heq
      have hbound := r.cmd.isLt
      rw [← heq, BitVec.toNat_setWidth] at hwide
      omega
    rw [receiveCore_whole h6 hdec hlen hstage hhears]
    exact ⟨_, congrArg Except.ok (judgeReply_otherCommand hcks hst hother)⟩

/-! ## Completion -/

theorem endExchange_turn (took : Bool) (x : State × Result) : (endExchange took x).turn = x.1.turn := by
  cases took <;> rfl

/-- An operation whose body answers a result with its status completes (60_exceptions.md R290, R293). -/
theorem runArm_completes {body : State → Except Fault (State × Result)} {s : State} {x : State × Result}
    (hopen : s.lockOwner = noPort ∨ s.lockOwner = portByte s.turn) (hx : body s.held = .ok x)
    (hturn : x.1.turn = s.turn) (hfits : statusFits s.cfg.hwThresh x.2.kind x.2.status = true) :
    completes s (runArm body s) := by
  have hexec : runArm body s = .next (endExchange (decide (s.lockOwner = noPort)) x) :=
    (underLock_open hopen).trans (congrArg outcome (bind_eq_ok.mpr ⟨x, hx, rfl⟩))
  have hport : (endExchange (decide (s.lockOwner = noPort)) x).port s.turn
      = (endExchange (decide (s.lockOwner = noPort)) x).cur := by
    rw [State.cur, endExchange_turn, hturn]
  refine ⟨_, x.2.kind, x.2.status, hexec, ?_, ?_, ?_, hfits⟩
  all_goals rw [hport, endExchange_cur]

/-- A valid cache that holds a whole request can be resent. -/
theorem State.cacheOk.canResend {s : State} (h : s.cacheOk) (hvalid : s.rcValid = true) : s.canResend := by
  obtain ⟨hhdr, len, hlen, hpay⟩ := h hvalid
  obtain ⟨header, hheader⟩ := Option.isSome_iff_exists.mp hhdr
  obtain ⟨payload, hpayload⟩ := Option.isSome_iff_exists.mp hpay
  exact ⟨hvalid, header, len, payload, hheader, hlen, hpayload⟩

/-- Settles O28: the loop ends with its budget, and a resend finds its request. -/
theorem exchangeCompletes : Obligations.ExchangeCompletes := by
  intro s hopen hcmd hmax hstage hcache
  obtain ⟨cmd, hcmd⟩ := Option.isSome_iff_exists.mp hcmd
  obtain ⟨max, hmax⟩ := Option.isSome_iff_exists.mp hmax
  have hresend : s.held.retry = 0#8 ∨ s.held.canResend :=
    hcache.imp_right fun ⟨hvalid, hok⟩ => hok.canResend hvalid
  obtain ⟨x, hx⟩ := exchangeCore_completes cmd max s.held hstage hresend
  have hbody : exchangeBody s.held = .ok x :=
    bind_eq_ok.mpr ⟨cmd, held_cmd hcmd, bind_eq_ok.mpr ⟨max, held_max hmax, hx⟩⟩
  obtain ⟨hfits, _⟩ := exchangeCore_result hx
  refine ⟨?_, fun t h => ?_⟩
  · rw [exec_exchange_eq]
    exact runArm_completes hopen hbody (Runs.exchangeCore hx).turn hfits
  · obtain ⟨hbudget, _⟩ := exchangeBounds
    obtain ⟨_, n, _, hn, hle, _⟩ := hbudget s t 0 hopen .exchange (by simp) h
    exact ⟨n, hn, hle⟩

/-! ## A resend without a request -/

/-- The computation does not meet `MF_RESEND_NO_CACHE`. -/
def avoidsNoCache {α : Type} (x : Except Fault α) : Prop := x ≠ .error .resendNoCache

theorem avoidsNoCache.ok {α : Type} (a : α) : avoidsNoCache (.ok a : Except Fault α) := nofun

theorem avoidsNoCache.bind {α β : Type} {x : Except Fault α} {f : α → Except Fault β} (hx : avoidsNoCache x)
    (hf : ∀ a, x = .ok a → avoidsNoCache (f a)) : avoidsNoCache (x >>= f) := by
  cases x with
  | error e => exact fun h => hx (by cases h; rfl)
  | ok a => exact hf a rfl

theorem need_avoids {α : Type} (o : Option α) : avoidsNoCache (need o) := by
  cases o <;> nofun

theorem needPayload_avoids (s : State) : avoidsNoCache s.needPayload :=
  (need_avoids _).bind fun _ _ => need_avoids _

theorem receiveCore_avoids (cmd max : Half) (s : State) : avoidsNoCache (receiveCore cmd max s) := by
  unfold receiveCore
  dsimp only
  split
  · nofun
  split
  · nofun
  split
  · nofun
  split <;> nofun

theorem resendCore_avoids {s : State} (h : s.rcValid = true) : avoidsNoCache (resendCore s) := by
  have hheader : avoidsNoCache s.needCachedHeader := by
    rw [State.needCachedHeader, if_pos h]
    exact need_avoids _
  refine hheader.bind fun header _ => ?_
  exact ((need_avoids _).bind fun _ _ => need_avoids _).bind fun payload _ => .ok _

theorem resendCore_noCache {s : State} (h : s.rcValid = false) : resendCore s = .error .resendNoCache := by
  have hheader : s.needCachedHeader = .error .resendNoCache := by
    rw [State.needCachedHeader, if_neg (by simp [h])]
  exact bind_error hheader _

theorem CacheKept.resendCore {s : State} {w : Bool × State} (h : resendCore s = .ok w) : CacheKept s w.2 := by
  obtain ⟨header, _, h⟩ := bind_eq_ok.mp h
  obtain ⟨payload, _, h⟩ := bind_eq_ok.mp h
  cases h
  exact .transmit header payload s

/-- The loop asks for the cached request only where resends are left. -/
theorem retryLoop_avoids {cmd max : Half} (left n : Nat) {x : State × Reply}
    (h : left = 0 ∨ x.1.rcValid = true) : avoidsNoCache (retryLoop cmd max left n x) := by
  induction left generalizing n x with
  | zero => exact .ok _
  | succ left ih =>
    have hvalid := h.resolve_left (Nat.succ_ne_zero _)
    rw [retryLoop]
    split
    · refine (resendCore_avoids (s := x.1.setFsm .resending) hvalid).bind fun w hw => ?_
      split
      · refine (receiveCore_avoids _ _ _).bind fun y hy => ih (n + 1) (.inr ?_)
        rw [(CacheKept.receiveCore hy).valid, (CacheKept.resendCore hw).valid]
        exact hvalid
      · exact .ok _
    · exact .ok _

theorem exchangeCore_avoids {cmd max : Half} {s : State} (h : s.retry = 0#8 ∨ s.rcValid = true) :
    avoidsNoCache (exchangeCore cmd max s) :=
  (receiveCore_avoids cmd max s).bind fun x hx => retryLoop_avoids _ 0
    (h.imp (fun h0 => by rw [h0]; rfl) fun hvalid => (CacheKept.receiveCore hx).valid.trans hvalid)

/-- A request that was sent can be resent, so its own exchange never finds the cache empty
(42_protocol_engine.md R190, R206). -/
theorem requestExchange_avoids {cmd max : Half} {payload : List Byte} {s : State}
    (hpay : payload.length ≤ 65535) : avoidsNoCache (requestExchange cmd max payload s) := by
  unfold requestExchange
  dsimp only
  split
  · next hsent =>
    refine exchangeCore_avoids ?_
    exact (sendCore_canResend hpay hsent).imp_right fun ⟨hvalid, _⟩ => hvalid
  · exact .ok _

theorem fixedRead_avoids (size : Nat) (store : List Byte → Port → Port) (x : State × Result) :
    avoidsNoCache (fixedRead size store x) := by
  unfold fixedRead
  split
  · exact .ok _
  split
  · exact .ok _
  · exact (need_avoids _).bind fun _ _ => .ok _

theorem armDone_avoids (codec : Codec) (en : Endian) (x : State × Result) :
    avoidsNoCache (armDone codec en x) := by
  cases codec
  case rdF32 => exact fixedRead_avoids _ _ _
  case rdU32 => exact fixedRead_avoids _ _ _
  case rdU8 => exact fixedRead_avoids _ _ _
  case rdVer => exact fixedRead_avoids _ _ _
  case rdId => exact fixedRead_avoids _ _ _
  all_goals exact .ok _

theorem acceptChunk_avoids (x : State × Result) : avoidsNoCache (acceptChunk x) := by
  unfold acceptChunk
  split
  · exact .ok _
  refine (need_avoids _).bind fun _ _ => (need_avoids _).bind fun _ _ => ?_
  split
  · exact .ok _
  dsimp only
  split
  · exact .ok _
  · exact .ok _

theorem chunkLoop_avoids (id : Byte) (fuel : Nat) (s : State) : avoidsNoCache (chunkLoop id fuel s) := by
  induction fuel generalizing s with
  | zero => exact .ok _
  | succ fuel ih =>
    rw [chunkLoop]
    have hread : avoidsNoCache (readCore .rdChunk id s) := requestExchange_avoids (Nat.zero_le _)
    refine hread.bind fun x _ => (acceptChunk_avoids x).bind fun y _ => ?_
    split
    · exact .ok _
    · exact ih y.1

theorem armBody_avoids (codec : Codec) (id : Byte) (s : State) : avoidsNoCache (armBody codec id s) := by
  by_cases hchunk : codec = .rdChunk
  · subst hchunk
    exact chunkLoop_avoids _ _ _
  by_cases hpct : codec = .wrPct
  · subst hpct
    exact (need_avoids _).bind fun _ _ => requestExchange_avoids (by simp)
  · rw [armBody_eq hchunk hpct]
    exact (requestExchange_avoids (Nat.zero_le _)).bind fun _ _ => armDone_avoids _ _ _

theorem transactBody_avoids (s : State) : avoidsNoCache (transactBody s) := by
  refine (need_avoids _).bind fun cmd _ => (needPayload_avoids s).bind fun payload hpay => ?_
  have hexch (max : Half) : avoidsNoCache (requestExchange cmd max payload s) :=
    requestExchange_avoids (needPayload_length hpay)
  simp only [requestExchange] at hexch
  dsimp only
  split
  · next hsent =>
    simp only [if_pos hsent] at hexch
    exact (need_avoids _).bind fun max _ => hexch max
  · exact .ok _

theorem exchangeBody_avoids {s : State} (h : s.rcValid = true) : avoidsNoCache (exchangeBody s) :=
  (need_avoids _).bind fun _ _ => (need_avoids _).bind fun _ _ => exchangeCore_avoids (.inr h)

theorem runArm_avoids {body : State → Except Fault (State × Result)} {s : State}
    (h : avoidsNoCache (body s.held)) : runArm body s ≠ .fault .resendNoCache := by
  unfold runArm underLock
  cases hbegin : beginChannelOp s with
  | none => exact nofun
  | some b =>
    obtain ⟨took, s1⟩ := b
    obtain ⟨rfl, _⟩ := beginChannelOp_some hbegin
    show outcome (body s.held >>= fun x => .ok (endExchange took x)) ≠ _
    cases hx : body s.held with
    | error e => exact fun hfault => h (hx.trans (congrArg Except.error (Host.Outcome.fault.inj hfault)))
    | ok x => exact nofun

/-! ## A receive does not look at the lock -/

theorem deviceReply_held (cmd : Half) (st : Byte) (len : Half) (s : State) :
    deviceReply cmd st len s.held = ((deviceReply cmd st len s).1.held, (deviceReply cmd st len s).2) := by
  unfold deviceReply
  rw [show s.held.cfg = s.cfg from rfl]
  dsimp only
  split <;> rfl

theorem judgeReply_held (cmd max : Half) (r : RepHeader) (header payload : List Byte) (s : State) :
    judgeReply cmd max r header payload s.held
      = ((judgeReply cmd max r header payload s).1.held, (judgeReply cmd max r header payload s).2) := by
  unfold judgeReply
  rw [deviceReply_held, show s.held.cfg = s.cfg from rfl]
  repeat' split
  all_goals rfl

theorem receiveCore_held {cmd max : Half} {s : State} {x : State × Reply} (h : receiveCore cmd max s = .ok x) :
    receiveCore cmd max s.held = .ok (x.1.held, x.2) := by
  unfold receiveCore at h ⊢
  dsimp only at h ⊢
  have hread : chanRead 6 (s.held.setFsm .awaitingReply)
      = ((chanRead 6 (s.setFsm .awaitingReply)).1, (chanRead 6 (s.setFsm .awaitingReply)).2.held) := rfl
  rw [hread, show s.held.cfg = s.cfg from rfl]
  obtain ⟨⟨header, u⟩, hu⟩ : ∃ w, chanRead 6 (s.setFsm .awaitingReply) = w := ⟨_, rfl⟩
  rw [hu] at h ⊢
  split at h
  · next hdec =>
    cases h
    rw [hdec]
    rfl
  next r hdec =>
  rw [hdec]
  dsimp only
  split at h
  · cases h
  next hfits =>
  rw [if_neg hfits]
  split at h
  · next hzero =>
    cases h
    rw [if_pos hzero]
    exact congrArg Except.ok (judgeReply_held cmd max r header [] (stageHeader header u))
  next hlen =>
  rw [if_neg hlen]
  generalize hv : chanRead r.len.toNat (stageHeader header u) = v at h ⊢
  have hpay : chanRead r.len.toNat (stageHeader header u.held) = (v.1, v.2.held) := by rw [← hv]; rfl
  rw [hpay]
  split at h
  · next hshort =>
    cases h
    rw [if_pos hshort]
    rfl
  · next hcame =>
    cases h
    rw [if_neg hcame]
    exact congrArg Except.ok (judgeReply_held cmd max r header v.1 (stagePayload v.1 v.2))

/-- A resend that is due while the cache was never filled is the fault (70_reset_and_hazards.md R336). -/
theorem exchangeCore_noCache {cmd max : Half} {s : State} {x : State × Reply} (hretry : ¬ s.retry = 0#8)
    (hvalid : s.rcValid = false) (hx : receiveCore cmd max s = .ok x) (hkind : retriable x.2.kind = true) :
    exchangeCore cmd max s = .error .resendNoCache := by
  have hpos : s.retry.toNat ≠ 0 := fun h0 => hretry (BitVec.eq_of_toNat_eq h0)
  obtain ⟨left, hleft⟩ := Nat.exists_eq_succ_of_ne_zero hpos
  have hnone : resendCore (x.1.setFsm .resending) = .error .resendNoCache :=
    resendCore_noCache ((CacheKept.receiveCore hx).valid.trans hvalid)
  refine bind_error_of_ok hx ?_
  rw [hleft, retryLoop, if_pos hkind, hnone]
  rfl

/-- Settles O31: a resend asks for the cached request, and an own send has filled the cache. -/
theorem resendWithoutCache : Obligations.ResendWithoutCache := by
  have due {s : State} {cmd max : Half} {x : State × Reply}
      (hopen : s.lockOwner = noPort ∨ s.lockOwner = portByte s.turn) (hcmd : s.cur.cmd = some cmd)
      (hmax : s.cur.max = some max) (hretry : s.retry ≠ 0) (hvalid : s.rcValid = false)
      (hx : receiveCore cmd max s = .ok x) (hkind : retriable x.2.kind = true) :
      exec .exchange s = .fault .resendNoCache := by
    have hbody : exchangeBody s.held = .error .resendNoCache :=
      bind_error_of_ok (held_cmd hcmd) (bind_error_of_ok (held_max hmax)
        (exchangeCore_noCache (s := s.held) hretry hvalid (receiveCore_held hx) hkind))
    rw [exec_exchange_eq]
    exact underLock_fault hopen fun _ => bind_error hbody _
  refine ⟨fun s cmd max bytes after rest hopen hcmd hmax hretry hvalid hlen hhears hstops => ?_,
    fun s cmd max x hopen hcmd hmax hretry hvalid hx hkind => ?_, fun s id i hi => ?_, fun s hvalid => ?_⟩
  · exact due hopen hcmd hmax hretry hvalid
      (receiveCore_retriable (.inl ⟨bytes, after, hlen, hhears, hstops, rfl⟩)) rfl
  · exact due hopen hcmd hmax hretry hvalid hx (by rcases hkind with hk | hk | hk <;> rw [hk] <;> rfl)
  · have arm (codec : Codec) : runArm (armBody codec id) s ≠ .fault .resendNoCache :=
      runArm_avoids (armBody_avoids codec id s.held)
    simp only [List.mem_cons, List.not_mem_nil, or_false] at hi
    rcases hi with rfl | rfl | rfl | rfl | rfl | rfl | rfl | rfl | rfl
    · rw [exec_transact_eq]
      exact runArm_avoids (transactBody_avoids s.held)
    · exact arm .none
    · exact arm .rdF32
    · exact arm .rdU32
    · exact arm .rdU8
    · exact arm .rdVer
    · exact arm .rdId
    · exact arm .rdChunk
    · exact arm .wrPct
  · rw [exec_exchange_eq]
    exact runArm_avoids (exchangeBody_avoids (s := s.held) hvalid)

end Sys2Proof.Machine
end

section
/-! An exchange with resends, as one effect after another (42_protocol_engine.md R201 to R205). -/

namespace Sys2Proof.Machine

/-! ## The writes of a frame -/

/-- The coming write counts carry this many frames with this payload whole, and `rest` is left for the writes
after them: the channel takes every byte, or these counts do (20_memory.md R79). -/
def carriesFrames (payload : List Byte) (n : Nat) (counts rest : List Nat) : Prop :=
  (counts = [] ∧ rest = []) ∨ ∃ whole, wholeCounts (n * frameWrites payload) whole ∧ counts = whole ++ rest

theorem carriesFrames.zero {payload : List Byte} {counts rest : List Nat} (h : carriesFrames payload 0 counts rest) :
    counts = rest := by
  rcases h with ⟨rfl, rfl⟩ | ⟨whole, ⟨hlen, _⟩, rfl⟩
  · rfl
  · rw [Nat.zero_mul] at hlen
    rw [List.length_eq_zero_iff.mp hlen, List.nil_append]

theorem chanWrite_of_cons {bytes : List Byte} {s : State} {k : Nat} {script : List Nat}
    (h : s.writeScript = k :: script) :
    chanWrite bytes s = (min k bytes.length, { s.sends (bytes.take k) with writeScript := script }) := by
  rw [chanWrite, h, writeCount, State.sends, ← List.take_eq_take_min]
  rfl

/-- The first of the frames that the channel carries goes whole. -/
theorem transmit_carried {header payload : List Byte} {n : Nat} {s : State} {rest : List Nat}
    (h8 : header.length = 8) (hpay : payload.length ≤ 65535)
    (h : carriesFrames payload (n + 1) s.writeScript rest) :
    ∃ script, carriesFrames payload n script rest
      ∧ transmit header payload s = (true, { s.sends (header ++ payload) with writeScript := script }) := by
  rcases h with ⟨hempty, rfl⟩ | ⟨whole, ⟨hlen, hall⟩, hscript⟩
  · refine ⟨[], .inl ⟨rfl, rfl⟩, ?_⟩
    rw [transmit_whole header payload s hempty, ← hempty]
    rfl
  rw [Nat.succ_mul] at hlen
  by_cases hnil : payload.length = 0
  · rw [frameWrites, if_pos hnil] at hlen
    obtain _ | ⟨j, whole⟩ := whole
    · simp at hlen
    have hj : 65535 ≤ j := hall j (by simp)
    have hwrite := chanWrite_of_cons (bytes := header) hscript
    refine ⟨whole ++ rest, .inr ⟨whole, ⟨?_, fun c hc => hall c (by simp [hc])⟩, rfl⟩, ?_⟩
    · rw [frameWrites, if_pos hnil]
      simpa using hlen
    · rw [transmit_header_only (by rw [hwrite]; simp only; omega) hnil, hwrite,
        List.take_of_length_le (by omega), List.length_eq_zero_iff.mp hnil, List.append_nil]
      rfl
  · rw [frameWrites, if_neg hnil] at hlen
    obtain _ | ⟨j, _ | ⟨k, whole⟩⟩ := whole
    · simp at hlen
    · simp at hlen
    have hj : 65535 ≤ j := hall j (by simp)
    have hk : 65535 ≤ k := hall k (by simp)
    have hfirst := chanWrite_of_cons (bytes := header) hscript
    have hsecond := chanWrite_of_cons (bytes := payload) (k := k) (script := whole ++ rest)
      (s := (chanWrite header s).2) (by rw [hfirst]; rfl)
    refine ⟨whole ++ rest, .inr ⟨whole, ⟨?_, fun c hc => hall c (by simp [hc])⟩, rfl⟩, ?_⟩
    · rw [frameWrites, if_neg hnil]
      simpa using hlen
    · rw [transmit_both (by rw [hfirst]; simp only; omega) hnil, hsecond, hfirst,
        List.take_of_length_le (by omega), List.take_of_length_le (by omega), State.sends, State.sends, State.sends]
      simp only [List.append_assoc, Prod.mk.injEq, decide_eq_true_eq, and_true]
      omega

/-- A frame that is cut short goes in part, and its transmission fails (42_protocol_engine.md R189). -/
theorem transmit_cut {header payload part : List Byte} {s : State} {script : List Nat} (h8 : header.length = 8)
    (h : cutWrite header payload part s.writeScript script) :
    transmit header payload s = (false, { s.sends part with writeScript := script }) := by
  rcases h with ⟨k, hk, hscript, rfl⟩ | ⟨j, k, hj, hk, hscript, rfl⟩
  · have hwrite := chanWrite_of_cons (bytes := header) hscript
    rw [transmit_short (by rw [hwrite]; simp only; omega), hwrite]
  · have hfirst := chanWrite_of_cons (bytes := header) hscript
    have hsecond := chanWrite_of_cons (bytes := payload) (k := k) (script := script)
      (s := (chanWrite header s).2) (by rw [hfirst])
    rw [transmit_both (by rw [hfirst]; simp only; omega) (by omega), hsecond, hfirst,
      List.take_of_length_le (by omega), State.sends, State.sends, State.sends]
    simp only [List.append_assoc, Prod.mk.injEq, decide_eq_false_iff_not, and_true]
    omega

/-! ## Retriable receives, each followed by a resend -/

/-- Failed receives change the staging and the log only. -/
theorem State.foldl_failed (xs : List Failure) (s : State) :
    xs.foldl State.failed s
      = { s with
          stageHdr := xs.foldl (fun m x => Memory.write m 0 x.header) s.stageHdr
          stage := xs.foldl (fun m x => Memory.write m 0 x.payload) s.stage
          log := s.log ++ xs.flatMap Failure.log } := by
  induction xs generalizing s with
  | nil => simp
  | cons x xs ih =>
    rw [List.foldl_cons, ih, List.flatMap_cons, ← List.append_assoc]
    rfl

theorem Steady.foldl_failed {s t : State} (h : Steady s t) (xs : List Failure) :
    Steady s (xs.foldl State.failed t) := by
  rw [State.foldl_failed]
  exact ⟨h.cfg, h.turn, h.lockOwner, h.retry⟩

/-- The receives `xs` failed, a frame was sent for each of them, and the channel has `script` and `rest` left. -/
def State.retries (s : State) (xs : List Failure) (frame : List Byte) (script : List Nat) (rest : List RxItem) :
    State :=
  ({ xs.foldl State.failed s with writeScript := script }.sends (List.replicate xs.length frame).flatten).left rest

theorem State.retries_eq (s : State) (xs : List Failure) (frame : List Byte) (script : List Nat)
    (rest : List RxItem) :
    s.retries xs frame script rest
      = { s with
          stageHdr := xs.foldl (fun m x => Memory.write m 0 x.header) s.stageHdr
          stage := xs.foldl (fun m x => Memory.write m 0 x.payload) s.stage
          log := s.log ++ xs.flatMap Failure.log
          txs := s.txs ++ (List.replicate xs.length frame).flatten
          writeScript := script
          rxs := rest } := by
  rw [State.retries, State.foldl_failed]
  rfl

section
variable (s : State) (xs : List Failure) (frame : List Byte) (script : List Nat) (rest : List RxItem)

@[simp] theorem State.retries_nil : s.retries [] frame s.writeScript s.rxs = s := by
  simp [State.retries, State.sends, State.left]

theorem State.retries_cons (x : Failure) (mid : List Nat) (rest' : List RxItem) :
    ({ ((s.failed x).left rest').sends frame with writeScript := mid } : State).retries xs frame script rest
      = s.retries (x :: xs) frame script rest := by
  rw [State.retries_eq, State.retries_eq, List.flatMap_cons, List.length_cons, List.replicate_succ, List.flatten_cons,
    ← List.append_assoc, ← List.append_assoc]
  rfl

theorem Steady.retries {s t : State} (h : Steady s t) : Steady s (t.retries xs frame script rest) := by
  rw [State.retries_eq]
  exact ⟨h.cfg, h.turn, h.lockOwner, h.retry⟩

theorem CacheKept.retries : CacheKept s (s.retries xs frame script rest) := by
  rw [State.retries_eq]
  exact ⟨rfl, rfl, rfl, rfl⟩

@[simp] theorem State.retries_rxs : (s.retries xs frame script rest).rxs = rest := rfl

@[simp] theorem State.retries_writeScript : (s.retries xs frame script rest).writeScript = script := rfl

theorem State.during_retries (f : Fsm) :
    (s.during f).retries xs frame script rest = (s.retries xs frame script rest).during f := by
  rw [State.retries_eq, State.retries_eq]
  rfl

theorem State.held_retries : s.held.retries xs frame script rest = (s.retries xs frame script rest).during s.fsm :=
  s.during_retries xs frame script rest s.fsm

end

/-- One more receive of an exchange, and the loop after it (42_protocol_engine.md R201). -/
def attempt (cmd max : Half) (left n : Nat) (s : State) : Except Fault (State × Result) :=
  receiveCore cmd max s >>= retryLoop cmd max left n

theorem exchangeCore_eq_attempt (cmd max : Half) (s : State) :
    exchangeCore cmd max s = attempt cmd max s.retry.toNat 0 s := rfl

section
variable {s : State} {cmd max : Half} {header payload : List Byte} {rest : List RxItem} {x : Failure}

/-- A retriable receive transmits the cached request, whether the transmission goes whole or not. -/
theorem attempt_transmits (left n : Nat) (hx : receiveRetriable s.cfg cmd s.rxs rest x)
    (hcached : s.cached header payload) {ok : Bool} {w : State}
    (hsent : transmit header payload (((s.failed x).left rest).setFsm .resending) = (ok, w)) :
    attempt cmd max (left + 1) n s
      = if ok then attempt cmd max left (n + 1) w else .ok (w.setFsm .localError, writeFailed (n + 1)) := by
  have hkept : (((s.failed x).left rest).setFsm .resending).cached header payload :=
    hcached.kept ⟨rfl, rfl, rfl, rfl⟩
  have hresend : resendCore (((s.failed x).left rest).setFsm .resending) = .ok (ok, w) :=
    hkept.resendCore.trans (congrArg _ hsent)
  have hkind : retriable x.reply.kind = true := receiveRetriable_kind hx
  rw [attempt, receiveCore_retriable hx]
  show retryLoop cmd max (left + 1) n _ = _
  rw [retryLoop, if_pos hkind]
  show (resendCore (((s.failed x).left rest).setFsm .resending) >>= _) = _
  rw [hresend]
  rfl

/-- After retriable receives, at most as many as there are resends left, the cached request went out once for each
of them. -/
theorem attempt_retries {left n : Nat} {xs : List Failure} {mid : List RxItem} {script : List Nat}
    (hxs : retried s.cfg cmd s.rxs xs mid) (hcached : xs = [] ∨ s.cached header payload)
    (hscript : carriesFrames payload xs.length s.writeScript script) :
    attempt cmd max (left + xs.length) n s
      = attempt cmd max left (n + xs.length) (s.retries xs (header ++ payload) script mid) := by
  induction xs generalizing s n with
  | nil =>
    rw [← hscript.zero, ← show s.rxs = mid from hxs, State.retries_nil]
    rfl
  | cons x xs ih =>
    obtain ⟨rest, hx, hxs⟩ := hxs
    have hcached : s.cached header payload := hcached.resolve_left (List.cons_ne_nil _ _)
    obtain ⟨h8, hpay⟩ := hcached.lengths
    obtain ⟨script', hscript', hsent⟩ :=
      transmit_carried (s := ((s.failed x).left rest).setFsm .resending) h8 hpay hscript
    have hstep := attempt_transmits (max := max) (left + xs.length) n hx hcached hsent
    have hrest := ih (n := n + 1)
      (s := { ((s.failed x).left rest).sends (header ++ payload) with writeScript := script' })
      hxs (.inr (hcached.kept ⟨rfl, rfl, rfl, rfl⟩)) hscript'
    rw [State.retries_cons] at hrest
    rw [List.length_cons, ← Nat.add_assoc left, hstep, if_pos rfl, Nat.add_comm xs.length 1, ← Nat.add_assoc n]
    exact hrest

/-! ## The ends of an exchange -/

/-- A correct reply ends the exchange. -/
theorem attempt_good {id : Byte} {reply : List Byte} (left n : Nat) (hmax : reply.length ≤ max.toNat)
    (hstage : reply.length ≤ s.cfg.stageMax) (hhears : s.hears (replyFrame s.cfg id 0x00#8 reply) rest) :
    attempt (id.setWidth 16) max left n s
      = .ok ((((s.left rest).stages (replyHeader s.cfg id 0x00#8 reply) reply).receives reply).setFsm .success,
        ⟨.ok, 0x00#8, BitVec.ofNat 16 reply.length, BitVec.ofNat 8 n⟩) := by
  rw [attempt, receiveCore_good hmax hstage hhears]
  exact retryLoop_done left n _ rfl

/-- A receive that is refused for good ends the exchange, and so does a retriable one without resends left. -/
theorem attempt_fails {left : Nat} (n : Nat) (h : (left = 0 ∧ receiveRetriable s.cfg cmd s.rxs rest x)
      ∨ receiveTerminal s.cfg s.turn cmd max s.rxs rest x) :
    attempt cmd max left n s = .ok (((s.failed x).left rest).setFsm x.fsm, x.reply.result n) := by
  rcases h with ⟨rfl, hx⟩ | hx
  · rw [attempt, receiveCore_retriable hx]
    rfl
  · rw [attempt, receiveCore_terminal hx]
    exact retryLoop_done left n _ (receiveTerminal_kind hx)

/-- A resend that is cut short ends the exchange. -/
theorem attempt_cut {part : List Byte} {script : List Nat} (left n : Nat)
    (hx : receiveRetriable s.cfg cmd s.rxs rest x) (hcached : s.cached header payload)
    (hcut : cutWrite header payload part s.writeScript script) :
    attempt cmd max (left + 1) n s
      = .ok (({ ((s.failed x).left rest).sends part with writeScript := script } : State).setFsm .localError,
        writeFailed (n + 1)) := by
  obtain ⟨h8, _⟩ := hcached.lengths
  exact attempt_transmits left n hx hcached
    (transmit_cut (s := ((s.failed x).left rest).setFsm .resending) h8 hcut)

end

/-! ## A whole exchange -/

section
variable {s : State} {cmd max : Half} {header payload : List Byte} {xs : List Failure} {mid rest : List RxItem}
  {script : List Nat}

/-- An exchange whose first receives are retriable goes on as the attempt after them. -/
theorem exchangeCore_retries (hretry : xs.length ≤ s.retry.toNat) (hxs : retried s.cfg cmd s.rxs xs mid)
    (hcached : xs = [] ∨ s.cached header payload) (hscript : carriesFrames payload xs.length s.writeScript script) :
    exchangeCore cmd max s = attempt cmd max (s.retry.toNat - xs.length) xs.length
      (s.retries xs (header ++ payload) script mid) := by
  have h := attempt_retries (max := max) (left := s.retry.toNat - xs.length) (n := 0) hxs hcached hscript
  rwa [Nat.sub_add_cancel hretry, Nat.zero_add] at h

theorem exchangeCore_good {id : Byte} {reply : List Byte} (hretry : xs.length ≤ s.retry.toNat)
    (hxs : retried s.cfg (id.setWidth 16) s.rxs xs mid) (hcached : xs = [] ∨ s.cached header payload)
    (hscript : carriesFrames payload xs.length s.writeScript script) (hmax : reply.length ≤ max.toNat)
    (hstage : reply.length ≤ s.cfg.stageMax)
    (hmid : mid = (replyFrame s.cfg id 0x00#8 reply).map RxItem.byte ++ rest) :
    exchangeCore (id.setWidth 16) max s
      = .ok ((((s.retries xs (header ++ payload) script rest).stages (replyHeader s.cfg id 0x00#8 reply)
          reply).receives reply).setFsm .success,
        ⟨.ok, 0x00#8, BitVec.ofNat 16 reply.length, BitVec.ofNat 8 xs.length⟩) := by
  rw [exchangeCore_retries hretry hxs hcached hscript]
  have hcfg : (s.retries xs (header ++ payload) script mid).cfg = s.cfg := ((Steady.refl s).retries ..).cfg
  rw [attempt_good _ _ hmax (by rwa [hcfg]) (by rw [hcfg]; exact hmid), hcfg]
  rfl

theorem exchangeCore_fails {x : Failure} (h : exchangeFails s cmd max s.rxs xs x rest)
    (hcached : xs = [] ∨ s.cached header payload) (hscript : carriesFrames payload xs.length s.writeScript script) :
    exchangeCore cmd max s
      = .ok (((s.retries xs (header ++ payload) script rest).failed x).setFsm x.fsm, x.reply.result xs.length) := by
  obtain ⟨mid, hxs, hlast⟩ := h
  obtain ⟨u, hu⟩ : ∃ u, s.retries xs (header ++ payload) script mid = u := ⟨_, rfl⟩
  have hsteady : Steady s u := hu ▸ (Steady.refl s).retries ..
  have hrxs : u.rxs = mid := hu ▸ rfl
  have hretry : xs.length ≤ s.retry.toNat := by
    rcases hlast with ⟨heq, _⟩ | ⟨hle, _⟩
    · exact heq.le
    · exact hle
  rw [exchangeCore_retries hretry hxs hcached hscript, hu,
    attempt_fails xs.length (x := x) (rest := rest) (by
      rw [hsteady.cfg, hsteady.turn, hrxs]
      exact hlast.imp (fun ⟨heq, hx⟩ => ⟨by omega, hx⟩) fun ⟨_, hx⟩ => hx), ← hu]
  rfl

theorem exchangeCore_cut {x : Failure} {part : List Byte} {counts : List Nat} (hretry : xs.length < s.retry.toNat)
    (hxs : retried s.cfg cmd s.rxs xs mid) (hx : receiveRetriable s.cfg cmd mid rest x)
    (hcached : s.cached header payload) (hscript : carriesFrames payload xs.length s.writeScript counts)
    (hcut : cutWrite header payload part counts script) :
    exchangeCore cmd max s
      = .ok ((((s.retries xs (header ++ payload) script rest).failed x).sends part).setFsm .localError,
        writeFailed (xs.length + 1)) := by
  obtain ⟨u, hu⟩ : ∃ u, s.retries xs (header ++ payload) counts mid = u := ⟨_, rfl⟩
  have hcfg : u.cfg = s.cfg := hu ▸ ((Steady.refl s).retries ..).cfg
  have hkept : CacheKept s u := hu ▸ CacheKept.retries ..
  have hleft : s.retry.toNat - xs.length = (s.retry.toNat - xs.length - 1) + 1 := by omega
  rw [exchangeCore_retries hretry.le hxs (.inr hcached) hscript, hu, hleft,
    attempt_cut (script := script) (part := part) (rest := rest) (x := x) _ _ (by rw [hcfg, ← hu]; exact hx)
      (hcached.kept hkept) (by rw [← hu]; exact hcut), ← hu]
  rfl

/-- The last of some retriable receives. -/
theorem retried_concat {c : Params} {items : List RxItem} {x : Failure} :
    retried c cmd items (xs ++ [x]) rest
      ↔ ∃ mid, retried c cmd items xs mid ∧ receiveRetriable c cmd mid rest x := by
  induction xs generalizing items with
  | nil =>
    constructor
    · rintro ⟨_, hx, rfl⟩
      exact ⟨items, rfl, hx⟩
    · rintro ⟨_, rfl, hx⟩
      exact ⟨rest, hx, rfl⟩
  | cons y ys ih =>
    constructor
    · rintro ⟨next, hy, hmore⟩
      obtain ⟨mid, hys, hx⟩ := ih.mp hmore
      exact ⟨mid, ⟨next, hy, hys⟩, hx⟩
    · rintro ⟨mid, ⟨next, hy, hys⟩, hx⟩
      exact ⟨next, hy, ih.mpr ⟨mid, hys, hx⟩⟩

end

/-! ## The states that the claims write out -/

section
variable (s : State) (xs : List Failure) (frame : List Byte) (rest : List RxItem) (x : Failure)

/-- Where the channel takes every byte, the frames may as well have gone before the receives. -/
theorem State.retries_sent :
    s.retries xs frame s.writeScript rest
      = (xs.foldl State.failed (s.sends (List.replicate xs.length frame).flatten)).left rest := by
  rw [State.retries, State.foldl_failed, State.foldl_failed]
  rfl

/-- One more failed receive, as one more failure of the list. -/
theorem State.retries_failed :
    (s.retries xs frame s.writeScript rest).failed x
      = ((xs ++ [x]).foldl State.failed (s.sends (List.replicate xs.length frame).flatten)).left rest := by
  rw [State.retries_sent, List.foldl_append]
  rfl

/-- The part of a resend that went, behind the resends that went whole. -/
theorem State.retries_part (script : List Nat) (part : List Byte) :
    ((s.retries xs frame script rest).failed x).sends part
      = ({ (xs ++ [x]).foldl State.failed s with writeScript := script }.sends
          ((List.replicate xs.length frame).flatten ++ part)).left rest := by
  rw [List.foldl_append, State.sends, State.sends, ← List.append_assoc]
  rfl

end

/-- Settles O29: the exchange is the attempt after its retriable receives, which has three ends. -/
theorem exchangeResends : Obligations.ExchangeResends := by
  intro s cmd max len header cached xs rest hopen hcmd hmax hvalid hhdr hlen hpay sent
  have hcached : s.held.cached header cached := ⟨hvalid, hhdr, len, hlen, hpay⟩
  have hframes (hwhole : s.writesWhole) : carriesFrames cached xs.length s.held.writeScript s.writeScript :=
    .inl ⟨hwhole, hwhole⟩
  refine ⟨fun id payload mid hid hwhole hretry hfits hstage hxs hmid => ?good, fun x hwhole hfails => ?fails,
    fun whole counts script part n hn hretry hwhole hcut hscript hxs => ?cut⟩
  case good =>
    subst hid
    have hexch := exchangeCore_good (s := s.held) hretry hxs (.inr hcached) (hframes hwhole) hfits hstage hmid
    rw [State.held_retries, State.retries_sent] at hexch
    exact exec_exchange_of hopen (t := (((xs.foldl State.failed sent).left rest).stages _ payload).receives payload)
      (((Steady.refl s).sends _ |>.foldl_failed xs |>.left rest).stages _ _ |>.receives _) hcmd hmax hexch
  case fails =>
    have hexch := exchangeCore_fails (s := s.held) hfails (.inr hcached) (hframes hwhole)
    rw [State.held_retries, State.during_failed, State.retries_failed] at hexch
    exact exec_exchange_of hopen (t := ((xs ++ [x]).foldl State.failed sent).left rest)
      ((Steady.refl s).sends _ |>.foldl_failed _ |>.left rest) hcmd hmax hexch
  case cut =>
    obtain rfl | ⟨ys, x, rfl⟩ := xs.eq_nil_or_concat'
    · cases hn
    rw [List.length_append, List.length_singleton] at hn hretry
    obtain rfl : ys.length = n := Nat.succ.inj hn
    obtain ⟨mid, hys, hx⟩ := retried_concat.mp hxs
    have hexch := exchangeCore_cut (s := s.held) (max := max) (Nat.lt_of_succ_le hretry) hys hx hcached
      (.inr ⟨whole, hwhole, hscript⟩) hcut
    rw [State.held_retries, State.during_failed, State.during_sends, State.retries_part] at hexch
    exact exec_exchange_of hopen (((Steady.refl s).foldl_failed _ |>.setScript script).sends _ |>.left rest)
      hcmd hmax hexch

end Sys2Proof.Machine
end

section
/-! `TRANSACT` and the codec arms with resends: their own request is what is resent (42_protocol_engine.md R206;
43_command_dispatch.md R248 to R258). -/

namespace Sys2Proof.Machine

/-! ## The cache and the other effects -/

theorem State.caches_sends (s : State) (header payload bytes : List Byte) :
    (s.caches header payload).sends bytes = (s.sends bytes).caches header payload := by
  by_cases h : s.retry = 0#8
  · rw [State.caches_off h, State.caches_off (s := s.sends bytes) h]
  · rw [State.caches_on h, State.caches_on (s := s.sends bytes) h]
    rfl

theorem State.foldl_failed_caches (s : State) (xs : List Failure) (header payload : List Byte) :
    xs.foldl State.failed (s.caches header payload) = (xs.foldl State.failed s).caches header payload := by
  have hretry : (xs.foldl State.failed s).retry = s.retry := ((Steady.refl s).foldl_failed xs).retry
  by_cases h : s.retry = 0#8
  · rw [State.caches_off h, State.caches_off (hretry.trans h)]
  · rw [State.caches_on h, State.caches_on (by rwa [hretry]), State.foldl_failed, State.foldl_failed]
    rfl

theorem State.foldl_failed_sends (s : State) (xs : List Failure) (bytes : List Byte) :
    xs.foldl State.failed (s.sends bytes) = (xs.foldl State.failed s).sends bytes := by
  rw [State.foldl_failed, State.foldl_failed]
  rfl

theorem State.foldl_failed_modCur (s : State) (xs : List Failure) (f : Port → Port) :
    xs.foldl State.failed (s.modCur f) = (xs.foldl State.failed s).modCur f := by
  rw [State.foldl_failed, State.foldl_failed]
  rfl

theorem State.foldl_failed_setScript (s : State) (xs : List Failure) (script : List Nat) :
    xs.foldl State.failed { s with writeScript := script }
      = { xs.foldl State.failed s with writeScript := script } := by
  rw [State.foldl_failed, State.foldl_failed]

theorem State.caches_setScript (s : State) (header payload : List Byte) (script : List Nat) :
    ({ s with writeScript := script } : State).caches header payload
      = { s.caches header payload with writeScript := script } := by
  by_cases h : s.retry = 0#8
  · rw [State.caches_off h, State.caches_off (s := { s with writeScript := script }) h]
  · rw [State.caches_on h, State.caches_on (s := { s with writeScript := script }) h]
    rfl

theorem State.sends_sends (s : State) (a b : List Byte) : (s.sends a).sends b = s.sends (a ++ b) := by
  rw [State.sends, State.sends, State.sends, List.append_assoc]

@[simp] theorem State.caches_rxs (s : State) (header payload : List Byte) :
    (s.caches header payload).rxs = s.rxs := by
  unfold State.caches
  split <;> rfl

/-! ## A request and its exchange -/

/-- A request was sent whole, and is cached where retries are enabled (42_protocol_engine.md R188, R190). -/
def State.requests (s : State) (cmd : Half) (sent : List Byte) : State :=
  (s.sends (requestFrame s.cfg cmd sent)).caches (requestHeader s.cfg cmd sent) sent

section
variable (s : State) (cmd : Half) (sent : List Byte)

theorem Steady.requests : Steady s (s.requests cmd sent) := ((Steady.refl s).sends _).caches _ _

@[simp] theorem State.requests_cfg : (s.requests cmd sent).cfg = s.cfg := (Steady.requests s cmd sent).cfg

@[simp] theorem State.requests_turn : (s.requests cmd sent).turn = s.turn := (Steady.requests s cmd sent).turn

@[simp] theorem State.requests_retry : (s.requests cmd sent).retry = s.retry := (Steady.requests s cmd sent).retry

@[simp] theorem State.requests_rxs : (s.requests cmd sent).rxs = s.rxs := State.caches_rxs _ _ _

@[simp] theorem State.requests_writeScript : (s.requests cmd sent).writeScript = s.writeScript :=
  State.caches_writeScript _ _ _

@[simp] theorem State.during_requests (f : Fsm) : (s.during f).requests cmd sent = (s.requests cmd sent).during f :=
  State.during_caches (s.sends (requestFrame s.cfg cmd sent)) f (requestHeader s.cfg cmd sent) sent

/-- The request is in the cache, unless no resend is allowed. -/
theorem State.requests_cached {xs : List Failure} (hretry : xs.length ≤ s.retry.toNat)
    (hsize : sent.length ≤ 65535) :
    xs = [] ∨ (s.requests cmd sent).cached (requestHeader s.cfg cmd sent) sent := by
  by_cases h : s.retry = 0#8
  · rw [h] at hretry
    exact .inl (List.length_eq_zero_iff.mp (Nat.le_zero.mp hretry))
  · exact .inr (State.caches_cached (s := s.sends _) h (requestHeader_length _ _ _) hsize)

/-- A request and its resends are one frame more than the resends. -/
theorem State.requests_sends (n : Nat) :
    (s.requests cmd sent).sends (List.replicate n (requestFrame s.cfg cmd sent)).flatten
      = (s.sends (List.replicate (n + 1) (requestFrame s.cfg cmd sent)).flatten).caches
          (requestHeader s.cfg cmd sent) sent := by
  rw [State.requests, State.caches_sends, State.sends_sends, List.replicate_succ, List.flatten_cons]

end

/-- The bytes that go after the request's receives, put behind the request. -/
theorem State.requests_failed (s : State) (cmd : Half) (sent bytes : List Byte) (xs : List Failure)
    (script script' : List Nat) :
    ({ xs.foldl State.failed (({ s with writeScript := script' } : State).requests cmd sent) with
        writeScript := script } : State).sends bytes
      = ({ xs.foldl State.failed (s.caches (requestHeader s.cfg cmd sent) sent) with
          writeScript := script } : State).sends (requestFrame s.cfg cmd sent ++ bytes) := by
  rw [State.requests, ← State.caches_sends, State.foldl_failed_sends, State.caches_setScript,
    State.foldl_failed_setScript, ← State.sends_sends]
  rfl

theorem requestSent_setFsm (s : State) (header payload : List Byte) (f : Fsm) :
    requestSent header payload (s.setFsm f) = (s.caches header payload).setFsm .awaitingReply := by
  unfold requestSent
  by_cases h : s.retry = 0#8
  · rw [State.caches_off h, State.setFsm_retry, if_pos h]
    rfl
  · rw [State.caches_on h, State.setFsm_retry, if_neg h]
    rfl

theorem exchangeCore_setFsm (cmd max : Half) (s : State) (f : Fsm) :
    exchangeCore cmd max (s.setFsm f) = exchangeCore cmd max s := rfl

section
variable {s : State} {cmd max : Half} {sent : List Byte} {xs : List Failure} {rest : List RxItem}

/-- Over a channel that takes every byte, the operation that has the lock exchanges behind its request. -/
theorem requestExchange_whole (hwhole : s.writesWhole) :
    requestExchange cmd max sent s.held = exchangeCore cmd max ((s.requests cmd sent).during s.fsm) := by
  rw [← State.during_requests, ← s.held_eq_during]
  unfold requestExchange
  rw [sendCore_whole cmd sent s.held hwhole, if_pos rfl]
  rfl

section
variable (hsize : sent.length ≤ 65535)
include hsize

/-- A request that the channel carries whole is sent and cached, and its exchange follows. -/
theorem requestExchange_carried {n : Nat} {counts : List Nat}
    (h : carriesFrames sent (n + 1) s.writeScript counts) :
    ∃ script, carriesFrames sent n script counts ∧ requestExchange cmd max sent s
      = exchangeCore cmd max (({ s with writeScript := script } : State).requests cmd sent) := by
  obtain ⟨script, hscript, hsent⟩ := transmit_carried (s := s.setFsm .sending)
    (buildReq_length s.cfg cmd sent) hsize h
  refine ⟨script, hscript, ?_⟩
  unfold requestExchange sendCore
  dsimp only
  rw [hsent, if_pos rfl, if_pos rfl]
  have hreq := requestSent_setFsm (({ s with writeScript := script } : State).sends (requestFrame s.cfg cmd sent))
    (requestHeader s.cfg cmd sent) sent .sending
  exact (congrArg (exchangeCore cmd max) hreq).trans (exchangeCore_setFsm cmd max _ .awaitingReply)

section
variable (hwhole : s.writesWhole)
include hwhole

/-- After retriable receives, a correct reply (42_protocol_engine.md R206). -/
theorem requestExchange_good {id : Byte} {reply : List Byte} {mid : List RxItem}
    (hretry : xs.length ≤ s.retry.toNat) (hxs : retried s.cfg (id.setWidth 16) s.rxs xs mid)
    (hmid : mid = (replyFrame s.cfg id 0x00#8 reply).map RxItem.byte ++ rest)
    (hmax : reply.length ≤ max.toNat) (hstage : reply.length ≤ s.cfg.stageMax) :
    requestExchange (id.setWidth 16) max sent s.held
      = .ok (((xs.foldl State.failed s).answeredAfter xs.length id sent reply rest).during .success,
        ⟨.ok, 0x00#8, BitVec.ofNat 16 reply.length, BitVec.ofNat 8 xs.length⟩) := by
  have hscript := (s.requests_writeScript (id.setWidth 16) sent).trans hwhole
  have hfailed : (xs.foldl State.failed s).cfg = s.cfg := ((Steady.refl s).foldl_failed xs).cfg
  rw [requestExchange_whole hwhole, exchangeCore_good (s := (s.requests (id.setWidth 16) sent).during s.fsm)
    (header := requestHeader s.cfg (id.setWidth 16) sent) (by simpa using hretry) (by simpa using hxs)
    (s.requests_cached (id.setWidth 16) sent hretry hsize) (.inl ⟨hscript, hscript⟩) hmax (by simpa using hstage)
    (by simpa using hmid), State.during_retries, State.retries_sent, ← requestFrame, State.requests_sends,
    State.foldl_failed_caches, State.foldl_failed_sends, State.answeredAfter, hfailed, State.during_cfg,
    State.requests_cfg]
  rfl

/-- After retriable receives, a last one that is not `OK`. -/
theorem requestExchange_fails {x : Failure} (h : exchangeFails s cmd max s.rxs xs x rest) :
    requestExchange cmd max sent s.held
      = .ok (((((xs ++ [x]).foldl State.failed ((s.sends (List.replicate (xs.length + 1)
          (requestFrame s.cfg cmd sent)).flatten).caches (requestHeader s.cfg cmd sent) sent)).left rest).during
          x.fsm), x.reply.result xs.length) := by
  have hscript := (s.requests_writeScript cmd sent).trans hwhole
  have hretry : xs.length ≤ s.retry.toNat := by
    obtain ⟨_, _, ⟨heq, _⟩ | ⟨hle, _⟩⟩ := h
    · exact heq.le
    · exact hle
  rw [requestExchange_whole hwhole, exchangeCore_fails (s := (s.requests cmd sent).during s.fsm)
    (header := requestHeader s.cfg cmd sent) (by simpa [exchangeFails] using h)
    (s.requests_cached cmd sent hretry hsize) (.inl ⟨hscript, hscript⟩), State.during_retries,
    State.during_failed, State.retries_failed, ← requestFrame, State.requests_sends]
  rfl

end

/-- After retriable receives, a resend that is cut short. -/
theorem requestExchange_cut {whole counts script : List Nat} {part : List Byte}
    (hne : xs ≠ []) (hretry : xs.length ≤ s.retry.toNat) (hxs : retried s.cfg cmd s.rxs xs rest)
    (hcounts : wholeCounts (xs.length * frameWrites sent) whole)
    (hcut : cutWrite (requestHeader s.cfg cmd sent) sent part counts script)
    (hscript : s.writeScript = whole ++ counts) :
    requestExchange cmd max sent s.held
      = .ok (((({ xs.foldl State.failed (s.caches (requestHeader s.cfg cmd sent) sent) with
          writeScript := script } : State).sends ((List.replicate xs.length (requestFrame s.cfg cmd sent)).flatten
          ++ part)).left rest).during .localError, writeFailed xs.length) := by
  obtain rfl | ⟨ys, x, rfl⟩ := xs.eq_nil_or_concat'
  · exact absurd rfl hne
  rw [List.length_append, List.length_singleton] at hretry hcounts ⊢
  obtain ⟨mid, hys, hx⟩ := retried_concat.mp hxs
  obtain ⟨script', hscript', hexch⟩ := requestExchange_carried (s := s.held) (cmd := cmd) (max := max) hsize
    (.inr ⟨whole, hcounts, hscript⟩)
  obtain ⟨v, hv⟩ : ∃ v : State, { s with writeScript := script' } = v := ⟨_, rfl⟩
  have hheld : ({ s.held with writeScript := script' } : State) = v.during s.fsm := hv ▸ rfl
  have hcfg : v.cfg = s.cfg := hv ▸ rfl
  have hframes : carriesFrames sent ys.length (v.requests cmd sent).writeScript counts := by
    rwa [State.requests_writeScript, ← hv]
  have hcached := (v.requests_cached cmd sent (xs := ys ++ [x]) (by simpa [← hv] using hretry) hsize).resolve_left hne
  rw [hexch, hheld, State.during_requests, exchangeCore_cut (s := (v.requests cmd sent).during s.fsm) (max := max)
    (by simpa [← hv] using hretry) (by simpa [← hv] using hys) (by simpa [← hv] using hx) hcached
    hframes (by simpa [hcfg] using hcut), State.during_retries, State.during_failed,
    State.during_sends, State.retries_part, ← requestFrame, hcfg, ← hv, State.requests_failed,
    List.replicate_succ, List.flatten_cons, List.append_assoc]
  rfl

end

end

end Sys2Proof.Machine
end

section
/-! What `TRANSACT` and each codec arm make of their exchange (42_protocol_engine.md R206; 43_command_dispatch.md
R249 to R258). -/

namespace Sys2Proof.Machine

/-! ## An arm whose exchange is not `OK` -/

section
variable {s : State} {id : Byte} {x : State × Result}

theorem armDone_failed (codec : Codec) (en : Endian) (hk : x.2.kind ≠ .ok) : armDone codec en x = .ok x := by
  cases codec
  case rdF32 => exact if_pos hk
  case rdU32 => exact if_pos hk
  case rdU8 => exact if_pos hk
  case rdVer => exact if_pos hk
  case rdId => exact if_pos hk
  all_goals rfl

theorem armBody_failed {codec : Codec} (hchunk : codec ≠ .rdChunk) (hpct : codec ≠ .wrPct) (hk : x.2.kind ≠ .ok)
    (h : requestExchange (id.setWidth 16) (codecRepSize s.cfg.chunkSize codec) [] s = .ok x) :
    armBody codec id s = .ok x := by
  rw [armBody_eq hchunk hpct]
  exact bind_eq_ok.mpr ⟨x, h, armDone_failed codec _ hk⟩

theorem armChunk_failed (hk : x.2.kind ≠ .ok)
    (h : requestExchange (id.setWidth 16) s.cfg.chunkSize [] (clearAcc s) = .ok x) :
    armBody .rdChunk id s = .ok x := by
  have haccept : acceptChunk x = .ok (x.1, some x.2) := if_pos hk
  exact bind_eq_ok.mpr ⟨x, h, bind_eq_ok.mpr ⟨_, haccept, rfl⟩⟩

theorem armPct_eq {arg : Word} (harg : s.cur.arg = some arg) :
    armBody .wrPct id s
      = requestExchange (id.setWidth 16) 0#16 (pctPayload s.cfg arg) (stagePct (pctPayload s.cfg arg) s) := by
  have hneed : s.needArg = .ok arg := need_some harg
  show (s.needArg >>= _) = _
  rw [hneed]
  rfl

end

/-! ## An arm whose exchange is `OK` -/

section
variable {u : State} {bytes : List Byte} {st n : Byte} (hsize : bytes.length < 65536)
  (hrx : Memory.read u.cur.rxbuf 0 bytes.length = some bytes)
include hsize hrx

/-- A fixed-size read stores the payload that was received (43_command_dispatch.md R249). -/
theorem fixedRead_received (store : List Byte → Port → Port) :
    fixedRead bytes.length store (u, ⟨.ok, st, BitVec.ofNat 16 bytes.length, n⟩)
      = .ok (u.modCur (store bytes), ⟨.ok, 0x00#8, BitVec.ofNat 16 bytes.length, n⟩) := by
  have hlen : (BitVec.ofNat 16 bytes.length).toNat = bytes.length := Nat.mod_eq_of_lt hsize
  have hneed : u.needRx bytes.length = .ok bytes := need_some hrx
  unfold fixedRead
  dsimp only
  rw [if_neg (not_not.mpr rfl), hlen, if_neg (Nat.lt_irrefl _), hneed]
  rfl

/-- A first chunk that is final ends a chunked read (43_command_dispatch.md R256, R257). -/
theorem acceptChunk_received (hacc : u.cur.accN = some 0#32) (hroom : bytes.length ≤ u.cfg.accMax)
    (hfinal : chunkFinal u.cfg bytes = true) :
    acceptChunk (u, ⟨.ok, st, BitVec.ofNat 16 bytes.length, n⟩)
      = .ok (u.modCur fun p =>
          { p with acc := Memory.write p.acc 0 bytes, accN := some (BitVec.ofNat 32 bytes.length) },
        some ⟨.ok, 0x00#8, BitVec.ofNat 16 bytes.length, n⟩) := by
  have hlen : (BitVec.ofNat 16 bytes.length).toNat = bytes.length := Nat.mod_eq_of_lt hsize
  have hneed : u.needRx bytes.length = .ok bytes := need_some hrx
  have hcount : need u.cur.accN = .ok 0#32 := need_some hacc
  have hadd : (0#32).toNat + bytes.length = bytes.length := Nat.zero_add _
  unfold acceptChunk
  dsimp only
  rw [if_neg (not_not.mpr rfl), hlen, hneed, hcount]
  refine bind_eq_ok.mpr ⟨_, rfl, bind_eq_ok.mpr ⟨_, rfl, ?_⟩⟩
  rw [hadd, if_neg (Nat.not_lt.mpr hroom)]
  exact if_pos hfinal

end

/-- The fields of an identity block, one after another (43_command_dispatch.md R255). -/
theorem storeIdentity_fields (en : Endian) {name date1 date2 : List Byte} (b0 b1 b2 b3 : Byte) (p : Port)
    (hname : name.length = 32) (hdate1 : date1.length = 16) (hdate2 : date2.length = 16) :
    storeIdentity en (name ++ [b0, b1, b2, b3] ++ date1 ++ date2) p
      = { p with
          idName := Memory.write p.idName 0 name, idType := some (unpack32 en b0 b1 b2 b3)
          idDate1 := Memory.write p.idDate1 0 date1, idDate2 := Memory.write p.idDate2 0 date2 } := by
  have h0 : (name ++ [b0, b1, b2, b3] ++ date1 ++ date2).take 32 = name := by simp [← hname]
  have h32 : (name ++ [b0, b1, b2, b3] ++ date1 ++ date2).drop 32 = [b0, b1, b2, b3] ++ (date1 ++ date2) := by
    simp [← hname]
  have h36 : ((name ++ [b0, b1, b2, b3] ++ date1 ++ date2).drop 36).take 16 = date1 := by
    rw [← List.drop_drop (i := 4) (j := 32), h32]
    simp [← hdate1]
  have h52 : ((name ++ [b0, b1, b2, b3] ++ date1 ++ date2).drop 52).take 16 = date2 := by
    rw [← List.drop_drop (i := 20) (j := 32), h32]
    simp [hdate1, ← hdate2]
  rw [storeIdentity, h0, h32, h36, h52]
  rfl

/-! ## The operations after retriable receives and a correct reply -/

/-- An `OK` result with a payload of this length, after `n` resends. -/
def accepted (reply : List Byte) (n : Nat) : Result := ⟨.ok, 0x00#8, BitVec.ofNat 16 reply.length, BitVec.ofNat 8 n⟩

theorem State.caches_cur (s : State) (header payload : List Byte) : (s.caches header payload).cur = s.cur := by
  unfold State.caches
  split <;> rfl

theorem Steady.answeredAfter {s t : State} (h : Steady s t) (n : Nat) (id : Byte) (request reply : List Byte)
    (rest : List RxItem) : Steady s (t.answeredAfter n id request reply rest) :=
  (h.sends _ |>.caches _ _ |>.left rest).stages _ _ |>.receives reply

section
variable (t : State) (n : Nat) (id : Byte) (request reply : List Byte) (rest : List RxItem)

theorem State.answeredAfter_rx :
    Memory.read (t.answeredAfter n id request reply rest).cur.rxbuf 0 reply.length = some reply := by
  rw [State.answeredAfter, State.receives, State.cur_modCur]
  exact Memory.read_write_same _ 0 reply

theorem State.answeredAfter_accN : (t.answeredAfter n id request reply rest).cur.accN = t.cur.accN := by
  rw [State.answeredAfter, State.receives, State.cur_modCur]
  show (State.caches _ _ _).cur.accN = _
  rw [State.caches_cur]
  rfl

end

section
variable {s : State} {id : Byte} {reply : List Byte} {xs : List Failure} {mid rest : List RxItem}
  (hopen : s.lockOwner = noPort ∨ s.lockOwner = portByte s.turn) (hwhole : s.writesWhole)
  (hretry : xs.length ≤ s.retry.toNat) (hstage : reply.length ≤ s.cfg.stageMax)
  (hxs : retried s.cfg (id.setWidth 16) s.rxs xs mid)
  (hmid : mid = (replyFrame s.cfg id 0x00#8 reply).map RxItem.byte ++ rest)
include hopen hwhole hretry hstage hxs hmid

theorem exec_transact_answered {len max : Half} {request : List Byte} (hcmd : s.cur.cmd = some (id.setWidth 16))
    (hlen : s.cur.len = some len) (hpay : Memory.read s.cur.txbuf 0 len.toNat = some request)
    (hmax : s.cur.max = some max) (hfits : reply.length ≤ max.toNat) :
    exec .transact s = .next (((xs.foldl State.failed s).answeredAfter xs.length id request reply
      rest).endsExchange .ok 0x00#8 (BitVec.ofNat 16 reply.length) (BitVec.ofNat 8 xs.length) .success) := by
  have hsize : request.length ≤ 65535 := by
    rw [Memory.read_length _ _ _ _ hpay]
    have := len.isLt
    omega
  exact exec_transact_of hopen (((Steady.refl s).foldl_failed xs).answeredAfter ..) hcmd hlen hpay (fun _ => hmax)
    (requestExchange_good hsize hwhole hretry hxs hmid hfits hstage)

theorem exec_callNone_answered (hnil : reply = []) :
    exec (.callNone id) s = .next (((xs.foldl State.failed s).answeredAfter xs.length id [] reply
      rest).endsExchange .ok 0x00#8 (BitVec.ofNat 16 reply.length) (BitVec.ofNat 8 xs.length) .success) :=
  runArm_of (arm := armBody .none id) hopen (((Steady.refl s).foldl_failed xs).answeredAfter ..)
    (requestExchange_good (Nat.zero_le _) hwhole hretry hxs hmid (by rw [hnil]; exact Nat.zero_le _) hstage)

/-- The arms with a reply of a fixed size: each stores it in its own registers. -/
theorem armRead_answered {codec : Codec} {store : List Byte → Port → Port} (hchunk : codec ≠ .rdChunk)
    (hpct : codec ≠ .wrPct) (hfits : reply.length ≤ (codecRepSize s.cfg.chunkSize codec).toNat)
    (hdone : armDone codec s.cfg.endian = fixedRead reply.length store) :
    runArm (armBody codec id) s = .next ((((xs.foldl State.failed s).answeredAfter xs.length id [] reply
      rest).modCur (store reply)).endsExchange .ok 0x00#8 (BitVec.ofNat 16 reply.length) (BitVec.ofNat 8 xs.length)
      .success) := by
  refine runArm_of hopen (r := accepted reply xs.length)
    ((((Steady.refl s).foldl_failed xs).answeredAfter ..).modCur _) ?_
  have hsize : reply.length < 65536 := by
    have := (codecRepSize s.cfg.chunkSize codec).isLt
    omega
  rw [armBody_eq hchunk hpct]
  refine bind_eq_ok.mpr ⟨_, requestExchange_good (Nat.zero_le _) hwhole hretry hxs hmid hfits hstage, ?_⟩
  rw [show s.held.cfg = s.cfg from rfl, hdone]
  exact fixedRead_received (u := ((xs.foldl State.failed s).answeredAfter xs.length id [] reply rest).during .success)
    hsize (State.answeredAfter_rx ..) store

theorem exec_callChunk_answered (hfinal : chunkFinal s.cfg reply = true)
    (hfits : reply.length ≤ s.cfg.chunkSize.toNat) (hroom : reply.length ≤ s.cfg.accMax) :
    exec (.callChunk id) s = .next (((((xs.foldl State.failed s).modCur fun p =>
        { p with accN := some 0#32 }).answeredAfter xs.length id [] reply rest).modCur fun p =>
        { p with acc := Memory.write p.acc 0 reply, accN := some (BitVec.ofNat 32 reply.length) }).endsExchange
      .ok 0x00#8 (BitVec.ofNat 16 reply.length) (BitVec.ofNat 8 xs.length) .success) := by
  refine runArm_of (arm := armBody .rdChunk id) hopen (r := accepted reply xs.length)
    (((((Steady.refl s).foldl_failed xs).modCur _).answeredAfter ..).modCur _) ?_
  have hsize : reply.length < 65536 := by
    have := s.cfg.chunkSize.isLt
    omega
  have hexch := requestExchange_good (s := clearAcc s) (max := s.cfg.chunkSize) (sent := []) (Nat.zero_le _) hwhole
    hretry hxs hmid hfits hstage
  rw [clearAcc, State.foldl_failed_modCur] at hexch
  obtain ⟨u, hu⟩ : ∃ u, (xs.foldl State.failed s).modCur (fun p => { p with accN := some 0#32 }) = u := ⟨_, rfl⟩
  have hcfg : (u.answeredAfter xs.length id [] reply rest).cfg = s.cfg :=
    hu ▸ ((((Steady.refl s).foldl_failed xs).modCur _).answeredAfter ..).cfg
  have haccN : (u.answeredAfter xs.length id [] reply rest).cur.accN = some 0#32 := by
    rw [State.answeredAfter_accN, ← hu, State.cur_modCur]
  rw [hu] at hexch ⊢
  have haccept := acceptChunk_received (u := (u.answeredAfter xs.length id [] reply rest).during .success)
    (st := 0x00#8) (n := BitVec.ofNat 8 xs.length) hsize (State.answeredAfter_rx ..) haccN
    (by rwa [State.during_cfg, hcfg]) (by rwa [State.during_cfg, hcfg])
  exact bind_eq_ok.mpr ⟨_, hexch, bind_eq_ok.mpr ⟨_, haccept, rfl⟩⟩

theorem exec_callPct_answered (hnil : reply = []) {arg : Word} (harg : s.cur.arg = some arg) :
    exec (.callPct id) s = .next ((((xs.foldl State.failed s).modCur fun p =>
        { p with txbuf := Memory.write p.txbuf 0 (pctPayload s.cfg arg) }).answeredAfter xs.length id
        (pctPayload s.cfg arg) reply rest).endsExchange .ok 0x00#8 (BitVec.ofNat 16 reply.length)
      (BitVec.ofNat 8 xs.length) .success) := by
  refine runArm_of (arm := armBody .wrPct id) hopen (r := accepted reply xs.length)
    ((((Steady.refl s).foldl_failed xs).modCur _).answeredAfter ..) ?_
  have hexch := requestExchange_good (s := stagePct (pctPayload s.cfg arg) s) (sent := pctPayload s.cfg arg)
    (max := 0#16) (by simp) hwhole hretry hxs hmid (by rw [hnil]; exact Nat.zero_le _) hstage
  rw [stagePct, State.foldl_failed_modCur] at hexch
  exact (armPct_eq (s := s.held) harg).trans hexch

end

/-- Settles O32: no receive before the reply fails. -/
theorem transactGood : Obligations.TransactGood := by
  intro s id len max request reply rest hopen hcmd hlen hpay hmax hwhole hhears hfits hstage
  have hexec := exec_transact_answered (xs := []) hopen hwhole (Nat.zero_le _) hstage rfl hhears hcmd hlen hpay hmax
    hfits
  rwa [State.answeredAfter, List.length_nil, Nat.zero_add, List.replicate_one, List.flatten_singleton] at hexec

/-! ## The operations whose exchange is not `OK` -/

/-- What a request's exchange answers where the operation ends without it, from the state in which the request is
made, is what the operation answers. -/
def passesOn (i : Instr) (s u : State) (cmd bound : Half) (sent : List Byte) : Prop :=
  ∀ (t : State) (f : Fsm) (r : Result), Steady s t → r.kind ≠ .ok →
    requestExchange cmd bound sent u.held = .ok (t.during f, r) →
    exec i s = .next (t.endsExchange r.kind r.status r.len r.resends f)

section
variable {s : State} {id : Byte} (hopen : s.lockOwner = noPort ∨ s.lockOwner = portByte s.turn)
include hopen

theorem transact_passesOn {cmd len max : Half} {request : List Byte} (hcmd : s.cur.cmd = some cmd)
    (hlen : s.cur.len = some len) (hpay : Memory.read s.cur.txbuf 0 len.toNat = some request)
    (hmax : s.cur.max = some max) : passesOn .transact s s cmd max request :=
  fun _ _ _ ht _ h => exec_transact_of hopen ht hcmd hlen hpay (fun _ => hmax) h

theorem armRead_passesOn {i : Instr} {codec : Codec} (hchunk : codec ≠ .rdChunk) (hpct : codec ≠ .wrPct)
    (hi : exec i s = runArm (armBody codec id) s) :
    passesOn i s s (id.setWidth 16) (codecRepSize s.cfg.chunkSize codec) [] :=
  fun _ _ _ ht hk h => hi.trans (runArm_of hopen ht (armBody_failed (s := s.held) hchunk hpct hk h))

theorem callChunk_passesOn : passesOn (.callChunk id) s (clearAcc s) (id.setWidth 16) s.cfg.chunkSize [] :=
  fun _ _ _ ht hk h => runArm_of (arm := armBody .rdChunk id) hopen ht (armChunk_failed (s := s.held) hk h)

theorem callPct_passesOn {arg : Word} (harg : s.cur.arg = some arg) :
    passesOn (.callPct id) s (stagePct (pctPayload s.cfg arg) s) (id.setWidth 16) 0#16 (pctPayload s.cfg arg) :=
  fun _ _ _ ht _ h => runArm_of (arm := armBody .wrPct id) hopen ht ((armPct_eq (s := s.held) harg).trans h)

end

theorem exchangeFails_kind {s : State} {cmd max : Half} {items rest : List RxItem} {xs : List Failure} {x : Failure}
    (h : exchangeFails s cmd max items xs x rest) : x.kind ≠ .ok := by
  obtain ⟨mid, _, ⟨_, hx⟩ | ⟨_, _, _, _, _, _, ⟨_, _, rfl⟩ | ⟨_, _, rfl⟩ | ⟨_, _, _, rfl⟩⟩⟩ := h
  · intro hok
    have hkind := receiveRetriable_kind hx
    rw [hok] at hkind
    cases hkind
  all_goals exact Kind.noConfusion

section
variable {i : Instr} {s u : State} {cmd bound : Half} {sent : List Byte} {xs : List Failure} {rest : List RxItem}
  (hpass : passesOn i s u cmd bound sent) (hu : Steady s u) (hsize : sent.length ≤ 65535)
include hpass hu hsize

/-- The last receive's own failure ends the operation. -/
theorem passesOn.fails {x : Failure} (hwhole : u.writesWhole) (h : exchangeFails u cmd bound u.rxs xs x rest) :
    exec i s = .next (((u.sends (List.replicate (xs.length + 1) (requestFrame u.cfg cmd sent)).flatten).caches
      (requestHeader u.cfg cmd sent) sent).fails xs x rest) :=
  hpass _ _ _ (hu.sends _ |>.caches _ _ |>.foldl_failed _ |>.left rest) (exchangeFails_kind h)
    (requestExchange_fails hsize hwhole h)

/-- A resend that is cut short ends the operation. -/
theorem passesOn.cut {whole counts script : List Nat} {part : List Byte} (hne : xs ≠ [])
    (hretry : xs.length ≤ u.retry.toNat) (hxs : retried u.cfg cmd u.rxs xs rest)
    (hcounts : wholeCounts (xs.length * frameWrites sent) whole)
    (hcut : cutWrite (requestHeader u.cfg cmd sent) sent part counts script)
    (hscript : u.writeScript = whole ++ counts) :
    exec i s = .next ((xs.foldl State.failed (u.caches (requestHeader u.cfg cmd sent) sent)).resendCut xs.length
      xs.length (requestFrame u.cfg cmd sent) part rest script) :=
  hpass _ _ (writeFailed xs.length) (hu.caches _ _ |>.foldl_failed xs |>.setScript script |>.sends _ |>.left rest) nofun
    (requestExchange_cut hsize hne hretry hxs hcounts hcut hscript)

end

/-- Settles O60: each operation is its request and the exchange behind it, whose answer it stores or passes on. -/
theorem ownRequestResent : Obligations.OwnRequestResent := by
  intro s id len max arg request xs rest hopen bytes pct chunk done
  have hsteady : Steady s s := .refl s
  have hchunk : Steady s (clearAcc s) := hsteady.modCur _
  have hpct : Steady s (stagePct bytes s) := hsteady.modCur _
  have hbytes : bytes.length ≤ 65535 := by simp [bytes]
  have hrequest (h : Memory.read s.cur.txbuf 0 len.toNat = some request) : request.length ≤ 65535 := by
    have hbound := len.isLt
    rw [Memory.read_length _ _ _ _ h]
    omega
  refine ⟨fun reply mid hwhole hretry hstage hxs hmid => ?good, fun cmd x hwhole => ?fails,
    fun hne hretry => ?cut⟩
  case good =>
    intro failed u ends
    have read {codec : Codec} {store : List Byte → Port → Port} {stored : Port → Port} (h1 : codec ≠ .rdChunk)
        (h2 : codec ≠ .wrPct) (hfits : reply.length = (codecRepSize s.cfg.chunkSize codec).toNat)
        (hdone : armDone codec s.cfg.endian = fixedRead reply.length store) (hstore : store reply = stored) :
        runArm (armBody codec id) s = done (ends (u.modCur stored)) :=
      hstore ▸ armRead_answered hopen hwhole hretry hstage hxs hmid h1 h2 hfits.le hdone
    refine ⟨fun hcmd hlen hpay hmax hfits => ?transact, fun hnil => ?none, fun b0 b1 b2 b3 hreply => ?word,
      fun b0 hreply => ?byte, fun hlen => ?version,
      fun name date1 date2 b0 b1 b2 b3 hname hdate1 hdate2 hreply => ?identity, fun hfinal hfits hroom => ?chunk,
      fun hnil harg => ?pct⟩
    case transact =>
      exact exec_transact_answered hopen hwhole hretry hstage hxs hmid hcmd hlen hpay hmax hfits
    case none => exact exec_callNone_answered hopen hwhole hretry hstage hxs hmid hnil
    case word =>
      subst hreply
      intro v
      exact ⟨read (codec := .rdF32) nofun nofun rfl rfl rfl, read (codec := .rdU32) nofun nofun rfl rfl rfl⟩
    case byte =>
      subst hreply
      exact read (codec := .rdU8) nofun nofun rfl rfl rfl
    case version => exact read (codec := .rdVer) nofun nofun hlen (by rw [hlen]; rfl) rfl
    case identity =>
      have hlen : reply.length = 68 := by simp [hreply, hname, hdate1, hdate2]
      exact read (codec := .rdId) nofun nofun hlen (by rw [hlen]; rfl)
        (funext fun p => hreply ▸ storeIdentity_fields s.cfg.endian b0 b1 b2 b3 p hname hdate1 hdate2)
    case chunk => exact exec_callChunk_answered hopen hwhole hretry hstage hxs hmid hfinal hfits hroom
    case pct =>
      have hexec := exec_callPct_answered hopen hwhole hretry hstage hxs hmid hnil harg
      subst hnil
      exact hexec
  case fails =>
    have read {i : Instr} (codec : Codec) (h1 : codec ≠ .rdChunk) (h2 : codec ≠ .wrPct)
        (hi : exec i s = runArm (armBody codec id) s) :=
      fun h => (armRead_passesOn hopen h1 h2 hi).fails (xs := xs) (x := x) (rest := rest) hsteady (Nat.zero_le _)
        hwhole h
    exact ⟨fun hcmd hlen hpay hmax h =>
        (transact_passesOn hopen hcmd hlen hpay hmax).fails hsteady (hrequest hpay) hwhole h,
      read .none nofun nofun rfl, read .rdF32 nofun nofun rfl, read .rdU32 nofun nofun rfl,
      read .rdU8 nofun nofun rfl, read .rdVer nofun nofun rfl, read .rdId nofun nofun rfl,
      fun h => (callChunk_passesOn hopen).fails hchunk (Nat.zero_le _) hwhole h,
      fun harg h => (callPct_passesOn hopen harg).fails hpct hbytes hwhole h⟩
  case cut =>
    intro cut
    have read {i : Instr} (codec : Codec) (h1 : codec ≠ .rdChunk) (h2 : codec ≠ .wrPct)
        (hi : exec i s = runArm (armBody codec id) s) : cut i (id.setWidth 16) s [] :=
      fun _ _ _ _ hxs hcounts hcut hscript =>
        (armRead_passesOn hopen h1 h2 hi).cut hsteady (Nat.zero_le _) hne hretry hxs hcounts hcut hscript
    refine ⟨fun cmd hcmd hlen hpay hmax whole counts script part hxs hcounts hcut hscript => ?cutTransact,
      fun i hi => ?cutRead, fun whole counts script part hxs hcounts hcut hscript => ?cutChunk,
      fun harg whole counts script part hxs hcounts hcut hscript => ?cutPct⟩
    case cutTransact =>
      exact (transact_passesOn hopen hcmd hlen hpay hmax).cut hsteady (hrequest hpay) hne hretry hxs hcounts hcut
        hscript
    case cutRead =>
      simp only [List.mem_cons, List.not_mem_nil, or_false] at hi
      rcases hi with rfl | rfl | rfl | rfl | rfl | rfl
      · exact read .none nofun nofun rfl
      · exact read .rdF32 nofun nofun rfl
      · exact read .rdU32 nofun nofun rfl
      · exact read .rdU8 nofun nofun rfl
      · exact read .rdVer nofun nofun rfl
      · exact read .rdId nofun nofun rfl
    case cutChunk => exact (callChunk_passesOn hopen).cut hchunk (Nat.zero_le _) hne hretry hxs hcounts hcut hscript
    case cutPct => exact (callPct_passesOn hopen harg).cut hpct hbytes hne hretry hxs hcounts hcut hscript

end Sys2Proof.Machine
end

section
/-! The dispatch of `CALL` (43_command_dispatch.md R241 to R247): the lookup, the mux, and an identifier without an
entry. -/

namespace Sys2Proof.Machine

/-! ## The lookup (43_command_dispatch.md R241) -/

theorem uniqueIds_iff_nodup (es : List Entry) : uniqueIds es = true ↔ (es.map Entry.id).Nodup := by
  induction es with
  | nil => simp [uniqueIds]
  | cons e es ih => simp [uniqueIds, ih, List.nodup_cons]

theorem lookup_wide {es : List Entry} {c : Half} (h : 0x100 ≤ c.toNat) : lookup es c = none := if_pos h

theorem lookup_narrow {es : List Entry} {c : Half} (h : c.toNat < 0x100) :
    lookup es c = es.find? fun e => e.id == c.setWidth 8 := if_neg (Nat.not_le.mpr h)

theorem lookup_some {es : List Entry} {c : Half} {e : Entry} (h : lookup es c = some e) :
    c.toNat < 0x100 ∧ e ∈ es ∧ e.id = c.setWidth 8 := by
  by_cases hc : c.toNat < 0x100
  · rw [lookup_narrow hc] at h
    exact ⟨hc, List.mem_of_find?_eq_some h, by simpa using List.find?_some h⟩
  · rw [lookup_wide (Nat.not_lt.mp hc)] at h
    cases h

theorem lookup_none {es : List Entry} {c : Half} (hc : c.toNat < 0x100) (h : lookup es c = none) :
    ∀ e ∈ es, e.id ≠ c.setWidth 8 := by
  rw [lookup_narrow hc, List.find?_eq_none] at h
  simpa using h

/-- Where no two entries share an identifier, the lookup finds the entry that has it. -/
theorem lookup_iff {es : List Entry} (hunique : uniqueIds es = true) (c : Half) (e : Entry) :
    lookup es c = some e ↔ c.toNat < 0x100 ∧ e ∈ es ∧ e.id = c.setWidth 8 := by
  refine ⟨lookup_some, fun ⟨hc, hmem, hid⟩ => ?_⟩
  cases hfound : lookup es c with
  | none => exact absurd hid (lookup_none hc hfound e hmem)
  | some d =>
    obtain ⟨_, hdmem, hdid⟩ := lookup_some hfound
    have hinj := List.inj_on_of_nodup_map ((uniqueIds_iff_nodup es).mp hunique)
    rw [hinj hdmem hmem (hdid.trans hid.symm)]

/-- The order of the entries has no effect. -/
theorem lookup_perm {es ds : List Entry} (hunique : uniqueIds es = true) (h : es.Perm ds) (c : Half) :
    lookup ds c = lookup es c := by
  have hunique' : uniqueIds ds = true :=
    (uniqueIds_iff_nodup ds).mpr ((h.map Entry.id).nodup_iff.mp ((uniqueIds_iff_nodup es).mp hunique))
  refine Option.ext fun e => ?_
  rw [lookup_iff hunique', lookup_iff hunique, h.mem_iff]

/-- A configured block has a registry whose identifiers differ, with both required entries
(43_command_dispatch.md R242, R243). -/
theorem Params.wf_registry {c : Params} (h : c.wf = true) :
    uniqueIds c.registry = true ∧ versionEntry ∈ c.registry ∧ shutdownEntry ∈ c.registry := by
  simp only [Params.wf, registryWf, Bool.and_eq_true, List.contains_iff_mem] at h
  obtain ⟨_, ⟨⟨hunique, _⟩, hversion⟩, hshutdown⟩ := h
  exact ⟨hunique, hversion, hshutdown⟩

/-! ## The parameters through a step (10_state.md R32) -/

theorem hostAccess_cfg {a : Access} {s t : State} (h : hostAccess a s = .next t) : t.cfg = s.cfg := by
  unfold hostAccess at h
  dsimp only at h
  split at h
  · cases h
  split at h
  · cases h
  split at h
  · cases h
  split at h
  · cases h
  split at h
  · split at h
    · cases h; rw [hostWrite_kept]
    · cases h
  · split at h
    · cases h; rfl
    · cases h

theorem happen_cfg {e : Event} {s t : State} (h : happen e s = .next t) : t.cfg = s.cfg := by
  cases e with
  | access a => exact hostAccess_cfg h
  | turn p => exact (takeTurn_done h).kept.cfg
  | begin p => exact (beginTurn_done h).kept.cfg
  | link rx tx => cases h; rfl
  | reset => cases h; rfl

theorem step_cfg {s t : State} (h : step s = .next t) : t.cfg = s.cfg := by
  unfold step at h
  split at h
  · cases h; rfl
  · next e rest _ => exact happen_cfg (s := { s with inputs := rest }) h

/-- Settles O44: the lookup finds what has the identifier, which is unique, and no step writes a parameter. -/
theorem lookupRule : Obligations.LookupRule :=
  ⟨fun _ _ => lookup_wide, fun _ _ hc => ⟨fun _ h => (lookup_some h).2, lookup_none hc⟩,
    fun _ _ c hunique h => lookup_perm hunique h c, fun _ _ h => by rw [step_cfg h]⟩

/-! ## The mux (43_command_dispatch.md R245 to R247) -/

/-- Settles O43: the lookup comes before the lock. -/
theorem noSuchCommand : Obligations.NoSuchCommand := by
  intro s cmd hcmd hnone
  show execCall s = _
  simp only [execCall, State.needCmd, need_some hcmd, hnone]
  rfl

theorem outcome_not_refused (x : Except Fault State) (r : Refusal) : outcome x ≠ .refused r := by
  cases x <;> exact nofun

theorem underLock_not_refused (body : Bool → State → Except Fault State) (s : State) (r : Refusal) :
    underLock body s ≠ .refused r := by
  unfold underLock
  split
  · exact nofun
  · exact outcome_not_refused _ r

/-- A `CALL` in a configured block is given a meaning (43_command_dispatch.md R242). -/
theorem execCall_not_refused {s : State} (hwf : s.cfg.wf = true) (r : Refusal) : execCall s ≠ .refused r := by
  unfold execCall
  split
  · exact nofun
  split
  · exact nofun
  · next e he =>
    obtain ⟨codec, hk⟩ := codecOf_lookup hwf he
    rw [hk]
    show execArm codec e.id s ≠ _
    rw [execArm_eq]
    exact underLock_not_refused _ s r

/-- Settles O42: each of the eight kinds is a codec's, whose arm the mux runs. -/
theorem callRunsArm : Obligations.CallRunsArm := by
  refine ⟨fun s cmd e hcmd he => ?_, fun s r hwf => execCall_not_refused hwf r⟩
  have runs (codec : Codec) (hk : e.kind = codecCode codec) : exec .call s = execArm codec e.id s :=
    execCall_arm hcmd he (by rw [hk]; cases codec <;> rfl)
  exact ⟨runs .none, runs .rdF32, runs .rdU32, runs .rdU8, runs .rdVer, runs .rdId, runs .rdChunk, runs .wrPct⟩

end Sys2Proof.Machine
end

section
/-! The codec arms with one exchange, whose reply is correct: one that fits its kind's shape, and one that is longer
than the bound (43_command_dispatch.md R248 to R258). -/

namespace Sys2Proof.Machine

theorem State.answeredAfter_zero (s : State) (id : Byte) (request reply : List Byte) (rest : List RxItem) :
    s.answeredAfter 0 id request reply rest = s.answered id request reply rest := by
  rw [State.answeredAfter, Nat.zero_add, List.replicate_one, List.flatten_singleton, State.answered]

/-! ## A reply that fits -/

section
variable {s : State} {id : Byte} {reply : List Byte} {rest : List RxItem}
  (hopen : s.lockOwner = noPort ∨ s.lockOwner = portByte s.turn) (hwhole : s.writesWhole)
  (hhears : s.hears (replyFrame s.cfg id 0x00#8 reply) rest)
include hopen hwhole hhears

theorem exec_callNone_empty (hnil : reply = []) :
    exec (.callNone id) s = .next ((s.answered id [] [] rest).endsExchange .ok 0x00 0 0 .success) := by
  subst hnil
  rw [← State.answeredAfter_zero]
  exact exec_callNone_answered (xs := []) hopen hwhole (Nat.zero_le _) (Nat.zero_le _) rfl hhears rfl

/-- An arm with a reply of a fixed size stores it in its own registers. -/
theorem armRead_good {codec : Codec} {store : List Byte → Port → Port} {stored : Port → Port}
    (hchunk : codec ≠ .rdChunk) (hpct : codec ≠ .wrPct) (hstage : reply.length ≤ s.cfg.stageMax)
    (hfits : reply.length = (codecRepSize s.cfg.chunkSize codec).toNat)
    (hdone : armDone codec s.cfg.endian = fixedRead reply.length store) (hstore : store reply = stored) :
    runArm (armBody codec id) s = .next (((s.answered id [] reply rest).modCur stored).endsExchange .ok 0x00
      (BitVec.ofNat 16 reply.length) 0 .success) := by
  rw [← State.answeredAfter_zero, ← hstore]
  exact armRead_answered (xs := []) hopen hwhole (Nat.zero_le _) hstage rfl hhears hchunk hpct hfits.le hdone

theorem exec_callVer_good (hstage : 8 ≤ s.cfg.stageMax) (hlen : reply.length = 8) :
    exec (.callVer id) s = .next (((s.answered id [] reply rest).modCur fun p =>
      { p with ver := Memory.write p.ver 0 reply }).endsExchange .ok 0x00 8 0 .success) := by
  have hexec := armRead_good (codec := .rdVer) (store := storeVersion) hopen hwhole hhears nofun nofun
    (by rwa [hlen]) hlen (by rw [hlen]; rfl) rfl
  rw [hlen] at hexec
  exact hexec

end

/-- Settles O36: the reply has the size of its kind, and the store is the kind's. -/
theorem scalarReads : Obligations.ScalarReads := by
  intro s id b0 b1 b2 b3 rest hopen hwhole hstage
  refine ⟨fun hhears => ⟨?float, ?word⟩, fun hhears => ?byte⟩
  case float => exact armRead_good (codec := .rdF32) hopen hwhole hhears nofun nofun hstage rfl rfl rfl
  case word => exact armRead_good (codec := .rdU32) hopen hwhole hhears nofun nofun hstage rfl rfl rfl
  case byte =>
    have hroom : 1 ≤ s.cfg.stageMax := by omega
    exact armRead_good (codec := .rdU8) hopen hwhole hhears nofun nofun hroom rfl rfl rfl

/-- Settles O37: as the scalar reads, with the fields of the identity block one after another. -/
theorem blockReads : Obligations.BlockReads := by
  intro s id payload rest hopen hwhole hstage hhears
  refine ⟨fun hlen => exec_callVer_good hopen hwhole hhears (by omega) hlen,
    fun name date1 date2 b0 b1 b2 b3 hname hdate1 hdate2 hpayload => ?_⟩
  have hlen : payload.length = 68 := by simp [hpayload, hname, hdate1, hdate2]
  have hexec := armRead_good (codec := .rdId) (store := storeIdentity s.cfg.endian) hopen hwhole hhears nofun nofun
    (by rwa [hlen]) hlen (by rw [hlen]; rfl)
    (funext fun p => hpayload ▸ storeIdentity_fields s.cfg.endian b0 b1 b2 b3 p hname hdate1 hdate2)
  rw [hlen] at hexec
  exact hexec

/-! ## A reply that is too long -/

section
variable {i : Instr} {s u : State} {id : Byte} {bound : Half} {sent reply : List Byte} {rest : List RxItem}

/-- A correct reply longer than the bound, as the failure of its receive (42_protocol_engine.md R195). -/
def tooLong (c : Params) (id : Byte) (reply : List Byte) : Failure :=
  ⟨.bufferTooSmall, 0xFF#8, BitVec.ofNat 16 reply.length, .localError, replyHeader c id 0x00#8 reply, reply, []⟩

theorem exchangeFails_tooLong (hstage : reply.length ≤ s.cfg.stageMax) (hsize : reply.length ≤ 65535)
    (hlong : bound.toNat < reply.length) (hhears : s.hears (replyFrame s.cfg id 0x00#8 reply) rest) :
    exchangeFails s (id.setWidth 16) bound s.rxs [] (tooLong s.cfg id reply) rest := by
  have hlen : (BitVec.ofNat 16 reply.length).toNat = reply.length := Nat.mod_eq_of_lt (by omega)
  refine ⟨s.rxs, rfl, .inr ⟨Nat.zero_le _, _, reply, _,
    ⟨replyHeader_length .., decRep_replyHeader .., hlen.symm, hstage, hhears⟩, rfl, .inr (.inr ⟨rfl, rfl, ?_, rfl⟩)⟩⟩
  rwa [BitVec.lt_def, hlen]

/-- Nothing of a reply that is too long is copied. -/
theorem passesOn.tooLong (hpass : passesOn i s u (id.setWidth 16) bound sent) (hu : Steady s u)
    (hsent : sent.length ≤ 65535) (hwhole : u.writesWhole) (hstage : reply.length ≤ u.cfg.stageMax)
    (hsize : reply.length ≤ 65535) (hlong : bound.toNat < reply.length)
    (hhears : u.hears (replyFrame u.cfg id 0x00#8 reply) rest) :
    exec i s = .next (u.answeredTooLong id sent reply rest) := by
  rw [hpass.fails hu hsent hwhole (exchangeFails_tooLong hstage hsize hlong hhears), State.answeredTooLong,
    State.fails, List.length_nil, Nat.zero_add, List.replicate_one, List.flatten_singleton, List.nil_append,
    List.foldl_cons, List.foldl_nil, State.failed_unlogged _ rfl]
  rfl

end

/-- Settles O35: the bound of an empty reply is 0, which every other reply exceeds. -/
theorem callNoneResult : Obligations.CallNoneResult := by
  intro s id reply rest hopen hwhole hhears hstage hsize
  refine ⟨exec_callNone_empty hopen hwhole hhears, fun hne => ?_⟩
  exact (armRead_passesOn (codec := .none) hopen nofun nofun rfl).tooLong (.refl s) (Nat.zero_le _) hwhole hstage hsize
    (List.length_pos_iff.mpr hne) hhears

/-- What a percentage write that does not hold leaves in `TXBUF`, whatever its result. -/
theorem exec_callPct_txbuf {s t : State} {id : Byte} {arg : Word}
    (hopen : s.lockOwner = noPort ∨ s.lockOwner = portByte s.turn) (harg : s.cur.arg = some arg)
    (h : exec (.callPct id) s = .next t) : t.cur.txbuf = Memory.write s.cur.txbuf 0 (pctPayload s.cfg arg) := by
  obtain ⟨took, x, hbody, rfl⟩ := runArm_next_open hopen h
  have hexch : requestExchange (id.setWidth 16) 0#16 (pctPayload s.cfg arg)
      (stagePct (pctPayload s.cfg arg) s.held) = .ok x := (armPct_eq (s := s.held) harg).symm.trans hbody
  rw [endExchange_cur]
  show x.1.cur.txbuf = _
  rw [(TxRuns.armExchange (id := id) hexch).txbuf, stagePct, State.cur_modCur]
  rfl

/-- Settles O39: the request is the converted `ARG`, and the bound of its reply is 0. -/
theorem percentWrite : Obligations.PercentWrite := by
  intro s id arg reply rest hopen harg bytes pct
  refine ⟨fun hwhole hhears => ?_, fun hwhole hhears hne hstage hsize => ?_,
    fun t h => exec_callPct_txbuf hopen harg h⟩
  · rw [← State.answeredAfter_zero]
    exact exec_callPct_answered (xs := []) hopen hwhole (Nat.zero_le _) (Nat.zero_le _) rfl hhears rfl harg
  · exact (callPct_passesOn hopen harg).tooLong ((Steady.refl s).modCur _) (by simp) hwhole hstage hsize
      (List.length_pos_iff.mpr hne) hhears

/-! ## The named commands (43_command_dispatch.md R243) -/

/-- Settles O45: every configured block has the entry of each command, and its identifier is no other entry's. -/
theorem namedCommands : Obligations.NamedCommands := by
  intro s payload rest hwf hopen hwhole hstage v d
  obtain ⟨hunique, hversion, hshutdown⟩ := Params.wf_registry hwf
  have calls {cmd : Half} {e : Entry} {codec : Codec} (hcmd : cmd.toNat < 0x100) (hmem : e ∈ s.cfg.registry)
      (hid : e.id = cmd.setWidth 8) (hk : codecOf e.kind = some codec) :
      callCommand cmd s = execArm codec e.id (s.modCur fun p => { p with cmd := some cmd }) :=
    execCall_arm (by rw [State.cur_modCur]) ((lookup_iff hunique cmd e).mpr ⟨hcmd, hmem, hid⟩) hk
  refine ⟨fun hlen hhears => ⟨?_, rfl⟩, fun hhears => ?_⟩
  · exact (calls (cmd := 0x42) (codec := .rdVer) (by decide) hversion rfl rfl).trans
      (exec_callVer_good (s := v) hopen hwhole hhears hstage hlen)
  · have hexec := (calls (cmd := 0x62) (codec := .none) (by decide) hshutdown rfl rfl).trans
      (exec_callNone_empty (s := d) hopen hwhole hhears rfl)
    exact ⟨hexec, hexec⟩

end Sys2Proof.Machine
end

section
/-! The reference percentage conversion (43_command_dispatch.md R259): its reference values, and its rounding to
nearest, ties to even. -/

namespace Sys2Proof.Machine

/-! ## Rounding to the nearest integer -/

/-- The rounded quotient is within half of the exact one, and even where it lies exactly half away. -/
theorem roundHalfEven_nearest (num : Nat) {den : Nat} (hden : 0 < den) :
    2 * (den * roundHalfEven num den) ≤ 2 * num + den ∧ 2 * num ≤ 2 * (den * roundHalfEven num den) + den
      ∧ (2 * (den * roundHalfEven num den) = 2 * num + den ∨ 2 * num = 2 * (den * roundHalfEven num den) + den →
        roundHalfEven num den % 2 = 0) := by
  have hdiv := Nat.div_add_mod num den
  have hmod := Nat.mod_lt num hden
  have hup : den * (num / den + 1) = den * (num / den) + den := Nat.mul_succ _ _
  unfold roundHalfEven
  dsimp only
  split
  · rw [hup]; omega
  split
  · omega
  · rcases Nat.mod_two_eq_zero_or_one (num / den) with heven | hodd
    · rw [heven, Nat.add_zero]; omega
    · rw [hodd, hup]; omega

/-- Rounding a quotient between two integers stays between them. -/
theorem roundHalfEven_between {num den lo hi : Nat} (hden : 0 < den) (hlo : den * lo ≤ num) (hhi : num < den * hi) :
    lo ≤ roundHalfEven num den ∧ roundHalfEven num den ≤ hi := by
  have hquot : lo ≤ num / den := (Nat.le_div_iff_mul_le hden).mpr (by rwa [Nat.mul_comm])
  have hquot' : num / den < hi := Nat.div_lt_of_lt_mul hhi
  unfold roundHalfEven
  dsimp only
  split
  · omega
  split
  · omega
  · omega

/-! ## The significand and the exponent -/

/-- The exponent of the quotient `a / 100`: the quotient lies in `[2^(e-7), 2^(e-6))`. -/
def pctExponent (a : Nat) : Nat := Nat.log2 (a * 128 / 100)

/-- The quotient's significand, rounded to 24 bits. -/
def pctSignificand (a : Nat) : Nat := roundHalfEven (a * 2 ^ 30) (100 * 2 ^ pctExponent a)

section
variable {a : Nat} (ha : a ≠ 0)
include ha

theorem pctExponent_bounds : 100 * 2 ^ pctExponent a ≤ a * 128 ∧ a * 128 < 200 * 2 ^ pctExponent a := by
  have hne : a * 128 / 100 ≠ 0 := by omega
  have hlow := Nat.log2_self_le hne
  have hhigh := Nat.lt_log2_self (n := a * 128 / 100)
  rw [Nat.pow_succ] at hhigh
  change 2 ^ pctExponent a ≤ _ at hlow
  change _ < 2 ^ pctExponent a * 2 at hhigh
  omega

theorem pctExponent_le (hbound : a ≤ 2 ^ 31) : pctExponent a ≤ 31 := by
  obtain ⟨hlow, _⟩ := pctExponent_bounds ha
  by_contra hbig
  have hpow : 2 ^ 32 ≤ 2 ^ pctExponent a := Nat.pow_le_pow_right (by decide) (by omega)
  omega

theorem pctSignificand_bounds : 2 ^ 23 ≤ pctSignificand a ∧ pctSignificand a ≤ 2 ^ 24 := by
  obtain ⟨hlow, hhigh⟩ := pctExponent_bounds ha
  exact roundHalfEven_between (by positivity) (by omega) (by omega)

end

/-- The bit pattern of the result, where the quotient is not 0. -/
def pctPattern (negative : Bool) (a : Nat) : Nat :=
  (if negative then 2 ^ 31 else 0) + (pctExponent a + 120) * 2 ^ 23 + (pctSignificand a - 2 ^ 23)

theorem natAbs_toInt_ne_zero {v : Word} (hv : v ≠ 0) : v.toInt.natAbs ≠ 0 := by
  rw [Int.natAbs_ne_zero]
  exact fun h => hv (BitVec.eq_of_toInt_eq (h.trans BitVec.toInt_zero.symm))

theorem natAbs_toInt_le (v : Word) : v.toInt.natAbs ≤ 2 ^ 31 := by
  have hlow := BitVec.le_toInt v
  have hhigh := BitVec.toInt_lt (x := v)
  omega

theorem pctReference_eq {v : Word} (hv : v ≠ 0) :
    pctReference v = BitVec.ofNat 32 (pctPattern v.msb v.toInt.natAbs) := by
  unfold pctReference
  dsimp only
  rw [if_neg (natAbs_toInt_ne_zero hv)]
  rfl

/-- The exponent and the significand that the fields of the pattern show: a carry out of the rounding falls into the
exponent. -/
def pctFields (a x m : Nat) : Prop :=
  (pctSignificand a < 2 ^ 24 ∧ x = pctExponent a + 120 ∧ m = pctSignificand a)
    ∨ (pctSignificand a = 2 ^ 24 ∧ x = pctExponent a + 121 ∧ m = 2 ^ 23)

section
variable {a : Nat} (ha : a ≠ 0)
include ha

theorem pctPattern_fields (negative : Bool) (hbound : a ≤ 2 ^ 31) :
    pctPattern negative a < 2 ^ 32 ∧ (2 ^ 31 ≤ pctPattern negative a ↔ negative = true)
      ∧ pctFields a (pctPattern negative a / 2 ^ 23 % 256) (2 ^ 23 + pctPattern negative a % 2 ^ 23) := by
  obtain ⟨hlow, hhigh⟩ := pctSignificand_bounds ha
  have hexp := pctExponent_le ha hbound
  unfold pctFields pctPattern
  cases negative
  · simp only [Bool.false_eq_true, if_false, iff_false]
    omega
  · simp only [if_true, iff_true]
    omega

/-- The value that the fields stand for is the one nearest to the quotient, both in units of `2^-32`. -/
theorem pctFields_nearest {x m : Nat} (h : pctFields a x m) :
    let result := 2 * (100 * m * 2 ^ (x - 120))
    let exact := 2 * (a * 2 ^ 30)
    let halfUnit := 100 * 2 ^ (x - 120)
    120 ≤ x ∧ result ≤ exact + halfUnit ∧ exact ≤ result + halfUnit
      ∧ (m = 2 ^ 23 → 2 * result ≤ 2 * exact + halfUnit)
      ∧ (result = exact + halfUnit ∨ exact = result + halfUnit → m % 2 = 0) := by
  obtain ⟨hlow, hhigh⟩ := pctExponent_bounds ha
  obtain ⟨habove, hbelow, htie⟩ := roundHalfEven_nearest (a * 2 ^ 30) (den := 100 * 2 ^ pctExponent a) (by positivity)
  change 2 * (_ * pctSignificand a) ≤ _ at habove
  change _ ≤ 2 * (_ * pctSignificand a) + _ at hbelow
  change _ → pctSignificand a % 2 = 0 at htie
  intro result exact halfUnit
  rcases h with ⟨_, rfl, rfl⟩ | ⟨hcarry, rfl, rfl⟩
  · have hhalf : halfUnit = 100 * 2 ^ pctExponent a := by simp only [halfUnit, Nat.add_sub_cancel]
    have hresult : result = 2 * (100 * 2 ^ pctExponent a * pctSignificand a) := by
      simp only [result, Nat.add_sub_cancel]
      ring
    rw [hhalf, hresult]
    refine ⟨Nat.le_add_left _ _, habove, hbelow, fun hm => ?_, htie⟩
    rw [hm]
    omega
  · have hpow : 2 ^ (pctExponent a + 121 - 120) = 2 * 2 ^ pctExponent a := by
      rw [show pctExponent a + 121 - 120 = pctExponent a + 1 by omega, Nat.pow_succ, Nat.mul_comm]
    rw [hcarry] at habove hbelow
    simp only [result, exact, halfUnit, hpow]
    omega

end

/-- Settles O40: the fields of the pattern are the rounded significand and its exponent. -/
theorem percentReference : Obligations.PercentReference := by
  refine ⟨by decide, fun v hv => ?_⟩
  intro f x m result exact halfUnit
  have ha := natAbs_toInt_ne_zero hv
  obtain ⟨hfits, hsign, hfields⟩ := pctPattern_fields ha v.msb (natAbs_toInt_le v)
  have hf : f.toNat = pctPattern v.msb v.toInt.natAbs := by
    rw [show f = _ from pctReference_eq hv, BitVec.toNat_ofNat, Nat.mod_eq_of_lt hfits]
  have hmsb : f.msb = v.msb := by
    rw [Bool.eq_iff_iff, BitVec.msb_eq_decide, decide_eq_true_iff, hf]
    exact hsign
  rw [← hf] at hfields
  exact ⟨hmsb, pctFields_nearest ha hfields⟩

end Sys2Proof.Machine
end

section
/-! Every codec arm completes, and a result that is not `OK` leaves the registers that only the arms write
(43_command_dispatch.md R245 to R258, R263). -/

namespace Sys2Proof.Machine

/-! ## An exchange copies into `RXBUF` and writes no other register -/

/-- No register of the issuing port but `RXBUF` was written. -/
def copiesOnly (s t : State) : Prop := { t.cur with rxbuf := [] } = { s.cur with rxbuf := [] }

theorem copiesOnly.of_cur {s t : State} (h : t.cur = s.cur) : copiesOnly s t := by rw [copiesOnly, h]

theorem copiesOnly.trans {s t u : State} (h : copiesOnly s t) (k : copiesOnly t u) : copiesOnly s u :=
  Eq.trans k h

theorem copiesOnly.read {α : Type} {s t : State} (h : copiesOnly s t) (f : Port → α)
    (hf : ∀ p : Port, f { p with rxbuf := [] } = f p) : f t.cur = f s.cur :=
  (hf t.cur).symm.trans ((congrArg f h).trans (hf s.cur))

theorem judgeReply_copies (cmd max : Half) (r : RepHeader) (header payload : List Byte) (s : State) :
    copiesOnly s (judgeReply cmd max r header payload s).1 := by
  unfold judgeReply deviceReply localReply
  dsimp only
  split
  · exact .of_cur rfl
  split
  · split <;> exact .of_cur rfl
  split
  · exact .of_cur rfl
  split
  · exact .of_cur rfl
  split
  · exact .of_cur rfl
  · rw [copiesOnly, State.setFsm_cur, State.cur_modCur]

theorem receiveCore_copies {cmd max : Half} {s : State} {x : State × Reply} (h : receiveCore cmd max s = .ok x) :
    copiesOnly s x.1 := by
  rcases receiveCore_cases h with ⟨_, _, _, _, rfl⟩ | ⟨_, _, _, _, _, _, _, ⟨_, _, _, _, rfl⟩ | ⟨_, _, _, _, rfl⟩⟩
  · exact .of_cur rfl
  · exact .of_cur rfl
  · exact copiesOnly.trans (.of_cur rfl) (judgeReply_copies _ _ _ _ _ _)

theorem resendCore_cur {s : State} {w : Bool × State} (h : resendCore s = .ok w) : w.2.cur = s.cur := by
  obtain ⟨header, _, h⟩ := bind_eq_ok.mp h
  obtain ⟨payload, _, h⟩ := bind_eq_ok.mp h
  cases h
  exact transmit_cur header payload s

theorem retryLoop_copies {cmd max : Half} (left n : Nat) {x : State × Reply} {y : State × Result}
    (h : retryLoop cmd max left n x = .ok y) : copiesOnly x.1 y.1 := by
  induction left generalizing n x with
  | zero => cases h; exact .of_cur rfl
  | succ left ih =>
    rw [retryLoop] at h
    split at h
    · obtain ⟨w, hw, h⟩ := bind_eq_ok.mp h
      have hresent : copiesOnly x.1 w.2 := .of_cur (resendCore_cur (s := x.1.setFsm .resending) hw)
      split at h
      · obtain ⟨z, hz, h⟩ := bind_eq_ok.mp h
        exact (hresent.trans (receiveCore_copies hz)).trans (ih (n + 1) h)
      · cases h; exact hresent
    · cases h; exact .of_cur rfl

theorem requestExchange_copies {cmd max : Half} {payload : List Byte} {s : State} {y : State × Result}
    (h : requestExchange cmd max payload s = .ok y) : copiesOnly s y.1 := by
  have hsent : copiesOnly s (sendCore cmd payload s).2 := .of_cur (sendCore_cur cmd payload s)
  unfold requestExchange at h
  dsimp only at h
  split at h
  · obtain ⟨x, hx, h⟩ := bind_eq_ok.mp h
    exact (hsent.trans (receiveCore_copies hx)).trans (retryLoop_copies _ _ h)
  · cases h; exact hsent

/-! ## Completion -/

section
variable {hwThresh : Byte} {x : State × Result}
  (hrx : x.2.kind = .ok → ∃ bs, Memory.read x.1.cur.rxbuf 0 x.2.len.toNat = some bs)
  (hfits : statusFits hwThresh x.2.kind x.2.status = true)
include hrx hfits

theorem fixedRead_completes (size : Nat) (store : List Byte → Port → Port) :
    ∃ y, fixedRead size store x = .ok y ∧ statusFits hwThresh y.2.kind y.2.status = true := by
  unfold fixedRead
  split
  · exact ⟨x, rfl, hfits⟩
  next hok =>
  split
  · exact ⟨_, rfl, statusFits_local _ .payloadShort (by decide)⟩
  next hlen =>
  obtain ⟨bs, hbs⟩ := hrx (not_not.mp hok)
  have hneed : x.1.needRx size = .ok (bs.take size) := need_some (Memory.read_take _ _ _ _ _ hbs (by omega))
  exact ⟨_, bind_eq_ok.mpr ⟨_, hneed, rfl⟩, rfl⟩

theorem armDone_completes (codec : Codec) (en : Endian) :
    ∃ y, armDone codec en x = .ok y ∧ statusFits hwThresh y.2.kind y.2.status = true := by
  cases codec
  case rdF32 => exact fixedRead_completes hrx hfits _ _
  case rdU32 => exact fixedRead_completes hrx hfits _ _
  case rdU8 => exact fixedRead_completes hrx hfits _ _
  case rdVer => exact fixedRead_completes hrx hfits _ _
  case rdId => exact fixedRead_completes hrx hfits _ _
  all_goals exact ⟨x, rfl, hfits⟩

/-- A chunk is accepted or ends the read, and what it leaves can accept another one. -/
theorem acceptChunk_completes (hacc : x.1.cur.accN.isSome = true) :
    ∃ u o, acceptChunk x = .ok (u, o) ∧ u.cur.accN.isSome = true
      ∧ ∀ r : Result, o = some r → statusFits hwThresh r.kind r.status = true := by
  obtain ⟨n, hn⟩ := Option.isSome_iff_exists.mp hacc
  unfold acceptChunk
  split
  · exact ⟨_, _, rfl, hacc, fun r hr => by cases hr; exact hfits⟩
  next hok =>
  obtain ⟨bs, hbs⟩ := hrx (not_not.mp hok)
  rw [State.needRx, need_some hbs, need_some hn]
  simp only [bind, Except.bind]
  split
  · exact ⟨_, _, rfl, hacc, fun r hr => by cases hr; exact statusFits_local _ .accOverflow (by decide)⟩
  split
  · exact ⟨_, _, rfl, by rw [State.cur_modCur]; rfl, fun r hr => by cases hr; rfl⟩
  · exact ⟨_, _, rfl, by rw [State.cur_modCur]; rfl, nofun⟩

end

theorem chunkLoop_completes (id : Byte) (fuel : Nat) {s : State} (hstage : 65535 ≤ s.cfg.stageMax)
    (hacc : s.cur.accN.isSome = true) :
    ∃ y, chunkLoop id fuel s = .ok y ∧ statusFits s.cfg.hwThresh y.2.kind y.2.status = true := by
  induction fuel generalizing s with
  | zero => exact ⟨_, rfl, statusFits_local _ .transportReadError (by decide)⟩
  | succ fuel ih =>
    obtain ⟨x, hx⟩ := armExchange_completes id [] (codecRepSize s.cfg.chunkSize .rdChunk) s (Nat.zero_le _) hstage
    have haccx : x.1.cur.accN.isSome = true := by rwa [(requestExchange_copies hx).read Port.accN fun _ => rfl]
    obtain ⟨u, o, hu, haccu, hfits⟩ := acceptChunk_completes (armExchange_rx hx) (armExchange_result hx) haccx
    have hcfg : u.cfg = s.cfg := (Runs.acceptChunk hu).cfg.trans (Runs.armExchange hx).cfg
    cases o with
    | some r => exact ⟨_, bind_eq_ok.mpr ⟨x, hx, bind_eq_ok.mpr ⟨_, hu, rfl⟩⟩, hfits r rfl⟩
    | none =>
      obtain ⟨y, hy, hfitsy⟩ := ih (hcfg ▸ hstage) haccu
      exact ⟨y, bind_eq_ok.mpr ⟨x, hx, bind_eq_ok.mpr ⟨_, hu, hy⟩⟩, hcfg ▸ hfitsy⟩

theorem armBody_completes (codec : Codec) (id : Byte) {s : State} (hstage : 65535 ≤ s.cfg.stageMax)
    (harg : codec = .wrPct → s.cur.arg.isSome = true) :
    ∃ y, armBody codec id s = .ok y ∧ statusFits s.cfg.hwThresh y.2.kind y.2.status = true := by
  by_cases hchunk : codec = .rdChunk
  · subst hchunk
    exact chunkLoop_completes id _ (s := clearAcc s) hstage (by rw [clearAcc, State.cur_modCur]; rfl)
  by_cases hpct : codec = .wrPct
  · subst hpct
    obtain ⟨arg, harg⟩ := Option.isSome_iff_exists.mp (harg rfl)
    rw [armPct_eq harg]
    obtain ⟨y, hy⟩ := armExchange_completes id (pctPayload s.cfg arg) 0#16 (stagePct (pctPayload s.cfg arg) s)
      (by simp) hstage
    exact ⟨y, hy, armExchange_result (s := stagePct _ s) hy⟩
  · rw [armBody_eq hchunk hpct]
    obtain ⟨x, hx⟩ := armExchange_completes id [] (codecRepSize s.cfg.chunkSize codec) s (Nat.zero_le _) hstage
    obtain ⟨y, hy, hfits⟩ := armDone_completes (armExchange_rx hx) (armExchange_result hx) codec s.cfg.endian
    exact ⟨y, bind_eq_ok.mpr ⟨x, hx, hy⟩, hfits⟩

/-- Settles O34: an exchange completes, and what an arm does after it can read what the exchange received. -/
theorem armsComplete : Obligations.ArmsComplete := by
  intro s id hopen hstage
  have arm (codec : Codec) (harg : codec = .wrPct → s.cur.arg.isSome = true) :
      completes s (runArm (armBody codec id) s) := by
    obtain ⟨x, hx, hfits⟩ := armBody_completes codec id (s := s.held) hstage harg
    exact runArm_completes hopen hx (Runs.armBody hx).turn hfits
  exact ⟨arm .none nofun, arm .rdF32 nofun, arm .rdU32 nofun, arm .rdU8 nofun, arm .rdVer nofun, arm .rdId nofun,
    arm .rdChunk nofun, fun harg => arm .wrPct fun _ => harg⟩

/-! ## The arms' own registers -/

theorem armRegistersKept_refl (p : Port) : armRegistersKept p p := ⟨rfl, rfl, rfl, rfl, rfl, rfl⟩

theorem armRegistersKept.trans {p q r : Port} (h : armRegistersKept p q) (k : armRegistersKept q r) :
    armRegistersKept p r := by
  obtain ⟨h1, h2, h3, h4, h5, h6⟩ := h
  obtain ⟨k1, k2, k3, k4, k5, k6⟩ := k
  exact ⟨k1.trans h1, k2.trans h2, k3.trans h3, k4.trans h4, k5.trans h5, k6.trans h6⟩

theorem copiesOnly.registers {s t : State} (h : copiesOnly s t) : armRegistersKept s.cur t.cur :=
  ⟨h.read Port.resVal fun _ => rfl, h.read Port.ver fun _ => rfl, h.read Port.idName fun _ => rfl,
    h.read Port.idType fun _ => rfl, h.read Port.idDate1 fun _ => rfl, h.read Port.idDate2 fun _ => rfl⟩

theorem fixedRead_failed {size : Nat} {store : List Byte → Port → Port} {x y : State × Result}
    (h : fixedRead size store x = .ok y) (hk : y.2.kind ≠ .ok) : y.1 = x.1 := by
  unfold fixedRead at h
  split at h
  · cases h; rfl
  split at h
  · cases h; rfl
  · obtain ⟨bytes, _, h⟩ := bind_eq_ok.mp h
    cases h
    exact absurd rfl hk

theorem armDone_registers {codec : Codec} {en : Endian} {x y : State × Result} (h : armDone codec en x = .ok y)
    (hk : y.2.kind ≠ .ok) : armRegistersKept x.1.cur y.1.cur := by
  have hsame : y.1 = x.1 := by
    cases codec
    case rdF32 => exact fixedRead_failed h hk
    case rdU32 => exact fixedRead_failed h hk
    case rdU8 => exact fixedRead_failed h hk
    case rdVer => exact fixedRead_failed h hk
    case rdId => exact fixedRead_failed h hk
    all_goals cases h; rfl
  rw [hsame]
  exact armRegistersKept_refl _

theorem acceptChunk_registers {x : State × Result} {y : State × Option Result} (h : acceptChunk x = .ok y) :
    armRegistersKept x.1.cur y.1.cur := by
  unfold acceptChunk at h
  split at h
  · cases h; exact armRegistersKept_refl _
  obtain ⟨bytes, _, h⟩ := bind_eq_ok.mp h
  obtain ⟨n, _, h⟩ := bind_eq_ok.mp h
  split at h
  · cases h; exact armRegistersKept_refl _
  dsimp only at h
  split at h
  · cases h; rw [State.cur_modCur]; exact armRegistersKept_refl _
  · cases h; rw [State.cur_modCur]; exact armRegistersKept_refl _

theorem chunkLoop_registers {id : Byte} (fuel : Nat) {s : State} {y : State × Result}
    (h : chunkLoop id fuel s = .ok y) : armRegistersKept s.cur y.1.cur := by
  induction fuel generalizing s with
  | zero => cases h; exact armRegistersKept_refl _
  | succ fuel ih =>
    obtain ⟨x, hx, h⟩ := bind_eq_ok.mp h
    obtain ⟨z, hz, h⟩ := bind_eq_ok.mp h
    have hround : armRegistersKept s.cur z.1.cur :=
      (requestExchange_copies hx).registers.trans (acceptChunk_registers hz)
    split at h
    · cases h; exact hround
    · exact hround.trans (ih h)

theorem armBody_registers {codec : Codec} {id : Byte} {s : State} {y : State × Result}
    (h : armBody codec id s = .ok y) (hk : y.2.kind ≠ .ok) : armRegistersKept s.cur y.1.cur := by
  by_cases hchunk : codec = .rdChunk
  · subst hchunk
    have hclear : armRegistersKept s.cur (clearAcc s).cur := by
      rw [clearAcc, State.cur_modCur]
      exact armRegistersKept_refl _
    exact hclear.trans (chunkLoop_registers _ h)
  by_cases hpct : codec = .wrPct
  · subst hpct
    obtain ⟨arg, _, h⟩ := bind_eq_ok.mp h
    have hstaged : armRegistersKept s.cur (stagePct (pctPayload s.cfg arg) s).cur := by
      rw [stagePct, State.cur_modCur]
      exact armRegistersKept_refl _
    exact hstaged.trans (requestExchange_copies h).registers
  · rw [armBody_eq hchunk hpct] at h
    obtain ⟨x, hx, h⟩ := bind_eq_ok.mp h
    exact (requestExchange_copies hx).registers.trans (armDone_registers h hk)

theorem execArm_registers {codec : Codec} {id : Byte} {s t : State} (h : execArm codec id s = .next t)
    (hk : t.cur.resKind ≠ some .ok) : armRegistersKept s.cur t.cur := by
  rw [execArm_eq] at h
  rcases runArm_next h with rfl | ⟨took, x, hbody, rfl⟩
  · exact armRegistersKept_refl _
  · rw [endExchange_cur] at hk ⊢
    exact armBody_registers (s := s.held) hbody fun hok => hk (congrArg some hok)

theorem execCall_registers {s t : State} (h : execCall s = .next t) (hk : t.cur.resKind ≠ some .ok) :
    armRegistersKept s.cur t.cur := by
  rcases execCall_next h with rfl | ⟨_, e, codec, _, _, _, harm⟩
  · rw [finish_cur]
    exact armRegistersKept_refl _
  · exact execArm_registers harm hk

end Sys2Proof.Machine
end

section
/-! The rounds of a chunked read: what the exchange of one chunk leaves, and the loop over the chunks that ask for
another one (43_command_dispatch.md R256, R257). -/

namespace Sys2Proof.Machine

/-! ## Writes over writes -/

theorem Memory.cells_append (a : Nat) (bs cs : List Byte) :
    Memory.cells a (bs ++ cs) = Memory.cells a bs ++ Memory.cells (a + bs.length) cs := by
  induction bs generalizing a with
  | nil => rfl
  | cons b bs ih =>
    rw [List.cons_append, Memory.cells, Memory.cells, ih, List.length_cons, Nat.add_assoc, Nat.add_comm 1]
    rfl

theorem Memory.cells_filter_below (bs : List Byte) {n : Nat} (h : bs.length ≤ n) :
    (Memory.cells 0 bs).filter (fun c => decide (c.1 < n)) = Memory.cells 0 bs :=
  List.filter_eq_self.mpr fun c hc => by
    have := Memory.cells_mem 0 bs c hc
    simp; omega

theorem Memory.cells_filter_above (bs : List Byte) {n : Nat} (h : bs.length ≤ n) :
    (Memory.cells 0 bs).filter (fun c => decide (n ≤ c.1)) = [] :=
  List.filter_eq_nil_iff.mpr fun c hc => by
    have := Memory.cells_mem 0 bs c hc
    simp; omega

theorem Memory.write_front (m : Memory) (bs : List Byte) :
    Memory.write m 0 bs = Memory.cells 0 bs ++ m.filter (fun c => decide (bs.length ≤ c.1)) := by
  simp [Memory.write]

/-- A write behind a first one is the write of both. -/
theorem Memory.write_append (m : Memory) (bs cs : List Byte) :
    Memory.write (Memory.write m 0 bs) bs.length cs = Memory.write m 0 (bs ++ cs) := by
  have hbelow : (m.filter fun c => decide (bs.length ≤ c.1)).filter (fun c => decide (c.1 < bs.length)) = [] := by
    rw [List.filter_filter, List.filter_eq_nil_iff]
    intro c _
    simp
  have habove : (m.filter fun c => decide (bs.length ≤ c.1)).filter (fun c => decide (bs.length + cs.length ≤ c.1))
      = m.filter (fun c => decide (bs.length + cs.length ≤ c.1)) := by
    rw [List.filter_filter]
    refine List.filter_congr fun c _ => ?_
    rw [← Bool.decide_and, decide_eq_decide]
    omega
  rw [Memory.write, Memory.write_front, Memory.write_front, List.filter_append, List.filter_append,
    Memory.cells_filter_below bs (Nat.le_refl _), Memory.cells_filter_above bs (Nat.le_add_right _ _), hbelow, habove,
    Memory.cells_append, List.length_append, List.append_nil, List.nil_append, Nat.zero_add]

/-- A write over a shorter one leaves nothing of it. -/
theorem Memory.write_over (m : Memory) {bs cs : List Byte} (h : bs.length ≤ cs.length) :
    Memory.write (Memory.write m 0 bs) 0 cs = Memory.write m 0 cs := by
  have habove : (m.filter fun c => decide (bs.length ≤ c.1)).filter (fun c => decide (cs.length ≤ c.1))
      = m.filter (fun c => decide (cs.length ≤ c.1)) := by
    rw [List.filter_filter]
    refine List.filter_congr fun c _ => ?_
    rw [← Bool.decide_and, decide_eq_decide]
    omega
  rw [Memory.write_front, Memory.write_front, Memory.write_front, List.filter_append,
    Memory.cells_filter_above bs h, habove, List.nil_append]

/-! ## A request that is cached already -/

theorem cacheRequest_twice (s : State) (header payload : List Byte) :
    cacheRequest header payload (cacheRequest header payload s) = cacheRequest header payload s := by
  simp only [cacheRequest, Memory.write_over _ (Nat.le_refl _)]

theorem State.caches_twice (s : State) (header payload : List Byte) :
    (s.caches header payload).caches header payload = s.caches header payload := by
  by_cases h : s.retry = 0#8
  · rw [State.caches_off h, State.caches_off h]
  · rw [State.caches_on h, State.caches_on (s := cacheRequest header payload s) h, cacheRequest_twice]

theorem transmit_caches (header payload header' payload' : List Byte) (s : State) :
    transmit header payload (s.caches header' payload')
      = ((transmit header payload s).1, (transmit header payload s).2.caches header' payload') := by
  by_cases h : s.retry = 0#8
  · rw [State.caches_off h, State.caches_off ((Runs.transmit header payload s).retry.trans h)]
  · rw [State.caches_on h, State.caches_on (by rwa [(Runs.transmit header payload s).retry])]
    unfold transmit
    dsimp only [chanWrite, cacheRequest_writeScript, cacheRequest_txs]
    split
    · rfl
    split <;> rfl

theorem State.caches_setFsm (s : State) (header payload : List Byte) (f : Fsm) :
    (s.setFsm f).caches header payload = (s.caches header payload).setFsm f := by
  by_cases h : s.retry = 0#8
  · rw [State.caches_off h, State.caches_off (s := s.setFsm f) h]
  · rw [State.caches_on h, State.caches_on (s := s.setFsm f) h]
    rfl

/-- A request that goes whole is cached then, so that it may as well have been cached before. -/
theorem requestExchange_caches {s : State} {cmd max : Half} {payload : List Byte} {n : Nat} {counts : List Nat}
    (hsize : payload.length ≤ 65535) (h : carriesFrames payload (n + 1) s.writeScript counts) :
    requestExchange cmd max payload (s.caches (requestHeader s.cfg cmd payload) payload)
      = requestExchange cmd max payload s := by
  have hcfg : (s.caches (requestHeader s.cfg cmd payload) payload).cfg = s.cfg := ((Steady.refl s).caches _ _).cfg
  obtain ⟨w, hsent⟩ : ∃ w, transmit (buildReq s.cfg cmd payload) payload (s.setFsm .sending) = (true, w) := by
    obtain ⟨_, _, hsent⟩ := transmit_carried (s := s.setFsm .sending) (buildReq_length s.cfg cmd payload) hsize h
    exact ⟨_, hsent⟩
  have hcached := transmit_caches (buildReq s.cfg cmd payload) payload (requestHeader s.cfg cmd payload) payload
    (s.setFsm .sending)
  rw [State.caches_setFsm, hsent] at hcached
  have hsend : sendCore cmd payload (s.caches (requestHeader s.cfg cmd payload) payload) = sendCore cmd payload s := by
    unfold sendCore
    dsimp only
    rw [hcfg, hcached, hsent, if_pos rfl, if_pos rfl]
    exact congrArg (Prod.mk true) (congrArg (State.setFsm · .awaitingReply) (State.caches_twice w _ _))
  unfold requestExchange
  rw [hsend]

end Sys2Proof.Machine
end

section
/-! The exchange of one chunk, and the loop over the chunks that ask for another one (43_command_dispatch.md R256). -/

namespace Sys2Proof.Machine

/-! ## The state after some rounds -/

/-- The channel has these write counts and these items left. -/
def State.awaits (s : State) (script : List Nat) (items : List RxItem) : State :=
  { s with writeScript := script, rxs := items }

/-- The accumulator of a port that has accepted chunks with these bytes (43_command_dispatch.md R256). -/
def storeChunks (bytes : List Byte) (p : Port) : Port :=
  { p with acc := Memory.write p.acc 0 bytes, accN := some (BitVec.ofNat 32 bytes.length) }

/-- One more chunk in the accumulator, behind `n` bytes. -/
def appendChunk (n : Nat) (chunk : List Byte) (p : Port) : Port :=
  { p with acc := Memory.write p.acc n chunk, accN := some (BitVec.ofNat 32 (n + chunk.length)) }

theorem appendChunk_storeChunks (bytes chunk : List Byte) :
    appendChunk bytes.length chunk ∘ storeChunks bytes = storeChunks (bytes ++ chunk) := by
  funext p
  simp only [Function.comp, appendChunk, storeChunks, Memory.write_append, List.length_append]

/-- The requests of a chunked read were answered with these rounds, and the accumulator has these bytes. -/
def State.gathers (s : State) (id : Byte) (rounds : List Round) (bytes : List Byte) : State :=
  (((rounds.foldl (fun u r => u.heard id r) s).sends
    (List.replicate (requestsOf rounds) (requestFrame s.cfg (id.setWidth 16) [])).flatten).caches
    (requestHeader s.cfg (id.setWidth 16) []) []).modCur (storeChunks bytes)

theorem State.accepts_eq_gathers (s : State) (id : Byte) (rounds : List Round) :
    s.accepts id rounds = s.gathers id rounds (chunksOf rounds) := rfl

theorem requestsOf_concat (rounds : List Round) (r : Round) :
    requestsOf (rounds ++ [r]) = requestsOf rounds + (r.failures.length + 1) := by
  simp [requestsOf]

theorem chunksOf_concat (rounds : List Round) (r : Round) : chunksOf (rounds ++ [r]) = chunksOf rounds ++ r.chunk := by
  simp [chunksOf]

section
variable {s t : State} (h : Steady s t)
include h

theorem Steady.heard (id : Byte) (r : Round) : Steady s (t.heard id r) :=
  (h.foldl_failed r.failures |>.stages _ _).receives _

theorem Steady.foldl_heard (id : Byte) (rounds : List Round) :
    Steady s (rounds.foldl (fun u r => u.heard id r) t) := by
  induction rounds generalizing t with
  | nil => exact h
  | cons r rounds ih => exact ih (h.heard id r)

theorem Steady.gathers (id : Byte) (rounds : List Round) (bytes : List Byte) :
    Steady s (t.gathers id rounds bytes) := ((h.foldl_heard id rounds).sends _ |>.caches _ _).modCur _

theorem Steady.awaits (script : List Nat) (items : List RxItem) : Steady s (t.awaits script items) :=
  ⟨h.cfg, h.turn, h.lockOwner, h.retry⟩

end

/-! ## A round and the other effects -/

theorem State.caches_modCur (s : State) (header payload : List Byte) (f : Port → Port) :
    (s.modCur f).caches header payload = (s.caches header payload).modCur f := by
  by_cases h : s.retry = 0#8
  · rw [State.caches_off h, State.caches_off (s := s.modCur f) h]
  · rw [State.caches_on h, State.caches_on (s := s.modCur f) h]
    rfl

theorem State.caches_awaits (s : State) (header payload : List Byte) (script : List Nat) (items : List RxItem) :
    (s.awaits script items).caches header payload = (s.caches header payload).awaits script items := by
  by_cases h : s.retry = 0#8
  · rw [State.caches_off h, State.caches_off (s := s.awaits script items) h]
  · rw [State.caches_on h, State.caches_on (s := s.awaits script items) h]
    rfl

theorem State.caches_stages (s : State) (header payload header' payload' : List Byte) :
    (s.stages header' payload').caches header payload = (s.caches header payload).stages header' payload' := by
  by_cases h : s.retry = 0#8
  · rw [State.caches_off h, State.caches_off (s := s.stages header' payload') h]
  · rw [State.caches_on h, State.caches_on (s := s.stages header' payload') h]
    rfl

section
variable (s : State) (id : Byte) (r : Round)

theorem State.heard_sends (bytes : List Byte) : (s.sends bytes).heard id r = (s.heard id r).sends bytes := by
  rw [State.heard, State.foldl_failed_sends]
  rfl

theorem State.heard_awaits (script : List Nat) (items : List RxItem) :
    (s.awaits script items).heard id r = (s.heard id r).awaits script items := by
  rw [State.heard, State.foldl_failed, State.heard, State.foldl_failed]
  rfl

theorem State.heard_caches (header payload : List Byte) :
    (s.caches header payload).heard id r = (s.heard id r).caches header payload := by
  have hcfg : (s.caches header payload).cfg = s.cfg := ((Steady.refl s).caches _ _).cfg
  rw [State.heard, State.foldl_failed_caches, hcfg, ← State.caches_stages, State.receives, ← State.caches_modCur]
  rfl

theorem State.heard_storeChunks (bytes : List Byte) :
    (s.modCur (storeChunks bytes)).heard id r = (s.heard id r).modCur (storeChunks bytes) := by
  rw [State.heard, State.foldl_failed_modCur, State.heard, State.receives, State.receives, State.modCur_modCur]
  exact State.modCur_modCur ((r.failures.foldl State.failed s).stages _ _) _ _

end

/-! ## The exchange of one chunk -/

/-- A round's requests were sent and answered. -/
def State.exchanged (s : State) (id : Byte) (r : Round) : State :=
  ((s.heard id r).sends
    (List.replicate (r.failures.length + 1) (requestFrame s.cfg (id.setWidth 16) [])).flatten).caches
    (requestHeader s.cfg (id.setWidth 16) []) []

theorem State.requests_retries (s : State) (cmd : Half) (xs : List Failure) (script' script : List Nat)
    (rest : List RxItem) :
    (({ s with writeScript := script' } : State).requests cmd []).retries xs (requestFrame s.cfg cmd []) script rest
      = (((xs.foldl State.failed s).sends (List.replicate (xs.length + 1) (requestFrame s.cfg cmd [])).flatten).caches
          (requestHeader s.cfg cmd []) []).awaits script rest := by
  rw [State.retries, State.requests_failed, State.foldl_failed_caches, List.replicate_succ, List.flatten_cons,
    ← State.caches_sends]
  rfl

theorem State.exchanged_eq (s : State) (id : Byte) (r : Round) :
    s.exchanged id r
      = ((((r.failures.foldl State.failed s).sends
          (List.replicate (r.failures.length + 1) (requestFrame s.cfg (id.setWidth 16) [])).flatten).caches
          (requestHeader s.cfg (id.setWidth 16) []) []).stages (replyHeader s.cfg id 0x00#8 r.chunk)
          r.chunk).receives r.chunk := by
  rw [State.exchanged, State.heard, ← State.caches_stages, State.receives, State.receives, ← State.caches_modCur]
  rfl

/-- The request of a chunk, its resends, and the reply that is accepted (43_command_dispatch.md R256). -/
theorem requestExchange_round {u : State} {id : Byte} {r : Round} {max : Half} {mid rest : List RxItem}
    {script : List Nat} (hretry : r.failures.length ≤ u.retry.toNat) (hmax : r.chunk.length ≤ max.toNat)
    (hstage : r.chunk.length ≤ u.cfg.stageMax) (hxs : retried u.cfg (id.setWidth 16) u.rxs r.failures mid)
    (hmid : mid = (replyFrame u.cfg id 0x00#8 r.chunk).map RxItem.byte ++ rest)
    (hscript : carriesFrames [] (r.failures.length + 1) u.writeScript script) :
    requestExchange (id.setWidth 16) max [] u
      = .ok (((u.exchanged id r).awaits script rest).setFsm .success, accepted r.chunk r.failures.length) := by
  obtain ⟨script', hscript', hexch⟩ :=
    requestExchange_carried (cmd := id.setWidth 16) (max := max) (sent := []) (Nat.zero_le _) hscript
  have hretries := u.requests_retries (id.setWidth 16) r.failures script' script rest
  obtain ⟨v, hv⟩ : ∃ v : State, { u with writeScript := script' } = v := ⟨_, rfl⟩
  rw [hv] at hexch hretries
  have hcfg : v.cfg = u.cfg := hv ▸ rfl
  have hretry' : r.failures.length ≤ v.retry.toNat := hv ▸ hretry
  have hxs' : retried v.cfg (id.setWidth 16) v.rxs r.failures mid := hv ▸ hxs
  rw [hexch, exchangeCore_good (s := v.requests (id.setWidth 16) [])
    (header := requestHeader v.cfg (id.setWidth 16) []) (payload := []) (script := script) (rest := rest)
    (by simpa using hretry') (by simpa using hxs') (v.requests_cached (id.setWidth 16) [] hretry' (Nat.zero_le _))
    (by rw [State.requests_writeScript, ← hv]; exact hscript') hmax (by rw [State.requests_cfg, hcfg]; exact hstage)
    (by rw [State.requests_cfg, hcfg]; exact hmid), ← requestFrame, hcfg, hretries, State.requests_cfg, hcfg,
    State.exchanged_eq]
  rfl

/-! ## One more round -/

section
variable (s : State) (id : Byte) (rounds : List Round) (bytes : List Byte) (r : Round)

theorem State.gathers_exchanged : (s.gathers id rounds bytes).exchanged id r = s.gathers id (rounds ++ [r]) bytes := by
  have hcfg : (s.gathers id rounds bytes).cfg = s.cfg := ((Steady.refl s).gathers id rounds bytes).cfg
  rw [State.exchanged, hcfg, State.gathers, State.heard_storeChunks, State.heard_caches, State.heard_sends]
  show (State.modCur (State.sends (State.caches _ _ _) _) _).caches _ _ = _
  rw [State.caches_modCur, State.caches_sends, State.caches_twice, State.sends_sends, ← List.flatten_append,
    List.replicate_append_replicate, ← requestsOf_concat, State.gathers, List.foldl_concat]

theorem State.exchanged_awaits (script : List Nat) (items : List RxItem) :
    (s.awaits script items).exchanged id r = (s.exchanged id r).awaits script items := by
  rw [State.exchanged, State.heard_awaits]
  exact State.caches_awaits ((s.heard id r).sends _) _ _ script items

theorem State.gathers_accN : (s.gathers id rounds bytes).cur.accN = some (BitVec.ofNat 32 bytes.length) := by
  rw [State.gathers, State.cur_modCur]
  rfl

/-- The last chunk that was received is at the front of `RXBUF`. -/
theorem State.gathers_rx :
    Memory.read (s.gathers id (rounds ++ [r]) bytes).cur.rxbuf 0 r.chunk.length = some r.chunk := by
  rw [← State.gathers_exchanged, State.exchanged_eq, State.receives, State.cur_modCur]
  exact Memory.read_write_same _ 0 r.chunk

theorem State.gathers_appendChunk :
    (s.gathers id rounds bytes).modCur (appendChunk bytes.length r.chunk) = s.gathers id rounds (bytes ++ r.chunk) := by
  rw [State.gathers, State.modCur_modCur, appendChunk_storeChunks, State.gathers]

theorem State.gathers_nil :
    s.gathers id [] [] = (clearAcc s).caches (requestHeader s.cfg (id.setWidth 16) []) [] := by
  have hclear : storeChunks [] = fun p => { p with accN := some 0#32 } := by
    funext p
    rw [storeChunks, Memory.write_nil]
    rfl
  have hsends : s.sends [] = s := by rw [State.sends, List.append_nil]
  rw [clearAcc, State.caches_modCur, State.gathers, hclear]
  exact congrArg (fun u => State.modCur (State.caches u _ _) _) hsends

theorem State.during_heard (f : Fsm) : (s.during f).heard id r = (s.heard id r).during f := by
  rw [State.heard, State.foldl_failed, State.heard, State.foldl_failed]
  rfl

theorem State.during_gathers (f : Fsm) :
    (s.during f).gathers id rounds bytes = (s.gathers id rounds bytes).during f := by
  have hrounds : ∀ u : State, rounds.foldl (fun u r => u.heard id r) (u.during f)
      = (rounds.foldl (fun u r => u.heard id r) u).during f := by
    induction rounds with
    | nil => exact fun _ => rfl
    | cons r rounds ih =>
      intro u
      rw [List.foldl_cons, State.during_heard]
      exact ih _
  rw [State.gathers, hrounds, State.during_sends, State.during_cfg, State.during_caches, State.during_modCur,
    State.gathers]

end

/-! ## Accepting a chunk -/

section
variable {u : State} {bytes : List Byte} {k n : Nat} (hsize : bytes.length < 65536)
  (hrx : Memory.read u.cur.rxbuf 0 bytes.length = some bytes) (hacc : u.cur.accN = some (BitVec.ofNat 32 k))
  (hk : k < 2 ^ 32)
include hsize hrx hacc hk

/-- The check on a chunk and what follows it, with its operands read. -/
theorem acceptChunk_eq :
    acceptChunk (u, accepted bytes n)
      = if u.cfg.accMax < k + bytes.length then
          .ok (u, some ⟨.accOverflow, localStatus, BitVec.ofNat 16 bytes.length, BitVec.ofNat 8 n⟩)
        else if chunkFinal u.cfg bytes then
          .ok (u.modCur (appendChunk k bytes), some (accepted bytes n))
        else .ok (u.modCur (appendChunk k bytes), none) := by
  have hlen : (BitVec.ofNat 16 bytes.length).toNat = bytes.length := Nat.mod_eq_of_lt hsize
  have hcount : (BitVec.ofNat 32 k).toNat = k := Nat.mod_eq_of_lt hk
  have hneed : u.needRx bytes.length = .ok bytes := need_some hrx
  unfold acceptChunk accepted
  dsimp only
  rw [if_neg (not_not.mpr rfl), hlen, hneed, need_some hacc]
  simp only [bind, Except.bind, hcount]
  rfl

end

/-! ## The loop -/

theorem carriesFrames.add {payload : List Byte} {m n : Nat} {counts rest : List Nat}
    (h : carriesFrames payload (m + n) counts rest) :
    ∃ mid, carriesFrames payload m counts mid ∧ carriesFrames payload n mid rest := by
  rcases h with ⟨rfl, rfl⟩ | ⟨whole, ⟨hlen, hall⟩, rfl⟩
  · exact ⟨[], .inl ⟨rfl, rfl⟩, .inl ⟨rfl, rfl⟩⟩
  rw [Nat.add_mul] at hlen
  refine ⟨whole.drop (m * frameWrites payload) ++ rest,
    .inr ⟨whole.take (m * frameWrites payload), ⟨?_, fun c hc => hall c (List.mem_of_mem_take hc)⟩, ?_⟩,
    .inr ⟨whole.drop (m * frameWrites payload), ⟨?_, fun c hc => hall c (List.mem_of_mem_drop hc)⟩, rfl⟩⟩
  · rw [List.length_take]; omega
  · rw [← List.append_assoc, List.take_append_drop]
  · rw [List.length_drop]; omega

theorem stops_shorter {after rest : List RxItem} (h : stops after rest) : rest.length ≤ after.length := by
  rcases h with rfl | ⟨rfl, rfl⟩
  · exact Nat.le_succ _
  · exact Nat.le_refl _

theorem receiveRetriable_shorter {c : Params} {cmd : Half} {items rest : List RxItem} {x : Failure}
    (h : receiveRetriable c cmd items rest x) : rest.length ≤ items.length := by
  rcases h with ⟨bytes, after, _, rfl, hstops, _⟩ | ⟨header, bytes, r, after, _, _, _, _, rfl, hstops, _⟩
    | ⟨header, payload, r, ⟨_, _, _, _, rfl⟩, _⟩
  · have hafter := stops_shorter hstops
    simp only [List.length_append]
    omega
  · have hafter := stops_shorter hstops
    simp only [List.length_append]
    omega
  · simp only [List.length_append]
    omega

theorem retried_shorter {c : Params} {cmd : Half} {items rest : List RxItem} {xs : List Failure}
    (h : retried c cmd items xs rest) : rest.length ≤ items.length := by
  induction xs generalizing items with
  | nil => exact (show items = rest from h) ▸ Nat.le_refl _
  | cons x xs ih =>
    obtain ⟨mid, hx, hxs⟩ := h
    exact (ih hxs).trans (receiveRetriable_shorter hx)

/-- Every round takes a byte at least from the channel. -/
theorem chunksHeard_length {c : Params} {id : Byte} {items rest : List RxItem} {rounds : List Round}
    (h : chunksHeard c id items rounds rest) : rounds.length + rest.length ≤ items.length := by
  induction rounds generalizing items with
  | nil => exact (show items = rest from h) ▸ (Nat.zero_add _).le
  | cons r rounds ih =>
    obtain ⟨mid, next, hxs, rfl, hmore⟩ := h
    have hnext := ih hmore
    have hmid := retried_shorter hxs
    simp only [List.length_append, List.length_map, replyFrame, replyHeader_length] at hmid
    rw [List.length_cons]
    omega

section
variable {s : State} {id : Byte} {script script' : List Nat} {items next : List RxItem}

section
variable {rounds : List Round} {bytes : List Byte} {r : Round} (hok : roundOk s r)
  (hheard : chunksHeard s.cfg id items [r] next)
  (hscript : carriesFrames [] (r.failures.length + 1) script script')
include hok hheard hscript

theorem readCore_round :
    readCore .rdChunk id ((s.gathers id rounds bytes).awaits script items)
      = .ok (((s.gathers id (rounds ++ [r]) bytes).awaits script' next).setFsm .success,
        accepted r.chunk r.failures.length) := by
  obtain ⟨hretry, hmax, hstage⟩ := hok
  obtain ⟨mid, after, hxs, hmid, hafter⟩ := hheard
  rw [show after = next from hafter] at hmid
  obtain ⟨u, hu⟩ : ∃ u, (s.gathers id rounds bytes).awaits script items = u := ⟨_, rfl⟩
  have hsteady : Steady s u := hu ▸ ((Steady.refl s).gathers id rounds bytes).awaits script items
  have hround := requestExchange_round (u := u) (id := id) (max := s.cfg.chunkSize) (script := script')
    (by rwa [hsteady.retry]) hmax (by rwa [hsteady.cfg]) (by rw [hsteady.cfg, ← hu]; exact hxs)
    (by rw [hsteady.cfg]; exact hmid) (by rw [← hu]; exact hscript)
  have hexchanged : (u.exchanged id r).awaits script' next
      = (s.gathers id (rounds ++ [r]) bytes).awaits script' next := by
    rw [← hu, State.exchanged_awaits, State.gathers_exchanged]
    rfl
  rw [hexchanged] at hround
  rw [hu]
  show requestExchange _ (codecRepSize u.cfg.chunkSize .rdChunk) _ _ = _
  rw [hsteady.cfg]
  exact hround

variable (hacc : s.cfg.accMax < 2 ^ 32) (hbytes : bytes.length ≤ s.cfg.accMax)
include hacc hbytes

/-- A round of the loop: the chunk overflows the accumulator, or is the last one, or asks for another one. -/
theorem chunkLoop_round (fuel : Nat) :
    chunkLoop id (fuel + 1) ((s.gathers id rounds bytes).awaits script items)
      = if s.cfg.accMax < bytes.length + r.chunk.length then
          .ok (((s.gathers id (rounds ++ [r]) bytes).awaits script' next).setFsm .success,
            ⟨.accOverflow, localStatus, BitVec.ofNat 16 r.chunk.length, BitVec.ofNat 8 r.failures.length⟩)
        else if chunkFinal s.cfg r.chunk then
          .ok (((s.gathers id (rounds ++ [r]) (bytes ++ r.chunk)).awaits script' next).setFsm .success,
            accepted r.chunk r.failures.length)
        else
          chunkLoop id fuel (((s.gathers id (rounds ++ [r]) (bytes ++ r.chunk)).awaits script' next).setFsm
            .success) := by
  have hread := readCore_round (rounds := rounds) (bytes := bytes) hok hheard hscript
  obtain ⟨_, hmax, _⟩ := hok
  have hsize : r.chunk.length < 65536 := by
    have := s.cfg.chunkSize.isLt
    omega
  obtain ⟨u, hu⟩ : ∃ u, ((s.gathers id (rounds ++ [r]) bytes).awaits script' next).setFsm .success = u := ⟨_, rfl⟩
  have hcfg : u.cfg = s.cfg := hu ▸ ((Steady.refl s).gathers id (rounds ++ [r]) bytes).cfg
  have haccept := acceptChunk_eq (u := u) (k := bytes.length) (n := r.failures.length) hsize
    (hu ▸ s.gathers_rx id rounds bytes r) (hu ▸ s.gathers_accN id (rounds ++ [r]) bytes) (by omega)
  have happend : u.modCur (appendChunk bytes.length r.chunk)
      = ((s.gathers id (rounds ++ [r]) (bytes ++ r.chunk)).awaits script' next).setFsm .success := by
    rw [← hu, ← State.gathers_appendChunk]
    rfl
  rw [happend, hcfg] at haccept
  rw [chunkLoop, hread, hu]
  show (acceptChunk (u, accepted r.chunk r.failures.length) >>= _) = _
  by_cases hover : s.cfg.accMax < bytes.length + r.chunk.length
  · rw [if_pos hover] at haccept
    rw [if_pos hover, haccept]
    rfl
  rw [if_neg hover] at haccept
  rw [if_neg hover]
  by_cases hfinal : chunkFinal s.cfg r.chunk = true
  · rw [if_pos hfinal] at haccept
    rw [if_pos hfinal, haccept]
    rfl
  · rw [if_neg hfinal] at haccept
    rw [if_neg hfinal, haccept]
    rfl

end

/-- The state of the exchange state machine is no part of what the loop reads. -/
theorem chunkLoop_setFsm (fuel : Nat) (u : State) (f : Fsm) :
    chunkLoop id (fuel + 1) (u.setFsm f) = chunkLoop id (fuel + 1) u := rfl

theorem chunkLoop_held (fuel : Nat) {rounds : List Round} {bytes : List Byte} :
    chunkLoop id (fuel + 1) ((s.gathers id rounds bytes).awaits script items).held
      = chunkLoop id (fuel + 1) ((s.held.gathers id rounds bytes).awaits script items) := by
  rw [s.held_eq_during, State.during_gathers]
  rfl

/-- The rounds that ask for another one, and the loop after them. -/
theorem chunkLoop_rounds {done todo : List Round} (fuel : Nat)
    (hok : ∀ r ∈ todo, roundOk s r ∧ chunkFinal s.cfg r.chunk = false) (hacc : s.cfg.accMax < 2 ^ 32)
    (hroom : (chunksOf (done ++ todo)).length ≤ s.cfg.accMax) (hheard : chunksHeard s.cfg id items todo next)
    (hscript : carriesFrames [] (requestsOf todo) script script') :
    chunkLoop id (todo.length + (fuel + 1)) ((s.gathers id done (chunksOf done)).awaits script items)
      = chunkLoop id (fuel + 1)
          ((s.gathers id (done ++ todo) (chunksOf (done ++ todo))).awaits script' next) := by
  induction todo generalizing done script items with
  | nil =>
    rw [← hscript.zero, ← show items = next from hheard, List.append_nil, List.length_nil, Nat.zero_add]
  | cons r todo ih =>
    obtain ⟨hr, hmore⟩ := hok r List.mem_cons_self
    obtain ⟨mid, after, hxs, hmid, hheard⟩ := hheard
    obtain ⟨script'', hfirst, hrest⟩ := hscript.add (m := r.failures.length + 1) (n := requestsOf todo)
    have hsplit : done ++ r :: todo = done ++ [r] ++ todo := by simp
    have hchunks := chunksOf_concat done r
    rw [hsplit] at hroom ⊢
    have hfits : (chunksOf done).length + r.chunk.length ≤ s.cfg.accMax := by
      have : (chunksOf (done ++ [r] ++ todo)) = chunksOf (done ++ [r]) ++ chunksOf todo := by simp [chunksOf]
      rw [this, hchunks, List.length_append, List.length_append] at hroom
      omega
    rw [List.length_cons, Nat.add_right_comm, chunkLoop_round hr ⟨mid, after, hxs, hmid, rfl⟩ hfirst hacc (by omega),
      if_neg (Nat.not_lt.mpr hfits), if_neg (by rw [hmore]; exact Bool.false_ne_true), ← hchunks, ← Nat.add_assoc,
      chunkLoop_setFsm]
    exact ih (fun x hx => hok x (List.mem_cons_of_mem r hx)) hroom hheard hrest

end

/-- A chunked read whose first request goes whole has its loop behind the rounds that ask for another one. -/
theorem armChunk_rounds {s : State} {id : Byte} {rounds : List Round} {rest : List RxItem} {n : Nat}
    {script counts : List Nat} (hfirst : carriesFrames [] (n + 1) s.writeScript counts)
    (hok : ∀ r ∈ rounds, roundOk s r ∧ chunkFinal s.cfg r.chunk = false) (hacc : s.cfg.accMax < 2 ^ 32)
    (hroom : (chunksOf rounds).length ≤ s.cfg.accMax) (hheard : chunksHeard s.cfg id s.rxs rounds rest)
    (hscript : carriesFrames [] (requestsOf rounds) s.writeScript script) :
    ∃ fuel, armBody .rdChunk id s.held
      = chunkLoop id (fuel + 1) ((s.gathers id rounds (chunksOf rounds)).awaits script rest).held := by
  have hlen := chunksHeard_length hheard
  obtain ⟨fuel, hfuel⟩ : ∃ fuel, s.rxs.length + 1 = rounds.length + (fuel + 1) :=
    ⟨s.rxs.length - rounds.length, by omega⟩
  have hloop := chunkLoop_rounds (s := s.held) (done := []) fuel hok hacc hroom hheard hscript
  have hstart : chunkLoop id (s.rxs.length + 1) (clearAcc s.held)
      = chunkLoop id (s.rxs.length + 1) (s.held.gathers id [] []) := by
    have hcached : readCore .rdChunk id (s.held.gathers id [] []) = readCore .rdChunk id (clearAcc s.held) := by
      have hcfg : (s.held.gathers id [] []).cfg = s.cfg := ((Steady.refl s.held).gathers id [] []).cfg
      show requestExchange _ (codecRepSize _ _) _ _ = requestExchange _ (codecRepSize s.cfg.chunkSize _) _ _
      rw [hcfg, State.gathers_nil]
      exact requestExchange_caches (s := clearAcc s.held) (Nat.zero_le _) hfirst
    rw [chunkLoop, chunkLoop, hcached]
  refine ⟨fuel, hstart.trans ?_⟩
  have hself : s.held.gathers id [] [] = (s.held.gathers id [] []).awaits s.writeScript s.rxs := by
    rw [State.gathers_nil, ← State.caches_awaits]
    rfl
  rw [hfuel, hself]
  exact hloop.trans (chunkLoop_held fuel).symm

end Sys2Proof.Machine
end

section
/-! How a chunked read ends: with a final chunk, with an accumulator that overflows, with a receive that is not `OK`,
or with a write that is cut short; and a request of any arm that is cut short (43_command_dispatch.md R248, R256,
R258). -/

namespace Sys2Proof.Machine

/-! ## A request that is cut short -/

theorem requestExchange_ownCut {s : State} {cmd max : Half} {sent part : List Byte} {script : List Nat}
    (hcut : cutWrite (requestHeader s.cfg cmd sent) sent part s.writeScript script) :
    requestExchange cmd max sent s.held
      = .ok ((({ s with writeScript := script } : State).sends part).during .localError, writeFailed 0) := by
  have hsent := transmit_cut (s := s.held.setFsm .sending) (requestHeader_length s.cfg cmd sent) hcut
  unfold requestExchange sendCore
  dsimp only
  rw [show buildReq s.held.cfg cmd sent = requestHeader s.cfg cmd sent from rfl, hsent]
  rfl

/-- An operation whose own request is cut short ends with `TransportWriteError`. -/
theorem passesOn.ownCut {i : Instr} {s u : State} {cmd bound : Half} {sent part : List Byte} {script : List Nat}
    (hpass : passesOn i s u cmd bound sent) (hu : Steady s u)
    (hcut : cutWrite (requestHeader u.cfg cmd sent) sent part u.writeScript script) :
    exec i s = .next (u.resendCut 0 0 (requestFrame u.cfg cmd sent) part u.rxs script) :=
  hpass _ _ (writeFailed 0) ((hu.setScript script).sends part) nofun (requestExchange_ownCut hcut)

/-! ## The rounds before the end -/

theorem chunksHeard_append {c : Params} {id : Byte} {items rest : List RxItem} {front back : List Round} :
    chunksHeard c id items (front ++ back) rest
      ↔ ∃ mid, chunksHeard c id items front mid ∧ chunksHeard c id mid back rest := by
  induction front generalizing items with
  | nil =>
    constructor
    · intro h
      exact ⟨items, rfl, h⟩
    · rintro ⟨_, rfl, h⟩
      exact h
  | cons r front ih =>
    constructor
    · rintro ⟨mid, next, hxs, hmid, hmore⟩
      obtain ⟨last, hfront, hback⟩ := ih.mp hmore
      exact ⟨last, ⟨mid, next, hxs, hmid, hfront⟩, hback⟩
    · rintro ⟨last, ⟨mid, next, hxs, hmid, hfront⟩, hback⟩
      exact ⟨mid, next, hxs, hmid, ih.mpr ⟨last, hfront, hback⟩⟩

section
variable (s : State) (id : Byte) (rounds : List Round) (bytes : List Byte)

@[simp] theorem State.gathers_writeScript : (s.gathers id rounds bytes).writeScript = s.writeScript := by
  have hrounds : ∀ u : State, (rounds.foldl (fun u r => u.heard id r) u).writeScript = u.writeScript := by
    induction rounds with
    | nil => exact fun _ => rfl
    | cons r rounds ih =>
      intro u
      rw [List.foldl_cons, ih, State.heard, State.foldl_failed]
      rfl
  exact (State.caches_writeScript _ _ _).trans (hrounds s)

theorem State.gathers_left (items : List RxItem) :
    (s.gathers id rounds bytes).awaits s.writeScript items = (s.gathers id rounds bytes).left items := by
  rw [State.awaits, ← s.gathers_writeScript id rounds bytes]
  rfl

theorem State.gathers_caches :
    (s.gathers id rounds bytes).caches (requestHeader s.cfg (id.setWidth 16) []) [] = s.gathers id rounds bytes := by
  rw [State.gathers, State.caches_modCur, State.caches_twice]

end

theorem requestsOf_pos {rounds : List Round} (h : rounds ≠ []) : 0 < requestsOf rounds := by
  obtain ⟨r, more, rfl⟩ := List.exists_cons_of_ne_nil h
  simp [requestsOf]

theorem requestFrame_nil (c : Params) (cmd : Half) : requestFrame c cmd [] = requestHeader c cmd [] :=
  List.append_nil _

section
variable {s : State} {id : Byte} {rounds : List Round} {mid rest : List RxItem}
  (hopen : s.lockOwner = noPort ∨ s.lockOwner = portByte s.turn) (hwf : s.cfg.wf = true)
  (hok : ∀ r ∈ rounds, roundOk s r ∧ chunkFinal s.cfg r.chunk = false)
  (hroom : (chunksOf rounds).length ≤ s.cfg.accMax) (hheard : chunksHeard s.cfg id s.rxs rounds mid)
include hopen hwf hok hroom hheard

/-- A chunked read ends as its loop does after the rounds that ask for another one. -/
theorem exec_callChunk_rounds {t : State} {f : Fsm} {res : Result} {n : Nat} {script counts : List Nat}
    (ht : Steady s t) (hfirst : carriesFrames [] (n + 1) s.writeScript counts)
    (hscript : carriesFrames [] (requestsOf rounds) s.writeScript script)
    (hend : ∀ fuel, chunkLoop id (fuel + 1) ((s.gathers id rounds (chunksOf rounds)).awaits script mid).held
      = .ok (t.during f, res)) :
    exec (.callChunk id) s = .next (t.endsExchange res.kind res.status res.len res.resends f) := by
  have hacc := Params.wf_accMax hwf
  obtain ⟨fuel, harm⟩ := armChunk_rounds hfirst hok (by omega) hroom hheard hscript
  exact runArm_of (arm := armBody .rdChunk id) hopen ht (harm.trans (hend fuel))

section
variable (hwhole : s.writesWhole)
include hwhole

/-- The last chunk that was received ends the read, as a final one or because it overflows the accumulator. -/
theorem exec_callChunk_last {r : Round} {bytes : List Byte} {res : Result}
    (hend : ∀ fuel, chunkLoop id (fuel + 1) ((s.held.gathers id rounds (chunksOf rounds)).awaits s.writeScript mid)
      = .ok (((s.held.gathers id (rounds ++ [r]) bytes).awaits s.writeScript rest).setFsm .success, res)) :
    exec (.callChunk id) s = .next (((s.gathers id (rounds ++ [r]) bytes).left rest).endsExchange res.kind res.status
      res.len res.resends .success) := by
  have hcarried (n : Nat) : carriesFrames [] n s.writeScript s.writeScript := .inl ⟨hwhole, hwhole⟩
  refine exec_callChunk_rounds (n := 0) hopen hwf hok hroom hheard (((Steady.refl s).gathers ..).left rest)
    (hcarried 1) (hcarried _) fun fuel => ?_
  rw [chunkLoop_held, hend, ← State.gathers_left, s.held_eq_during, State.during_gathers]
  rfl

section
variable {r : Round} (hr : roundOk s r) (hlast : chunksHeard s.cfg id mid [r] rest)
include hr hlast

theorem exec_callChunk_final (hfits : (chunksOf rounds).length + r.chunk.length ≤ s.cfg.accMax)
    (hfinal : chunkFinal s.cfg r.chunk = true) :
    exec (.callChunk id) s = .next (((s.accepts id (rounds ++ [r])).left rest).endsExchange .ok 0x00
      (BitVec.ofNat 16 r.chunk.length) (BitVec.ofNat 8 r.failures.length) .success) := by
  have hacc := Params.wf_accMax hwf
  rw [State.accepts_eq_gathers, chunksOf_concat]
  refine exec_callChunk_last (res := accepted r.chunk r.failures.length) hopen hwf hok hroom hheard hwhole
    fun fuel => ?_
  rw [chunkLoop_round (s := s.held) hr hlast (.inl ⟨hwhole, hwhole⟩) (show s.cfg.accMax < 2 ^ 32 by omega) hroom]
  exact (if_neg (Nat.not_lt.mpr hfits)).trans (if_pos hfinal)

theorem exec_callChunk_overflow (hover : s.cfg.accMax < (chunksOf rounds).length + r.chunk.length) :
    exec (.callChunk id) s = .next (((s.gathers id (rounds ++ [r]) (chunksOf rounds)).left rest).endsExchange
      .accOverflow 0xFF (BitVec.ofNat 16 r.chunk.length) (BitVec.ofNat 8 r.failures.length) .success) := by
  have hacc := Params.wf_accMax hwf
  refine exec_callChunk_last
    (res := ⟨.accOverflow, localStatus, BitVec.ofNat 16 r.chunk.length, BitVec.ofNat 8 r.failures.length⟩)
    hopen hwf hok hroom hheard hwhole fun fuel => ?_
  rw [chunkLoop_round (s := s.held) hr hlast (.inl ⟨hwhole, hwhole⟩) (show s.cfg.accMax < 2 ^ 32 by omega) hroom]
  exact if_pos hover

end

end

/-- The end of a chunked read whose next exchange is not `OK`. -/
theorem exec_callChunk_failed {t : State} {f : Fsm} {res : Result} {n : Nat} {script counts : List Nat}
    (ht : Steady s t) (hfirst : carriesFrames [] (n + 1) s.writeScript counts)
    (hscript : carriesFrames [] (requestsOf rounds) s.writeScript script) (hk : res.kind ≠ .ok)
    (hexch : requestExchange (id.setWidth 16) s.cfg.chunkSize []
      ((s.gathers id rounds (chunksOf rounds)).awaits script mid).held = .ok (t.during f, res)) :
    exec (.callChunk id) s = .next (t.endsExchange res.kind res.status res.len res.resends f) := by
  refine exec_callChunk_rounds hopen hwf hok hroom hheard ht hfirst hscript fun fuel => ?_
  obtain ⟨u, hu⟩ : ∃ u, ((s.gathers id rounds (chunksOf rounds)).awaits script mid).held = u := ⟨_, rfl⟩
  have hcfg : u.cfg = s.cfg := hu ▸ ((Steady.refl s).gathers id rounds (chunksOf rounds)).cfg
  rw [hu] at hexch ⊢
  have hread : readCore .rdChunk id u = .ok (t.during f, res) := by
    show requestExchange _ (codecRepSize u.cfg.chunkSize .rdChunk) _ _ = _
    rw [hcfg]
    exact hexch
  exact bind_eq_ok.mpr ⟨_, hread, bind_eq_ok.mpr ⟨_, if_pos hk, rfl⟩⟩

theorem exec_callChunk_fails {xs : List Failure} {x : Failure} (hwhole : s.writesWhole)
    (h : exchangeFails s (id.setWidth 16) s.cfg.chunkSize mid xs x rest) :
    exec (.callChunk id) s = .next (((s.accepts id rounds).sends (List.replicate (xs.length + 1)
      (requestHeader s.cfg (id.setWidth 16) [])).flatten).fails xs x rest) := by
  have hcarried (n : Nat) : carriesFrames [] n s.writeScript s.writeScript := .inl ⟨hwhole, hwhole⟩
  obtain ⟨v, hv⟩ : ∃ v, (s.gathers id rounds (chunksOf rounds)).awaits s.writeScript mid = v := ⟨_, rfl⟩
  have hsteady : Steady s v := hv ▸ ((Steady.refl s).gathers id rounds (chunksOf rounds)).awaits s.writeScript mid
  have hcached : v.caches (requestHeader s.cfg (id.setWidth 16) []) [] = v := by
    rw [← hv, State.caches_awaits, State.gathers_caches]
  have hexch := requestExchange_fails (s := v) (sent := []) (max := s.cfg.chunkSize) (Nat.zero_le _)
    (show v.writeScript = [] from hv ▸ hwhole) (x := x) (xs := xs) (rest := rest) (cmd := id.setWidth 16) (by
      rw [exchangeFails, hsteady.cfg, hsteady.retry, hsteady.turn, ← hv]
      exact h)
  rw [hsteady.cfg, ← State.caches_sends, hcached, requestFrame_nil] at hexch
  refine exec_callChunk_failed (t := ((xs ++ [x]).foldl State.failed ((s.accepts id rounds).sends _)).left rest)
    (n := 0) (res := x.reply.result xs.length) hopen hwf hok hroom hheard
    (((Steady.refl s).gathers id rounds _).sends _ |>.foldl_failed _ |>.left rest) (hcarried 1) (hcarried _)
    (exchangeFails_kind h) ?_
  rw [hv, hexch, ← hv, State.gathers_left, State.foldl_failed, State.foldl_failed]
  rfl

theorem exec_callChunk_cut {xs : List Failure} {whole script : List Nat} {k : Nat} (hne : rounds ≠ [] ∨ xs ≠ [])
    (hretry : xs.length ≤ s.retry.toNat) (hxs : retried s.cfg (id.setWidth 16) mid xs rest)
    (hcounts : wholeCounts (requestsOf rounds + xs.length) whole) (hk : k < 8)
    (hscript : s.writeScript = whole ++ k :: script) :
    exec (.callChunk id) s = .next ((xs.foldl State.failed (s.accepts id rounds)).resendCut xs.length xs.length
      (requestHeader s.cfg (id.setWidth 16) []) ((requestHeader s.cfg (id.setWidth 16) []).take k) rest script) := by
  have hcarried : carriesFrames [] (requestsOf rounds + xs.length) s.writeScript (k :: script) :=
    .inr ⟨whole, by rwa [show frameWrites [] = 1 from rfl, Nat.mul_one], hscript⟩
  obtain ⟨counts, hrounds, hresends⟩ := hcarried.add
  obtain ⟨n, hn⟩ : ∃ n, requestsOf rounds + xs.length = n + 1 := by
    refine Nat.exists_eq_succ_of_ne_zero ?_
    rcases hne with hne | hne
    · have := requestsOf_pos hne
      omega
    · have := List.length_pos_iff.mpr hne
      omega
  refine exec_callChunk_failed (t := ({ xs.foldl State.failed (s.accepts id rounds) with
      writeScript := script }.sends ((List.replicate xs.length (requestHeader s.cfg (id.setWidth 16) [])).flatten
      ++ (requestHeader s.cfg (id.setWidth 16) []).take k)).left rest)
    (f := .localError) (res := writeFailed xs.length) hopen hwf hok hroom hheard
    (((Steady.refl s).gathers id rounds _).foldl_failed xs |>.setScript script |>.sends _ |>.left rest)
    (hn ▸ hcarried) hrounds nofun ?_
  obtain ⟨v, hv⟩ : ∃ v, (s.gathers id rounds (chunksOf rounds)).awaits counts mid = v := ⟨_, rfl⟩
  have hsteady : Steady s v := hv ▸ ((Steady.refl s).gathers id rounds (chunksOf rounds)).awaits counts mid
  by_cases hnil : xs = []
  · subst hnil
    have hexch := requestExchange_ownCut (s := v) (cmd := id.setWidth 16) (max := s.cfg.chunkSize) (sent := [])
      (part := (requestHeader s.cfg (id.setWidth 16) []).take k) (script := script)
      (.inl ⟨k, hk, by rw [← hv]; exact hresends.zero, by rw [hsteady.cfg]⟩)
    rw [hv, hexch, ← hv, show mid = rest from hxs]
    rfl
  · obtain ⟨_, hempty⟩ | ⟨front, hfront, hcounts⟩ := hresends
    · cases hempty
    have hcached : v.caches (requestHeader s.cfg (id.setWidth 16) []) [] = v := by
      rw [← hv, State.caches_awaits, State.gathers_caches]
    have hexch := requestExchange_cut (s := v) (cmd := id.setWidth 16) (max := s.cfg.chunkSize) (sent := [])
      (Nat.zero_le _) hnil (by rwa [hsteady.retry]) (by rw [hsteady.cfg, ← hv]; exact hxs) hfront
      (.inl ⟨k, hk, rfl, rfl⟩) (by rw [← hv]; exact hcounts)
    rw [hsteady.cfg, hcached, requestFrame_nil] at hexch
    rw [hv, hexch, ← hv, State.foldl_failed, State.foldl_failed]
    rfl

end

end Sys2Proof.Machine
end

section
/-! Chunks that come at once, each with the first receive of its request: what such a chunked read changes, and that
nothing else does (43_command_dispatch.md R256, R263). -/

namespace Sys2Proof.Machine

/-! ## Writes to the front of a memory, one after another -/

def Memory.writes (m : Memory) (bss : List (List Byte)) : Memory := bss.foldl (fun m bs => Memory.write m 0 bs) m

theorem Memory.writes_concat (m : Memory) (bss : List (List Byte)) (bs : List Byte) :
    Memory.writes m (bss ++ [bs]) = Memory.write (Memory.writes m bss) 0 bs := List.foldl_concat ..

theorem Memory.get_writes_out (m : Memory) {bss : List (List Byte)} {a : Nat} (h : ∀ bs ∈ bss, bs.length ≤ a) :
    Memory.get (Memory.writes m bss) a = Memory.get m a := by
  induction bss generalizing m with
  | nil => rfl
  | cons bs bss ih =>
    have hbs := h bs List.mem_cons_self
    exact (ih (Memory.write m 0 bs) fun cs hcs => h cs (List.mem_cons_of_mem bs hcs)).trans
      (Memory.get_write_out m 0 bs a (.inr (by omega)))

theorem Memory.writes_over (m : Memory) {bss : List (List Byte)} {last : List Byte}
    (h : ∀ bs ∈ bss, bs.length ≤ last.length) : Memory.writes m (bss ++ [last]) = Memory.write m 0 last := by
  induction bss generalizing m with
  | nil => rfl
  | cons bs bss ih =>
    exact (ih (Memory.write m 0 bs) fun cs hcs => h cs (List.mem_cons_of_mem bs hcs)).trans
      (Memory.write_over m (h bs List.mem_cons_self))

/-! ## Rounds without a resend -/

/-- The rounds of chunks that need no resend. -/
def atOnce (chunks : List (List Byte)) : List Round := chunks.map (Round.mk [])

theorem atOnce_concat (chunks : List (List Byte)) (last : List Byte) :
    atOnce (chunks ++ [last]) = atOnce chunks ++ [⟨[], last⟩] := List.map_append

theorem chunksOf_atOnce (chunks : List (List Byte)) : chunksOf (atOnce chunks) = chunks.flatten := by
  simp [chunksOf, atOnce, Function.comp_def]

theorem requestsOf_atOnce (chunks : List (List Byte)) : requestsOf (atOnce chunks) = chunks.length := by
  simp [requestsOf, atOnce, Function.comp_def]

theorem chunksHeard_atOnce {c : Params} {id : Byte} {chunks : List (List Byte)} {items rest : List RxItem}
    (h : items = (chunks.flatMap (replyFrame c id 0x00#8)).map RxItem.byte ++ rest) :
    chunksHeard c id items (atOnce chunks) rest := by
  induction chunks generalizing items with
  | nil => exact h
  | cons chunk chunks ih =>
    refine ⟨items, _, rfl, ?_, ih rfl⟩
    rw [h, List.flatMap_cons, List.map_append, List.append_assoc]

theorem roundOk_atOnce {s : State} {chunks : List (List Byte)}
    (h : ∀ c ∈ chunks, c.length ≤ s.cfg.chunkSize.toNat ∧ c.length ≤ s.cfg.stageMax) :
    ∀ r ∈ atOnce chunks, roundOk s r := by
  intro r hr
  obtain ⟨c, hc, rfl⟩ := List.mem_map.mp hr
  exact ⟨Nat.zero_le _, h c hc⟩

theorem chunkFinal_atOnce {c : Params} {chunks : List (List Byte)} (h : ∀ x ∈ chunks, chunkFinal c x = false) :
    ∀ r ∈ atOnce chunks, chunkFinal c r.chunk = false := by
  intro r hr
  obtain ⟨x, hx, rfl⟩ := List.mem_map.mp hr
  exact h x hx

/-! ## What these rounds leave -/

section
variable (s : State) (id : Byte)

/-- What the receives of these chunks leave in the staging. -/
def State.stagesAll (chunks : List (List Byte)) : State :=
  { s with
    stageHdr := Memory.writes s.stageHdr (chunks.map (replyHeader s.cfg id 0x00#8))
    stage := Memory.writes s.stage chunks }

/-- What the receives of these chunks copy. -/
def receiveAll (chunks : List (List Byte)) (p : Port) : Port := { p with rxbuf := Memory.writes p.rxbuf chunks }

theorem State.foldl_heard_atOnce (chunks : List (List Byte)) :
    (atOnce chunks).foldl (fun u r => u.heard id r) s = (s.stagesAll id chunks).modCur (receiveAll chunks) := by
  induction chunks generalizing s with
  | nil => exact (State.modPort_id s s.turn).symm
  | cons chunk chunks ih =>
    refine (ih (s.heard id ⟨[], chunk⟩)).trans ?_
    exact State.modCur_modCur (s.stagesAll id (chunk :: chunks)) (receiveAll [chunk]) (receiveAll chunks)

theorem replyHeader_writes_concat (m : Memory) (c : Params) (front : List (List Byte)) (last : List Byte) :
    Memory.writes m ((front ++ [last]).map (replyHeader c id 0x00#8))
      = Memory.write m 0 (replyHeader c id 0x00#8 last) := by
  rw [List.map_append]
  refine Memory.writes_over m fun header hheader => ?_
  obtain ⟨chunk, _, rfl⟩ := List.mem_map.mp hheader
  rw [replyHeader_length, replyHeader_length]

end

/-- An operation leaves the block with this outcome. -/
def State.releases (s : State) (f : Fsm) : State :=
  { s with
    active := noPort
    fsm := if s.lockOwner = portByte s.turn then f else .idle }

/-- What the end of an operation with an exchange writes to its port. -/
def endPort (kind : Kind) (status : Byte) (len : Half) (resends : Byte) (p : Port) : Port :=
  { p with
    resKind := some kind, resStatus := some status, resLen := some len, resResends := some resends, busy := false }

theorem State.endsExchange_eq (s : State) (kind : Kind) (status : Byte) (len : Half) (resends : Byte) (f : Fsm) :
    s.endsExchange kind status len resends f = (s.releases f).modCur (endPort kind status len resends) := by
  rw [State.endsExchange, State.ends, State.modCur_modCur]
  rfl

section
variable (s : State) (id : Byte) (front accepted : List (List Byte)) (last : List Byte) (kind : Kind) (status : Byte)
  (rest : List RxItem)

/-- The state in which a chunked read with these chunks ends. -/
def State.chunksEnd : State :=
  ((s.gathers id (atOnce (front ++ [last])) accepted.flatten).left rest).endsExchange kind status
    (BitVec.ofNat 16 last.length) 0x00#8 .success

/-- What it changes outside the registers of its port. -/
def State.chunksShared : State :=
  let u := s.caches (requestHeader s.cfg (id.setWidth 16) []) []
  { s with
    txs := s.txs ++ (List.replicate (front ++ [last]).length (requestFrame s.cfg (id.setWidth 16) [])).flatten
    rxs := rest
    rcValid := u.rcValid, rcHdr := u.rcHdr, rcLen := u.rcLen, rcPay := u.rcPay
    stageHdr := Memory.write s.stageHdr 0 (replyHeader s.cfg id 0x00#8 last)
    stage := Memory.writes s.stage (front ++ [last]) }

/-- What it changes in the registers of its port. -/
def chunksPort (p : Port) : Port :=
  endPort kind status (BitVec.ofNat 16 last.length) 0x00#8
    (storeChunks accepted.flatten (receiveAll (front ++ [last]) p))

theorem State.gathers_atOnce :
    (s.gathers id (atOnce (front ++ [last])) accepted.flatten).left rest
      = (s.chunksShared id front last rest).modCur (storeChunks accepted.flatten ∘ receiveAll (front ++ [last])) := by
  have hshared : (((s.stagesAll id (front ++ [last])).sends (List.replicate (front ++ [last]).length
      (requestFrame s.cfg (id.setWidth 16) [])).flatten).caches (requestHeader s.cfg (id.setWidth 16) []) []).left rest
      = s.chunksShared id front last rest := by
    rw [State.stagesAll, replyHeader_writes_concat, State.chunksShared]
    by_cases h : s.retry = 0#8
    · rw [State.caches_off h, State.caches_off (by exact h)]
      rfl
    · rw [State.caches_on h, State.caches_on (by exact h)]
      rfl
  rw [State.gathers, State.foldl_heard_atOnce, requestsOf_atOnce, ← hshared, ← State.modCur_modCur]
  exact congrArg (fun u => (u.modCur (storeChunks accepted.flatten)).left rest)
    (State.caches_modCur ((s.stagesAll id (front ++ [last])).sends _) _ _ (receiveAll (front ++ [last])))

theorem State.chunksEnd_eq :
    s.chunksEnd id front accepted last kind status rest
      = ((s.chunksShared id front last rest).releases .success).modCur
          (chunksPort front accepted last kind status) := by
  rw [State.chunksEnd, State.gathers_atOnce, State.endsExchange_eq]
  exact State.modCur_modCur ((s.chunksShared id front last rest).releases .success) _ _

theorem chunksEnd_read :
    chunksRead s (s.chunksEnd id front accepted last kind status rest) id (front ++ [last]) accepted last kind status
      rest := by
  rw [State.chunksEnd_eq]
  have hcur : (((s.chunksShared id front last rest).releases .success).modCur
      (chunksPort front accepted last kind status)).cur = chunksPort front accepted last kind status s.cur :=
    State.cur_modCur _ _
  refine ⟨rfl, fun q hq => State.port_modCur_of_ne _ _ _ hq, ?_, ?_, ?_, ?_, ?_⟩
  · rw [hcur]; rfl
  · rw [hcur]; exact Memory.read_write_same _ 0 _
  · rw [hcur, chunksPort, endPort, storeChunks, receiveAll, Memory.writes_concat]
    exact Memory.read_write_same _ 0 _
  · intro a ha
    rw [hcur]
    exact Memory.get_write_out _ _ _ _ (.inr (by omega))
  · intro a ha
    rw [hcur]
    exact ⟨Memory.get_writes_out _ ha, Memory.get_writes_out _ ha⟩
end

/-! ## The chunked read that is `OK` (43_command_dispatch.md R256) -/

theorem exec_callChunk_accepts {s : State} {id : Byte} {rounds : List Round} {final : Round} {rest : List RxItem}
    (hopen : s.lockOwner = noPort ∨ s.lockOwner = portByte s.turn) (hwhole : s.writesWhole) (hwf : s.cfg.wf = true)
    (hmore : ∀ r ∈ rounds, chunkFinal s.cfg r.chunk = false) (hfinal : chunkFinal s.cfg final.chunk = true)
    (hok : ∀ r ∈ rounds ++ [final], roundOk s r) (hroom : (chunksOf (rounds ++ [final])).length ≤ s.cfg.accMax)
    (hheard : chunksHeard s.cfg id s.rxs (rounds ++ [final]) rest) :
    exec (.callChunk id) s = .next (((s.accepts id (rounds ++ [final])).left rest).endsExchange .ok 0x00
      (BitVec.ofNat 16 final.chunk.length) (BitVec.ofNat 8 final.failures.length) .success) := by
  obtain ⟨mid, hrounds, hlast⟩ := chunksHeard_append.mp hheard
  rw [chunksOf_concat, List.length_append] at hroom
  exact exec_callChunk_final hopen hwf
    (fun r hr => ⟨hok r (List.mem_append_left _ hr), hmore r hr⟩) (by omega) hrounds hwhole
    (hok final (by simp)) hlast hroom hfinal

/-- Settles O38: chunks that come at once are rounds without a resend. -/
theorem chunkedRead : Obligations.ChunkedRead := by
  refine ⟨fun s id chunks last rest hopen hwhole hwf hmore hfinal hsizes hroom hhears => ?_,
    fun s id rounds final rest => exec_callChunk_accepts⟩
  have hexec := exec_callChunk_accepts (rounds := atOnce chunks) (final := ⟨[], last⟩) hopen hwhole hwf
    (chunkFinal_atOnce hmore) hfinal (atOnce_concat chunks last ▸ roundOk_atOnce hsizes)
    (by rwa [← atOnce_concat, chunksOf_atOnce]) (atOnce_concat chunks last ▸ chunksHeard_atOnce hhears)
  rw [← atOnce_concat, State.accepts_eq_gathers, chunksOf_atOnce] at hexec
  exact ⟨_, hexec, chunksEnd_read s id chunks (chunks ++ [last]) last .ok 0x00 rest⟩

end Sys2Proof.Machine
end

section
/-! The codec arms when the result is not `OK` (43_command_dispatch.md R248, R249, R256, R258, R263). -/

namespace Sys2Proof.Machine

/-! ## Their own registers -/

/-- `CALL` and the arms leave the registers of the arms as before when they fail. -/
theorem exec_call_registers {s t : State} {id : Byte} {i : Instr}
    (hi : i ∈ [Instr.call, .callNone id, .callF32 id, .callU32 id, .callU8 id, .callVer id, .callId id, .callChunk id,
      .callPct id]) (h : exec i s = .next t) (hk : t.cur.resKind ≠ some .ok) : armRegistersKept s.cur t.cur := by
  obtain rfl | ⟨codec, harm⟩ : i = .call ∨ ∃ codec, exec i s = execArm codec id s := by
    simp only [List.mem_cons, List.not_mem_nil, or_false] at hi
    rcases hi with rfl | rfl | rfl | rfl | rfl | rfl | rfl | rfl | rfl
    · exact .inl rfl
    · exact .inr ⟨.none, rfl⟩
    · exact .inr ⟨.rdF32, rfl⟩
    · exact .inr ⟨.rdU32, rfl⟩
    · exact .inr ⟨.rdU8, rfl⟩
    · exact .inr ⟨.rdVer, rfl⟩
    · exact .inr ⟨.rdId, rfl⟩
    · exact .inr ⟨.rdChunk, rfl⟩
    · exact .inr ⟨.wrPct, rfl⟩
  · exact execCall_registers h hk
  · exact execArm_registers (harm.symm.trans h) hk

/-! ## A reply that is too short, and a chunk that overflows the accumulator -/

theorem fixedRead_short {size : Nat} {store : List Byte → Port → Port} {u : State} {bytes : List Byte} {n : Nat}
    (hsize : bytes.length < 65536) (hshort : bytes.length < size) :
    fixedRead size store (u, accepted bytes n)
      = .ok (u, ⟨.payloadShort, localStatus, BitVec.ofNat 16 bytes.length, BitVec.ofNat 8 n⟩) := by
  have hlen : (BitVec.ofNat 16 bytes.length).toNat = bytes.length := Nat.mod_eq_of_lt hsize
  unfold fixedRead accepted
  dsimp only
  rw [if_neg (not_not.mpr rfl), hlen, if_pos hshort]

section
variable {s : State} {id : Byte} {reply : List Byte} {rest : List RxItem}
  (hopen : s.lockOwner = noPort ∨ s.lockOwner = portByte s.turn) (hwhole : s.writesWhole)
  (hstage : reply.length ≤ s.cfg.stageMax) (hhears : s.hears (replyFrame s.cfg id 0x00#8 reply) rest)
include hopen hwhole hstage hhears

/-- A correct reply shorter than the shape of its kind is received, but not stored (R249). -/
theorem armRead_short {codec : Codec} {size : Nat} {store : List Byte → Port → Port} (hchunk : codec ≠ .rdChunk)
    (hpct : codec ≠ .wrPct) (hbound : (codecRepSize s.cfg.chunkSize codec).toNat = size)
    (hdone : armDone codec s.cfg.endian = fixedRead size store) (hshort : reply.length < size) :
    runArm (armBody codec id) s = .next ((s.answered id [] reply rest).endsExchange .payloadShort 0xFF
      (BitVec.ofNat 16 reply.length) 0 .success) := by
  have hfits : reply.length < 65536 := by
    have := (codecRepSize s.cfg.chunkSize codec).isLt
    omega
  rw [← State.answeredAfter_zero]
  refine runArm_of hopen (r := ⟨.payloadShort, localStatus, BitVec.ofNat 16 reply.length, 0#8⟩)
    ((Steady.refl s).answeredAfter ..) ?_
  rw [armBody_eq hchunk hpct]
  refine bind_eq_ok.mpr ⟨_, requestExchange_good (xs := []) (Nat.zero_le _) hwhole (Nat.zero_le _) rfl hhears
    (hshort.le.trans hbound.ge) hstage, ?_⟩
  rw [show s.held.cfg = s.cfg from rfl, hdone]
  exact fixedRead_short hfits hshort

/-- A first chunk that overflows the accumulator is received, but not accepted. -/
theorem exec_callChunk_firstOverflow (hfits : reply.length ≤ s.cfg.chunkSize.toNat)
    (hover : s.cfg.accMax < reply.length) :
    exec (.callChunk id) s = .next (((clearAcc s).answered id [] reply rest).endsExchange .accOverflow 0xFF
      (BitVec.ofNat 16 reply.length) 0 .success) := by
  have hsize : reply.length < 65536 := by
    have := s.cfg.chunkSize.isLt
    omega
  rw [← State.answeredAfter_zero]
  obtain ⟨u, hu⟩ : ∃ u, clearAcc s = u := ⟨_, rfl⟩
  have hsteady : Steady s (u.answeredAfter 0 id [] reply rest) := hu ▸ ((Steady.refl s).modCur _).answeredAfter ..
  have hread : readCore .rdChunk id (clearAcc s.held)
      = .ok ((u.answeredAfter 0 id [] reply rest).during .success, accepted reply 0) := by
    rw [← hu]
    exact requestExchange_good (s := clearAcc s) (max := s.cfg.chunkSize) (xs := []) (Nat.zero_le _) hwhole
      (Nat.zero_le _) rfl hhears hfits hstage
  have haccN : (u.answeredAfter 0 id [] reply rest).cur.accN = some 0#32 := by
    rw [State.answeredAfter_accN, ← hu, clearAcc, State.cur_modCur]
  have haccept := acceptChunk_eq (u := (u.answeredAfter 0 id [] reply rest).during .success) (k := 0) (n := 0) hsize
    (State.answeredAfter_rx ..) haccN (by decide)
  rw [State.during_cfg, hsteady.cfg, Nat.zero_add, if_pos hover] at haccept
  rw [hu]
  refine runArm_of (arm := armBody .rdChunk id) hopen
    (r := ⟨.accOverflow, localStatus, BitVec.ofNat 16 reply.length, 0#8⟩) hsteady ?_
  exact bind_eq_ok.mpr ⟨_, hread, bind_eq_ok.mpr ⟨_, haccept, rfl⟩⟩

/-- A correct reply longer than the shape of its kind (R249). -/
theorem armRead_long {i : Instr} {codec : Codec} (hchunk : codec ≠ .rdChunk) (hpct : codec ≠ .wrPct)
    (hi : exec i s = runArm (armBody codec id) s) (hsize : reply.length ≤ 65535)
    (hlong : (codecRepSize s.cfg.chunkSize codec).toNat < reply.length) :
    exec i s = .next (s.answeredTooLong id [] reply rest) :=
  (armRead_passesOn hopen hchunk hpct hi).tooLong (.refl s) (Nat.zero_le _) hwhole hstage hsize hlong hhears

end

/-! ## A chunk that overflows the accumulator, in the form of the rounds before it -/

/-- The overflowing chunk is heard, but it is none of the accepted ones. -/
theorem State.gathers_beyond (s : State) (id : Byte) (rounds : List Round) (beyond : Round) :
    s.gathers id (rounds ++ [beyond]) (chunksOf rounds)
      = ((s.accepts id rounds).heard id beyond).sends
          (List.replicate (requestsOf [beyond]) (requestHeader s.cfg (id.setWidth 16) [])).flatten := by
  have hcfg : (s.accepts id rounds).cfg = s.cfg := ((Steady.refl s).gathers id rounds (chunksOf rounds)).cfg
  have hcached : (s.accepts id rounds).caches (requestHeader s.cfg (id.setWidth 16) []) [] = s.accepts id rounds :=
    s.gathers_caches id rounds (chunksOf rounds)
  rw [← State.gathers_exchanged, ← State.accepts_eq_gathers, State.exchanged, hcfg, ← State.caches_sends,
    ← State.heard_caches, hcached, requestFrame_nil]
  rfl

/-- Settles O41: what an arm's exchange leaves when it is not `OK` is what the arm leaves. -/
theorem armFailures : Obligations.ArmFailures := by
  refine ⟨fun s t id i hi => exec_call_registers hi, ?beyond, ?reply, ?cut, ?rounds⟩
  case beyond =>
    intro s id chunks beyond rest hopen hwhole hwf hmore hsizes hroom hover hhears
    obtain ⟨mid, hrounds, hlast⟩ := chunksHeard_append.mp (atOnce_concat chunks beyond ▸ chunksHeard_atOnce hhears)
    have hok := atOnce_concat chunks beyond ▸ roundOk_atOnce hsizes
    rw [List.flatten_concat, List.length_append] at hover
    have hexec := exec_callChunk_overflow (rounds := atOnce chunks) (r := ⟨[], beyond⟩) hopen hwf
      (fun r hr => ⟨hok r (List.mem_append_left _ hr), chunkFinal_atOnce hmore r hr⟩)
      (by rwa [chunksOf_atOnce]) hrounds hwhole (hok _ (by simp)) hlast (by rwa [chunksOf_atOnce])
    rw [← atOnce_concat, chunksOf_atOnce] at hexec
    exact ⟨_, hexec, chunksEnd_read s id chunks chunks beyond .accOverflow 0xFF rest⟩
  case reply =>
    intro s id reply rest hopen hwhole hstage hhears t long chunk
    have short {codec : Codec} {size : Nat} {store : List Byte → Port → Port} (hchunk : codec ≠ .rdChunk)
        (hpct : codec ≠ .wrPct) := armRead_short (size := size) (store := store) hopen hwhole hstage hhears hchunk hpct
    refine ⟨fun h => ⟨?_, ?_⟩, fun h => ?_, fun h => ?_, fun h => ?_, fun hfits hover => ?_,
      fun hsize => ⟨fun h => ⟨?_, ?_⟩, fun h => ?_, fun h => ?_, fun h => ?_, fun h => ?_⟩⟩
    · exact short (codec := .rdF32) nofun nofun rfl rfl h
    · exact short (codec := .rdU32) nofun nofun rfl rfl h
    · exact short (codec := .rdU8) nofun nofun rfl rfl (h ▸ Nat.one_pos)
    · exact short (codec := .rdVer) nofun nofun rfl rfl h
    · exact short (codec := .rdId) nofun nofun rfl rfl h
    · exact exec_callChunk_firstOverflow hopen hwhole hstage hhears hfits hover
    · exact armRead_long (codec := .rdF32) hopen hwhole hstage hhears nofun nofun rfl hsize h
    · exact armRead_long (codec := .rdU32) hopen hwhole hstage hhears nofun nofun rfl hsize h
    · exact armRead_long (codec := .rdU8) hopen hwhole hstage hhears nofun nofun rfl hsize h
    · exact armRead_long (codec := .rdVer) hopen hwhole hstage hhears nofun nofun rfl hsize h
    · exact armRead_long (codec := .rdId) hopen hwhole hstage hhears nofun nofun rfl hsize h
    · exact (callChunk_passesOn hopen).tooLong ((Steady.refl s).modCur _) (Nat.zero_le _) hwhole hstage hsize h hhears
  case cut =>
    rintro s id arg counts script part hopen rfl bytes cut
    have fixed {i : Instr} {codec : Codec} (hchunk : codec ≠ .rdChunk) (hpct : codec ≠ .wrPct)
        (hi : exec i s = runArm (armBody codec id) s) : cut i s [] :=
      fun h => (armRead_passesOn hopen hchunk hpct hi).ownCut (.refl s) h
    refine ⟨fun i hi => ?_, fun h => (callChunk_passesOn hopen).ownCut ((Steady.refl s).modCur _) h,
      fun harg h => (callPct_passesOn hopen harg).ownCut ((Steady.refl s).modCur _) h⟩
    simp only [List.mem_cons, List.not_mem_nil, or_false] at hi
    rcases hi with rfl | rfl | rfl | rfl | rfl | rfl
    · exact fixed (codec := .none) nofun nofun rfl
    · exact fixed (codec := .rdF32) nofun nofun rfl
    · exact fixed (codec := .rdU32) nofun nofun rfl
    · exact fixed (codec := .rdU8) nofun nofun rfl
    · exact fixed (codec := .rdVer) nofun nofun rfl
    · exact fixed (codec := .rdId) nofun nofun rfl
  case rounds =>
    intro s id rounds xs mid rest hopen hwf hok hroom hheard header u
    refine ⟨fun x hwhole hfails => exec_callChunk_fails hopen hwf hok hroom hheard hwhole hfails,
      fun beyond hwhole hbeyond hover hlast => ?_,
      fun whole script k hne hretry hxs hcounts hk hscript =>
        exec_callChunk_cut hopen hwf hok hroom hheard hne hretry hxs hcounts hk hscript⟩
    have hexec := exec_callChunk_overflow hopen hwf hok hroom hheard hwhole hbeyond hlast hover
    rwa [State.gathers_beyond] at hexec

end Sys2Proof.Machine
end

section
/-! Reset (70_reset_and_hazards.md R330, R331): the values it gives, what it leaves alone, and that the machine after
it satisfies the invariant. -/

namespace Sys2Proof.Machine

/-! ## The block after reset -/

@[simp] theorem State.resetWith_port (c : Params) (p : Fin 16) : (State.resetWith c).port p = Port.reset := by
  simp [State.port, State.resetWith]

@[simp] theorem State.restart_port (s : State) (p : Fin 16) : s.restart.port p = Port.reset :=
  State.resetWith_port s.cfg p

/-- Settles O53: every port is `Port.reset`, and each register of it and of the shared state is the value written in
`Port.reset` or `State.resetWith`; an empty store holds no byte. -/
theorem resetValues : Obligations.ResetValues := by
  intro c
  refine ⟨fun p => ?ports, ?shared⟩
  case ports =>
    simp only [State.resetWith_port, Port.reset, BitVec.ofNat_eq_ofNat, Memory.get_nil, and_self, implies_true]
  case shared =>
    simp only [State.resetWith, fsmCode, BitVec.ofNat_eq_ofNat, Memory.get_nil, and_self, implies_true]

/-! ## Reset as an event -/

/-- The reset event takes the block to the restart of the state it finds, in one step. -/
theorem step_reset {s : State} {rest : List Event} (h : s.inputs = .reset :: rest) :
    step s = .next { s.restart with inputs := rest } := by
  have hstep : step s = happen .reset { s with inputs := rest } := by simp only [step, h]
  exact hstep.trans rfl

/-- Settles O54: a restart is the block after reset but for the channel and what is outside the block. -/
theorem resetEvent : Obligations.ResetEvent := fun s _ h =>
  ⟨_, step_reset h, ⟨rfl, rfl, rfl⟩, rfl, rfl, rfl, rfl, rfl, rfl, rfl, rfl, s.restart_port, rfl, rfl, rfl, rfl, rfl,
    rfl⟩

/-! ## The registry after power-on (43_command_dispatch.md R242, R243) -/

/-- What is added to a registry is well formed, and its identifiers are new. -/
theorem freshEntries_mem {chunkSize : Half} {e : Entry} {ids : List Byte} {es : List Entry}
    (h : e ∈ freshEntries chunkSize ids es) : entryOk chunkSize e = true ∧ e.id ∉ ids := by
  induction es generalizing ids with
  | nil => cases h
  | cons d ds ih =>
    rw [freshEntries] at h
    split at h
    next hd =>
      simp only [Bool.and_eq_true, Bool.not_eq_true', List.contains_eq_mem, decide_eq_false_iff_not] at hd
      rcases List.mem_cons.mp h with rfl | h
      · exact hd
      · obtain ⟨hok, hnew⟩ := ih h
        exact ⟨hok, List.not_mem_of_not_mem_cons hnew⟩
    next => exact ih h

theorem uniqueIds_freshEntries (chunkSize : Half) (ids : List Byte) (es : List Entry) :
    uniqueIds (freshEntries chunkSize ids es) = true := by
  induction es generalizing ids with
  | nil => rfl
  | cons d ds ih =>
    rw [freshEntries]
    split
    · have hnew : ∀ e ∈ freshEntries chunkSize (d.id :: ids) ds, e.id ≠ d.id := fun e he =>
        List.ne_of_not_mem_cons (freshEntries_mem he).2
      simpa [uniqueIds, ih] using hnew
    · exact ih ids

/-- The two required entries with any further ones that are well formed and new make a well-formed registry. -/
theorem registryWf_completeRegistry (chunkSize : Half) (more : List Entry) :
    registryWf chunkSize (completeRegistry chunkSize more) = true := by
  have hfresh : ∀ e ∈ freshEntries chunkSize [0x42#8, 0x62#8] more,
      entryOk chunkSize e = true ∧ e.id ≠ versionEntry.id ∧ e.id ≠ shutdownEntry.id := fun e he => by
    obtain ⟨hok, hnew⟩ := freshEntries_mem he
    exact ⟨hok, by simpa [versionEntry, shutdownEntry] using hnew⟩
  have hunique : uniqueIds (completeRegistry chunkSize more) = true := by
    have hdiffer : shutdownEntry.id ≠ versionEntry.id := by decide
    simpa [completeRegistry, uniqueIds, uniqueIds_freshEntries, hdiffer]
      using And.intro (fun e he => (hfresh e he).2.1) fun e he => (hfresh e he).2.2
  have hok : ∀ e ∈ completeRegistry chunkSize more, entryOk chunkSize e = true := by
    intro e he
    rcases List.mem_cons.mp he with rfl | he
    · rfl
    rcases List.mem_cons.mp he with rfl | he
    · rfl
    · exact (hfresh e he).1
  have hrequired : versionEntry ∈ completeRegistry chunkSize more ∧ shutdownEntry ∈ completeRegistry chunkSize more := by
    simp [completeRegistry]
  simpa [registryWf, hunique, hrequired] using hok

/-- The block is built from parameters that configuration accepts, whatever the open values are. -/
theorem initialParams_wf : initialParams.wf = true := by
  have hports : initialParams.nports ≤ 16 := Config.morePorts.isLt
  have hregistry : registryWf initialParams.chunkSize initialParams.registry = true :=
    registryWf_completeRegistry 512#16 Config.moreEntries
  simp only [Params.wf, Bool.and_eq_true, decide_eq_true_eq]
  exact ⟨⟨⟨⟨Nat.succ_pos _, hports⟩, by decide⟩, rfl⟩, hregistry⟩

/-- Settles O56: a block built from well-formed parameters satisfies the invariant, and the initial ones are. -/
theorem resetInvariant : Obligations.ResetInvariant := State.Inv.resetWith initialParams_wf

end Sys2Proof.Machine
end
